-- ==== Sys2Proof/Word.lean ====
section
/-! DEFINITION. The word types of the block: data bytes, CPU addresses and cycle counts (spec 00_scope.md R8, R10).
Flash linear addresses and scheduler ids are unbounded (R8) and are plain `Nat` and `Int`. -/

namespace Sys2Proof

/-- One data byte: every access of the block is one byte wide (R75). -/
abbrev Byte := BitVec 8

/-- A 16-bit CPU address (R72). -/
abbrev CpuAddr := BitVec 16

/-- A 64-bit cycle count; its arithmetic is modulo `2^64` (R8). -/
abbrev Cycles := BitVec 64

end Sys2Proof
end

