-- ==== Sys2Proof/Config.lean ====
section
/-! DEFINITION. What an implementation of the block fixes (the parameters of 00_scope.md R7) and the free values.
A parameter is plain data held in `State.cfg`, so that a claim about every state is a claim about every value of it
(assumption 4). A draw (R12) is an uninterpreted constant applied to the draw counter (assumption 9). -/

namespace Sys2Proof

/-- Chip types. The catalogue is a parameter (R3, R195): the named types are the informative rows of R196, and `other n`
is any type the spec does not name. PRESUMED: assumption 5. -/
inductive ChipType where
  | am29f010 | am29f040b | am29f016d | am29f032b | m29f010b
  | sst39sf010a | sst39sf020a | sst39sf040
  | at29c010a | at29c040
  | s29gl128p | s29gl256p | s29gl512p | s29gl01gp
  | other (n : Nat)
deriving DecidableEq, Repr, Inhabited

/-- The unlock windows of R101. -/
inductive UnlockWindow where
  | w11 | w12i | w15
deriving DecidableEq, Repr, Inhabited

/-- The two forms of autoselect ID table: R193 (standard) and R194 (interleaved, Spansion GL). -/
inductive IdTable where
  | standard (mfrId devId : Byte)
  | spansion (id2 id3 : Byte)
deriving DecidableEq, Repr, Inhabited

/-- The sector map of a chip: uniform sectors of `2 ^ sizeBits` bytes, or the sizes of the sectors from address 0 on (boot
sectors, R156). Every map partitions the chip into sectors aligned to their size, and every such partition is the table of
its sizes (R195; assumption 31). -/
inductive SectorMap where
  | uniform (sizeBits : Nat)
  | table (sizes : List Nat)
deriving DecidableEq, Repr, Inhabited

/-- How a chip programs: single bytes only, the write buffer too (`writeBuffer`), or Atmel pages (`atmelSDP`). The last two
exclude each other (R195). -/
inductive ProgramKind where
  | byte | buffer | atmelPage
deriving DecidableEq, Repr, Inhabited

/-- The chip profile record of R195, in a form that every constraint of R195 holds of: the capacity is `2 ^ capBits`, the
sector map partitions it, and the flags are read from `program` and `sectorCommand` (assumption 31). -/
structure Profile where
  capBits : Nat
  ids : IdTable
  unlockWindow : UnlockWindow
  sectors : SectorMap
  sectorEraseTimeoutCycles : Cycles
  program : ProgramKind
  sectorCommand : Bool
deriving DecidableEq, Repr, Inhabited

/-- The cartridge subtypes of 45_bank_mapper.md: R340, R350, R360, R361. -/
inductive MapperType where
  | megaCart512 | megaCart4M | theCart | sic | maxFlash1 | maxFlash8
deriving DecidableEq, Repr, Inhabited

/-- The host wall-clock time of R300: `wday` counts from Sunday = 0. -/
structure HostTime where
  year : Nat
  month : Nat
  day : Nat
  wday : Nat
  hour : Nat
  min : Nat
  sec : Nat
deriving DecidableEq, Repr, Inhabited

/-- A range of offsets in the control page, both ends included. -/
structure CtlRange where
  first : Byte
  last : Byte
deriving DecidableEq, Repr, Inhabited

/-- A run of bits of a control byte that holds a run of bits of a bank register: `width` bits, from bit `bit` of the control
byte and bit `pos` of the register. -/
structure BitSlice where
  bit : Nat
  width : Nat
  pos : Nat
deriving DecidableEq, Repr, Inhabited

/-- One control register of a MegaCart: where it is, the bits of the bank it holds, and what a read gives: nothing (0xFF), or
the bits over `pad`. -/
structure MegaRegister where
  range : CtlRange
  slices : List BitSlice
  readable : Bool
  pad : Byte
deriving DecidableEq, Repr, Inhabited

/-- A flag in a register byte: the bit that holds it, and the level that means true. -/
structure FlagBit where
  bit : Nat
  level : Bool
deriving DecidableEq, Repr, Inhabited

/-- `P_SicRegs` (R56, R360, D45): where the register is, whether a read returns it, and the places of the bank, the two window
enables and the flash write enable in it (assumption 32). -/
structure SicMap where
  range : CtlRange
  readable : Bool
  bankBit : Nat
  bankWidth : Nat
  enable809f : FlagBit
  enableA0bf : FlagBit
  flashWrite : FlagBit
deriving DecidableEq, Repr, Inhabited

/-- `P_MaxFlashRegs` (R56, R361, D45) of one variant: the offsets that select banks, in order from bank 0, those that disable
the window, and whether a read acts as a write does (assumption 32). -/
structure MaxMap where
  select : CtlRange
  disable : CtlRange
  readsAct : Bool
deriving DecidableEq, Repr, Inhabited

/-- The fields of TheCart's register file (R55). -/
inductive TcField where
  | bank0 | bank1 | en0 | en1 | mode | ramRead | ramWrite | flashWrite | lock
deriving DecidableEq, Repr, Inhabited

/-- A run of bits of a control byte that holds a run of bits of a register field: `width` bits, from bit `bit` of the
control byte and bit `pos` of the field. Part of `P_TheCartRegs` (R55, D50; assumption 18). -/
structure TcSlice where
  field : TcField
  bit : Nat
  width : Nat
  pos : Nat
deriving DecidableEq, Repr, Inhabited

/-- One native register of TheCart at page offset `off`: the slices it carries, whether the lock protects it (R353), and
the value a read gives in the bits no slice drives. -/
structure TcRegister where
  off : Byte
  lockable : Bool
  slices : List TcSlice
  pad : Byte
deriving DecidableEq, Repr, Inhabited

/-- TheCart's serial register (R352): the bits of a write that carry chip enable, clock and data, and the bit of a read
that carries `ReadState`. -/
structure TcSerial where
  off : Byte
  lockable : Bool
  ceBit : Nat
  clkBit : Nat
  dataBit : Nat
  outBit : Nat
  pad : Byte
deriving DecidableEq, Repr, Inhabited

/-- TheCart's register file (R55). -/
structure TcRegs where
  bank0 : BitVec 16
  bank1 : BitVec 16
  en0 : Bool
  en1 : Bool
  mode : Byte
  ramRead : Bool
  ramWrite : Bool
  flashWrite : Bool
  lock : Byte
deriving DecidableEq, Repr, Inhabited

/-- What one bank-switching table entry does to one native bank register: select a bank with an enable bit, or name no
bank (an invalid configuration, R337). -/
inductive TcBankSel where
  | bank (b : BitVec 16) (en : Bool)
  | noBank
deriving DecidableEq, Repr, Inhabited

/-- One entry of the bank-switching table (R351). -/
inductive TcEntry where
  | noChange
  | set (sel0 sel1 : TcBankSel)
deriving DecidableEq, Repr, Inhabited

/-- A legacy scheme (R351, R353): whether the table is indexed by the write address or by the write value, and its
256 entries. -/
structure TcScheme where
  byAddress : Bool
  entries : List TcEntry
deriving DecidableEq, Repr, Inhabited

/-- The parameters of TheCart: `P_TheCartRegs`, `P_TheCartScheme`, `P_TheCartBankSize` (R350 to R353), with the RAM size
and the chip; sizes are powers of two (R336), and the image has the chip's size (assumption 21). -/
structure TcParams where
  registers : List TcRegister
  serial : Option TcSerial
  defaults : TcRegs
  schemes : List (Byte × TcScheme)
  bankBits : Nat
  ramBits : Nat
  chip : ChipType
deriving DecidableEq, Repr, Inhabited

/-- The implementation parameters of R7 that no operation changes. `eraseStatusBits` holds the bits of `P_EraseStatusBase`; its
bits 6 and 2 are not read (`Params.eraseStatusBase`). `megaCart` is `P_MegaCartRegs` (R54, R342). -/
structure Params where
  programStatusReads : Nat
  eraseStatusBits : Byte
  ctlPage : Byte
  catalogue : List (ChipType × Profile)
  megaCart4MChip : ChipType
  sicChip : ChipType
  maxFlash1Chip : ChipType
  maxFlash8Chip : ChipType
  megaCart : List MegaRegister
  sic : SicMap
  maxFlash1 : MaxMap
  maxFlash8 : MaxMap
  theCart : TcParams
deriving DecidableEq, Repr, Inhabited

/-- `sectorEraseTimeoutCycles` of a chip type: OPEN, no source gives a number (D27). DESIGN CHOICE: assumption 4. -/
opaque Config.sectorEraseTimeoutCycles : ChipType → Cycles

/-- The profile of a chip type the catalogue does not list: a parameter (R195, I15). -/
opaque Config.profile : ChipType → Profile

/-- `P_TheCartRegs`, `P_TheCartScheme`, the RAM size and the chip of TheCart: OPEN (D50). Its bank size is not read: the
default of R350 stands in its place (`defaultParams`). -/
opaque Config.theCart : TcParams

/-- `P_AtmelUnloaded(a, old)` at a draw: any byte (R188, I9). -/
opaque Config.atmelUnloaded : Nat → Nat → Byte → Byte

/-- `P_AutoselectUndef(a)` at a draw: any byte (R193, R194, I10). -/
opaque Config.autoselectUndef : Nat → Nat → Byte

/-- The byte a MaxFlash register read returns, at a draw: R361 states the selection, not the byte (assumption 20). -/
opaque Config.maxFlashReadByte : Nat → CpuAddr → Byte

end Sys2Proof
end

