-- ==== Sys2Proof/Syntax.lean ====
section
/-! DEFINITION. The host's calls into the block and the instructions: one constructor of `Instr` per row of
spec/opcode_table.json (00_scope.md R2, 30_encoding.md R117). -/

namespace Sys2Proof

/-- The two devices on a bit-serial link (R40). -/
inductive Dev where
  | eeprom | rtc
deriving DecidableEq, Repr

/-- Which FlashChip a direct chip cycle addresses: chip `k` of the mapper (R52), or the `k`-th chip the host initialised
itself (R162). -/
inductive ChipRef where
  | mapper (k : Nat)
  | host (k : Nat)
deriving DecidableEq, Repr

/-- A byte array the host supplies: its identity (R162 binds a buffer by reference), its length, and its bytes as the
list of those that are not 0xFF. A byte listed at or above `size` is no byte of the array (assumption 15). -/
structure Buffer where
  id : Nat
  size : Nat
  cells : List Host.Cell
deriving DecidableEq, Repr

/-- The interface calls: host calls with no encoding (R115, R117). `allocOk` is the host's report whether the allocation
succeeded (R162, R374; assumption 14). A handler is host code and is held by its name (R35, R214). -/
inductive HostCall where
  | flashInit (allocOk : Bool) (buffer : Buffer) (type : ChipType)
  | flashColdReset (chip : ChipRef)
  | readState (dev : Dev)
  | eeLoad (mem : List Byte) (bp : BitVec 2)
  | eeSave
  | eeColdReset
  | rtcLoad (ram ee id : List Byte) (bp : BitVec 2)
  | rtcSave
  | rtcColdReset
  | schedAdd (id : Int) (delta : Cycles) (handler : Nat)
  | schedDelete (id : Int)
  | schedCheck
  | mapColdReset
  | mapInit (allocOk : Bool) (type : MapperType) (image : Buffer) (sizeKB : Nat)
deriving DecidableEq, Repr

/-- One call into the block (R6, R77). A cycle with `some v` is a write of `v`, with `none` a read. -/
inductive Call where
  /-- `Read(f, a)` or `Write(f, a, v)` at a chip directly (R100, R118 `FR`, `FW`). -/
  | chip (chip : ChipRef) (a : Nat) (v : Option Byte)
  /-- A CPU access at `x`: a window or control-register cycle (R72, R118 `R`, `W`). -/
  | cpu (x : CpuAddr) (v : Option Byte)
  /-- `WriteState(chipEnable, clock, dataBit)` (R240). -/
  | wire (dev : Dev) (ce clk data : Bool)
  /-- An interface call. -/
  | host (h : HostCall)
deriving DecidableEq, Repr

/-- A call a scheduler handler makes, with the host's wall clock at it: HostClock is drawn per READ (R214, R300, R408). -/
structure HandlerCall where
  clock : HostTime
  call : Call
deriving DecidableEq, Repr

/-- The instructions: one constructor per row of the opcode table, in the table's order. A flash cycle carries its chip,
its linear address (already reduced mod `cap`, R71) and, where its row leaves it open, its data byte. A serial opcode is
the WriteState call that completes that opcode byte (assumption 13). -/
inductive Instr where
  | flashReadNormal (chip : ChipRef) (a : Nat)
  | flashReadAutoselect (chip : ChipRef) (a : Nat)
  | flashReadWriteStatus (chip : ChipRef) (a : Nat)
  | flashReadEraseStatus (chip : ChipRef) (a : Nat)
  | flashAtmelClose (chip : ChipRef) (a : Nat)
  | flashReset1 (chip : ChipRef) (a : Nat)
  | flashUnlock1 (chip : ChipRef) (a : Nat)
  | flashUnlock2 (chip : ChipRef) (a : Nat)
  | flashAutoselect (chip : ChipRef) (a : Nat)
  | flashProgramSetup (chip : ChipRef) (a : Nat)
  | flashAtmelSetup (chip : ChipRef) (a : Nat)
  | flashEraseSetup (chip : ChipRef) (a : Nat)
  | flashReset3 (chip : ChipRef) (a : Nat)
  | flashWbLoad (chip : ChipRef) (a : Nat)
  | flashProgramData (chip : ChipRef) (a : Nat) (v : Byte)
  | flashEraseUnlock1 (chip : ChipRef) (a : Nat)
  | flashEraseUnlock2 (chip : ChipRef) (a : Nat)
  | flashChipErase (chip : ChipRef) (a : Nat)
  | flashSectorErase (chip : ChipRef) (a : Nat)
  | flashWbCount (chip : ChipRef) (a : Nat) (v : Byte)
  | flashWbData (chip : ChipRef) (a : Nat) (v : Byte)
  | flashWbConfirm (chip : ChipRef) (a : Nat) (v : Byte)
  | flashAtmelData (chip : ChipRef) (a : Nat) (v : Byte)
  | flashAbort (chip : ChipRef) (a : Nat) (v : Byte)
  | flashSectorEraseMore (chip : ChipRef) (a : Nat)
  | flashEraseStatusExit (chip : ChipRef) (a : Nat) (v : Byte)
  | flashInit (allocOk : Bool) (buffer : Buffer) (type : ChipType)
  | flashColdReset (chip : ChipRef)
  | serialWriteState (dev : Dev) (ce clk data : Bool)
  | serialReadState (dev : Dev)
  | eeWren
  | eeWrdi
  | eeRdsr
  | eeWrsr
  | eeRead
  | eeWrite
  | eeUnknown (op : Byte)
  | eeLoad (mem : List Byte) (bp : BitVec 2)
  | eeSave
  | eeColdReset
  | rtcEeRead
  | rtcEeWrite
  | rtcEeWrdi
  | rtcEeWren
  | rtcSrRead
  | rtcSrWrite
  | rtcRead
  | rtcWrite
  | rtcUnlock
  | rtcIdWrite
  | rtcIdRead
  | rtcClrRam
  | rtcUnknown (op : Byte)
  | rtcLoad (ram ee id : List Byte) (bp : BitVec 2)
  | rtcSave
  | rtcColdReset
  | schedAdd (id : Int) (delta : Cycles) (handler : Nat)
  | schedDelete (id : Int)
  | schedCheck (handlerCalls : List HandlerCall)
  | mapWinRead (x : CpuAddr)
  | mapWinWrite (x : CpuAddr) (v : Byte)
  | mapCtlRead (x : CpuAddr)
  | mapCtlWrite (x : CpuAddr) (v : Byte)
  | mapColdReset
  | mapInit (allocOk : Bool) (type : MapperType) (image : Buffer) (sizeKB : Nat)
deriving DecidableEq, Repr

end Sys2Proof
end

