-- ==== Sys2Proof/Machine/Operands.lean ====
section
/-! DEFINITION. Operand forms: the unlock address tests, the sector, page and bank arithmetic, the autoselect ID tables,
the CPU address windows, the packed key of the opcode table and the BCD encoding. Pure functions of the operands and the
profile; the machine's state is not read here. -/

namespace Sys2Proof

/-- `cap` of R195: a power of two. -/
def Profile.cap (p : Profile) : Nat := 2 ^ p.capBits

/-- `atmelSDP` of R195. -/
def Profile.atmelSDP (p : Profile) : Bool := decide (p.program = .atmelPage)

/-- `writeBuffer` of R195. -/
def Profile.writeBuffer (p : Profile) : Bool := decide (p.program = .buffer)

/-- `sectorErase` of R195: never on an Atmel profile (R189, D19). -/
def Profile.sectorErase (p : Profile) : Bool := p.sectorCommand && !p.atmelSDP

/-- `P_TheCartBankSize` (R350). -/
def TcParams.bankSize (p : TcParams) : Nat := 2 ^ p.bankBits

/-- The size of TheCart's RAM region (R350). -/
def TcParams.ramSize (p : TcParams) : Nat := 2 ^ p.ramBits

/-- `P_EraseStatusBase` (R7, R134): bits 6 and 2 are clear, whatever the parameter's data hold there. -/
def Params.eraseStatusBase (p : Params) : Byte := p.eraseStatusBits &&& 0xBB#8

end Sys2Proof

namespace Sys2Proof.Machine

/-- The low address bits an unlock cycle compares (R101). -/
def unlockMask : UnlockWindow → Nat
  | .w11 => 0x7FF
  | .w12i => 0xFFF
  | .w15 => 0x7FFF

/-- The first unlock address of a window (R101). -/
def unlock1Value : UnlockWindow → Nat
  | .w11 => 0x555
  | .w12i => 0xAAA
  | .w15 => 0x5555

/-- The second unlock address of a window (R101). -/
def unlock2Value : UnlockWindow → Nat
  | .w11 => 0x2AA
  | .w12i => 0x555
  | .w15 => 0x2AAA

/-- The test `U1` of R102. -/
def isU1 (w : UnlockWindow) (a : Nat) : Bool := a &&& unlockMask w == unlock1Value w

/-- The test `U2` of R102. -/
def isU2 (w : UnlockWindow) (a : Nat) : Bool := a &&& unlockMask w == unlock2Value w

/-- The base of the aligned page of `size` bytes that holds `a` (R76): `a & ~(size - 1)` for a power of two. -/
def pageBase (size a : Nat) : Nat := a / size * size

/-- The write-buffer page size (R7). -/
def wbPageSize : Nat := 32

/-- The Atmel page size (R7). -/
def atmelPageSize : Nat := 256

/-- A sector of `size` bytes may begin at `base` in a chip of `cap` bytes (R156, R195): it is aligned to its size and lies in
the chip. -/
def sectorFits (cap base size : Nat) : Bool :=
  decide (0 < size) && decide (base % size = 0) && decide (base + size ≤ cap)

/-- The sector that holds `a`, of the sectors with the given sizes laid out from `base` on: its base and its size. A size
that may not stand where it comes is no sector, and the bytes behind the table are sectors of one byte (assumption 31). -/
def sectorAt (cap : Nat) : List Nat → Nat → Nat → Nat × Nat
  | [], _, a => (a, 1)
  | size :: sizes, base, a =>
    if sectorFits cap base size then
      if a < base + size then (base, size) else sectorAt cap sizes (base + size) a
    else sectorAt cap sizes base a

/-- `sectorOf(a)` of a profile (R156, R195), for an address below the capacity: its base and its size. -/
def sectorOf (p : Profile) (a : Nat) : Nat × Nat :=
  match p.sectors with
  | .uniform sizeBits => (pageBase (2 ^ min sizeBits p.capBits) a, 2 ^ min sizeBits p.capBits)
  | .table sizes => sectorAt p.cap sizes 0 a

/-- The ID word of the interleaved table at word index `i` (R194); `none` where the table defines no word. -/
def spansionWord (id2 id3 : Byte) (i : Nat) : Option (BitVec 16) :=
  if i = 0x00 then some 0x0001#16
  else if i = 0x01 then some 0x227E#16
  else if i = 0x02 then some 0x0000#16
  else if i = 0x0E then some (0x22#8 ++ id2)
  else if i = 0x0F then some (0x22#8 ++ id3)
  else none

/-- The defined byte of an autoselect ID table at address `a`: R193 decodes `a[1:0]`, R194 decodes `a[4:0]` with the low
byte of a word at the even address (R75, R107). `none` where the byte is a draw. -/
def idByte : IdTable → Nat → Option Byte
  | .standard mfrId devId, a =>
    if a % 4 = 0 then some mfrId
    else if a % 4 = 1 then some devId
    else if a % 4 = 2 then some 0x00#8
    else none
  | .spansion id2 id3, a =>
    (spansionWord id2 id3 (a / 2 % 16)).map fun w =>
      if a % 2 = 0 then w.extractLsb' 0 8 else w.extractLsb' 8 8

/-- A bank index reduced to the banks there are: `bank & (bankCount - 1)` (R336). -/
def maskBank (bank bankCount : Nat) : Nat := bank &&& (bankCount - 1)

/-- The two CPU windows (R53). -/
inductive Win where
  | w809f | wa0bf
deriving DecidableEq, Repr

/-- The first CPU address of a window (R73). -/
def Win.start : Win → Nat
  | .w809f => 0x8000
  | .wa0bf => 0xA000

/-- The window that holds a CPU address: bits 15:14 are `10` and bit 13 selects it (row MAP_WIN_READ). -/
def windowOf (x : CpuAddr) : Option Win :=
  if 0x8000 ≤ x.toNat ∧ x.toNat < 0xA000 then some .w809f
  else if 0xA000 ≤ x.toNat ∧ x.toNat < 0xC000 then some .wa0bf
  else none

/-- The page offset of a control-register address (R116). -/
def ctlOffset (x : CpuAddr) : Byte := x.extractLsb' 0 8

/-- `x` is in the control page `P_CtlPage`, the 256 addresses whose high byte is `page` (R72). A window wins over a page
laid over it (assumption 27). -/
def inCtlPage (page : Byte) (x : CpuAddr) : Bool := (windowOf x).isNone && x.extractLsb' 8 8 == page

/-- The key of a flash cycle in the opcode table (R117): `readMode << 14 | isWrite << 12 | phase << 8 | v`. -/
def flashKey (mode : Nat) (isWrite : Bool) (phase : Nat) (v : Byte) : BitVec 16 :=
  BitVec.ofNat 16 (mode * 0x4000 + (if isWrite then 0x1000 else 0) + phase * 0x100 + v.toNat)

/-- Packed BCD (R300): tens in bits 7:4. -/
def bcd (n : Nat) : Byte := BitVec.ofNat 8 (n / 10 * 16 + n % 10)

/-- The leap-year flag of R300: the two-digit year is a multiple of 4. -/
def leapFlag (year : Nat) : Byte := if year % 100 % 4 = 0 then 1#8 else 0#8

/-- The address after `a` inside its aligned page of `size` bytes (R252, R295). -/
def pageAdvance (size : Nat) (a : Byte) : Byte :=
  BitVec.ofNat 8 (pageBase size a.toNat + (a.toNat + 1) % size)

/-- `width` bits of `v` from bit `lo`. -/
def bitField (v : BitVec 16) (lo width : Nat) : BitVec 16 :=
  (v >>> lo) &&& BitVec.ofNat 16 (2 ^ width - 1)

/-- `old` with `width` bits from bit `lo` replaced by the low bits of `v`. -/
def setBitField (old v : BitVec 16) (lo width : Nat) : BitVec 16 :=
  let mask := BitVec.ofNat 16 (2 ^ width - 1) <<< lo
  (old &&& ~~~mask) ||| ((v <<< lo) &&& mask)

end Sys2Proof.Machine
end

