-- ==== Sys2Proof/WellFormed.lean ====
section
/-! DEFINITION. What a decoded instruction satisfies, given what the decoder is told of the chip and of the mapper: the
address and profile conditions of 30_encoding.md R103 and the `source_fields` of spec/opcode_table.json. -/

namespace Sys2Proof

/-- What the decoder is told besides the key: the addressed chip's profile flags and erase window (R103, R117), and the
control page (R72). -/
structure DecodeCtx where
  window : UnlockWindow
  atmelSDP : Bool
  writeBuffer : Bool
  sectorErase : Bool
  multiEraseOpen : Bool
  ctlPage : Byte
deriving DecidableEq, Repr

/-- The opcodes of the EEPROM's map (R111). -/
def eeOpcodes : List Byte := [0x01#8, 0x02#8, 0x03#8, 0x04#8, 0x05#8, 0x06#8]

/-- The opcodes of the RTC's map (R112). -/
def rtcOpcodes : List Byte :=
  [0x01#8, 0x02#8, 0x03#8, 0x04#8, 0x05#8, 0x06#8, 0x12#8, 0x13#8, 0x14#8, 0x32#8, 0x33#8, 0x54#8]

/-- The instruction satisfies its row's address, profile and opcode conditions. -/
def wellFormed (x : DecodeCtx) : Instr → Bool
  | .flashReadNormal _ _ | .flashReadAutoselect _ _ | .flashReadWriteStatus _ _ | .flashReadEraseStatus _ _ => true
  | .flashAtmelClose _ _ => x.atmelSDP
  | .flashReset1 _ _ | .flashReset3 _ _ | .flashProgramData _ _ _ | .flashAbort _ _ _ => true
  | .flashUnlock1 _ a | .flashAutoselect _ a | .flashEraseSetup _ a | .flashEraseUnlock1 _ a | .flashChipErase _ a =>
    Machine.isU1 x.window a
  | .flashUnlock2 _ a | .flashEraseUnlock2 _ a => Machine.isU2 x.window a
  | .flashProgramSetup _ a => Machine.isU1 x.window a && !x.atmelSDP
  | .flashAtmelSetup _ a => Machine.isU1 x.window a && x.atmelSDP
  | .flashWbLoad _ _ | .flashWbCount _ _ _ | .flashWbData _ _ _ | .flashWbConfirm _ _ _ => x.writeBuffer
  | .flashAtmelData _ _ _ => x.atmelSDP
  | .flashSectorErase _ _ => x.sectorErase
  | .flashSectorEraseMore _ _ => x.sectorErase && x.multiEraseOpen
  | .flashEraseStatusExit _ _ v => !(v == 0x30#8 && x.multiEraseOpen && x.sectorErase)
  | .flashInit _ _ _ | .flashColdReset _ => true
  | .serialWriteState _ _ _ _ | .serialReadState _ => true
  | .eeWren | .eeWrdi | .eeRdsr | .eeWrsr | .eeRead | .eeWrite => true
  | .eeUnknown op => !eeOpcodes.contains op
  | .eeLoad _ _ | .eeSave | .eeColdReset => true
  | .rtcEeRead | .rtcEeWrite | .rtcEeWrdi | .rtcEeWren | .rtcSrRead | .rtcSrWrite => true
  | .rtcRead | .rtcWrite | .rtcUnlock | .rtcIdWrite | .rtcIdRead | .rtcClrRam => true
  | .rtcUnknown op => !rtcOpcodes.contains op
  | .rtcLoad _ _ _ _ | .rtcSave | .rtcColdReset => true
  | .schedAdd _ _ _ | .schedDelete _ | .schedCheck _ => true
  | .mapWinRead a | .mapWinWrite a _ => (Machine.windowOf a).isSome
  | .mapCtlRead a | .mapCtlWrite a _ => Machine.inCtlPage x.ctlPage a
  | .mapColdReset | .mapInit _ _ _ _ => true

end Sys2Proof
end

