-- ==== Sys2Proof/Decode.lean ====
section
/-! DEFINITION. The decoder and the encoder (30_encoding.md R100 to R117). What the machine fetches is one host call; a
flash cycle reaches the decoder as the key of R117 with its address, a serial opcode as its byte, a CPU access as its
address, an interface call as itself. The decoder is total and rejects by name. -/

namespace Sys2Proof

/-- What the fetch hands to the decoder. -/
inductive Fetched where
  /-- A flash cycle: its key (R117) and its linear address (R100). -/
  | flashCycle (chip : ChipRef) (key : BitVec 16) (a : Nat)
  /-- The WriteState call that completes the first byte `op` of a transaction (R110). -/
  | serialOpcode (dev : Dev) (op : Byte)
  /-- Any other WriteState call (R240). -/
  | wire (dev : Dev) (ce clk data : Bool)
  /-- A CPU access (R72). -/
  | cpuCycle (x : CpuAddr) (v : Option Byte)
  /-- An interface call, with the calls a scheduler handler makes if this call runs one (R214). -/
  | interface (h : HostCall) (handlerCalls : List HandlerCall)
deriving DecidableEq, Repr

/-- Why the decoder rejects. -/
inductive Reject where
  /-- Bit 13 of a flash key is in no field of R117. -/
  | reservedKeyBit (key : BitVec 16)
  /-- The phase field is above 10: R23 has eleven phases. -/
  | noSuchPhase (phase : Nat)
  /-- The CPU address is in no window and not in the control page: the memory layer answers it (R72). -/
  | notServed (x : CpuAddr)
deriving DecidableEq, Repr

/-- The flash read rows. FLASH_ATMEL_CLOSE has priority over the row of the read mode (R130). -/
def decodeFlashRead (x : DecodeCtx) (chip : ChipRef) (mode phase a : Nat) : Instr :=
  if phase = 10 ∧ x.atmelSDP then .flashAtmelClose chip a
  else if mode = 0 then .flashReadNormal chip a
  else if mode = 1 then .flashReadAutoselect chip a
  else if mode = 2 then .flashReadWriteStatus chip a
  else .flashReadEraseStatus chip a

/-- The third cycle of a command (R103, phase 2). -/
def decodeFlashCommand (x : DecodeCtx) (chip : ChipRef) (v : Byte) (a : Nat) : Instr :=
  if v = 0x90#8 ∧ Machine.isU1 x.window a then .flashAutoselect chip a
  else if v = 0xA0#8 ∧ Machine.isU1 x.window a then
    if x.atmelSDP then .flashAtmelSetup chip a else .flashProgramSetup chip a
  else if v = 0x80#8 ∧ Machine.isU1 x.window a then .flashEraseSetup chip a
  else if v = 0xF0#8 then .flashReset3 chip a
  else if v = 0x25#8 ∧ x.writeBuffer then .flashWbLoad chip a
  else .flashAbort chip a v

/-- The flash write rows (R103): SectorEraseStatus first, then the phase, FLASH_ABORT last (R106). -/
def decodeFlashWrite (x : DecodeCtx) (chip : ChipRef) (mode phase : Nat) (v : Byte) (a : Nat) : Instr :=
  if mode = 3 then
    if v = 0x30#8 ∧ x.multiEraseOpen ∧ x.sectorErase then .flashSectorEraseMore chip a
    else .flashEraseStatusExit chip a v
  else match phase with
    | 0 =>
      if v = 0xF0#8 then .flashReset1 chip a
      else if v = 0xAA#8 ∧ Machine.isU1 x.window a then .flashUnlock1 chip a
      else .flashAbort chip a v
    | 1 =>
      if v = 0x55#8 ∧ Machine.isU2 x.window a then .flashUnlock2 chip a
      else .flashAbort chip a v
    | 2 => decodeFlashCommand x chip v a
    | 3 => .flashProgramData chip a v
    | 4 =>
      if v = 0xAA#8 ∧ Machine.isU1 x.window a then .flashEraseUnlock1 chip a
      else .flashAbort chip a v
    | 5 =>
      if v = 0x55#8 ∧ Machine.isU2 x.window a then .flashEraseUnlock2 chip a
      else .flashAbort chip a v
    | 6 =>
      if v = 0x10#8 ∧ Machine.isU1 x.window a then .flashChipErase chip a
      else if v = 0x30#8 ∧ x.sectorErase then .flashSectorErase chip a
      else .flashAbort chip a v
    | 7 => if x.writeBuffer then .flashWbCount chip a v else .flashAbort chip a v
    | 8 => if x.writeBuffer then .flashWbData chip a v else .flashAbort chip a v
    | 9 => if x.writeBuffer then .flashWbConfirm chip a v else .flashAbort chip a v
    | 10 => if x.atmelSDP then .flashAtmelData chip a v else .flashAbort chip a v
    | _ => .flashAbort chip a v

/-- A flash cycle by its key (R117). -/
def decodeFlash (x : DecodeCtx) (chip : ChipRef) (key : BitVec 16) (a : Nat) : Except Reject Instr :=
  let n := key.toNat
  let mode := n / 0x4000
  let phase := n / 0x100 % 16
  let v := BitVec.ofNat 8 n
  if n / 0x2000 % 2 = 1 then .error (.reservedKeyBit key)
  else if 10 < phase then .error (.noSuchPhase phase)
  else if n / 0x1000 % 2 = 1 then .ok (decodeFlashWrite x chip mode phase v a)
  else .ok (decodeFlashRead x chip mode phase a)

/-- The first byte of an EEPROM transaction (R111, R113). -/
def decodeEeOpcode (op : Byte) : Instr :=
  if op = 0x06#8 then .eeWren
  else if op = 0x04#8 then .eeWrdi
  else if op = 0x05#8 then .eeRdsr
  else if op = 0x01#8 then .eeWrsr
  else if op = 0x03#8 then .eeRead
  else if op = 0x02#8 then .eeWrite
  else .eeUnknown op

/-- The first byte of an RTC transaction (R112, R113). -/
def decodeRtcOpcode (op : Byte) : Instr :=
  if op = 0x03#8 then .rtcEeRead
  else if op = 0x02#8 then .rtcEeWrite
  else if op = 0x04#8 then .rtcEeWrdi
  else if op = 0x06#8 then .rtcEeWren
  else if op = 0x05#8 then .rtcSrRead
  else if op = 0x01#8 then .rtcSrWrite
  else if op = 0x13#8 then .rtcRead
  else if op = 0x12#8 then .rtcWrite
  else if op = 0x14#8 then .rtcUnlock
  else if op = 0x32#8 then .rtcIdWrite
  else if op = 0x33#8 then .rtcIdRead
  else if op = 0x54#8 then .rtcClrRam
  else .rtcUnknown op

/-- A CPU access (R72, R331, R334, R339, R341). -/
def decodeCpu (x : DecodeCtx) (a : CpuAddr) : Option Byte → Except Reject Instr
  | none =>
    if (Machine.windowOf a).isSome then .ok (.mapWinRead a)
    else if Machine.inCtlPage x.ctlPage a then .ok (.mapCtlRead a)
    else .error (.notServed a)
  | some v =>
    if (Machine.windowOf a).isSome then .ok (.mapWinWrite a v)
    else if Machine.inCtlPage x.ctlPage a then .ok (.mapCtlWrite a v)
    else .error (.notServed a)

/-- An interface call is its own instruction (R115, R117). -/
def decodeInterface (handlerCalls : List HandlerCall) : HostCall → Instr
  | .flashInit allocOk buffer type => .flashInit allocOk buffer type
  | .flashColdReset chip => .flashColdReset chip
  | .readState dev => .serialReadState dev
  | .eeLoad mem bp => .eeLoad mem bp
  | .eeSave => .eeSave
  | .eeColdReset => .eeColdReset
  | .rtcLoad ram ee id bp => .rtcLoad ram ee id bp
  | .rtcSave => .rtcSave
  | .rtcColdReset => .rtcColdReset
  | .schedAdd id delta handler => .schedAdd id delta handler
  | .schedDelete id => .schedDelete id
  | .schedCheck => .schedCheck handlerCalls
  | .mapColdReset => .mapColdReset
  | .mapInit allocOk type image sizeKB => .mapInit allocOk type image sizeKB

/-- The decoder. -/
def decode (x : DecodeCtx) : Fetched → Except Reject Instr
  | .flashCycle chip key a => decodeFlash x chip key a
  | .serialOpcode .eeprom op => .ok (decodeEeOpcode op)
  | .serialOpcode .rtc op => .ok (decodeRtcOpcode op)
  | .wire dev ce clk data => .ok (.serialWriteState dev ce clk data)
  | .cpuCycle a v => decodeCpu x a v
  | .interface h handlerCalls => .ok (decodeInterface handlerCalls h)

/-- The write cycle of a row at its phase, outside SectorEraseStatus (R103). -/
def encodeWrite (chip : ChipRef) (phase : Nat) (v : Byte) (a : Nat) : Fetched :=
  .flashCycle chip (Machine.flashKey 0 true phase v) a

/-- The fetch record of a well-formed instruction, from R103, R111, R112 and R117. Where a row leaves a field of the key
open (the phase of a read, the phase of an abort), one value the row admits stands for it. -/
def encode (x : DecodeCtx) : Instr → Fetched
  | .flashReadNormal chip a => .flashCycle chip (Machine.flashKey 0 false 0 0) a
  | .flashReadAutoselect chip a => .flashCycle chip (Machine.flashKey 1 false 0 0) a
  | .flashReadWriteStatus chip a => .flashCycle chip (Machine.flashKey 2 false 0 0) a
  | .flashReadEraseStatus chip a => .flashCycle chip (Machine.flashKey 3 false 0 0) a
  | .flashAtmelClose chip a => .flashCycle chip (Machine.flashKey 0 false 10 0) a
  | .flashReset1 chip a => encodeWrite chip 0 0xF0#8 a
  | .flashUnlock1 chip a => encodeWrite chip 0 0xAA#8 a
  | .flashUnlock2 chip a => encodeWrite chip 1 0x55#8 a
  | .flashAutoselect chip a => encodeWrite chip 2 0x90#8 a
  | .flashProgramSetup chip a => encodeWrite chip 2 0xA0#8 a
  | .flashAtmelSetup chip a => encodeWrite chip 2 0xA0#8 a
  | .flashEraseSetup chip a => encodeWrite chip 2 0x80#8 a
  | .flashReset3 chip a => encodeWrite chip 2 0xF0#8 a
  | .flashWbLoad chip a => encodeWrite chip 2 0x25#8 a
  | .flashProgramData chip a v => encodeWrite chip 3 v a
  | .flashEraseUnlock1 chip a => encodeWrite chip 4 0xAA#8 a
  | .flashEraseUnlock2 chip a => encodeWrite chip 5 0x55#8 a
  | .flashChipErase chip a => encodeWrite chip 6 0x10#8 a
  | .flashSectorErase chip a => encodeWrite chip 6 0x30#8 a
  | .flashWbCount chip a v => encodeWrite chip 7 v a
  | .flashWbData chip a v => encodeWrite chip 8 v a
  | .flashWbConfirm chip a v => encodeWrite chip 9 v a
  | .flashAtmelData chip a v => encodeWrite chip 10 v a
  | .flashAbort chip a v =>
    if v = 0xF0#8 ∨ (v = 0xAA#8 ∧ Machine.isU1 x.window a) then encodeWrite chip 1 v a else encodeWrite chip 0 v a
  | .flashSectorEraseMore chip a => .flashCycle chip (Machine.flashKey 3 true 0 0x30#8) a
  | .flashEraseStatusExit chip a v => .flashCycle chip (Machine.flashKey 3 true 0 v) a
  | .flashInit allocOk buffer type => .interface (.flashInit allocOk buffer type) []
  | .flashColdReset chip => .interface (.flashColdReset chip) []
  | .serialWriteState dev ce clk data => .wire dev ce clk data
  | .serialReadState dev => .interface (.readState dev) []
  | .eeWren => .serialOpcode .eeprom 0x06#8
  | .eeWrdi => .serialOpcode .eeprom 0x04#8
  | .eeRdsr => .serialOpcode .eeprom 0x05#8
  | .eeWrsr => .serialOpcode .eeprom 0x01#8
  | .eeRead => .serialOpcode .eeprom 0x03#8
  | .eeWrite => .serialOpcode .eeprom 0x02#8
  | .eeUnknown op => .serialOpcode .eeprom op
  | .eeLoad mem bp => .interface (.eeLoad mem bp) []
  | .eeSave => .interface .eeSave []
  | .eeColdReset => .interface .eeColdReset []
  | .rtcEeRead => .serialOpcode .rtc 0x03#8
  | .rtcEeWrite => .serialOpcode .rtc 0x02#8
  | .rtcEeWrdi => .serialOpcode .rtc 0x04#8
  | .rtcEeWren => .serialOpcode .rtc 0x06#8
  | .rtcSrRead => .serialOpcode .rtc 0x05#8
  | .rtcSrWrite => .serialOpcode .rtc 0x01#8
  | .rtcRead => .serialOpcode .rtc 0x13#8
  | .rtcWrite => .serialOpcode .rtc 0x12#8
  | .rtcUnlock => .serialOpcode .rtc 0x14#8
  | .rtcIdWrite => .serialOpcode .rtc 0x32#8
  | .rtcIdRead => .serialOpcode .rtc 0x33#8
  | .rtcClrRam => .serialOpcode .rtc 0x54#8
  | .rtcUnknown op => .serialOpcode .rtc op
  | .rtcLoad ram ee id bp => .interface (.rtcLoad ram ee id bp) []
  | .rtcSave => .interface .rtcSave []
  | .rtcColdReset => .interface .rtcColdReset []
  | .schedAdd id delta handler => .interface (.schedAdd id delta handler) []
  | .schedDelete id => .interface (.schedDelete id) []
  | .schedCheck handlerCalls => .interface .schedCheck handlerCalls
  | .mapWinRead a => .cpuCycle a none
  | .mapWinWrite a v => .cpuCycle a (some v)
  | .mapCtlRead a => .cpuCycle a none
  | .mapCtlWrite a v => .cpuCycle a (some v)
  | .mapColdReset => .interface .mapColdReset []
  | .mapInit allocOk type image sizeKB => .interface (.mapInit allocOk type image sizeKB) []

/-- The context a word of the opcode table is read in: the chip of window W11, with the profile flags the row of the word
asks for (assumption 3). -/
def tableCtx (key : Nat) : DecodeCtx where
  window := .w11
  atmelSDP := key / 0x100 % 16 = 10
  writeBuffer := key / 0x100 % 16 ≠ 10
  sectorErase := key / 0x100 % 16 ≠ 10
  multiEraseOpen := true
  ctlPage := 0xD5#8

/-- The chip a word of the opcode table addresses. -/
def tableChip : ChipRef := .mapper 0

/-- The decoder's answer is an abort. -/
def isAbort : Except Reject Instr → Bool
  | .ok (.flashAbort _ _ _) => true
  | _ => false

/-- The address a flash word is presented with: 0, or the unlock address that its row's address condition asks for
(assumption 3). -/
def tableAddr (key : Nat) : Nat :=
  let at0 := fun a => decodeFlash (tableCtx key) tableChip (BitVec.ofNat 16 key) a
  if !isAbort (at0 0) then 0
  else if !isAbort (at0 0x555) then 0x555
  else if !isAbort (at0 0x2AA) then 0x2AA
  else 0

/-- The fetch record of a word of the opcode table. Eight bits are a serial opcode: those of the EEPROM's map the
EEPROM's, every other the RTC's when its map has it. Sixteen bits are a CPU address when they lie in the control page or
in `$A000-$BFFF`, and a flash key otherwise. The table gives two formats one word in places; assumption 3 lists them. -/
def tableFetched (nbits w : Nat) : Option Fetched :=
  if nbits = 8 then
    let op := BitVec.ofNat 8 w
    some (if rtcOpcodes.contains op && !eeOpcodes.contains op then .serialOpcode .rtc op else .serialOpcode .eeprom op)
  else if nbits = 16 then
    if w / 0x100 % 0x100 = 0xD5 ∨ w / 0x2000 % 8 = 5 then some (.cpuCycle (BitVec.ofNat 16 w) none)
    else some (.flashCycle tableChip (BitVec.ofNat 16 w) (tableAddr (w % 0x10000)))
  else none

/-- The instruction the decoder reads from a word of the opcode table. -/
def decodeTableWord (nbits w : Nat) : Option Instr :=
  match tableFetched nbits w with
  | none => none
  | some f =>
    match decode (tableCtx (w % 0x10000)) f with
    | .ok i => some i
    | .error _ => none

end Sys2Proof
end

