-- ==== Sys2Proof/Machine/Profiles.lean ====
section
/-! DEFINITION. The parameter values the machine is reset with: the informative chip catalogue of R196 (PRESUMED,
assumption 5), the defaults of R7, and uninterpreted constants where the spec gives no value (assumption 4). -/

namespace Sys2Proof.Machine

/-- A row of R196: `2 ^ capBits` bytes in uniform sectors of `2 ^ sectorBits`, the flags of its last column; the timeout is
OPEN (D27). -/
def profileRow (t : ChipType) (capBits : Nat) (ids : IdTable) (w : UnlockWindow) (sectorBits : Nat)
    (program : ProgramKind) : ChipType × Profile :=
  (t, { capBits := capBits, ids := ids, unlockWindow := w, sectors := .uniform sectorBits,
        sectorEraseTimeoutCycles := Config.sectorEraseTimeoutCycles t,
        program := program, sectorCommand := decide (program ≠ .atmelPage) })

/-- The row of a chip the spec does not name, but for its capacity: every other field is uninterpreted (assumption 21). -/
def openRow (t : ChipType) (capBits : Nat) : ChipType × Profile := (t, { Config.profile t with capBits := capBits })

/-- The informative profile table of R196, and the two chips the spec leaves open but for their capacity: `other 0` is
`P_MegaCart4MChip`, whose 256 banks of 16 KB make 4 MB (R54, R340), and `other 1` the 8 Mbit chip of MaxFlash (R361). -/
def catalogue : List (ChipType × Profile) :=
  [ profileRow .am29f010 17 (.standard 0x01#8 0x20#8) .w11 14 .byte,
    profileRow .am29f040b 19 (.standard 0x01#8 0xA4#8) .w11 16 .byte,
    profileRow .am29f016d 21 (.standard 0x01#8 0xAD#8) .w11 16 .byte,
    profileRow .am29f032b 22 (.standard 0x01#8 0x41#8) .w11 16 .byte,
    profileRow .m29f010b 17 (.standard 0x20#8 0x20#8) .w11 14 .byte,
    profileRow .sst39sf010a 17 (.standard 0xBF#8 0xB5#8) .w15 12 .byte,
    profileRow .sst39sf020a 18 (.standard 0xBF#8 0xB6#8) .w15 12 .byte,
    profileRow .sst39sf040 19 (.standard 0xBF#8 0xB7#8) .w15 12 .byte,
    profileRow .at29c010a 17 (.standard 0x1F#8 0xD5#8) .w15 8 .atmelPage,
    profileRow .at29c040 19 (.standard 0x1F#8 0x5B#8) .w15 8 .atmelPage,
    profileRow .s29gl128p 24 (.spansion 0x21#8 0x01#8) .w12i 17 .buffer,
    profileRow .s29gl256p 25 (.spansion 0x22#8 0x01#8) .w12i 17 .buffer,
    profileRow .s29gl512p 26 (.spansion 0x23#8 0x01#8) .w12i 17 .buffer,
    profileRow .s29gl01gp 27 (.spansion 0x28#8 0x01#8) .w12i 17 .buffer,
    openRow (.other 0) 22,
    openRow (.other 1) 20 ]

/-- The default of `P_MegaCartRegs` (R342): every offset is the bank register, and no read returns it. -/
def megaCartDefault : List MegaRegister :=
  [{ range := { first := 0x00#8, last := 0xFF#8 }, slices := [{ bit := 0, width := 8, pos := 0 }], readable := false
     pad := 0xFF#8 }]

/-- The default of `P_SicRegs` (R360). -/
def sicDefault : SicMap where
  range := { first := 0x00#8, last := 0x1F#8 }
  readable := true
  bankBit := 0
  bankWidth := 5
  enable809f := { bit := 5, level := true }
  enableA0bf := { bit := 6, level := false }
  flashWrite := { bit := 7, level := true }

/-- The defaults of `P_MaxFlashRegs` (R361): the 1 Mbit variant. -/
def maxFlash1Default : MaxMap where
  select := { first := 0x00#8, last := 0x0F#8 }
  disable := { first := 0x10#8, last := 0x1F#8 }
  readsAct := true

/-- The 8 Mbit variant. -/
def maxFlash8Default : MaxMap where
  select := { first := 0x00#8, last := 0x7F#8 }
  disable := { first := 0x80#8, last := 0xFF#8 }
  readsAct := true

/-- The parameters at reset (assumptions 4 and 21). TheCart's banks have the default size of R350. -/
def defaultParams : Params where
  programStatusReads := 1
  eraseStatusBits := 0x00#8
  ctlPage := 0xD5#8
  catalogue := catalogue
  megaCart4MChip := .other 0
  sicChip := .am29f040b
  maxFlash1Chip := .am29f010
  maxFlash8Chip := .other 1
  megaCart := megaCartDefault
  sic := sicDefault
  maxFlash1 := maxFlash1Default
  maxFlash8 := maxFlash8Default
  theCart := { Config.theCart with bankBits := 13 }

/-- `Profile(t)` (R195): the catalogue's row, and an uninterpreted record for a type it does not list. -/
def profileOf (p : Params) (t : ChipType) : Profile :=
  match p.catalogue.find? (fun r => r.1 == t) with
  | some r => r.2
  | none => Config.profile t

end Sys2Proof.Machine
end

