-- ==== Sys2Proof/Machine/State.lean ====
section
/-! DEFINITION. The state of the block (spec 10_state.md), the reasons a step can stop, and the state after reset.
INVENTORY.md's '## State' lists every field with its rule and its reset value. -/

namespace Sys2Proof.Machine

/-- A memory: the bytes that differ from what an unlisted address reads as, addresses strictly rising (assumption 7). -/
abbrev Memory := List Host.Cell

/-- The memories of the block (R70, R74, R52). -/
inductive Space where
  | flashImage | eepromMem | rtcRam | rtcEe | rtcId | mapperRam
deriving DecidableEq, Repr

/-- What an unlisted address of a memory reads as: the creation contents of R44 and R49, the erased byte for an image, and
0x00 for the mapper RAM (DESIGN CHOICE, assumption 7). -/
def Space.fill : Space → Byte
  | .flashImage => 0xFF#8
  | .eepromMem => 0xFF#8
  | .rtcRam => 0x00#8
  | .rtcEe => 0xFF#8
  | .rtcId => 0xFF#8
  | .mapperRam => 0x00#8

/-- The canonical form of a memory: addresses strictly rising, and no entry equal to the fill byte. -/
abbrev Memory.wf (fill : Byte) (m : Memory) : Prop :=
  m.Pairwise (fun p q => p.1 < q.1) ∧ ∀ c ∈ m, c.2 ≠ fill

/-- The read modes of R22. -/
inductive ReadMode where
  | normal | autoselect | writeStatusPending | sectorEraseStatus
deriving DecidableEq, Repr

/-- The command phases of R23, in the order of their numbers. -/
inductive Phase where
  | idle | unlock1 | unlock2 | programData | eraseSetup | eraseUnlock1 | eraseUnlock2
  | wbCount | wbData | wbConfirm | atmelPageLoad
deriving DecidableEq, Repr

/-- A FlashChip (R20 to R30). `buf` is the identity of the bound buffer, whose bytes `img` holds (assumption 15). -/
structure Chip where
  type : ChipType
  profile : Profile
  buf : Nat
  img : Memory
  readMode : ReadMode
  phase : Phase
  toggleBits : Byte
  dirty : Bool
  writeActivity : Bool
  statusReads : Nat
  eraseDeadline : Cycles
  multiEraseOpen : Bool
  wbuf : Vector Byte 32
  wbBase : Nat
  wbBaseValid : Bool
  wbRemaining : Nat
  atmelBase : Nat
  atmelOpen : Bool
  atmelLoaded : Vector Bool 256
deriving DecidableEq, Repr

/-- A scheduler entry (R35); the handler is held by its name (assumption 10). -/
structure Entry where
  id : Int
  deadline : Cycles
  handler : Nat
deriving DecidableEq, Repr

/-- The scheduler: its queue, head first (R36), and whose handler runs (R210). -/
structure Sched where
  queue : List Entry
  inHandler : Option Int
deriving DecidableEq, Repr

/-- The bit-serial link state (R40). -/
structure Link where
  ce : Bool
  clk : Bool
  bitCount : Fin 8
  inShift : Byte
  outShift : Byte
  outBit : Bool
deriving DecidableEq, Repr

/-- The EEPROM's interpreter states (R42). -/
inductive EeCmd where
  | idle | readStatus | writeStatus | readAddr | readData | writeAddr | writeData | done
deriving DecidableEq, Repr

/-- The EEPROM (R42, R43). -/
structure Eeprom where
  link : Link
  mem : Memory
  bp : BitVec 2
  wel : Bool
  cmd : EeCmd
  addr : Byte
  writeIssued : Bool
deriving DecidableEq, Repr

/-- The RTC's interpreter states (R291). -/
inductive RtcCmd where
  | idle | readStatus | writeStatus | eeReadAddr | eeReadData | eeWriteAddr | eeWriteData
  | ramReadAddr | ramReadData | ramWriteAddr | ramWriteData
  | idReadAddr | idReadData | idWriteAddr | idWriteData | unlockKey | done
deriving DecidableEq, Repr

/-- The RTC (R46 to R48). -/
structure Rtc where
  link : Link
  ram : Memory
  ee : Memory
  id : Memory
  bp : BitVec 2
  wel : Bool
  cmd : RtcCmd
  addr : Byte
  unlock : Fin 3
  writeIssued : Bool
deriving DecidableEq, Repr

/-- A window's read source or write destination (R53). -/
inductive Source where
  | none
  | flash (k : Nat)
  | ram
deriving DecidableEq, Repr

/-- A window descriptor (R53). `writeBase` is the base in the write destination: it differs from `base` only where the two
sources differ (R350, assumption 19). -/
structure Desc where
  readSrc : Source
  writeDst : Source
  base : Nat
  writeBase : Nat
deriving DecidableEq, Repr

/-- A window layout (R53). -/
structure Layout where
  w809f : Desc
  wa0bf : Desc
deriving DecidableEq, Repr

/-- The mapper's register file: the fields of every variant (R54 to R56, R360, R361). -/
structure MapRegs where
  bank : Byte
  enabled : Bool
  sic : Byte
  cart : TcRegs
deriving DecidableEq, Repr

/-- The bank mapper (R52 to R57). The image is held in the chips that borrow it. -/
structure Mapper where
  type : MapperType
  size : Nat
  chips : List Chip
  ram : Memory
  ramSize : Nat
  regs : MapRegs
  table : List TcEntry
  installed : Option Layout
deriving DecidableEq, Repr

/-- A call into the memory layer (R78). -/
inductive LayerCall where
  /-- `SetFlashRoutines(WinRead_W, WinWrite_W)`. -/
  | setFlashRoutines (w : Win)
  /-- `SetFlash(startAddr, endAddr)`, inclusive (D56). -/
  | setFlash (startAddr endAddr : Nat)
  /-- `CopyFromCart(startAddr, endAddr, srcBytes)`; no mapper of this spec makes it (R335). -/
  | copyFromCart (startAddr endAddr : Nat) (srcBytes : List Byte)
  /-- `CartA0bfEnable()` or `Cart809fEnable()`. -/
  | cartEnable (w : Win)
  /-- `CartA0bfDisable()` or `Cart809fDisable()`. -/
  | cartDisable (w : Win)
deriving DecidableEq, Repr

/-- What a call returns to the host. -/
inductive Result where
  /-- The call returns nothing. -/
  | none
  /-- The chip a FlashChip `Init` made (R162). -/
  | chip (k : Nat)
  /-- FlashChip `Read` (R130). -/
  | flashRead (v : Byte) (handled : Bool)
  /-- FlashChip `Write` (R139). -/
  | flashWrite (handled : Bool)
  /-- `ReadState` (R242). -/
  | bit (b : Bool)
  /-- `Schedule_Entry_Add` (R211). -/
  | entry (e : Entry)
  /-- `Schedule_Check_And_Handle` (R213): the entry whose handler ran. -/
  | ran (e : Option Entry)
  /-- EEPROM `Save` (R266). -/
  | eeImage (mem : List Byte) (bp : BitVec 2)
  /-- RTC `Save` (R316). -/
  | rtcImage (ram ee id : List Byte) (bp : BitVec 2)
  /-- A window or control read (R331, R339). -/
  | cpuByte (v : Byte)
  /-- The block does not serve the access: the memory layer answers it (R72, R337, D48). -/
  | notServed
deriving DecidableEq, Repr

/-- What the last call gave the host: its return value and the memory-layer calls it made, in order (assumption 11). -/
structure Output where
  result : Result
  calls : List LayerCall
deriving DecidableEq, Repr

/-- What the owner of a chip clears before a call (R25, R26, R60). -/
structure FlagClear where
  chip : ChipRef
  dirty : Bool
  activity : Bool
deriving DecidableEq, Repr

/-- A pending host call with the inputs it is made at (R9, R62), the commit flags the owner clears before it (R25, R26), and
the calls a scheduler handler makes if this call runs one, each at its own wall clock (R214, assumption 10). -/
structure Request where
  now : Cycles
  clock : HostTime
  ownerClears : List FlagClear
  call : Call
  handlerCalls : List HandlerCall
deriving DecidableEq, Repr

/-- The state of the machine. -/
structure State where
  now : Cycles
  clock : HostTime
  chips : List Chip
  sched : Sched
  eeprom : Eeprom
  rtc : Rtc
  mapper : Mapper
  input : List Request
  out : Output
  draws : Nat
  cfg : Params
deriving DecidableEq, Repr

/-- The faults: R374's six and one of the model's own. Every one is safe: the machine stops where the host broke a
precondition. -/
inductive Fault where
  /-- FLASH_INIT and MAP_INIT: the host reports allocation failure (R162, R345). Safe. -/
  | initAllocFailure
  /-- FLASH_INIT and MAP_INIT: the image has the wrong length (R162, R345). Safe. -/
  | initSizeMismatch
  /-- FLASH_INIT and MAP_INIT: the buffer is already bound to a chip (R162). Safe. -/
  | sharedImage
  /-- SCHED_ADD with a delta of `2^63` or more (R215). Safe. -/
  | schedulerDeltaRange
  /-- SCHED_ADD or SCHED_DELETE of the running handler's own id, SCHED_CHECK from a handler (R211 to R214). Safe. -/
  | schedulerReentrantSameId
  /-- EE_LOAD and RTC_LOAD with an array of the wrong length (R265, R315). Safe. -/
  | loadSizeMismatch
  /-- A direct call names a chip that was not initialised (R163's precondition; assumption 16). Safe. -/
  | noSuchChip (chip : ChipRef)
deriving DecidableEq, Repr

/-- The refusals. -/
inductive Refusal where
  /-- An instruction the model gives no meaning; no arm of `exec` answers it. Safe. -/
  | notModelled (mnemonic : String)
  /-- The decoder rejects what was fetched; no fetch of a state gives it (R106). Safe. -/
  | undecodable (r : Reject)
deriving DecidableEq, Repr

/-- The link at creation, at ColdReset and after a deselection with the clock low (R40). -/
def Link.initial : Link where
  ce := false
  clk := false
  bitCount := 0
  inShift := 0x00#8
  outShift := 0xFF#8
  outBit := true

/-- The EEPROM at creation (R44, R40). -/
def Eeprom.initial : Eeprom where
  link := Link.initial
  mem := []
  bp := 0#2
  wel := false
  cmd := .idle
  addr := 0x00#8
  writeIssued := false

/-- The RTC at creation (R49, R40). -/
def Rtc.initial : Rtc where
  link := Link.initial
  ram := []
  ee := []
  id := []
  bp := 0#2
  wel := false
  cmd := .idle
  addr := 0x00#8
  unlock := 0
  writeIssued := false

/-- A FlashChip right after `Init` (R31). -/
def Chip.initial (type : ChipType) (profile : Profile) (buf : Nat) (img : Memory) : Chip where
  type := type
  profile := profile
  buf := buf
  img := img
  readMode := .normal
  phase := .idle
  toggleBits := 0x00#8
  dirty := false
  writeActivity := false
  statusReads := 0
  eraseDeadline := 0#64
  multiEraseOpen := false
  wbuf := Vector.replicate 32 0xFF#8
  wbBase := 0
  wbBaseValid := false
  wbRemaining := 0
  atmelBase := 0
  atmelOpen := false
  atmelLoaded := Vector.replicate 256 false

/-- The disabled window (R332, R337). -/
def Desc.disabled : Desc where
  readSrc := .none
  writeDst := .none
  base := 0
  writeBase := 0

/-- The MegaCart 512K mapper after `Init` over a blank image: bank 0 at `$A000` (R340, R345; assumption 6). -/
def Mapper.initial : Mapper where
  type := .megaCart512
  size := 0x80000
  chips := [Chip.initial .am29f040b (profileOf defaultParams .am29f040b) 0 []]
  ram := []
  ramSize := 0
  regs := { bank := 0x00#8, enabled := true, sic := 0x00#8,
            cart := { defaultParams.theCart.defaults with lock := 0x00#8 } }
  table := []
  installed := some
    { w809f := Desc.disabled,
      wa0bf := { readSrc := .flash 0, writeDst := .flash 0, base := 0, writeBase := 0 } }

/-- The machine right after power-on: the boot order of R390 with nothing pending (assumptions 6 and 8). -/
def State.reset : State where
  now := 0#64
  clock := { year := 2000, month := 1, day := 1, wday := 6, hour := 0, min := 0, sec := 0 }
  chips := []
  sched := { queue := [], inHandler := none }
  eeprom := Eeprom.initial
  rtc := Rtc.initial
  mapper := Mapper.initial
  input := []
  out := { result := .none, calls := [] }
  draws := 0
  cfg := defaultParams

end Sys2Proof.Machine
end

