-- ==== Sys2Proof/Machine/Ops.lean ====
section
/-! DEFINITION. The named operations over memory, cycle counts, chips and outputs that the meanings share. The block takes
no exception and returns from none (60_exceptions.md R371, R377), so there is no exception operation. -/

namespace Sys2Proof.Machine

/-! ### Memory -/

/-- The byte at an address. -/
def Memory.read (fill : Byte) : Memory → Nat → Byte
  | [], _ => fill
  | c :: m, a => if c.1 = a then c.2 else Memory.read fill m a

/-- The memory with one byte set, in canonical form. -/
def Memory.write (fill : Byte) : Memory → Nat → Byte → Memory
  | [], a, v => if v = fill then [] else [(a, v)]
  | c :: m, a, v =>
    if a < c.1 then (if v = fill then c :: m else (a, v) :: c :: m)
    else if a = c.1 then (if v = fill then m else (a, v) :: m)
    else c :: Memory.write fill m a v

/-- The memory with the bytes of `[base, base + size)` set to the fill byte. -/
def Memory.clear (m : Memory) (base size : Nat) : Memory :=
  m.filter fun c => !(decide (base ≤ c.1) && decide (c.1 < base + size))

/-- The memory with every byte `a` of `[base, base + size)` set to `f a`, lowest address first. -/
def Memory.fillWith (fill : Byte) (m : Memory) (base : Nat) (f : Nat → Byte) : Nat → Memory
  | 0 => m
  | n + 1 => Memory.write fill (Memory.fillWith fill m base f n) (base + n) (f (base + n))

/-- The memory that holds a byte array from address 0. -/
def Memory.ofBytes (fill : Byte) (l : List Byte) : Memory :=
  Memory.fillWith fill [] 0 (fun a => l.getD a fill) l.length

/-- The memory that holds a host buffer (assumption 15). -/
def Memory.ofCells (fill : Byte) (size : Nat) (cells : List Host.Cell) : Memory :=
  cells.foldl (fun m c => if c.1 < size then Memory.write fill m c.1 c.2 else m) []

/-- The first `n` bytes of a memory. -/
def Memory.toBytes (fill : Byte) (m : Memory) (n : Nat) : List Byte :=
  (List.range n).map (Memory.read fill m)

/-! ### Cycle counts -/

/-- `reached(now, d)` of R11. -/
def reached (now d : Cycles) : Bool := (now - d).toNat < 2 ^ 63

/-- `before(x, y)` of R11. -/
def before (x y : Cycles) : Bool := 2 ^ 63 ≤ (x - y).toNat

/-! ### Outputs -/

/-- The state with the value the call returns. -/
def State.answer (s : State) (r : Result) : State := { s with out := { s.out with result := r } }

/-- The state with memory-layer calls made, after those already made in this call. -/
def State.emit (s : State) (calls : List LayerCall) : State :=
  { s with out := { s.out with calls := s.out.calls ++ calls } }

/-! ### FlashChips -/

/-- `ImgRead(f, a)` (R12, R71). -/
def Chip.byteAt (c : Chip) (a : Nat) : Byte := Memory.read Space.flashImage.fill c.img (a % c.profile.cap)

/-- `ImgWrite(f, a, v)` (R12, R71). -/
def Chip.setByte (c : Chip) (a : Nat) (v : Byte) : Chip :=
  { c with img := Memory.write Space.flashImage.fill c.img (a % c.profile.cap) v }

/-- The chip a call names, if it was initialised. -/
def State.chipAt (s : State) : ChipRef → Option Chip
  | .mapper k => s.mapper.chips[k]?
  | .host k => s.chips[k]?

/-- The state with one chip replaced. -/
def State.setChip (s : State) (r : ChipRef) (c : Chip) : State :=
  match r with
  | .mapper k => { s with mapper := { s.mapper with chips := s.mapper.chips.set k c } }
  | .host k => { s with chips := s.chips.set k c }

/-- What a chip access leaves: the byte read (a write leaves none), the `handled` flag (R138), the chip, and the draw
counter. -/
structure ChipAccess where
  value : Byte
  handled : Bool
  chip : Chip
  draws : Nat
deriving DecidableEq, Repr

/-- Commit a chip access to the state. -/
def State.putAccess (s : State) (r : ChipRef) (x : ChipAccess) : State :=
  { s.setChip r x.chip with draws := x.draws }

/-- A direct access to a chip: the access on the chip's state, its outcome committed and answered; a fault where no chip
was initialised under that name. -/
def onChip (s : State) (r : ChipRef) (access : Chip → ChipAccess) (result : ChipAccess → Result) :
    Host.Outcome State Fault Refusal :=
  match s.chipAt r with
  | none => .fault (.noSuchChip r)
  | some c => .next ((s.putAccess r (access c)).answer (result (access c)))

end Sys2Proof.Machine
end

