-- ==== Sys2Proof/Machine/Flags.lean ====
section
/-! DEFINITION. The flags of the block (10_state.md R60): commit flags, toggle bits, the status registers of the serial
devices, the write-enable latch and block protection, and the `handled` flag. The block has no condition codes. -/

namespace Sys2Proof.Machine

/-- `Commit(f)`: R160. -/
def Chip.commit (c : Chip) : Chip := { c with dirty := true, writeActivity := true }

/-- The toggle mask of DQ6 and DQ2 (R24). -/
def toggleMask : Byte := 0x44#8

/-- The flip of one erase-status read (R134). -/
def Chip.toggle (c : Chip) : Chip := { c with toggleBits := c.toggleBits ^^^ toggleMask }

/-- The `handled` flag of a read (R130, R138): `mode` is the mode the byte came from. -/
def readHandled (before mode after : ReadMode) (imgChanged : Bool) : Bool :=
  decide (mode ≠ .normal) || decide (after ≠ before) || imgChanged

/-- The `handled` flag of a write (R138, R139). -/
def writeHandled (before after : ReadMode) (imgChanged : Bool) : Bool :=
  decide (after ≠ before) || imgChanged

/-- A status register of the serial devices (R43, R48, R250, R292): bits 3:2 BP, bit 1 WEL, every other bit 0. -/
def statusByte (bp : BitVec 2) (wel : Bool) : Byte :=
  (bp.setWidth 8 <<< 2) ||| (BitVec.ofBool wel).setWidth 8 <<< 1

/-- The block-protect field a status write stores (R259, R306). -/
def statusBp (v : Byte) : BitVec 2 := v.extractLsb' 2 2

/-- `Protected(bp, a)` of R255. -/
def isProtected (bp : BitVec 2) (a : Byte) : Bool :=
  match bp.toNat with
  | 0 => false
  | 1 => decide (0xC0 ≤ a.toNat)
  | 2 => decide (0x80 ≤ a.toNat)
  | _ => true

end Sys2Proof.Machine
end

