-- ==== Sys2Proof/Machine/Flash.lean ====
section
/-! DEFINITION. The FlashChip (spec 40_flash_jedec.md, 41_flash_variants.md): `Read` and `Write`, the effect of every row of
the command map, and the meanings of the flash rows of the opcode table.

A row's meaning first does what every cycle does (address reduction and erase-window expiry, R130, R139), then tests the
row's own condition and takes the row's effect. A bus cycle whose row's condition does not hold in the state is some other
row's cycle, and `Read` or `Write` says which (assumption 12): no bus cycle is refused (R371). -/

namespace Sys2Proof.Machine

/-! ### Shared steps -/

/-- `ExpireEraseWindow(f, now)`: R137. -/
def Chip.expire (c : Chip) (now : Cycles) : Chip :=
  if c.readMode = .sectorEraseStatus ∧ reached now c.eraseDeadline then
    { c with readMode := .normal, multiEraseOpen := false }
  else c

/-- The unlock test `U1(f, a)` of the chip (R102). -/
def Chip.u1 (c : Chip) (a : Nat) : Bool := isU1 c.profile.unlockWindow a

/-- The unlock test `U2(f, a)` of the chip (R102). -/
def Chip.u2 (c : Chip) (a : Nat) : Bool := isU2 c.profile.unlockWindow a

/-- The image with each of `n` bytes from `base` replaced by `f i old`, `i` counted from 0. -/
def Chip.mapRange (c : Chip) (base : Nat) (f : Nat → Byte → Byte) : Nat → Chip
  | 0 => c
  | n + 1 =>
    let c' := Chip.mapRange c base f n
    c'.setByte (base + n) (f n (c'.byteAt (base + n)))

/-- `EraseRange(f, base, size)`: R156. -/
def Chip.eraseRange (c : Chip) (base size : Nat) : Chip := { c with img := Memory.clear c.img base size }

/-- `AtmelClose(f)`: R188. An unloaded byte is a draw (free value, assumption 9). -/
def Chip.atmelClose (c : Chip) (draws : Nat) : Chip × Bool × Nat :=
  if c.atmelOpen then
    let filled := c.mapRange c.atmelBase
      (fun i old => if c.atmelLoaded.getD i false then old else Config.atmelUnloaded draws (c.atmelBase + i) old) atmelPageSize
    ({ filled.commit with atmelOpen := false }, true, draws + 1)
  else (c, false, draws)

/-- The deadline of an erase command given at `now` (R152, R155, R157). -/
def Chip.newDeadline (c : Chip) (now : Cycles) : Cycles := now + c.profile.sectorEraseTimeoutCycles

/-! ### Reads -/

/-- What a read by mode gives: the byte, the chip and the draw counter. -/
structure ReadFx where
  value : Byte
  chip : Chip
  draws : Nat
deriving DecidableEq, Repr

/-- Normal read: R131. -/
def Chip.readNormal (c : Chip) (a draws : Nat) : ReadFx := { value := c.byteAt a, chip := c, draws := draws }

/-- Autoselect read: R132, R192 to R194. A byte the ID table does not define is a draw. -/
def Chip.readAutoselect (c : Chip) (a draws : Nat) : ReadFx :=
  match idByte c.profile.ids a with
  | some v => { value := v, chip := c, draws := draws }
  | none => { value := Config.autoselectUndef draws a, chip := c, draws := draws + 1 }

/-- Program-status read: R133. -/
def Chip.readWriteStatus (p : Params) (c : Chip) (a draws : Nat) : ReadFx where
  value := ~~~(c.byteAt a)
  chip := { c with statusReads := c.statusReads + 1
                   readMode := if p.programStatusReads ≤ c.statusReads + 1 then .normal else c.readMode }
  draws := draws

/-- Erase-status read: R134. -/
def Chip.readEraseStatus (p : Params) (c : Chip) (draws : Nat) : ReadFx where
  value := c.toggleBits ||| p.eraseStatusBase
  chip := c.toggle
  draws := draws

/-- The read by the current mode (R130). -/
def Chip.readByMode (p : Params) (c : Chip) (a draws : Nat) : ReadFx :=
  match c.readMode with
  | .normal => c.readNormal a draws
  | .autoselect => c.readAutoselect a draws
  | .writeStatusPending => c.readWriteStatus p a draws
  | .sectorEraseStatus => c.readEraseStatus p draws

/-- What precedes the read by mode: an Atmel page load is closed, then an ended erase window expires (R130, R375). -/
def Chip.beforeRead (c : Chip) (now : Cycles) (draws : Nat) : Chip × Bool × Nat :=
  let (c1, changed, d) :=
    if c.phase = .atmelPageLoad then
      let (c', changed, d) := c.atmelClose draws
      ({ c' with phase := .idle }, changed, d)
    else (c, false, draws)
  (c1.expire now, changed, d)

/-- The outcome of a read: `mode` and `changed` are what R130 names `m` and `img_changed`. -/
def ReadFx.finish (x : ReadFx) (before mode : ReadMode) (changed : Bool) : ChipAccess where
  value := x.value
  handled := readHandled before mode x.chip.readMode changed
  chip := x.chip
  draws := x.draws

/-- `Read(f, a0, now)`: R130. -/
def Chip.read (p : Params) (c : Chip) (a0 : Nat) (now : Cycles) (draws : Nat) : ChipAccess :=
  let a := a0 % c.profile.cap
  let (c1, changed, d) := c.beforeRead now draws
  (c1.readByMode p a d).finish c.readMode c1.readMode changed

/-! ### Writes -/

/-- What a write by row gives: the chip, `img_changed` and the draw counter. -/
structure WriteFx where
  chip : Chip
  changed : Bool
  draws : Nat
deriving DecidableEq, Repr

/-- A write that changes no image byte and draws nothing. -/
def WriteFx.quiet (c : Chip) (draws : Nat) : WriteFx := { chip := c, changed := false, draws := draws }

/-- `Reset1(f)`: R140. -/
def Chip.reset1 (c : Chip) (draws : Nat) : WriteFx := .quiet { c with readMode := .normal } draws

/-- `Reset3(f)`: R147. -/
def Chip.reset3 (c : Chip) (draws : Nat) : WriteFx := .quiet { c with readMode := .normal, phase := .idle } draws

/-- A cycle whose one effect is the next phase: R141, R142, R144, R146, R150, R151, R180. -/
def Chip.goto (c : Chip) (ph : Phase) (draws : Nat) : WriteFx := .quiet { c with phase := ph } draws

/-- `AutoselectEntry(f)`: R143. -/
def Chip.enterAutoselect (c : Chip) (draws : Nat) : WriteFx :=
  .quiet { c with readMode := .autoselect, phase := .idle } draws

/-- `Abort(f)`: R148. -/
def Chip.abort (c : Chip) (draws : Nat) : WriteFx := .quiet { c with phase := .idle } draws

/-- `ProgramByte(f, a, v)`: R145. -/
def Chip.programByte (c : Chip) (a : Nat) (v : Byte) (draws : Nat) : WriteFx where
  chip := { (c.setByte a (c.byteAt a &&& v)).commit with
            readMode := .writeStatusPending, statusReads := 0, phase := .idle }
  changed := true
  draws := draws

/-- `ChipErase(f, now)`: R152. -/
def Chip.chipErase (c : Chip) (now : Cycles) (draws : Nat) : WriteFx where
  chip := { (c.eraseRange 0 c.profile.cap).commit with
            readMode := .sectorEraseStatus, multiEraseOpen := false,
            eraseDeadline := c.newDeadline now, phase := .idle }
  changed := true
  draws := draws

/-- The erase of the sector that holds `a`, with its commit (R155, R157). -/
def Chip.eraseSectorOf (c : Chip) (a : Nat) : Chip :=
  let r := sectorOf c.profile a
  (c.eraseRange r.1 r.2).commit

/-- `SectorErase(f, a, now)`: R155. -/
def Chip.sectorErase (c : Chip) (a : Nat) (now : Cycles) (draws : Nat) : WriteFx where
  chip := { c.eraseSectorOf a with
            readMode := .sectorEraseStatus, multiEraseOpen := true,
            eraseDeadline := c.newDeadline now, phase := .idle }
  changed := true
  draws := draws

/-- The further sector erase of R157. -/
def Chip.sectorEraseMore (c : Chip) (a : Nat) (now : Cycles) (draws : Nat) : WriteFx where
  chip := { c.eraseSectorOf a with eraseDeadline := c.newDeadline now }
  changed := true
  draws := draws

/-- The end of the erase status by any other write: R157. -/
def Chip.eraseStatusExit (c : Chip) (draws : Nat) : WriteFx :=
  .quiet { c with readMode := .normal, multiEraseOpen := false, phase := .idle } draws

/-- `WBCount(f, a, v)`: R181. -/
def Chip.loadCount (c : Chip) (v : Byte) (draws : Nat) : WriteFx :=
  if wbPageSize < v.toNat + 1 then c.abort draws
  else .quiet { c with wbRemaining := v.toNat + 1, wbBaseValid := false,
                       wbuf := Vector.replicate 32 0xFF#8, phase := .wbData } draws

/-- The buffered datum of R182, once the page is known: position `a & 31` takes the AND. -/
def Chip.bufferByte (c : Chip) (a : Nat) (v : Byte) : Chip :=
  { c with wbuf := c.wbuf.setIfInBounds (a % wbPageSize) (c.wbuf.getD (a % wbPageSize) 0xFF#8 &&& v)
           wbRemaining := c.wbRemaining - 1
           phase := if c.wbRemaining - 1 = 0 then .wbConfirm else c.phase }

/-- `WBData(f, a, v)`: R182. The first datum fixes the page. -/
def Chip.loadData (c : Chip) (a : Nat) (v : Byte) (draws : Nat) : WriteFx :=
  let base := pageBase wbPageSize a
  let c := if c.wbBaseValid then c else { c with wbBase := base, wbBaseValid := true }
  if base ≠ c.wbBase then c.abort draws
  else .quiet (c.bufferByte a v) draws

/-- The commit of the write buffer: R183. -/
def Chip.programBuffer (c : Chip) (draws : Nat) : WriteFx where
  chip := { (c.mapRange c.wbBase (fun i old => old &&& c.wbuf.getD i 0xFF#8) wbPageSize).commit with
            readMode := .writeStatusPending, statusReads := 0, phase := .idle }
  changed := true
  draws := draws

/-- `WBConfirm(f, a, v)`: R183. -/
def Chip.confirm (c : Chip) (v : Byte) (draws : Nat) : WriteFx :=
  if v = 0x29#8 then c.programBuffer draws else c.abort draws

/-- `AtmelStart(f)`: R185. -/
def Chip.atmelStart (c : Chip) (draws : Nat) : WriteFx :=
  .quiet { c with atmelOpen := false, phase := .atmelPageLoad } draws

/-- The page byte of R186, once the page is open: it replaces the image byte. -/
def Chip.atmelByte (c : Chip) (a : Nat) (v : Byte) (draws : Nat) : WriteFx where
  chip := { ({ c.setByte a v with atmelLoaded := c.atmelLoaded.setIfInBounds (a % atmelPageSize) true }).commit with
            readMode := .writeStatusPending, statusReads := 0 }
  changed := true
  draws := draws

/-- The out-of-page write that closes the page: R187. -/
def Chip.atmelLeave (c : Chip) (draws : Nat) : WriteFx :=
  let (c', changed, d) := c.atmelClose draws
  { chip := { c' with phase := .idle }, changed := changed, draws := d }

/-- `AtmelData(f, a, v)`: R186, R187. -/
def Chip.atmelData (c : Chip) (a : Nat) (v : Byte) (draws : Nat) : WriteFx :=
  let base := pageBase atmelPageSize a
  let c := if c.atmelOpen then c
    else { c with atmelOpen := true, atmelBase := base, atmelLoaded := Vector.replicate 256 false }
  if base ≠ c.atmelBase then c.atmelLeave draws else c.atmelByte a v draws

/-- The command byte at phase 2 (R139). -/
def Chip.command (c : Chip) (a : Nat) (v : Byte) (draws : Nat) : WriteFx :=
  if v = 0x90#8 ∧ c.u1 a then c.enterAutoselect draws
  else if v = 0xA0#8 ∧ c.u1 a then (if c.profile.atmelSDP then c.atmelStart draws else c.goto .programData draws)
  else if v = 0x80#8 ∧ c.u1 a then c.goto .eraseSetup draws
  else if v = 0xF0#8 then c.reset3 draws
  else if v = 0x25#8 ∧ c.profile.writeBuffer then c.goto .wbCount draws
  else c.abort draws

/-- The phase dispatch of R139, and R157 in SectorEraseStatus; the chip is the one after expiry, `a` is reduced. -/
def Chip.dispatch (c : Chip) (a : Nat) (v : Byte) (now : Cycles) (draws : Nat) : WriteFx :=
  if c.readMode = .sectorEraseStatus then
    if v = 0x30#8 ∧ c.multiEraseOpen ∧ c.profile.sectorErase then c.sectorEraseMore a now draws
    else c.eraseStatusExit draws
  else match c.phase with
    | .idle =>
      if v = 0xF0#8 then c.reset1 draws
      else if v = 0xAA#8 ∧ c.u1 a then c.goto .unlock1 draws
      else .quiet c draws
    | .unlock1 => if v = 0x55#8 ∧ c.u2 a then c.goto .unlock2 draws else c.abort draws
    | .unlock2 => c.command a v draws
    | .programData => c.programByte a v draws
    | .eraseSetup => if v = 0xAA#8 ∧ c.u1 a then c.goto .eraseUnlock1 draws else c.abort draws
    | .eraseUnlock1 => if v = 0x55#8 ∧ c.u2 a then c.goto .eraseUnlock2 draws else c.abort draws
    | .eraseUnlock2 =>
      if v = 0x10#8 ∧ c.u1 a then c.chipErase now draws
      else if v = 0x30#8 ∧ c.profile.sectorErase then c.sectorErase a now draws
      else c.abort draws
    | .wbCount => c.loadCount v draws
    | .wbData => c.loadData a v draws
    | .wbConfirm => c.confirm v draws
    | .atmelPageLoad => c.atmelData a v draws

/-- The outcome of a write; it returns no byte (R138, R139). -/
def WriteFx.finish (x : WriteFx) (before : ReadMode) : ChipAccess where
  value := 0x00#8
  handled := writeHandled before x.chip.readMode x.changed
  chip := x.chip
  draws := x.draws

/-- `Write(f, a0, v, now)`: R139. -/
def Chip.write (c : Chip) (a0 : Nat) (v : Byte) (now : Cycles) (draws : Nat) : ChipAccess :=
  ((c.expire now).dispatch (a0 % c.profile.cap) v now draws).finish c.readMode

/-- `ColdReset(f)`: R163. -/
def Chip.coldReset (c : Chip) : Chip := { c with readMode := .normal, phase := .idle, toggleBits := 0x00#8 }

/-! ### Direct accesses -/

/-- A direct chip read (R118 `FR`). -/
def chipRead (r : ChipRef) (a : Nat) (s : State) : Host.Outcome State Fault Refusal :=
  onChip s r (fun c => c.read s.cfg a s.now s.draws) (fun x => .flashRead x.value x.handled)

/-- A direct chip write (R118 `FW`). -/
def chipWrite (r : ChipRef) (a : Nat) (v : Byte) (s : State) : Host.Outcome State Fault Refusal :=
  onChip s r (fun c => c.write a v s.now s.draws) (fun x => .flashWrite x.handled)

/-- A read row: its condition is on the chip after expiry outside phase 10, its effect is the read of its mode. -/
def chipReadRow (r : ChipRef) (a : Nat) (mode : ReadMode) (effect : Chip → Nat → ReadFx) (s : State) :
    Host.Outcome State Fault Refusal :=
  onChip s r
    (fun c =>
      let c1 := c.expire s.now
      if c.phase ≠ .atmelPageLoad ∧ c1.readMode = mode then
        (effect c1 (a % c.profile.cap)).finish c.readMode mode false
      else c.read s.cfg a s.now s.draws)
    (fun x => .flashRead x.value x.handled)

/-- A write row: `applies` is its condition and `effect` its effect, on the chip after expiry and the reduced address. -/
def chipWriteRow (r : ChipRef) (a : Nat) (v : Byte) (applies : Chip → Nat → Bool) (effect : Chip → Nat → WriteFx)
    (s : State) : Host.Outcome State Fault Refusal :=
  onChip s r
    (fun c =>
      let c1 := c.expire s.now
      let a1 := a % c.profile.cap
      if applies c1 a1 then (effect c1 a1).finish c.readMode else c.write a v s.now s.draws)
    (fun x => .flashWrite x.handled)

/-- The command machine is in phase `ph` and takes commands: the read mode is not SectorEraseStatus (R139, R158). -/
def Chip.inPhase (c : Chip) (ph : Phase) : Bool := decide (c.readMode ≠ .sectorEraseStatus) && decide (c.phase = ph)

/-- The write cycle is accepted by some row of R103 but FLASH_ABORT. -/
def Chip.accepts (c : Chip) (a : Nat) (v : Byte) : Bool :=
  match c.phase with
  | .idle => v == 0xF0#8 || (v == 0xAA#8 && c.u1 a)
  | .unlock1 => v == 0x55#8 && c.u2 a
  | .unlock2 =>
    v == 0xF0#8 || (c.u1 a && (v == 0x90#8 || v == 0xA0#8 || v == 0x80#8)) || (v == 0x25#8 && c.profile.writeBuffer)
  | .eraseSetup => v == 0xAA#8 && c.u1 a
  | .eraseUnlock1 => v == 0x55#8 && c.u2 a
  | .eraseUnlock2 => (v == 0x10#8 && c.u1 a) || (v == 0x30#8 && c.profile.sectorErase)
  | .programData | .wbCount | .wbData | .wbConfirm | .atmelPageLoad => true

/-! ### The meanings of the flash rows -/

/-- FLASH_READ_NORMAL: R131. -/
def execFlashReadNormal (r : ChipRef) (a : Nat) (s : State) : Host.Outcome State Fault Refusal :=
  chipReadRow r a .normal (fun c a => c.readNormal a s.draws) s

/-- FLASH_READ_AUTOSELECT: R132. -/
def execFlashReadAutoselect (r : ChipRef) (a : Nat) (s : State) : Host.Outcome State Fault Refusal :=
  chipReadRow r a .autoselect (fun c a => c.readAutoselect a s.draws) s

/-- FLASH_READ_WRITESTATUS: R133. -/
def execFlashReadWriteStatus (r : ChipRef) (a : Nat) (s : State) : Host.Outcome State Fault Refusal :=
  chipReadRow r a .writeStatusPending (fun c a => c.readWriteStatus s.cfg a s.draws) s

/-- FLASH_READ_ERASESTATUS: R134. -/
def execFlashReadEraseStatus (r : ChipRef) (a : Nat) (s : State) : Host.Outcome State Fault Refusal :=
  chipReadRow r a .sectorEraseStatus (fun c _ => c.readEraseStatus s.cfg s.draws) s

/-- FLASH_ATMEL_CLOSE: a read in phase 10 closes the page, then reads by the mode (R188, R130). -/
def execFlashAtmelClose (r : ChipRef) (a : Nat) (s : State) : Host.Outcome State Fault Refusal :=
  onChip s r
    (fun c =>
      if c.phase = .atmelPageLoad then
        let (closed, changed, d) := c.atmelClose s.draws
        let c1 := ({ closed with phase := .idle }).expire s.now
        (c1.readByMode s.cfg (a % c.profile.cap) d).finish c.readMode c1.readMode changed
      else c.read s.cfg a s.now s.draws)
    (fun x => .flashRead x.value x.handled)

/-- FLASH_RESET1: R140. -/
def execFlashReset1 (r : ChipRef) (a : Nat) (s : State) : Host.Outcome State Fault Refusal :=
  chipWriteRow r a 0xF0#8 (fun c _ => c.inPhase .idle) (fun c _ => c.reset1 s.draws) s

/-- FLASH_UNLOCK1: R141. -/
def execFlashUnlock1 (r : ChipRef) (a : Nat) (s : State) : Host.Outcome State Fault Refusal :=
  chipWriteRow r a 0xAA#8 (fun c a => c.inPhase .idle && c.u1 a) (fun c _ => c.goto .unlock1 s.draws) s

/-- FLASH_UNLOCK2: R142. -/
def execFlashUnlock2 (r : ChipRef) (a : Nat) (s : State) : Host.Outcome State Fault Refusal :=
  chipWriteRow r a 0x55#8 (fun c a => c.inPhase .unlock1 && c.u2 a) (fun c _ => c.goto .unlock2 s.draws) s

/-- FLASH_AUTOSELECT: R143. -/
def execFlashAutoselect (r : ChipRef) (a : Nat) (s : State) : Host.Outcome State Fault Refusal :=
  chipWriteRow r a 0x90#8 (fun c a => c.inPhase .unlock2 && c.u1 a) (fun c _ => c.enterAutoselect s.draws) s

/-- FLASH_PROGRAM_SETUP: R144. -/
def execFlashProgramSetup (r : ChipRef) (a : Nat) (s : State) : Host.Outcome State Fault Refusal :=
  chipWriteRow r a 0xA0#8 (fun c a => c.inPhase .unlock2 && c.u1 a && !c.profile.atmelSDP)
    (fun c _ => c.goto .programData s.draws) s

/-- FLASH_ATMEL_SETUP: R185. -/
def execFlashAtmelSetup (r : ChipRef) (a : Nat) (s : State) : Host.Outcome State Fault Refusal :=
  chipWriteRow r a 0xA0#8 (fun c a => c.inPhase .unlock2 && c.u1 a && c.profile.atmelSDP)
    (fun c _ => c.atmelStart s.draws) s

/-- FLASH_ERASE_SETUP: R146. -/
def execFlashEraseSetup (r : ChipRef) (a : Nat) (s : State) : Host.Outcome State Fault Refusal :=
  chipWriteRow r a 0x80#8 (fun c a => c.inPhase .unlock2 && c.u1 a) (fun c _ => c.goto .eraseSetup s.draws) s

/-- FLASH_RESET3: R147. -/
def execFlashReset3 (r : ChipRef) (a : Nat) (s : State) : Host.Outcome State Fault Refusal :=
  chipWriteRow r a 0xF0#8 (fun c _ => c.inPhase .unlock2) (fun c _ => c.reset3 s.draws) s

/-- FLASH_WB_LOAD: R180. -/
def execFlashWbLoad (r : ChipRef) (a : Nat) (s : State) : Host.Outcome State Fault Refusal :=
  chipWriteRow r a 0x25#8 (fun c _ => c.inPhase .unlock2 && c.profile.writeBuffer) (fun c _ => c.goto .wbCount s.draws) s

/-- FLASH_PROGRAM_DATA: R145. -/
def execFlashProgramData (r : ChipRef) (a : Nat) (v : Byte) (s : State) : Host.Outcome State Fault Refusal :=
  chipWriteRow r a v (fun c _ => c.inPhase .programData) (fun c a => c.programByte a v s.draws) s

/-- FLASH_ERASE_UNLOCK1: R150. -/
def execFlashEraseUnlock1 (r : ChipRef) (a : Nat) (s : State) : Host.Outcome State Fault Refusal :=
  chipWriteRow r a 0xAA#8 (fun c a => c.inPhase .eraseSetup && c.u1 a) (fun c _ => c.goto .eraseUnlock1 s.draws) s

/-- FLASH_ERASE_UNLOCK2: R151. -/
def execFlashEraseUnlock2 (r : ChipRef) (a : Nat) (s : State) : Host.Outcome State Fault Refusal :=
  chipWriteRow r a 0x55#8 (fun c a => c.inPhase .eraseUnlock1 && c.u2 a) (fun c _ => c.goto .eraseUnlock2 s.draws) s

/-- FLASH_CHIP_ERASE: R152. -/
def execFlashChipErase (r : ChipRef) (a : Nat) (s : State) : Host.Outcome State Fault Refusal :=
  chipWriteRow r a 0x10#8 (fun c a => c.inPhase .eraseUnlock2 && c.u1 a) (fun c _ => c.chipErase s.now s.draws) s

/-- FLASH_SECTOR_ERASE: R155. -/
def execFlashSectorErase (r : ChipRef) (a : Nat) (s : State) : Host.Outcome State Fault Refusal :=
  chipWriteRow r a 0x30#8 (fun c _ => c.inPhase .eraseUnlock2 && c.profile.sectorErase)
    (fun c a => c.sectorErase a s.now s.draws) s

/-- FLASH_WB_COUNT: R181. -/
def execFlashWbCount (r : ChipRef) (a : Nat) (v : Byte) (s : State) : Host.Outcome State Fault Refusal :=
  chipWriteRow r a v (fun c _ => c.inPhase .wbCount) (fun c _ => c.loadCount v s.draws) s

/-- FLASH_WB_DATA: R182. -/
def execFlashWbData (r : ChipRef) (a : Nat) (v : Byte) (s : State) : Host.Outcome State Fault Refusal :=
  chipWriteRow r a v (fun c _ => c.inPhase .wbData) (fun c a => c.loadData a v s.draws) s

/-- FLASH_WB_CONFIRM: R183. -/
def execFlashWbConfirm (r : ChipRef) (a : Nat) (v : Byte) (s : State) : Host.Outcome State Fault Refusal :=
  chipWriteRow r a v (fun c _ => c.inPhase .wbConfirm) (fun c _ => c.confirm v s.draws) s

/-- FLASH_ATMEL_DATA: R186, R187. -/
def execFlashAtmelData (r : ChipRef) (a : Nat) (v : Byte) (s : State) : Host.Outcome State Fault Refusal :=
  chipWriteRow r a v (fun c _ => c.inPhase .atmelPageLoad) (fun c a => c.atmelData a v s.draws) s

/-- FLASH_ABORT: R148, R149. -/
def execFlashAbort (r : ChipRef) (a : Nat) (v : Byte) (s : State) : Host.Outcome State Fault Refusal :=
  chipWriteRow r a v (fun c a => decide (c.readMode ≠ .sectorEraseStatus) && !c.accepts a v)
    (fun c _ => c.abort s.draws) s

/-- FLASH_SECTOR_ERASE_MORE: R157. -/
def execFlashSectorEraseMore (r : ChipRef) (a : Nat) (s : State) : Host.Outcome State Fault Refusal :=
  chipWriteRow r a 0x30#8
    (fun c _ => decide (c.readMode = .sectorEraseStatus) && c.multiEraseOpen && c.profile.sectorErase)
    (fun c a => c.sectorEraseMore a s.now s.draws) s

/-- FLASH_ERASE_STATUS_EXIT: R157. -/
def execFlashEraseStatusExit (r : ChipRef) (a : Nat) (v : Byte) (s : State) : Host.Outcome State Fault Refusal :=
  chipWriteRow r a v
    (fun c _ => decide (c.readMode = .sectorEraseStatus) && !(v == 0x30#8 && c.multiEraseOpen && c.profile.sectorErase))
    (fun c _ => c.eraseStatusExit s.draws) s

/-- A buffer is already bound to a chip (R162, `SharedImage`). -/
def isBound (chips : List Chip) (buf : Nat) : Bool := chips.any (fun c => c.buf == buf)

/-- The chip `Init` makes of a host buffer: R162. -/
def chipOf (p : Params) (buffer : Buffer) (type : ChipType) : Chip :=
  Chip.initial type (profileOf p type) buffer.id (Memory.ofCells Space.flashImage.fill buffer.size buffer.cells)

/-- FLASH_INIT: R162. The precondition on the length is checked first (assumption 14). -/
def execFlashInit (allocOk : Bool) (buffer : Buffer) (type : ChipType) (s : State) : Host.Outcome State Fault Refusal :=
  if buffer.size ≠ (profileOf s.cfg type).cap then .fault .initSizeMismatch
  else if !allocOk then .fault .initAllocFailure
  else if isBound (s.mapper.chips ++ s.chips) buffer.id then .fault .sharedImage
  else .next (({ s with chips := s.chips ++ [chipOf s.cfg buffer type] }).answer (.chip s.chips.length))

/-- FLASH_COLDRESET: R163. -/
def execFlashColdReset (r : ChipRef) (s : State) : Host.Outcome State Fault Refusal :=
  match s.chipAt r with
  | none => .fault (.noSuchChip r)
  | some c => .next ((s.setChip r c.coldReset).answer .none)

end Sys2Proof.Machine
end

