-- ==== Sys2Proof/Machine/Serial.lean ====
section
/-! DEFINITION. The bit layer the EEPROM and the RTC share (spec 43_serial_eeprom.md section 1). -/

namespace Sys2Proof.Machine

/-- What one `WriteState` call does at the bit layer (R240). -/
inductive LinkEvent where
  /-- Chip enable falls: the transaction ends (R241). -/
  | deselect
  /-- The eighth falling edge: the byte in the input shift register is complete. -/
  | byte (b : Byte)
  /-- Any other call: the link's next state, before the levels are recorded. -/
  | shift (l : Link)
deriving DecidableEq, Repr

/-- The levels of the call are recorded last (R240, R375). -/
def Link.record (l : Link) (ce clk : Bool) : Link := { l with ce := ce, clk := clk }

/-- A rising edge shifts the data bit in, newest in bit 0 (R240). -/
def Link.shiftIn (l : Link) (data : Bool) : Link :=
  { l with inShift := (l.inShift <<< 1) ||| (BitVec.ofBool data).setWidth 8 }

/-- A falling edge but the eighth shifts the next output bit out, filling with 1 (R240, D30). -/
def Link.shiftOut (l : Link) : Link :=
  { l with bitCount := l.bitCount + 1
           outBit := l.outShift.getLsbD 7
           outShift := (l.outShift <<< 1) ||| 1#8 }

/-- The response of a completed byte is loaded and its most significant bit put out at once (R240). -/
def Link.load (l : Link) (resp : Byte) : Link :=
  { l with bitCount := 0
           outBit := resp.getLsbD 7
           outShift := (resp <<< 1) ||| 1#8 }

/-- The link after a deselection; the recorded clock level is kept (R241). -/
def Link.clear (l : Link) : Link :=
  { l with bitCount := 0, inShift := 0x00#8, outShift := 0xFF#8, outBit := true }

/-- The bit layer of `WriteState(ce, clk, d)`: a deselection before any edge (R240, R375). -/
def Link.event (l : Link) (ce clk data : Bool) : LinkEvent :=
  if l.ce && !ce then .deselect
  else if !ce then .shift l
  else if clk && !l.clk then .shift (l.shiftIn data)
  else if l.clk && !clk then (if l.bitCount = 7 then .byte l.inShift else .shift l.shiftOut)
  else .shift l

/-- The call completes a byte `op` (R240): chip enable true, the clock falls, seven falling edges counted. -/
def Link.completes (l : Link) (op : Byte) : Bool := l.clk && decide (l.bitCount = 7) && decide (l.inShift = op)

end Sys2Proof.Machine
end

