-- ==== Sys2Proof/Machine/Eeprom.lean ====
section
/-! DEFINITION. The serial EEPROM (spec 43_serial_eeprom.md section 2 and 3): its command interpreter, the meanings of its
opcode rows and of its host calls. -/

namespace Sys2Proof.Machine

/-- `EEPROM_SIZE` (R7). -/
def eepromSize : Nat := 256

/-- `EEPROM_PAGE` (R7, D32). -/
def eepromPage : Nat := 16

/-- The "no data" response (R243). -/
def noData : Byte := 0xFF#8

/-- `e.mem[a]`. -/
def Eeprom.byteAt (e : Eeprom) (a : Byte) : Byte := Memory.read Space.eepromMem.fill e.mem a.toNat

/-- `Status(e)`: R250. -/
def Eeprom.status (e : Eeprom) : Byte := statusByte e.bp e.wel

/-- `ReadNext(e)`: R252. -/
def Eeprom.readNext (e : Eeprom) : Byte × Eeprom := (e.byteAt e.addr, { e with addr := e.addr + 1 })

/-- `WriteByteE(e, d)`: R261, R252, R255. -/
def Eeprom.writeByte (e : Eeprom) (d : Byte) : Eeprom :=
  let e' := if e.wel && !isProtected e.bp e.addr then
      { e with mem := Memory.write Space.eepromMem.fill e.mem e.addr.toNat d, writeIssued := true }
    else e
  { e' with addr := pageAdvance eepromPage e.addr }

/-- `WrsrData(e, v)`: R259. -/
def Eeprom.writeStatus (e : Eeprom) (v : Byte) : Eeprom :=
  if e.wel then { e with bp := statusBp v, writeIssued := true } else e

/-- WREN: R256. -/
def Eeprom.wren (e : Eeprom) : Byte × Eeprom := (noData, { e with wel := true, cmd := .done })

/-- WRDI: R257. -/
def Eeprom.wrdi (e : Eeprom) : Byte × Eeprom := (noData, { e with wel := false, cmd := .done })

/-- RDSR: R258. -/
def Eeprom.rdsr (e : Eeprom) : Byte × Eeprom := (e.status, { e with cmd := .readStatus })

/-- WRSR: R259. -/
def Eeprom.wrsr (e : Eeprom) : Byte × Eeprom := (noData, { e with cmd := .writeStatus })

/-- READ: R260. -/
def Eeprom.readOp (e : Eeprom) : Byte × Eeprom := (noData, { e with cmd := .readAddr })

/-- WRITE: R261. -/
def Eeprom.writeOp (e : Eeprom) : Byte × Eeprom := (noData, { e with cmd := .writeAddr })

/-- Any other opcode: R262. -/
def Eeprom.unknownOp (e : Eeprom) : Byte × Eeprom := (noData, { e with cmd := .done })

/-- `Opcode(e, b)`: R251, R256 to R262. -/
def Eeprom.opcode (e : Eeprom) (b : Byte) : Byte × Eeprom :=
  if b = 0x06#8 then e.wren
  else if b = 0x04#8 then e.wrdi
  else if b = 0x05#8 then e.rdsr
  else if b = 0x01#8 then e.wrsr
  else if b = 0x03#8 then e.readOp
  else if b = 0x02#8 then e.writeOp
  else e.unknownOp

/-- `OnNextByte(e, b)`: R251. -/
def Eeprom.onNextByte (e : Eeprom) (b : Byte) : Byte × Eeprom :=
  match e.cmd with
  | .idle => e.opcode b
  | .readStatus => (e.status, e)
  | .writeStatus => (noData, { e.writeStatus b with cmd := .done })
  | .readAddr => ({ e with addr := b, cmd := .readData }).readNext
  | .readData => e.readNext
  | .writeAddr => (noData, { e with addr := b, cmd := .writeData })
  | .writeData => (noData, e.writeByte b)
  | .done => (noData, e)

/-- `EndOfTransaction(e)`: R253. -/
def Eeprom.endOfTransaction (e : Eeprom) : Eeprom :=
  if e.writeIssued then { e with wel := false, writeIssued := false } else e

/-- `Deselect(e)`: R241. -/
def Eeprom.deselect (e : Eeprom) : Eeprom :=
  let e' := e.endOfTransaction
  { e' with link := e'.link.clear, cmd := .idle }

/-- A completed byte's outcome: the response is loaded into the link, whose clock is now low (R240). -/
def Eeprom.respond (r : Byte × Eeprom) : Eeprom :=
  { r.2 with link := (r.2.link.load r.1).record true false }

/-- `WriteState(e, ce, clk, d)`: R240. -/
def Eeprom.writeState (e : Eeprom) (ce clk data : Bool) : Eeprom :=
  match e.link.event ce clk data with
  | .deselect => { e.deselect with link := e.deselect.link.record ce clk }
  | .byte b => Eeprom.respond (e.onNextByte b)
  | .shift l => { e with link := l.record ce clk }

/-- `Load(e, img)`: R265. -/
def Eeprom.load (e : Eeprom) (mem : List Byte) (bp : BitVec 2) : Eeprom :=
  { e with mem := Memory.ofBytes Space.eepromMem.fill mem, bp := bp }

/-- The bytes `Save(e)` returns: R266. -/
def Eeprom.bytes (e : Eeprom) : List Byte := Memory.toBytes Space.eepromMem.fill e.mem eepromSize

/-- `ColdReset(e)`: R44, R267. -/
def Eeprom.coldReset (e : Eeprom) : Eeprom :=
  { e with link := Link.initial, cmd := .idle, writeIssued := false, wel := false }

/-- An EEPROM opcode row: the WriteState call that completes `op` as the first byte of a transaction takes the row's
effect; in any other state of the link the call is what R240 says it is (assumptions 12 and 13). -/
def eeRow (op : Byte) (effect : Eeprom → Byte × Eeprom) (s : State) : Host.Outcome State Fault Refusal :=
  .next (({ s with eeprom :=
      if s.eeprom.link.completes op && decide (s.eeprom.cmd = EeCmd.idle) then Eeprom.respond (effect s.eeprom)
      else s.eeprom.writeState true false false }).answer .none)

/-- EE_WREN: R256. -/
def execEeWren (s : State) : Host.Outcome State Fault Refusal := eeRow 0x06#8 Eeprom.wren s

/-- EE_WRDI: R257. -/
def execEeWrdi (s : State) : Host.Outcome State Fault Refusal := eeRow 0x04#8 Eeprom.wrdi s

/-- EE_RDSR: R258. -/
def execEeRdsr (s : State) : Host.Outcome State Fault Refusal := eeRow 0x05#8 Eeprom.rdsr s

/-- EE_WRSR: R259. -/
def execEeWrsr (s : State) : Host.Outcome State Fault Refusal := eeRow 0x01#8 Eeprom.wrsr s

/-- EE_READ: R260. -/
def execEeRead (s : State) : Host.Outcome State Fault Refusal := eeRow 0x03#8 Eeprom.readOp s

/-- EE_WRITE: R261. -/
def execEeWrite (s : State) : Host.Outcome State Fault Refusal := eeRow 0x02#8 Eeprom.writeOp s

/-- EE_UNKNOWN: R262. An opcode of the map is that opcode's row. -/
def execEeUnknown (op : Byte) (s : State) : Host.Outcome State Fault Refusal :=
  eeRow op (fun e => if eeOpcodes.contains op then e.opcode op else e.unknownOp) s

/-- EE_LOAD: R265. -/
def execEeLoad (mem : List Byte) (bp : BitVec 2) (s : State) : Host.Outcome State Fault Refusal :=
  if mem.length ≠ eepromSize then .fault .loadSizeMismatch
  else .next (({ s with eeprom := s.eeprom.load mem bp }).answer .none)

/-- EE_SAVE: R266. -/
def execEeSave (s : State) : Host.Outcome State Fault Refusal :=
  .next (s.answer (.eeImage s.eeprom.bytes s.eeprom.bp))

/-- EE_COLDRESET: R267. -/
def execEeColdReset (s : State) : Host.Outcome State Fault Refusal :=
  .next (({ s with eeprom := s.eeprom.coldReset }).answer .none)

end Sys2Proof.Machine
end

