-- ==== Sys2Proof/Machine/Rtc.lean ====
section
/-! DEFINITION. The serial real-time clock (spec 44_serial_rtc.md): its command interpreter, the time refresh, the meanings
of its opcode rows and of its host calls. -/

namespace Sys2Proof.Machine

/-- `RTC_RAM_SIZE` (R7). -/
def rtcRamSize : Nat := 0x60

/-- `RTC_EE_SIZE` (R7). -/
def rtcEeSize : Nat := 0x100

/-- `RTC_ID_SIZE` (R7). -/
def rtcIdSize : Nat := 0x10

/-- `RTC_EE_PAGE` (R7, D39). -/
def rtcEePage : Nat := 8

/-- `r.ram[a]`. -/
def Rtc.ramAt (r : Rtc) (a : Nat) : Byte := Memory.read Space.rtcRam.fill r.ram a

/-- `r.ram[a] <- v`. -/
def Rtc.setRam (r : Rtc) (a : Nat) (v : Byte) : Rtc := { r with ram := Memory.write Space.rtcRam.fill r.ram a v }

/-- `StatusR(r)`: R292. -/
def Rtc.status (r : Rtc) : Byte := statusByte r.bp r.wel

/-- The RAM address advance of R294. -/
def ramAdvance (a : Byte) : Byte := if a = 0x5F#8 then 0x00#8 else a + 1

/-- `RamNext(r)`: R294. -/
def Rtc.ramNext (r : Rtc) : Byte × Rtc :=
  (if r.addr.toNat < rtcRamSize then r.ramAt r.addr.toNat else noData, { r with addr := ramAdvance r.addr })

/-- `RamWriteByte(r, d)`: R294. -/
def Rtc.ramWriteByte (r : Rtc) (d : Byte) : Rtc :=
  let r' := if r.addr.toNat < rtcRamSize then r.setRam r.addr.toNat d else r
  { r' with addr := ramAdvance r.addr }

/-- `EeNext(r)`: R294. -/
def Rtc.eeNext (r : Rtc) : Byte × Rtc :=
  (Memory.read Space.rtcEe.fill r.ee r.addr.toNat, { r with addr := r.addr + 1 })

/-- `EeWriteByte(r, d)`: R295, R255. -/
def Rtc.eeWriteByte (r : Rtc) (d : Byte) : Rtc :=
  let r' := if r.wel && !isProtected r.bp r.addr then
      { r with ee := Memory.write Space.rtcEe.fill r.ee r.addr.toNat d, writeIssued := true }
    else r
  { r' with addr := pageAdvance rtcEePage r.addr }

/-- `IdNext(r)`: R294. -/
def Rtc.idNext (r : Rtc) : Byte × Rtc :=
  (Memory.read Space.rtcId.fill r.id r.addr.toNat, { r with addr := (r.addr + 1) &&& 0x0F#8 })

/-- The ID byte write of R293 (`IdWriteData`). -/
def Rtc.idWriteByte (r : Rtc) (d : Byte) : Rtc :=
  { r with id := Memory.write Space.rtcId.fill r.id r.addr.toNat d
           writeIssued := true
           addr := (r.addr + 1) &&& 0x0F#8 }

/-- `TimeRefresh(r)`: R300, with the control bits of R47 kept. The clock value is the host's input (assumption 8). -/
def Rtc.timeRefresh (r : Rtc) (t : HostTime) : Rtc :=
  let r1 := r.setRam 0x01 ((r.ramAt 0x01 &&& 0x80#8) ||| bcd t.sec)
  let r2 := r1.setRam 0x02 ((r1.ramAt 0x02 &&& 0x80#8) ||| bcd t.min)
  let r3 := r2.setRam 0x03 ((r2.ramAt 0x03 &&& 0x80#8) ||| bcd t.hour)
  let r4 := r3.setRam 0x04 ((r3.ramAt 0x04 &&& 0xF8#8) ||| BitVec.ofNat 8 (t.wday + 1))
  let r5 := r4.setRam 0x05 ((r4.ramAt 0x05 &&& 0xC0#8) ||| bcd t.day)
  let r6 := r5.setRam 0x06 ((r5.ramAt 0x06 &&& 0xC0#8) ||| (leapFlag t.year <<< 5) ||| bcd t.month)
  r6.setRam 0x07 (bcd (t.year % 100))

/-- `SrWriteData(r, v)`: R306. -/
def Rtc.writeStatus (r : Rtc) (v : Byte) : Rtc :=
  if r.wel then { r with bp := statusBp v, writeIssued := true } else r

/-- `UnlockStep(r, k)`: R309. -/
def Rtc.unlockStep (r : Rtc) (k : Byte) : Rtc :=
  if r.unlock = 0 ∧ k = 0x55#8 then { r with unlock := 1 }
  else if r.unlock = 1 ∧ k = 0xAA#8 then { r with unlock := 2 }
  else { r with unlock := 0 }

/-- An opcode that resets the unlock progress and enters a state with no data out (R301, R302, R306 to R308, R311). -/
def Rtc.enter (r : Rtc) (cmd : RtcCmd) : Byte × Rtc := (noData, { r with unlock := 0, cmd := cmd })

/-- EEWRDI: R303. -/
def Rtc.eeWrdi (r : Rtc) : Byte × Rtc := (noData, { r with unlock := 0, wel := false, cmd := .done })

/-- EEWREN: R304; the unlock progress is kept. -/
def Rtc.eeWren (r : Rtc) : Byte × Rtc := (noData, { r with wel := true, cmd := .done })

/-- SRREAD: R305; the unlock progress is kept. -/
def Rtc.srRead (r : Rtc) : Byte × Rtc := (r.status, { r with cmd := .readStatus })

/-- UNLOCK's opcode byte: R309. -/
def Rtc.unlockOp (r : Rtc) : Byte × Rtc := (noData, { r with cmd := .unlockKey })

/-- IDWRITE's opcode byte: R310. -/
def Rtc.idWriteOp (r : Rtc) : Byte × Rtc :=
  (noData, { r with unlock := 0, cmd := if r.unlock = 2 ∧ r.wel then .idWriteAddr else .done })

/-- CLRRAM: R312. -/
def Rtc.clrRam (r : Rtc) : Byte × Rtc :=
  (noData, { r with unlock := 0, ram := Memory.clear r.ram 0x20 0x40, cmd := .done })

/-- `OpcodeR(r, b)`: R293, R301 to R312, R314. -/
def Rtc.opcode (r : Rtc) (b : Byte) : Byte × Rtc :=
  if b = 0x03#8 then r.enter .eeReadAddr
  else if b = 0x02#8 then r.enter .eeWriteAddr
  else if b = 0x04#8 then r.eeWrdi
  else if b = 0x06#8 then r.eeWren
  else if b = 0x05#8 then r.srRead
  else if b = 0x01#8 then r.enter .writeStatus
  else if b = 0x13#8 then r.enter .ramReadAddr
  else if b = 0x12#8 then r.enter .ramWriteAddr
  else if b = 0x14#8 then r.unlockOp
  else if b = 0x32#8 then r.idWriteOp
  else if b = 0x33#8 then r.enter .idReadAddr
  else if b = 0x54#8 then r.clrRam
  else r.enter .done

/-- `OnNextByte(r, b)`: R293. -/
def Rtc.onNextByte (r : Rtc) (clock : HostTime) (b : Byte) : Byte × Rtc :=
  match r.cmd with
  | .idle => r.opcode b
  | .readStatus => (r.status, r)
  | .writeStatus => (noData, { r.writeStatus b with cmd := .done })
  | .eeReadAddr => ({ r with addr := b, cmd := .eeReadData }).eeNext
  | .eeReadData => r.eeNext
  | .eeWriteAddr => (noData, { r with addr := b, cmd := .eeWriteData })
  | .eeWriteData => (noData, r.eeWriteByte b)
  | .ramReadAddr => (({ r with addr := b, cmd := .ramReadData }).timeRefresh clock).ramNext
  | .ramReadData => r.ramNext
  | .ramWriteAddr => (noData, { r with addr := b, cmd := .ramWriteData })
  | .ramWriteData => (noData, r.ramWriteByte b)
  | .idReadAddr => ({ r with addr := b &&& 0x0F#8, cmd := .idReadData }).idNext
  | .idReadData => r.idNext
  | .idWriteAddr => (noData, { r with addr := b &&& 0x0F#8, cmd := .idWriteData })
  | .idWriteData => (noData, r.idWriteByte b)
  | .unlockKey => (noData, { r.unlockStep b with cmd := .done })
  | .done => (noData, r)

/-- `EndOfTransaction(r)`: R313. -/
def Rtc.endOfTransaction (r : Rtc) : Rtc :=
  if r.writeIssued then { r with wel := false, writeIssued := false } else r

/-- `Deselect(r)`: R241, R313. -/
def Rtc.deselect (r : Rtc) : Rtc :=
  let r' := r.endOfTransaction
  { r' with link := r'.link.clear, cmd := .idle }

/-- A completed byte's outcome (R240). -/
def Rtc.respond (x : Byte × Rtc) : Rtc := { x.2 with link := (x.2.link.load x.1).record true false }

/-- `WriteState(r, ce, clk, d)`: R240, R290. -/
def Rtc.writeState (r : Rtc) (clock : HostTime) (ce clk data : Bool) : Rtc :=
  match r.link.event ce clk data with
  | .deselect => { r.deselect with link := r.deselect.link.record ce clk }
  | .byte b => Rtc.respond (r.onNextByte clock b)
  | .shift l => { r with link := l.record ce clk }

/-- `Load(r, img)`: R315. -/
def Rtc.load (r : Rtc) (ram ee id : List Byte) (bp : BitVec 2) : Rtc :=
  { r with ram := Memory.ofBytes Space.rtcRam.fill ram
           ee := Memory.ofBytes Space.rtcEe.fill ee
           id := Memory.ofBytes Space.rtcId.fill id
           bp := bp }

/-- What `Save(r)` returns: R316. -/
def Rtc.image (r : Rtc) : Result :=
  .rtcImage (Memory.toBytes Space.rtcRam.fill r.ram rtcRamSize) (Memory.toBytes Space.rtcEe.fill r.ee rtcEeSize)
    (Memory.toBytes Space.rtcId.fill r.id rtcIdSize) r.bp

/-- `ColdReset(r)`: R49, R317. -/
def Rtc.coldReset (r : Rtc) : Rtc :=
  { r with link := Link.initial, cmd := .idle, writeIssued := false, wel := false, unlock := 0 }

/-- An RTC opcode row; see `eeRow`. -/
def rtcRow (op : Byte) (effect : Rtc → Byte × Rtc) (s : State) : Host.Outcome State Fault Refusal :=
  .next (({ s with rtc :=
      if s.rtc.link.completes op && decide (s.rtc.cmd = RtcCmd.idle) then Rtc.respond (effect s.rtc)
      else s.rtc.writeState s.clock true false false }).answer .none)

/-- RTC_EEREAD: R301. -/
def execRtcEeRead (s : State) : Host.Outcome State Fault Refusal := rtcRow 0x03#8 (fun r => r.enter .eeReadAddr) s

/-- RTC_EEWRITE: R302. -/
def execRtcEeWrite (s : State) : Host.Outcome State Fault Refusal := rtcRow 0x02#8 (fun r => r.enter .eeWriteAddr) s

/-- RTC_EEWRDI: R303. -/
def execRtcEeWrdi (s : State) : Host.Outcome State Fault Refusal := rtcRow 0x04#8 Rtc.eeWrdi s

/-- RTC_EEWREN: R304. -/
def execRtcEeWren (s : State) : Host.Outcome State Fault Refusal := rtcRow 0x06#8 Rtc.eeWren s

/-- RTC_SRREAD: R305. -/
def execRtcSrRead (s : State) : Host.Outcome State Fault Refusal := rtcRow 0x05#8 Rtc.srRead s

/-- RTC_SRWRITE: R306. -/
def execRtcSrWrite (s : State) : Host.Outcome State Fault Refusal := rtcRow 0x01#8 (fun r => r.enter .writeStatus) s

/-- RTC_READ: R307. -/
def execRtcRead (s : State) : Host.Outcome State Fault Refusal := rtcRow 0x13#8 (fun r => r.enter .ramReadAddr) s

/-- RTC_WRITE: R308. -/
def execRtcWrite (s : State) : Host.Outcome State Fault Refusal := rtcRow 0x12#8 (fun r => r.enter .ramWriteAddr) s

/-- RTC_UNLOCK: R309. -/
def execRtcUnlock (s : State) : Host.Outcome State Fault Refusal := rtcRow 0x14#8 Rtc.unlockOp s

/-- RTC_IDWRITE: R310. -/
def execRtcIdWrite (s : State) : Host.Outcome State Fault Refusal := rtcRow 0x32#8 Rtc.idWriteOp s

/-- RTC_IDREAD: R311. -/
def execRtcIdRead (s : State) : Host.Outcome State Fault Refusal := rtcRow 0x33#8 (fun r => r.enter .idReadAddr) s

/-- RTC_CLRRAM: R312. -/
def execRtcClrRam (s : State) : Host.Outcome State Fault Refusal := rtcRow 0x54#8 Rtc.clrRam s

/-- RTC_UNKNOWN: R314. An opcode of the map is that opcode's row. -/
def execRtcUnknown (op : Byte) (s : State) : Host.Outcome State Fault Refusal :=
  rtcRow op (fun r => if rtcOpcodes.contains op then r.opcode op else r.enter .done) s

/-- RTC_LOAD: R315. -/
def execRtcLoad (ram ee id : List Byte) (bp : BitVec 2) (s : State) : Host.Outcome State Fault Refusal :=
  if ram.length ≠ rtcRamSize ∨ ee.length ≠ rtcEeSize ∨ id.length ≠ rtcIdSize then .fault .loadSizeMismatch
  else .next (({ s with rtc := s.rtc.load ram ee id bp }).answer .none)

/-- RTC_SAVE: R316. -/
def execRtcSave (s : State) : Host.Outcome State Fault Refusal := .next (s.answer s.rtc.image)

/-- RTC_COLDRESET: R317. -/
def execRtcColdReset (s : State) : Host.Outcome State Fault Refusal :=
  .next (({ s with rtc := s.rtc.coldReset }).answer .none)

/-- `WriteState(dev, ce, clk, d)` (R240, R290). -/
def writeState (dev : Dev) (ce clk data : Bool) (s : State) : State :=
  match dev with
  | .eeprom => { s with eeprom := s.eeprom.writeState ce clk data }
  | .rtc => { s with rtc := s.rtc.writeState s.clock ce clk data }

/-- The output bit `ReadState(dev)` returns (R242, R290). -/
def outBit (dev : Dev) (s : State) : Bool :=
  match dev with
  | .eeprom => s.eeprom.link.outBit
  | .rtc => s.rtc.link.outBit

/-- SERIAL_WRITESTATE: R240. -/
def execSerialWriteState (dev : Dev) (ce clk data : Bool) (s : State) : Host.Outcome State Fault Refusal :=
  .next ((writeState dev ce clk data s).answer .none)

/-- SERIAL_READSTATE: R242. -/
def execSerialReadState (dev : Dev) (s : State) : Host.Outcome State Fault Refusal :=
  .next (s.answer (.bit (outBit dev s)))

end Sys2Proof.Machine
end

