-- ==== Sys2Proof/Machine/Mapper.lean ====
section
/-! DEFINITION. The bank mapper (spec 45_bank_mapper.md): the layout of each variant, the install protocol, the window
and control-register accesses, reset and Init, and the meanings of the mapper rows. -/

namespace Sys2Proof.Machine

/-! ### Layouts -/

/-- The size of a window source or destination (R332). -/
def Mapper.sourceSize (m : Mapper) : Source → Nat
  | .none => 0
  | .flash k => match m.chips[k]? with
    | some c => c.profile.cap
    | none => 0
  | .ram => m.ramSize

/-- A base a window may have in a source (R332): the window lies in the source and the base is aligned. -/
def Mapper.fits (m : Mapper) (src : Source) (base : Nat) : Bool :=
  decide (src = .none) || (decide (base + 0x1FFF < m.sourceSize src) && decide (base % 0x2000 = 0))

/-- A derived descriptor that breaks R332 is the disabled one (R332, R337). -/
def Mapper.checked (m : Mapper) (d : Desc) : Desc :=
  if d.readSrc ≠ .none ∧ m.fits d.readSrc d.base ∧ m.fits d.writeDst d.writeBase then d else Desc.disabled

/-- The base of bank `bank` of a source in banks of `size` bytes, at `off` in the bank (R333, R336). -/
def Mapper.bankBase (m : Mapper) (src : Source) (bank size off : Nat) : Nat :=
  maskBank bank (m.sourceSize src / size) * size + off

/-- The window on bank `bank` of chip 0. -/
def Mapper.flashWindow (m : Mapper) (dst : Source) (bank size off : Nat) : Desc :=
  let base := m.bankBase (.flash 0) bank size off
  m.checked { readSrc := .flash 0, writeDst := dst, base := base, writeBase := base }

/-- The MegaCart layout: R340. -/
def Mapper.megaLayout (m : Mapper) : Layout where
  w809f := Desc.disabled
  wa0bf := m.flashWindow (.flash 0) m.regs.bank.toNat 0x4000 0

/-- A flag of a register byte. -/
def flagHolds (f : FlagBit) (reg : Byte) : Bool := reg.getLsbD f.bit == f.level

/-- One window of SIC! (R360): the bank of the register at `off`, when its flag enables it. -/
def Mapper.sicWindow (m : Mapper) (p : SicMap) (enable : FlagBit) (off : Nat) : Desc :=
  if flagHolds enable m.regs.sic then
    m.flashWindow (if flagHolds p.flashWrite m.regs.sic then .flash 0 else .none)
      (bitField (m.regs.sic.setWidth 16) p.bankBit p.bankWidth).toNat 0x4000 off
  else Desc.disabled

/-- The SIC! layout: R360, for the register map `P_SicRegs`. -/
def Mapper.sicLayout (m : Mapper) (p : SicMap) : Layout where
  w809f := m.sicWindow p p.enable809f 0
  wa0bf := m.sicWindow p p.enableA0bf 0x2000

/-- The MaxFlash layout: R361. -/
def Mapper.maxLayout (m : Mapper) : Layout where
  w809f := Desc.disabled
  wa0bf := if m.regs.enabled then m.flashWindow (.flash 0) m.regs.bank.toNat 0x2000 0 else Desc.disabled

/-- The scheme a mode value selects (`P_TheCartScheme`, R353); `none` for an unknown mode. -/
def schemeOf (p : TcParams) (mode : Byte) : Option TcScheme := (p.schemes.find? (fun r => r.1 == mode)).map (·.2)

/-- The table a mode value gives (R353): 256 entries. -/
def schemeTable (p : TcParams) (mode : Byte) : List TcEntry :=
  match schemeOf p mode with
  | some sch => (List.range 256).map (fun i => sch.entries.getD i .noChange)
  | none => List.replicate 256 .noChange

/-- One window of TheCart: R350. The write base is masked to the write destination's own bank count (assumption 19). -/
def Mapper.theCartWindow (m : Mapper) (p : TcParams) (bank : BitVec 16) (en : Bool) : Desc :=
  let src := if m.regs.cart.ramRead then Source.ram else .flash 0
  let dst := if m.regs.cart.ramWrite then Source.ram else if m.regs.cart.flashWrite then .flash 0 else .none
  if en ∧ (schemeOf p m.regs.cart.mode).isSome then
    m.checked { readSrc := src, writeDst := dst
                base := m.bankBase src bank.toNat p.bankSize 0
                writeBase := if dst = .none then m.bankBase src bank.toNat p.bankSize 0
                  else m.bankBase dst bank.toNat p.bankSize 0 }
  else Desc.disabled

/-- TheCart's layout: R350; an unknown mode is an invalid configuration (R353, R337). -/
def Mapper.theCartLayout (m : Mapper) (p : TcParams) : Layout where
  w809f := m.theCartWindow p m.regs.cart.bank1 m.regs.cart.en1
  wa0bf := m.theCartWindow p m.regs.cart.bank0 m.regs.cart.en0

/-- `Layout(m)` (R340, R350, R360, R361). -/
def Mapper.layout (m : Mapper) (p : Params) : Layout :=
  match m.type with
  | .megaCart512 | .megaCart4M => m.megaLayout
  | .theCart => m.theCartLayout p.theCart
  | .sic => m.sicLayout p.sic
  | .maxFlash1 | .maxFlash8 => m.maxLayout

/-! ### Installing -/

/-- The memory-layer calls that install one window (R335, D56). -/
def installCalls (w : Win) (d : Desc) : List LayerCall :=
  if d.readSrc = .none then [.cartDisable w]
  else [.setFlashRoutines w, .setFlash w.start (w.start + 0x1FFF), .cartEnable w]

/-- A layout's descriptor of a window. -/
def Layout.desc (l : Layout) : Win → Desc
  | .w809f => l.w809f
  | .wa0bf => l.wa0bf

/-- The descriptor of R53: the read source, the write destination and the base. It is what R335 compares; the model's write
base is no part of it (assumption 19). -/
def Desc.triple (d : Desc) : Source × Source × Nat := (d.readSrc, d.writeDst, d.base)

/-- The calls `Apply` makes for one window (R335): none when the installed descriptor is the new one. -/
def windowCalls (old : Option Layout) (new : Layout) (w : Win) : List LayerCall :=
  if old.map (fun l => (l.desc w).triple) = some (new.desc w).triple then [] else installCalls w (new.desc w)

/-- `Apply(m, Layout(m))`: R335. The new layout is the installed one, its write bases too, whatever calls are made. -/
def State.applyLayout (s : State) : State :=
  let l := s.mapper.layout s.cfg
  ({ s with mapper := { s.mapper with installed := some l } }).emit
    (windowCalls s.mapper.installed l .w809f ++ windowCalls s.mapper.installed l .wa0bf)

/-- The installed descriptor of a window; the disabled one before the first install. -/
def Mapper.descOf (m : Mapper) (w : Win) : Desc :=
  match m.installed with
  | some l => l.desc w
  | none => Desc.disabled

/-! ### Window accesses -/

/-- `lin = base + (x - W.start)` (R73). -/
def linear (base : Nat) (w : Win) (x : CpuAddr) : Nat := base + (x.toNat - w.start)

/-- `m.ram[a mod m.ramSize]`. -/
def Mapper.ramAt (m : Mapper) (a : Nat) : Byte := Memory.read Space.mapperRam.fill m.ram (a % m.ramSize)

/-- `m.ram[a mod m.ramSize] <- v`. -/
def Mapper.setRam (m : Mapper) (a : Nat) (v : Byte) : Mapper :=
  { m with ram := Memory.write Space.mapperRam.fill m.ram (a % m.ramSize) v }

/-- `WinRead_W(m, x, now)` for a descriptor: R331. An access the block does not serve leaves its state alone (D48). -/
def windowRead (d : Desc) (w : Win) (x : CpuAddr) (s : State) : State :=
  match d.readSrc with
  | .none => s.answer .notServed
  | .flash k =>
    match s.chipAt (.mapper k) with
    | some c =>
      let y := c.read s.cfg (linear d.base w x) s.now s.draws
      (s.putAccess (.mapper k) y).answer (.cpuByte y.value)
    | none => s.answer .notServed
  | .ram => s.answer (.cpuByte (s.mapper.ramAt (linear d.base w x)))

/-- `WinWrite_W(m, x, v, now)` for a descriptor: R334. -/
def windowWrite (d : Desc) (w : Win) (x : CpuAddr) (v : Byte) (s : State) : State :=
  if d.readSrc = .none then s.answer .notServed
  else match d.writeDst with
    | .none => s.answer .none
    | .flash k =>
      match s.chipAt (.mapper k) with
      | some c => (s.putAccess (.mapper k) (c.write (linear d.writeBase w x) v s.now s.draws)).answer .none
      | none => s.answer .notServed
    | .ram => ({ s with mapper := s.mapper.setRam (linear d.writeBase w x) v }).answer .none

/-- MAP_WIN_READ: R331. -/
def execMapWinRead (x : CpuAddr) (s : State) : Host.Outcome State Fault Refusal :=
  match windowOf x with
  | some w => .next (windowRead (s.mapper.descOf w) w x s)
  | none => .next (s.answer .notServed)

/-- MAP_WIN_WRITE: R334. -/
def execMapWinWrite (x : CpuAddr) (v : Byte) (s : State) : Host.Outcome State Fault Refusal :=
  match windowOf x with
  | some w => .next (windowWrite (s.mapper.descOf w) w x v s)
  | none => .next (s.answer .notServed)

/-! ### Control registers -/

/-- A field of TheCart's register file, as sixteen bits (R55). -/
def tcGet (g : TcRegs) : TcField → BitVec 16
  | .bank0 => g.bank0
  | .bank1 => g.bank1
  | .en0 => (BitVec.ofBool g.en0).setWidth 16
  | .en1 => (BitVec.ofBool g.en1).setWidth 16
  | .mode => g.mode.setWidth 16
  | .ramRead => (BitVec.ofBool g.ramRead).setWidth 16
  | .ramWrite => (BitVec.ofBool g.ramWrite).setWidth 16
  | .flashWrite => (BitVec.ofBool g.flashWrite).setWidth 16
  | .lock => g.lock.setWidth 16

/-- The register file with one field set. -/
def tcPut (g : TcRegs) (f : TcField) (v : BitVec 16) : TcRegs :=
  match f with
  | .bank0 => { g with bank0 := v }
  | .bank1 => { g with bank1 := v }
  | .en0 => { g with en0 := v.getLsbD 0 }
  | .en1 => { g with en1 := v.getLsbD 0 }
  | .mode => { g with mode := v.setWidth 8 }
  | .ramRead => { g with ramRead := v.getLsbD 0 }
  | .ramWrite => { g with ramWrite := v.getLsbD 0 }
  | .flashWrite => { g with flashWrite := v.getLsbD 0 }
  | .lock => { g with lock := v.setWidth 8 }

/-- A write of a control byte to a native register: each of its slices (assumption 18). -/
def tcWrite (g : TcRegs) (r : TcRegister) (v : Byte) : TcRegs :=
  r.slices.foldl
    (fun g sl => tcPut g sl.field (setBitField (tcGet g sl.field) (bitField (v.setWidth 16) sl.bit sl.width) sl.pos sl.width)) g

/-- A read of a native register: its slices over the pad. -/
def tcRead (g : TcRegs) (r : TcRegister) : Byte :=
  (r.slices.foldl
    (fun v sl => setBitField v (bitField (tcGet g sl.field) sl.pos sl.width) sl.bit sl.width) (r.pad.setWidth 16)).setWidth 8

/-- The native register at a page offset. -/
def registerAt (p : TcParams) (off : Byte) : Option TcRegister := p.registers.find? (fun r => r.off == off)

/-- The serial register, if it is at a page offset (R352). -/
def serialAt (p : TcParams) (off : Byte) : Option TcSerial :=
  match p.serial with
  | some r => if r.off = off then some r else none
  | none => none

/-- A write to a lockable register is ignored while the lock is set (R353). -/
def tcIgnores (g : TcRegs) (lockable : Bool) : Bool := lockable && decide (g.lock ≠ 0x00#8)

/-- One native bank register as a table entry leaves it: a selected bank, or a disabled window where it names none (R337,
R351). What the registers hold then is the model's: the enable bit is cleared and the bank number kept (DESIGN CHOICE,
assumption 33). -/
def tcSelect : TcBankSel → BitVec 16 × Bool → BitVec 16 × Bool
  | .bank b en, _ => (b, en)
  | .noBank, (b, _) => (b, false)

/-- The legacy decode of R351. -/
def tcApplyEntry (g : TcRegs) : TcEntry → TcRegs
  | .noChange => g
  | .set sel0 sel1 =>
    { g with bank0 := (tcSelect sel0 (g.bank0, g.en0)).1, en0 := (tcSelect sel0 (g.bank0, g.en0)).2
             bank1 := (tcSelect sel1 (g.bank1, g.en1)).1, en1 := (tcSelect sel1 (g.bank1, g.en1)).2 }

/-- The table index of a legacy write (R351, R116). -/
def legacyIndex (sch : TcScheme) (x : CpuAddr) (v : Byte) : Nat := if sch.byAddress then (ctlOffset x).toNat else v.toNat

/-- A legacy control write: R351. -/
def Mapper.legacyWrite (m : Mapper) (p : TcParams) (x : CpuAddr) (v : Byte) : Mapper :=
  match schemeOf p m.regs.cart.mode with
  | some sch =>
    { m with regs := { m.regs with cart := tcApplyEntry m.regs.cart (m.table.getD (legacyIndex sch x v) .noChange) } }
  | none => m

/-- A write to a native register of TheCart: R353. A write that sets the mode register rebuilds the table. -/
def Mapper.nativeWrite (m : Mapper) (p : TcParams) (r : TcRegister) (v : Byte) : Mapper :=
  if tcIgnores m.regs.cart r.lockable then m
  else
    let g := tcWrite m.regs.cart r v
    { m with regs := { m.regs with cart := g }
             table := if r.slices.any (fun sl => sl.field == TcField.mode) then schemeTable p g.mode else m.table }

/-- A TheCart control write (R351 to R353): the serial register, a native register, or a legacy write. -/
def theCartWrite (x : CpuAddr) (v : Byte) (s : State) : State :=
  match serialAt s.cfg.theCart (ctlOffset x) with
  | some r =>
    if tcIgnores s.mapper.regs.cart r.lockable then s
    else writeState .eeprom (v.getLsbD r.ceBit) (v.getLsbD r.clkBit) (v.getLsbD r.dataBit) s
  | none =>
    match registerAt s.cfg.theCart (ctlOffset x) with
    | some r => { s with mapper := s.mapper.nativeWrite s.cfg.theCart r v }
    | none => { s with mapper := s.mapper.legacyWrite s.cfg.theCart x v }

/-- The byte a TheCart control read returns (R339, R352). -/
def theCartByte (x : CpuAddr) (s : State) : Byte :=
  match serialAt s.cfg.theCart (ctlOffset x) with
  | some r =>
    (setBitField (r.pad.setWidth 16) ((BitVec.ofBool (outBit .eeprom s)).setWidth 16) r.outBit 1).setWidth 8
  | none =>
    match registerAt s.cfg.theCart (ctlOffset x) with
    | some r => tcRead s.mapper.regs.cart r
    | none => noData

/-- An offset lies in a range of the control page. -/
def rangeHas (r : CtlRange) (off : Byte) : Bool := decide (r.first.toNat ≤ off.toNat) && decide (off.toNat ≤ r.last.toNat)

/-- The MegaCart register at a page offset (`P_MegaCartRegs`). -/
def megaRegisterAt (p : List MegaRegister) (off : Byte) : Option MegaRegister := p.find? (fun r => rangeHas r.range off)

/-- A bank register with the bits a MegaCart register takes from the byte written (R342). -/
def megaPut (r : MegaRegister) (bank v : Byte) : Byte :=
  (r.slices.foldl (fun b sl => setBitField b (bitField (v.setWidth 16) sl.bit sl.width) sl.pos sl.width)
    (bank.setWidth 16)).setWidth 8

/-- The byte a read of a MegaCart register gives. -/
def megaGet (r : MegaRegister) (bank : Byte) : Byte :=
  (r.slices.foldl (fun b sl => setBitField b (bitField (bank.setWidth 16) sl.pos sl.width) sl.bit sl.width)
    (r.pad.setWidth 16)).setWidth 8

/-- The bank after a MegaCart control write of `v` at an offset (R342); an offset with no register keeps it. -/
def megaBank (p : List MegaRegister) (off bank v : Byte) : Byte :=
  match megaRegisterAt p off with
  | some r => megaPut r bank v
  | none => bank

/-- The byte of a MegaCart control read at an offset (R339, R342); 0xFF where no register answers. -/
def megaByte (p : List MegaRegister) (off bank : Byte) : Byte :=
  match megaRegisterAt p off with
  | some r => if r.readable then megaGet r bank else noData
  | none => noData

/-- `P_MaxFlashRegs` of a cartridge: the 8 Mbit variant's, and the 1 Mbit variant's. -/
def maxMapOf (p : Params) : MapperType → MaxMap
  | .maxFlash8 => p.maxFlash8
  | _ => p.maxFlash1

/-- A MaxFlash register is at the offset (R361). -/
def maxHits (r : MaxMap) (off : Byte) : Bool := rangeHas r.select off || rangeHas r.disable off

/-- A MaxFlash access (R361): a select offset selects its bank and enables the window, a disable offset disables it. -/
def Mapper.maxAccess (m : Mapper) (p : MaxMap) (x : CpuAddr) : Mapper :=
  if rangeHas p.select (ctlOffset x) then
    { m with regs := { m.regs with bank := ctlOffset x - p.select.first, enabled := true } }
  else if rangeHas p.disable (ctlOffset x) then { m with regs := { m.regs with enabled := false } }
  else m

/-- `CtlWrite(m.type, m.regs, x, v)` (R342, R351 to R353, R360, R361), for the register maps of the parameters (D45). -/
def ctlWrite (x : CpuAddr) (v : Byte) (s : State) : State :=
  match s.mapper.type with
  | .megaCart512 | .megaCart4M =>
    { s with mapper := { s.mapper with
        regs := { s.mapper.regs with bank := megaBank s.cfg.megaCart (ctlOffset x) s.mapper.regs.bank v } } }
  | .theCart => theCartWrite x v s
  | .sic =>
    if rangeHas s.cfg.sic.range (ctlOffset x) then
      { s with mapper := { s.mapper with regs := { s.mapper.regs with sic := v } } }
    else s
  | .maxFlash1 | .maxFlash8 => { s with mapper := s.mapper.maxAccess (maxMapOf s.cfg s.mapper.type) x }

/-- `CtlRead(m.type, m.regs, x)` (R339, R342, R352, R360, R361): the byte and the state. The byte of a MaxFlash register is
a free value (assumption 20). -/
def ctlRead (x : CpuAddr) (s : State) : Byte × State :=
  match s.mapper.type with
  | .megaCart512 | .megaCart4M => (megaByte s.cfg.megaCart (ctlOffset x) s.mapper.regs.bank, s)
  | .theCart => (theCartByte x s, s)
  | .sic => (if s.cfg.sic.readable && rangeHas s.cfg.sic.range (ctlOffset x) then s.mapper.regs.sic else noData, s)
  | .maxFlash1 | .maxFlash8 =>
    let p := maxMapOf s.cfg s.mapper.type
    if p.readsAct && maxHits p (ctlOffset x) then
      (Config.maxFlashReadByte s.draws x, { s with mapper := s.mapper.maxAccess p x, draws := s.draws + 1 })
    else (noData, s)

/-- A control read changed the registers: the only ones it can change are MaxFlash's (R339, R361). -/
def readChanged (old new : MapRegs) : Bool := new.bank != old.bank || new.enabled != old.enabled

/-- MAP_CTL_READ: R339. The layout is applied when the read changed the registers. -/
def execMapCtlRead (x : CpuAddr) (s : State) : Host.Outcome State Fault Refusal :=
  if inCtlPage s.cfg.ctlPage x then
    let (v, s') := ctlRead x s
    if readChanged s.mapper.regs s'.mapper.regs then .next (s'.applyLayout.answer (.cpuByte v))
    else .next (s'.answer (.cpuByte v))
  else .next (s.answer .notServed)

/-- MAP_CTL_WRITE: R341. -/
def execMapCtlWrite (x : CpuAddr) (v : Byte) (s : State) : Host.Outcome State Fault Refusal :=
  if inCtlPage s.cfg.ctlPage x then .next ((ctlWrite x v s).applyLayout.answer .none)
  else .next (s.answer .notServed)

/-! ### Reset and Init -/

/-- `PowerOn(m.type)` (R340, R353, R360, R361); the lock is clear. -/
def powerOnRegs (p : Params) (type : MapperType) : MapRegs where
  bank := if type = .megaCart4M then 254#8 else 0#8
  enabled := true
  sic := 0x00#8
  cart := { p.theCart.defaults with lock := 0x00#8 }

/-- The mapper part of `ColdReset(m)` (R338), before the layout is applied. -/
def Mapper.powerOn (m : Mapper) (p : Params) : Mapper :=
  { m with regs := powerOnRegs p m.type
           chips := m.chips.map Chip.coldReset
           table := if m.type = .theCart then schemeTable p.theCart (powerOnRegs p m.type).cart.mode else m.table
           installed := none }

/-- `ColdReset(m, now)`: R338. -/
def mapperReset (s : State) : State := ({ s with mapper := s.mapper.powerOn s.cfg }).applyLayout

/-- MAP_COLDRESET: R338. -/
def execMapColdReset (s : State) : Host.Outcome State Fault Refusal := .next ((mapperReset s).answer .none)

/-- The image size a subtype supports, in KB (R340, R345, R360, R361); TheCart's is its chip's (assumption 21). -/
def supportedKB (p : Params) : MapperType → Nat
  | .megaCart512 => 512
  | .megaCart4M => 4096
  | .theCart => (profileOf p p.theCart.chip).cap / 1024
  | .sic => 512
  | .maxFlash1 => 128
  | .maxFlash8 => 1024

/-- `ChipOf(type, sizeKB, 0)` (R340, R345; assumption 21). -/
def mapperChip (p : Params) : MapperType → ChipType
  | .megaCart512 => .am29f040b
  | .megaCart4M => p.megaCart4MChip
  | .theCart => p.theCart.chip
  | .sic => p.sicChip
  | .maxFlash1 => p.maxFlash1Chip
  | .maxFlash8 => p.maxFlash8Chip

/-- The mapper `Init` makes, before its ColdReset (R345). -/
def mapperOf (p : Params) (type : MapperType) (image : Buffer) (sizeKB : Nat) : Mapper where
  type := type
  size := sizeKB * 1024
  chips := [chipOf p image (mapperChip p type)]
  ram := []
  ramSize := if type = .theCart then p.theCart.ramSize else 0
  regs := powerOnRegs p type
  table := []
  installed := none

/-- MAP_INIT: R345. The sizes are checked first (assumption 14); the old mapper and its chips are dropped (assumption
15). -/
def execMapInit (allocOk : Bool) (type : MapperType) (image : Buffer) (sizeKB : Nat) (s : State) :
    Host.Outcome State Fault Refusal :=
  if image.size ≠ sizeKB * 1024 ∨ sizeKB ≠ supportedKB s.cfg type ∨
      image.size ≠ (profileOf s.cfg (mapperChip s.cfg type)).cap then .fault .initSizeMismatch
  else if !allocOk then .fault .initAllocFailure
  else if isBound s.chips image.id then .fault .sharedImage
  else .next ((mapperReset { s with mapper := mapperOf s.cfg type image sizeKB }).answer .none)

end Sys2Proof.Machine
end

