-- ==== Sys2Proof/Machine/Scheduler.lean ====
section
/-! DEFINITION. The event scheduler's queue operations and the meanings of SCHED_ADD and SCHED_DELETE (spec
42_scheduler.md). SCHED_CHECK runs host calls and is in Machine/Calls.lean. -/

namespace Sys2Proof.Machine

/-- The queue without the entries of an id (R211, R212). -/
def removeId (q : List Entry) (id : Int) : List Entry := q.filter (fun e => e.id != id)

/-- The queue with an entry put before the first entry it is `before`, at the end if there is none (R211, D23). -/
def insertEntry (e : Entry) : List Entry → List Entry
  | [] => [e]
  | f :: q => if before e.deadline f.deadline then e :: f :: q else f :: insertEntry e q

/-- The entry `Add` makes at `now` (R211). -/
def newEntry (now : Cycles) (id : Int) (delta : Cycles) (handler : Nat) : Entry :=
  { id := id, deadline := now + delta, handler := handler }

/-- SCHED_ADD: R211, R215. The delta range is checked first (R375). -/
def execSchedAdd (id : Int) (delta : Cycles) (handler : Nat) (s : State) : Host.Outcome State Fault Refusal :=
  if 2 ^ 63 ≤ delta.toNat then .fault .schedulerDeltaRange
  else if s.sched.inHandler = some id then .fault .schedulerReentrantSameId
  else
    let e := newEntry s.now id delta handler
    .next (({ s with sched := { s.sched with queue := insertEntry e (removeId s.sched.queue id) } }).answer (.entry e))

/-- SCHED_DELETE: R212. -/
def execSchedDelete (id : Int) (s : State) : Host.Outcome State Fault Refusal :=
  if s.sched.inHandler = some id then .fault .schedulerReentrantSameId
  else .next (({ s with sched := { s.sched with queue := removeId s.sched.queue id } }).answer .none)

end Sys2Proof.Machine
end

