-- ==== Sys2Proof/Machine/Calls.lean ====
section
/-! DEFINITION. A host call's effect, whichever instruction it decodes to, and SCHED_CHECK, whose handler makes host calls
(spec 42_scheduler.md R213, R214). -/

namespace Sys2Proof.Machine

/-- A CPU access (R72): a window, the control page, or neither, which the memory layer answers (assumption 17). -/
def runCpu (x : CpuAddr) (v : Option Byte) (s : State) : Host.Outcome State Fault Refusal :=
  if (windowOf x).isSome then
    match v with
    | none => execMapWinRead x s
    | some b => execMapWinWrite x b s
  else if inCtlPage s.cfg.ctlPage x then
    match v with
    | none => execMapCtlRead x s
    | some b => execMapCtlWrite x b s
  else .next (s.answer .notServed)

/-- An interface call made while a handler runs: SCHED_CHECK is the one a handler may not make (R213, R214). -/
def runNestedHost (h : HostCall) (s : State) : Host.Outcome State Fault Refusal :=
  match h with
  | .flashInit allocOk buffer type => execFlashInit allocOk buffer type s
  | .flashColdReset chip => execFlashColdReset chip s
  | .readState dev => execSerialReadState dev s
  | .eeLoad mem bp => execEeLoad mem bp s
  | .eeSave => execEeSave s
  | .eeColdReset => execEeColdReset s
  | .rtcLoad ram ee id bp => execRtcLoad ram ee id bp s
  | .rtcSave => execRtcSave s
  | .rtcColdReset => execRtcColdReset s
  | .schedAdd id delta handler => execSchedAdd id delta handler s
  | .schedDelete id => execSchedDelete id s
  | .schedCheck => .fault .schedulerReentrantSameId
  | .mapColdReset => execMapColdReset s
  | .mapInit allocOk type image sizeKB => execMapInit allocOk type image sizeKB s

/-- A call made while a handler runs (R214). -/
def runNested (c : Call) (s : State) : Host.Outcome State Fault Refusal :=
  match c with
  | .chip r a none => chipRead r a s
  | .chip r a (some v) => chipWrite r a v s
  | .cpu x v => runCpu x v s
  | .wire dev ce clk data => execSerialWriteState dev ce clk data s
  | .host h => runNestedHost h s

/-- The calls of a handler, in order, each at its own wall clock (R300, R408); the first fault stops the machine (R214,
D59). -/
def runScript : List HandlerCall → State → Host.Outcome State Fault Refusal
  | [], s => .next s
  | c :: cs, s =>
    match runNested c.call { s with clock := c.clock } with
    | .next s' => runScript cs s'
    | .fault e => .fault e
    | .refused r => .refused r

/-- The state while the handler of `e`, the head of the queue, runs: the entry is removed first (R213, D24). -/
def State.enterHandler (s : State) (e : Entry) (rest : List Entry) : State :=
  { s with sched := { queue := rest, inHandler := some e.id } }

/-- The state after the handler of `e` returned (R213). -/
def State.leaveHandler (s : State) (e : Entry) : State :=
  ({ s with sched := { s.sched with inHandler := none } }).answer (.ran (some e))

/-- The head's handler runs: its calls, then the return (R213). -/
def runHandler (handlerCalls : List HandlerCall) (e : Entry) (rest : List Entry) (s : State) :
    Host.Outcome State Fault Refusal :=
  match runScript handlerCalls (s.enterHandler e rest) with
  | .next s' => .next (s'.leaveHandler e)
  | .fault f => .fault f
  | .refused r => .refused r

/-- SCHED_CHECK: R213. `handlerCalls` are the calls the head's handler makes if it runs (assumption 10). -/
def execSchedCheck (handlerCalls : List HandlerCall) (s : State) : Host.Outcome State Fault Refusal :=
  if s.sched.inHandler.isSome then .fault .schedulerReentrantSameId
  else match s.sched.queue with
    | [] => .next (s.answer (.ran none))
    | e :: rest => if reached s.now e.deadline then runHandler handlerCalls e rest s else .next (s.answer (.ran none))

/-- The effect of a host call: what the rules of spec/ say of the call itself, without the opcode table. -/
def runCall (handlerCalls : List HandlerCall) (c : Call) (s : State) : Host.Outcome State Fault Refusal :=
  match c with
  | .host .schedCheck => execSchedCheck handlerCalls s
  | c => runNested c s

end Sys2Proof.Machine
end

