-- ==== Sys2Proof/Machine/Dispatch.lean ====
section
/-! DEFINITION. One arm per instruction, each one direct call of its meaning. -/

namespace Sys2Proof.Machine

def exec (i : Instr) (s : State) : Host.Outcome State Fault Refusal :=
  match i with
  | .flashReadNormal chip a => Sys2Proof.Machine.execFlashReadNormal chip a s
  | .flashReadAutoselect chip a => Sys2Proof.Machine.execFlashReadAutoselect chip a s
  | .flashReadWriteStatus chip a => Sys2Proof.Machine.execFlashReadWriteStatus chip a s
  | .flashReadEraseStatus chip a => Sys2Proof.Machine.execFlashReadEraseStatus chip a s
  | .flashAtmelClose chip a => Sys2Proof.Machine.execFlashAtmelClose chip a s
  | .flashReset1 chip a => Sys2Proof.Machine.execFlashReset1 chip a s
  | .flashUnlock1 chip a => Sys2Proof.Machine.execFlashUnlock1 chip a s
  | .flashUnlock2 chip a => Sys2Proof.Machine.execFlashUnlock2 chip a s
  | .flashAutoselect chip a => Sys2Proof.Machine.execFlashAutoselect chip a s
  | .flashProgramSetup chip a => Sys2Proof.Machine.execFlashProgramSetup chip a s
  | .flashAtmelSetup chip a => Sys2Proof.Machine.execFlashAtmelSetup chip a s
  | .flashEraseSetup chip a => Sys2Proof.Machine.execFlashEraseSetup chip a s
  | .flashReset3 chip a => Sys2Proof.Machine.execFlashReset3 chip a s
  | .flashWbLoad chip a => Sys2Proof.Machine.execFlashWbLoad chip a s
  | .flashProgramData chip a v => Sys2Proof.Machine.execFlashProgramData chip a v s
  | .flashEraseUnlock1 chip a => Sys2Proof.Machine.execFlashEraseUnlock1 chip a s
  | .flashEraseUnlock2 chip a => Sys2Proof.Machine.execFlashEraseUnlock2 chip a s
  | .flashChipErase chip a => Sys2Proof.Machine.execFlashChipErase chip a s
  | .flashSectorErase chip a => Sys2Proof.Machine.execFlashSectorErase chip a s
  | .flashWbCount chip a v => Sys2Proof.Machine.execFlashWbCount chip a v s
  | .flashWbData chip a v => Sys2Proof.Machine.execFlashWbData chip a v s
  | .flashWbConfirm chip a v => Sys2Proof.Machine.execFlashWbConfirm chip a v s
  | .flashAtmelData chip a v => Sys2Proof.Machine.execFlashAtmelData chip a v s
  | .flashAbort chip a v => Sys2Proof.Machine.execFlashAbort chip a v s
  | .flashSectorEraseMore chip a => Sys2Proof.Machine.execFlashSectorEraseMore chip a s
  | .flashEraseStatusExit chip a v => Sys2Proof.Machine.execFlashEraseStatusExit chip a v s
  | .flashInit allocOk buffer type => Sys2Proof.Machine.execFlashInit allocOk buffer type s
  | .flashColdReset chip => Sys2Proof.Machine.execFlashColdReset chip s
  | .serialWriteState dev ce clk data => Sys2Proof.Machine.execSerialWriteState dev ce clk data s
  | .serialReadState dev => Sys2Proof.Machine.execSerialReadState dev s
  | .eeWren => Sys2Proof.Machine.execEeWren s
  | .eeWrdi => Sys2Proof.Machine.execEeWrdi s
  | .eeRdsr => Sys2Proof.Machine.execEeRdsr s
  | .eeWrsr => Sys2Proof.Machine.execEeWrsr s
  | .eeRead => Sys2Proof.Machine.execEeRead s
  | .eeWrite => Sys2Proof.Machine.execEeWrite s
  | .eeUnknown op => Sys2Proof.Machine.execEeUnknown op s
  | .eeLoad mem bp => Sys2Proof.Machine.execEeLoad mem bp s
  | .eeSave => Sys2Proof.Machine.execEeSave s
  | .eeColdReset => Sys2Proof.Machine.execEeColdReset s
  | .rtcEeRead => Sys2Proof.Machine.execRtcEeRead s
  | .rtcEeWrite => Sys2Proof.Machine.execRtcEeWrite s
  | .rtcEeWrdi => Sys2Proof.Machine.execRtcEeWrdi s
  | .rtcEeWren => Sys2Proof.Machine.execRtcEeWren s
  | .rtcSrRead => Sys2Proof.Machine.execRtcSrRead s
  | .rtcSrWrite => Sys2Proof.Machine.execRtcSrWrite s
  | .rtcRead => Sys2Proof.Machine.execRtcRead s
  | .rtcWrite => Sys2Proof.Machine.execRtcWrite s
  | .rtcUnlock => Sys2Proof.Machine.execRtcUnlock s
  | .rtcIdWrite => Sys2Proof.Machine.execRtcIdWrite s
  | .rtcIdRead => Sys2Proof.Machine.execRtcIdRead s
  | .rtcClrRam => Sys2Proof.Machine.execRtcClrRam s
  | .rtcUnknown op => Sys2Proof.Machine.execRtcUnknown op s
  | .rtcLoad ram ee id bp => Sys2Proof.Machine.execRtcLoad ram ee id bp s
  | .rtcSave => Sys2Proof.Machine.execRtcSave s
  | .rtcColdReset => Sys2Proof.Machine.execRtcColdReset s
  | .schedAdd id delta handler => Sys2Proof.Machine.execSchedAdd id delta handler s
  | .schedDelete id => Sys2Proof.Machine.execSchedDelete id s
  | .schedCheck handlerCalls => Sys2Proof.Machine.execSchedCheck handlerCalls s
  | .mapWinRead x => Sys2Proof.Machine.execMapWinRead x s
  | .mapWinWrite x v => Sys2Proof.Machine.execMapWinWrite x v s
  | .mapCtlRead x => Sys2Proof.Machine.execMapCtlRead x s
  | .mapCtlWrite x v => Sys2Proof.Machine.execMapCtlWrite x v s
  | .mapColdReset => Sys2Proof.Machine.execMapColdReset s
  | .mapInit allocOk type image sizeKB => Sys2Proof.Machine.execMapInit allocOk type image sizeKB s

end Sys2Proof.Machine
end

