-- ==== Sys2Proof/Machine/Fetch.lean ====
section
/-! DEFINITION. What the machine fetches: the record of a pending host call that the decoder reads (30_encoding.md R117).
A flash cycle's key is formed from the chip as it is after the expiry that precedes every access (R137). -/

namespace Sys2Proof.Machine

/-- The number of a phase (R23). -/
def Phase.code : Phase → Nat
  | .idle => 0
  | .unlock1 => 1
  | .unlock2 => 2
  | .programData => 3
  | .eraseSetup => 4
  | .eraseUnlock1 => 5
  | .eraseUnlock2 => 6
  | .wbCount => 7
  | .wbData => 8
  | .wbConfirm => 9
  | .atmelPageLoad => 10

/-- The number of a read mode in a key (R117). -/
def ReadMode.code : ReadMode → Nat
  | .normal => 0
  | .autoselect => 1
  | .writeStatusPending => 2
  | .sectorEraseStatus => 3

/-- The phase of a number; Idle for a number of none. -/
def Phase.ofCode : Nat → Phase
  | 1 => .unlock1
  | 2 => .unlock2
  | 3 => .programData
  | 4 => .eraseSetup
  | 5 => .eraseUnlock1
  | 6 => .eraseUnlock2
  | 7 => .wbCount
  | 8 => .wbData
  | 9 => .wbConfirm
  | 10 => .atmelPageLoad
  | _ => .idle

/-- The read mode of a number; SectorEraseStatus for 3 and above. -/
def ReadMode.ofCode : Nat → ReadMode
  | 0 => .normal
  | 1 => .autoselect
  | 2 => .writeStatusPending
  | _ => .sectorEraseStatus

/-- What the decoder is told of a chip. -/
def Chip.decodeCtx (c : Chip) (ctlPage : Byte) : DecodeCtx where
  window := c.profile.unlockWindow
  atmelSDP := c.profile.atmelSDP
  writeBuffer := c.profile.writeBuffer
  sectorErase := c.profile.sectorErase
  multiEraseOpen := c.multiEraseOpen
  ctlPage := ctlPage

/-- What the decoder is told where no chip is addressed. -/
def noChipCtx (ctlPage : Byte) : DecodeCtx where
  window := .w11
  atmelSDP := false
  writeBuffer := false
  sectorErase := false
  multiEraseOpen := false
  ctlPage := ctlPage

/-- The context a call is decoded in. -/
def fetchCtx (s : State) : Call → DecodeCtx
  | .chip r _ _ =>
    match s.chipAt r with
    | some c => (c.expire s.now).decodeCtx s.cfg.ctlPage
    | none => noChipCtx s.cfg.ctlPage
  | _ => noChipCtx s.cfg.ctlPage

/-- The record of a chip cycle (R100, R117). A cycle at a chip that was not initialised is fetched as one in Normal mode at
phase 0; its meaning faults (assumption 16). -/
def fetchChip (s : State) (r : ChipRef) (a : Nat) (v : Option Byte) : Fetched :=
  match s.chipAt r with
  | some c => .flashCycle r (flashKey (c.expire s.now).readMode.code v.isSome c.phase.code (v.getD 0x00#8)) (a % c.profile.cap)
  | none => .flashCycle r (flashKey 0 v.isSome 0 (v.getD 0x00#8)) a

/-- The link and whether the interpreter is idle, of a serial device. -/
def linkOf (s : State) : Dev → Link × Bool
  | .eeprom => (s.eeprom.link, decide (s.eeprom.cmd = EeCmd.idle))
  | .rtc => (s.rtc.link, decide (s.rtc.cmd = RtcCmd.idle))

/-- The record of a WriteState call: the opcode of the transaction when the call completes its first byte (R110, R240). -/
def fetchWire (s : State) (dev : Dev) (ce clk data : Bool) : Fetched :=
  if ce && !clk && (linkOf s dev).1.completes (linkOf s dev).1.inShift && (linkOf s dev).2 then
    .serialOpcode dev (linkOf s dev).1.inShift
  else .wire dev ce clk data

/-- The record of a pending call. -/
def fetch (s : State) (handlerCalls : List HandlerCall) : Call → Fetched
  | .chip r a v => fetchChip s r a v
  | .wire dev ce clk data => fetchWire s dev ce clk data
  | .cpu x v => .cpuCycle x v
  | .host h => .interface h handlerCalls

/-- A chip whose owner has cleared commit flags (R25, R26). -/
def Chip.ownerClear (c : Chip) (f : FlagClear) : Chip :=
  { c with dirty := c.dirty && !f.dirty, writeActivity := c.writeActivity && !f.activity }

/-- The state after the owner cleared one chip's commit flags; a chip that is not there has none. -/
def State.ownerClear (s : State) (f : FlagClear) : State :=
  match s.chipAt f.chip with
  | some c => s.setChip f.chip (c.ownerClear f)
  | none => s

/-- The state in which a request is carried out: its inputs taken, the last call's outputs dropped, the owner's clears
done. -/
def State.accept (s : State) (q : Request) (rest : List Request) : State :=
  q.ownerClears.foldl State.ownerClear
    { s with now := q.now, clock := q.clock, input := rest, out := { result := .none, calls := [] } }

/-- The outcome of what the decoder answers; an access the block does not serve is the memory layer's (R72, assumption
17). -/
def afterDecode (run : Instr → State → Host.Outcome State Fault Refusal) (s : State) :
    Except Reject Instr → Host.Outcome State Fault Refusal
  | .ok i => run i s
  | .error (.notServed _) => .next (s.answer .notServed)
  | .error e => .refused (.undecodable e)

/-! ### Placing an instruction where it is fetched -/

/-- A request at the state's own inputs. -/
def State.requestOf (s : State) (c : Call) : Request :=
  { now := s.now, clock := s.clock, ownerClears := [], call := c, handlerCalls := [] }

/-- The state with one call as its first pending request. -/
def State.queueFirst (s : State) (c : Call) : State := { s with input := s.requestOf c :: s.input }

/-- A chip in the read mode and phase of a key, with the profile flags of the key's row (assumption 3). -/
def Chip.forKey (c : Chip) (now : Cycles) (key : Nat) : Chip :=
  let x := tableCtx key
  { c with readMode := ReadMode.ofCode (key / 0x4000)
           phase := Phase.ofCode (key / 0x100 % 16)
           eraseDeadline := now + 1
           multiEraseOpen := x.multiEraseOpen
           profile := { c.profile with
             unlockWindow := x.window
             program := if x.atmelSDP then .atmelPage else if x.writeBuffer then .buffer else .byte
             sectorCommand := x.sectorErase } }

/-- The mapper's chip 0, or a MegaCart 512K's over a blank image where the mapper has none. -/
def State.tableChip (s : State) : Chip :=
  match s.mapper.chips with
  | c :: _ => c
  | [] => Chip.initial .am29f040b (profileOf defaultParams .am29f040b) 0 []

/-- The state with the mapper's chip 0 made to fetch a flash key. -/
def State.placeKey (s : State) (key : Nat) : State :=
  { s with mapper := { s.mapper with chips := s.tableChip.forKey s.now key :: s.mapper.chips.drop 1 } }

/-- A link about to complete a byte. -/
def Link.forOpcode (l : Link) (op : Byte) : Link := { l with ce := true, clk := true, bitCount := 7, inShift := op }

/-- The state with a fetch record placed as its next call. -/
def State.place (s : State) : Fetched → State
  | .flashCycle r key a =>
    (s.placeKey key.toNat).queueFirst
      (.chip r a (if key.toNat / 0x1000 % 2 = 1 then some (BitVec.ofNat 8 key.toNat) else none))
  | .serialOpcode .eeprom op =>
    ({ s with eeprom := { s.eeprom with link := s.eeprom.link.forOpcode op, cmd := .idle } }).queueFirst
      (.wire .eeprom true false false)
  | .serialOpcode .rtc op =>
    ({ s with rtc := { s.rtc with link := s.rtc.link.forOpcode op, cmd := .idle } }).queueFirst
      (.wire .rtc true false false)
  | .wire dev ce clk data => s.queueFirst (.wire dev ce clk data)
  | .cpuCycle x v => s.queueFirst (.cpu x v)
  | .interface h _ => s.queueFirst (.host h)

/-- The state with a word of the opcode table placed as its next call; unchanged where the table has no such word. -/
def State.placeWord (s : State) (nbits w : Nat) : State :=
  match tableFetched nbits w with
  | some f => s.place f
  | none => s

end Sys2Proof.Machine
end

