-- ==== Sys2Proof/Machine/Step.lean ====
section
/-! DEFINITION. The step: one pending host call (00_scope.md R6, 20_memory.md R77; assumption 1). -/

namespace Sys2Proof.Machine

/-- The machine takes the first pending call at its inputs, decodes what it fetches and executes it. With no call pending
the block does nothing (R6). -/
def step (s : State) : Host.Outcome State Fault Refusal :=
  match s.input with
  | [] => .next s
  | q :: rest =>
    afterDecode exec (s.accept q rest)
      (decode (fetchCtx (s.accept q rest) q.call) (fetch (s.accept q rest) q.handlerCalls q.call))

/-- `s` with the instruction of a word of the opcode table placed where `step` fetches next (assumption 2). -/
def State.withFetchWord (s : State) (nbits w : Nat) : State := s.placeWord nbits w

end Sys2Proof.Machine
end

