-- ==== Sys2Proof/Safety.lean ====
section
/-! DEFINITION. What counts as a safe state, in the terms the claims use: the invariant every step keeps, and the shorthand
of the claims (a program on the serial link, the state one chip access leaves). -/

namespace Sys2Proof.Machine

/-! ### The invariant -/

/-- The constraints of R195 on a chip profile. -/
structure Profile.Valid (p : Profile) : Prop where
  capacity : ∃ k, p.cap = 2 ^ k
  contains : ∀ a < p.cap, (sectorOf p a).1 ≤ a ∧ a < (sectorOf p a).1 + (sectorOf p a).2
  inside : ∀ a < p.cap, (sectorOf p a).1 + (sectorOf p a).2 ≤ p.cap
  aligned : ∀ a < p.cap, (sectorOf p a).1 % (sectorOf p a).2 = 0
  partition : ∀ a < p.cap, ∀ b, (sectorOf p a).1 ≤ b → b < (sectorOf p a).1 + (sectorOf p a).2 →
    sectorOf p b = sectorOf p a
  atmel : p.atmelSDP = true → p.writeBuffer = false ∧ p.sectorErase = false

/-- A memory of `size` bytes: its canonical form, and no entry outside it. -/
def Memory.Sound (fill : Byte) (size : Nat) (m : Memory) : Prop :=
  Memory.wf fill m ∧ ∀ c ∈ m, c.1 < size

/-- A chip: its image lies in its capacity (R70), only the toggle bits are set (R24), page bases are aligned (R29, R30), the
command machine is idle in SectorEraseStatus (R152, R155), a phase of a variant is entered only on a profile of that
variant (R103, R189), and a write-buffer load that goes on still expects a byte (R182). -/
structure Chip.Sound (c : Chip) : Prop where
  imgCanonical : Memory.wf Space.flashImage.fill c.img
  imgInside : ∀ x ∈ c.img, x.1 < c.profile.cap
  toggles : c.toggleBits = 0x00#8 ∨ c.toggleBits = 0x44#8
  wbAligned : c.wbBase % 32 = 0
  atmelAligned : c.atmelBase % 256 = 0
  eraseIdle : c.readMode = .sectorEraseStatus → c.phase = .idle
  programPhase : c.phase = .programData → c.profile.atmelSDP = false
  bufferPhase : c.phase = .wbCount ∨ c.phase = .wbData ∨ c.phase = .wbConfirm → c.profile.writeBuffer = true
  atmelPhase : c.phase = .atmelPageLoad → c.profile.atmelSDP = true
  bufferCount : c.phase = .wbData → 1 ≤ c.wbRemaining ∧ c.wbRemaining ≤ 32

/-- A link that is not selected is at its reset values but for the clock level (R40, R241). -/
def Link.Sound (l : Link) : Prop :=
  l.ce = false → l.bitCount = 0 ∧ l.inShift = 0x00#8 ∧ l.outShift = 0xFF#8 ∧ l.outBit = true

/-- The EEPROM: a transaction is open only while selected, and only an enabled transaction has written (R241, R253, R259,
R261). -/
structure Eeprom.Sound (e : Eeprom) : Prop where
  link : e.link.Sound
  memory : Memory.Sound Space.eepromMem.fill eepromSize e.mem
  deselected : e.link.ce = false → e.cmd = .idle
  idleClean : e.cmd = .idle → e.writeIssued = false
  enabled : e.writeIssued = true → e.wel = true

/-- The RTC: as the EEPROM, with the ID write armed only with the latch set (R310) and the ID address inside the ID area
(R293, R294). -/
structure Rtc.Sound (r : Rtc) : Prop where
  link : r.link.Sound
  ram : Memory.Sound Space.rtcRam.fill rtcRamSize r.ram
  ee : Memory.Sound Space.rtcEe.fill rtcEeSize r.ee
  id : Memory.Sound Space.rtcId.fill rtcIdSize r.id
  deselected : r.link.ce = false → r.cmd = .idle
  idleClean : r.cmd = .idle → r.writeIssued = false
  enabled : r.writeIssued = true → r.wel = true
  armed : r.cmd = .idWriteAddr ∨ r.cmd = .idWriteData → r.wel = true
  idAddress : r.cmd = .idReadData ∨ r.cmd = .idWriteData → r.addr.toNat < rtcIdSize

/-- The mapper: what is installed is the layout of its registers (R335), and TheCart's table has 256 entries (R353). -/
structure Mapper.Sound (p : Params) (m : Mapper) : Prop where
  chips : ∀ c ∈ m.chips, c.Sound
  ramCanonical : Memory.wf Space.mapperRam.fill m.ram
  ramInside : 0 < m.ramSize → ∀ x ∈ m.ram, x.1 < m.ramSize
  table : m.type = .theCart → m.table.length = 256
  installed : m.installed = some (m.layout p)

/-- The invariant of the machine between two calls. `owners` is R162's single owner of an image; `ids` is R36 (1);
`profiles` is R20: a chip keeps the profile its type fixes. -/
structure State.Sound (s : State) : Prop where
  chips : ∀ c ∈ s.chips, c.Sound
  mapper : s.mapper.Sound s.cfg
  owners : ((s.mapper.chips ++ s.chips).map (fun c => c.buf)).Nodup
  profiles : ∀ c ∈ s.mapper.chips ++ s.chips, c.profile = profileOf s.cfg c.type
  ids : (s.sched.queue.map (fun e => e.id)).Nodup
  quiet : s.sched.inHandler = none
  eeprom : s.eeprom.Sound
  rtc : s.rtc.Sound

/-! ### Shorthand of the claims -/

/-- The state a direct access to chip `r` leaves: the chip is `c`, the call returned `res`, and nothing else changed but the
draw counter. -/
def State.chipDone (s : State) (r : ChipRef) (c : Chip) (draws : Nat) (res : Result) : State :=
  { s.setChip r c with draws := draws, out := { result := res, calls := s.out.calls } }

/-- Three `WriteState` calls that clock one bit (R118 `SPI`). -/
def Eeprom.clockBit (e : Eeprom) (b : Bool) : Eeprom :=
  ((e.writeState true false b).writeState true true b).writeState true false b

/-- `SPI v` on the EEPROM (R118): the eight bits of `v`, most significant first. -/
def Eeprom.spi (e : Eeprom) (v : Byte) : Eeprom :=
  [7, 6, 5, 4, 3, 2, 1, 0].foldl (fun e i => e.clockBit (v.getLsbD i)) e

/-- `SPIR` on the EEPROM (R118): eight bit-times with data 1, `ReadState` before each rising edge. -/
def Eeprom.spir (e : Eeprom) : Byte × Eeprom :=
  [7, 6, 5, 4, 3, 2, 1, 0].foldl
    (fun x _ =>
      let e1 := x.2.writeState true false true
      ((x.1 <<< 1) ||| (BitVec.ofBool e1.link.outBit).setWidth 8,
        (e1.writeState true true true).writeState true false true))
    (0x00#8, e)

/-- `CE1` (R118). -/
def Eeprom.select (e : Eeprom) : Eeprom := e.writeState true false false

/-- `CE0` (R118). -/
def Eeprom.unselect (e : Eeprom) : Eeprom := e.writeState false false false

/-- Three `WriteState` calls that clock one bit into the RTC (R118 `SPI`, R290). -/
def Rtc.clockBit (r : Rtc) (t : HostTime) (b : Bool) : Rtc :=
  ((r.writeState t true false b).writeState t true true b).writeState t true false b

/-- `SPI v` on the RTC (R118, R290). -/
def Rtc.spi (r : Rtc) (t : HostTime) (v : Byte) : Rtc :=
  [7, 6, 5, 4, 3, 2, 1, 0].foldl (fun r i => r.clockBit t (v.getLsbD i)) r

/-- `SPIR` on the RTC (R118, R290): eight bit-times with data 1, `ReadState` before each rising edge. -/
def Rtc.spir (r : Rtc) (t : HostTime) : Byte × Rtc :=
  [7, 6, 5, 4, 3, 2, 1, 0].foldl
    (fun x _ =>
      let r1 := x.2.writeState t true false true
      ((x.1 <<< 1) ||| (BitVec.ofBool r1.link.outBit).setWidth 8,
        (r1.writeState t true true true).writeState t true false true))
    (0x00#8, r)

/-- The width of a field of TheCart's register file (R55; assumption 18). -/
def tcWidth : TcField → Nat
  | .bank0 | .bank1 => 16
  | .mode | .lock => 8
  | .en0 | .en1 | .ramRead | .ramWrite | .flashWrite => 1

/-- The memory-layer calls of `Apply` (R335): for each window, first `$8000` and then `$A000`, none when its descriptor is the
installed one, and otherwise one disable or the three calls that install it. A descriptor is R53's: read source, write
destination and base. -/
def applyCalls (old : Option Layout) (new : Layout) : List LayerCall :=
  (if old.map (fun l => (l.w809f.readSrc, l.w809f.writeDst, l.w809f.base)) =
        some (new.w809f.readSrc, new.w809f.writeDst, new.w809f.base) then []
    else if new.w809f.readSrc = .none then [.cartDisable .w809f]
    else [.setFlashRoutines .w809f, .setFlash 0x8000 0x9FFF, .cartEnable .w809f]) ++
  (if old.map (fun l => (l.wa0bf.readSrc, l.wa0bf.writeDst, l.wa0bf.base)) =
        some (new.wa0bf.readSrc, new.wa0bf.writeDst, new.wa0bf.base) then []
    else if new.wa0bf.readSrc = .none then [.cartDisable .wa0bf]
    else [.setFlashRoutines .wa0bf, .setFlash 0xA000 0xBFFF, .cartEnable .wa0bf])

/-- The slice `sl` of a TheCart register is the one that decides bit `i` of its field: it covers the bit, and no slice behind
it in `later` does (assumption 18). -/
def decidesField (sl : TcSlice) (later : List TcSlice) (i : Nat) : Prop :=
  (sl.pos ≤ i ∧ i < sl.pos + sl.width) ∧ ∀ y ∈ later, y.field = sl.field → i < y.pos ∨ y.pos + y.width ≤ i

/-- The slice `sl` of a TheCart register is the one that decides bit `i` of the byte read. -/
def decidesByte (sl : TcSlice) (later : List TcSlice) (i : Nat) : Prop :=
  (sl.bit ≤ i ∧ i < sl.bit + sl.width) ∧ ∀ y ∈ later, i < y.bit ∨ y.bit + y.width ≤ i

/-- A link between two bytes of a transaction: selected, clock low, no bit counted. -/
def Link.betweenBytes (l : Link) : Prop := l.ce = true ∧ l.clk = false ∧ l.bitCount = 0

/-- A link one falling edge before the byte `b` is complete: the clock is high, seven falling edges are counted. -/
def Link.lastEdge (l : Link) (b : Byte) : Prop := l.clk = true ∧ l.bitCount = 7 ∧ l.inShift = b

/-- The link after a byte whose response is `resp` (R240). -/
def Link.after (l : Link) (resp : Byte) : Link :=
  { ce := true, clk := false, bitCount := 0, inShift := l.inShift,
    outShift := (resp <<< 1) ||| 1#8, outBit := resp.getLsbD 7 }

/-- A call that is no interface call: a chip cycle, a CPU access or a WriteState call. -/
def Call.isBusCycle : Call → Bool
  | .chip _ _ _ => true
  | .cpu _ _ => true
  | .wire _ _ _ _ => true
  | .host _ => false

/-- The deadlines of a queue lie within half the cycle range after `base` (R402). -/
def inRange (base : Cycles) (q : List Entry) : Prop := ∀ e ∈ q, (e.deadline - base).toNat < 2 ^ 63

/-- The order of R36 (2): no entry is due before the one in front of it. -/
def inOrder (q : List Entry) : Prop := q.Pairwise (fun x y => before y.deadline x.deadline = false)

end Sys2Proof.Machine
end

