-- ==== Sys2Proof/Certificates/Slice0/Obligations.lean ====
section
/-! DEFINITION. The statements for the provers. Every one quantifies over all states and operands that meet its hypotheses.
A conclusion `exec i s = .next t` says that the instruction completes, and its `t` is the whole next state, so it is the
frame as well: every field it does not name is the one of `s`, every memory but the one it names reads as before. -/

open Sys2Proof Sys2Proof.Machine

/-! ### Decoding and the step -/

/-- Decode and encode agree on every instruction, with every operand at every value its encoding admits. -/
def Obligations.DecodeEncodeAgree : Prop :=
  ∀ (x : DecodeCtx) (i : Instr), wellFormed x i = true → decode x (encode x i) = .ok i

/-- A few words written out from R103, R111, R112 and R117, one per family. The last clause, that a key with bit 13 set is
refused as `reservedKeyBit`, is the model's own choice (assumption 3): R117 gives that bit no meaning. -/
def Obligations.KnownWordsDecode : Prop :=
  let am : DecodeCtx := { window := .w11, atmelSDP := false, writeBuffer := false, sectorErase := true,
                          multiEraseOpen := true, ctlPage := 0xD5#8 }
  let r : ChipRef := .mapper 0
  decode am (.flashCycle r 0x10AA#16 0x40555) = .ok (.flashUnlock1 r 0x40555) ∧
  decode am (.flashCycle r 0x1155#16 0x2AA) = .ok (.flashUnlock2 r 0x2AA) ∧
  decode am (.flashCycle r 0x1155#16 0x2AB) = .ok (.flashAbort r 0x2AB 0x55#8) ∧
  decode am (.flashCycle r 0x12A0#16 0x555) = .ok (.flashProgramSetup r 0x555) ∧
  decode am (.flashCycle r 0x133C#16 0x100) = .ok (.flashProgramData r 0x100 0x3C#8) ∧
  decode am (.flashCycle r 0xD030#16 0x20000) = .ok (.flashSectorEraseMore r 0x20000) ∧
  decode am (.flashCycle r 0x4000#16 0x1) = .ok (.flashReadAutoselect r 0x1) ∧
  decode am (.serialOpcode .eeprom 0x05#8) = .ok .eeRdsr ∧
  decode am (.serialOpcode .rtc 0x13#8) = .ok .rtcRead ∧
  decode am (.cpuCycle 0xA000#16 none) = .ok (.mapWinRead 0xA000#16) ∧
  decode am (.cpuCycle 0xD500#16 (some 3#8)) = .ok (.mapCtlWrite 0xD500#16 3#8) ∧
  decode am (.flashCycle r 0x2000#16 0) = .error (.reservedKeyBit 0x2000#16)

/-- Whatever a state fetches for a pending call decodes to a well-formed instruction; the one exception is a CPU access
outside the windows and the control page, which the memory layer answers. No cycle is refused. -/
def Obligations.EveryFetchDecodes : Prop :=
  ∀ (s : State) (hc : List HandlerCall) (c : Call),
    (∃ i, decode (fetchCtx s c) (fetch s hc c) = .ok i ∧ wellFormed (fetchCtx s c) i = true) ∨
    (∃ x v, c = .cpu x v ∧ windowOf x = none ∧ inCtlPage s.cfg.ctlPage x = false ∧
      decode (fetchCtx s c) (fetch s hc c) = .error (.notServed x))

/-- A step runs the decoded instruction: the model's own step (assumption 1). The state it runs in is `s` at the request's
inputs, after the owner's clears: each clears the chosen commit flags of one chip and nothing else (R25, R26, R60; before
the call: assumption 24). -/
def Obligations.StepRunsTheDecodedInstruction : Prop :=
  (∀ s : State, s.input = [] → step s = .next s) ∧
  (∀ (s : State) (q : Request) (rest : List Request), s.input = q :: rest →
    (∀ i, decode (fetchCtx (s.accept q rest) q.call) (fetch (s.accept q rest) q.handlerCalls q.call) = .ok i →
      step s = exec i (s.accept q rest)) ∧
    (∀ x, decode (fetchCtx (s.accept q rest) q.call) (fetch (s.accept q rest) q.handlerCalls q.call) =
        .error (.notServed x) → step s = .next ((s.accept q rest).answer .notServed)) ∧
    (q.ownerClears = [] →
      s.accept q rest =
        { s with now := q.now, clock := q.clock, input := rest, out := { result := .none, calls := [] } }) ∧
    (∀ f fs, q.ownerClears = f :: fs →
      s.accept q rest =
        State.accept (match s.chipAt f.chip with
          | some c => s.setChip f.chip
              { c with dirty := c.dirty && !f.dirty, writeActivity := c.writeActivity && !f.activity }
          | none => s) { q with ownerClears := fs } rest))

/-- Fetching, decoding and executing the row has exactly the effect the dispatch rules R130 and R139, the bit layer R240 and
the mapper rules give the call itself. -/
def Obligations.StepIsTheHostCall : Prop :=
  ∀ (s : State) (q : Request) (rest : List Request), s.input = q :: rest →
    step s = runCall q.handlerCalls q.call (s.accept q rest)

/-- Every step keeps the invariant `State.Sound`, from every state that has it. -/
def Obligations.StepKeepsSound : Prop := ∀ s t : State, s.Sound → step s = .next t → t.Sound

/-- The state after reset has the invariant. -/
def Obligations.ResetIsSound : Prop := State.reset.Sound

/-- No bus cycle, CPU access or WriteState call ends in a fault or a refusal; a direct chip cycle names a chip that was
initialised. -/
def Obligations.BusCyclesNeverStop : Prop :=
  ∀ (s : State) (q : Request) (rest : List Request), s.input = q :: rest → Machine.Call.isBusCycle q.call = true →
    (∀ r a v, q.call = .chip r a v → (s.chipAt r).isSome = true) → ∃ t, step s = .next t

/-! ### FlashChip reads -/

/-- R137: the window ends at the deadline, and `Read` and `Write` begin with the check. -/
def Obligations.EraseWindowExpiry : Prop :=
  ∀ (p : Params) (c : Chip) (now : Cycles),
    (c.readMode = .sectorEraseStatus → reached now c.eraseDeadline = true →
      c.expire now = { c with readMode := .normal, multiEraseOpen := false }) ∧
    (c.readMode ≠ .sectorEraseStatus ∨ reached now c.eraseDeadline = false → c.expire now = c) ∧
    (∀ a draws, (c.read p a now draws).chip = ((c.expire now).read p a now draws).chip ∧
      (c.read p a now draws).value = ((c.expire now).read p a now draws).value) ∧
    (∀ a v draws, (c.write a v now draws).chip = ((c.expire now).write a v now draws).chip)

/-- R131: a Normal read returns the image byte and changes no state. A read that finds the erase window ended is one too
(R137), and ends the mode. -/
def Obligations.ReadNormalRow : Prop :=
  ∀ (s : State) (r : ChipRef) (c : Chip) (a : Nat), s.chipAt r = some c → c.phase ≠ .atmelPageLoad →
    (c.readMode = .normal →
      exec (.flashReadNormal r a) s =
        .next (s.answer (.flashRead (Memory.read 0xFF#8 c.img (a % c.profile.cap)) false))) ∧
    (c.readMode = .sectorEraseStatus → reached s.now c.eraseDeadline = true →
      exec (.flashReadNormal r a) s =
        .next (s.chipDone r { c with readMode := .normal, multiEraseOpen := false } s.draws
          (.flashRead (Memory.read 0xFF#8 c.img (a % c.profile.cap)) true)))

/-- R132, R193, R194: an Autoselect read returns the ID byte of the address and changes no state. Where the table defines no
byte the value is a draw: `Config.autoselectUndef` at the draw counter (assumption 9). -/
def Obligations.ReadAutoselectRow : Prop :=
  ∀ (s : State) (r : ChipRef) (c : Chip) (a : Nat), s.chipAt r = some c → c.phase ≠ .atmelPageLoad →
    c.readMode = .autoselect →
    let a' := a % c.profile.cap
    let gives := fun v : Byte => exec (.flashReadAutoselect r a) s = .next (s.answer (.flashRead v true))
    let draw := exec (.flashReadAutoselect r a) s =
      .next { s.answer (.flashRead (Config.autoselectUndef s.draws a') true) with draws := s.draws + 1 }
    (∀ mfrId devId, c.profile.ids = .standard mfrId devId →
      (a' % 4 = 0 → gives mfrId) ∧ (a' % 4 = 1 → gives devId) ∧ (a' % 4 = 2 → gives 0x00#8) ∧ (a' % 4 = 3 → draw)) ∧
    (∀ id2 id3, c.profile.ids = .spansion id2 id3 →
      (a' % 32 = 0x00 → gives 0x01#8) ∧ (a' % 32 = 0x01 → gives 0x00#8) ∧
      (a' % 32 = 0x02 → gives 0x7E#8) ∧ (a' % 32 = 0x03 → gives 0x22#8) ∧
      (a' % 32 = 0x04 → gives 0x00#8) ∧ (a' % 32 = 0x05 → gives 0x00#8) ∧
      (a' % 32 = 0x1C → gives id2) ∧ (a' % 32 = 0x1D → gives 0x22#8) ∧
      (a' % 32 = 0x1E → gives id3) ∧ (a' % 32 = 0x1F → gives 0x22#8) ∧
      (0x06 ≤ a' % 32 → a' % 32 < 0x1C → draw))

/-- R133, R134: a program-status read returns the complement of the addressed byte and counts toward the end of the mode;
an erase-status read before the deadline returns the toggle bits over `P_EraseStatusBase` and flips them. The base is the
parameter's data with bits 6 and 2 clear (assumption 4), so the byte shows the toggle bits as they are. -/
def Obligations.StatusReadRows : Prop :=
  ∀ (s : State) (r : ChipRef) (c : Chip) (a : Nat), s.chipAt r = some c → c.phase ≠ .atmelPageLoad →
    (c.readMode = .writeStatusPending →
      exec (.flashReadWriteStatus r a) s =
        .next (s.chipDone r
          { c with statusReads := c.statusReads + 1
                   readMode := if c.statusReads + 1 ≥ s.cfg.programStatusReads then .normal else .writeStatusPending }
          s.draws (.flashRead (~~~ Memory.read 0xFF#8 c.img (a % c.profile.cap)) true))) ∧
    (c.readMode = .sectorEraseStatus → reached s.now c.eraseDeadline = false →
      exec (.flashReadEraseStatus r a) s =
        .next (s.chipDone r { c with toggleBits := c.toggleBits ^^^ 0x44#8 } s.draws
          (.flashRead (c.toggleBits ||| s.cfg.eraseStatusBase) true))) ∧
    s.cfg.eraseStatusBase = s.cfg.eraseStatusBits &&& 0xBB#8 ∧
    (c.toggleBits ||| s.cfg.eraseStatusBase) &&& 0x44#8 = c.toggleBits &&& 0x44#8

/-- R188, R130: a read in phase 10 closes the open page, whose unloaded bytes become draws, and returns a status byte; with
no page open it only leaves the phase, and the read is the one of its mode. A draw is `Config.atmelUnloaded` or
`Config.autoselectUndef` at the draw counter (assumption 9). The page lies in the chip. -/
def Obligations.AtmelCloseRow : Prop :=
  ∀ (s : State) (r : ChipRef) (c : Chip) (a : Nat), s.chipAt r = some c → c.phase = .atmelPageLoad →
    (c.atmelOpen = true → c.readMode = .writeStatusPending → c.atmelBase + 256 ≤ c.profile.cap →
      Memory.wf 0xFF#8 c.img →
      ∃ img, Memory.wf 0xFF#8 img ∧
        (∀ b, Memory.read 0xFF#8 img b =
          if c.atmelBase ≤ b ∧ b < c.atmelBase + 256 ∧ c.atmelLoaded.getD (b - c.atmelBase) false = false then
            Config.atmelUnloaded s.draws b (Memory.read 0xFF#8 c.img b)
          else Memory.read 0xFF#8 c.img b) ∧
        exec (.flashAtmelClose r a) s =
          .next (s.chipDone r
            { c with img := img, dirty := true, writeActivity := true, atmelOpen := false, phase := .idle
                     statusReads := c.statusReads + 1
                     readMode := if c.statusReads + 1 ≥ s.cfg.programStatusReads then .normal else .writeStatusPending }
            (s.draws + 1) (.flashRead (~~~ Memory.read 0xFF#8 img (a % c.profile.cap)) true))) ∧
    (c.atmelOpen = false → c.readMode = .normal →
      exec (.flashAtmelClose r a) s =
        .next (s.chipDone r { c with phase := .idle } s.draws
          (.flashRead (Memory.read 0xFF#8 c.img (a % c.profile.cap)) false))) ∧
    (c.atmelOpen = false → c.readMode = .autoselect →
      (∀ v, idByte c.profile.ids (a % c.profile.cap) = some v →
        exec (.flashAtmelClose r a) s = .next (s.chipDone r { c with phase := .idle } s.draws (.flashRead v true))) ∧
      (idByte c.profile.ids (a % c.profile.cap) = none →
        exec (.flashAtmelClose r a) s =
          .next (s.chipDone r { c with phase := .idle } (s.draws + 1)
            (.flashRead (Config.autoselectUndef s.draws (a % c.profile.cap)) true)))) ∧
    (c.atmelOpen = false → c.readMode = .writeStatusPending →
      exec (.flashAtmelClose r a) s =
        .next (s.chipDone r
          { c with phase := .idle, statusReads := c.statusReads + 1
                   readMode := if c.statusReads + 1 ≥ s.cfg.programStatusReads then .normal else .writeStatusPending }
          s.draws (.flashRead (~~~ Memory.read 0xFF#8 c.img (a % c.profile.cap)) true))) ∧
    (c.atmelOpen = false → c.readMode = .sectorEraseStatus →
      (reached s.now c.eraseDeadline = false →
        exec (.flashAtmelClose r a) s =
          .next (s.chipDone r { c with phase := .idle, toggleBits := c.toggleBits ^^^ 0x44#8 } s.draws
            (.flashRead (c.toggleBits ||| s.cfg.eraseStatusBase) true))) ∧
      (reached s.now c.eraseDeadline = true →
        exec (.flashAtmelClose r a) s =
          .next (s.chipDone r { c with phase := .idle, readMode := .normal, multiEraseOpen := false } s.draws
            (.flashRead (Memory.read 0xFF#8 c.img (a % c.profile.cap)) true))))

/-! ### FlashChip writes

In each statement `c1` is the chip after the expiry that begins every write (R137, R139), and the address is reduced mod
`cap` (R71). -/

/-- R140, R143, R147: the three rows that set the read mode. -/
def Obligations.ModeRows : Prop :=
  ∀ (s : State) (r : ChipRef) (c c1 : Chip) (a : Nat), s.chipAt r = some c → c1 = c.expire s.now →
    c1.readMode ≠ .sectorEraseStatus →
    (c1.phase = .idle →
      exec (.flashReset1 r a) s =
        .next (s.chipDone r { c1 with readMode := .normal } s.draws (.flashWrite (decide (ReadMode.normal ≠ c.readMode))))) ∧
    (c1.phase = .unlock2 → isU1 c.profile.unlockWindow (a % c.profile.cap) = true →
      exec (.flashAutoselect r a) s =
        .next (s.chipDone r { c1 with readMode := .autoselect, phase := .idle } s.draws
          (.flashWrite (decide (ReadMode.autoselect ≠ c.readMode))))) ∧
    (c1.phase = .unlock2 →
      exec (.flashReset3 r a) s =
        .next (s.chipDone r { c1 with readMode := .normal, phase := .idle } s.draws
          (.flashWrite (decide (ReadMode.normal ≠ c.readMode)))))

/-- R141, R142, R150, R151: the four unlock cycles move the phase and nothing else. -/
def Obligations.UnlockRows : Prop :=
  ∀ (s : State) (r : ChipRef) (c c1 : Chip) (a : Nat), s.chipAt r = some c → c1 = c.expire s.now →
    c1.readMode ≠ .sectorEraseStatus →
    let moves := fun (i : Instr) (ph : Phase) =>
      exec i s = .next (s.chipDone r { c1 with phase := ph } s.draws (.flashWrite (decide (c1.readMode ≠ c.readMode))))
    (isU1 c.profile.unlockWindow (a % c.profile.cap) = true →
      (c1.phase = .idle → moves (.flashUnlock1 r a) .unlock1) ∧
      (c1.phase = .eraseSetup → moves (.flashEraseUnlock1 r a) .eraseUnlock1)) ∧
    (isU2 c.profile.unlockWindow (a % c.profile.cap) = true →
      (c1.phase = .unlock1 → moves (.flashUnlock2 r a) .unlock2) ∧
      (c1.phase = .eraseUnlock1 → moves (.flashEraseUnlock2 r a) .eraseUnlock2))

/-- R144, R146, R180, R185: the third cycles that set up a program, an erase, a write buffer and an Atmel page. -/
def Obligations.SetupRows : Prop :=
  ∀ (s : State) (r : ChipRef) (c c1 : Chip) (a : Nat), s.chipAt r = some c → c1 = c.expire s.now →
    c1.readMode ≠ .sectorEraseStatus → c1.phase = .unlock2 →
    let becomes := fun (i : Instr) (c' : Chip) =>
      exec i s = .next (s.chipDone r c' s.draws (.flashWrite (decide (c1.readMode ≠ c.readMode))))
    (isU1 c.profile.unlockWindow (a % c.profile.cap) = true →
      becomes (.flashEraseSetup r a) { c1 with phase := .eraseSetup } ∧
      (c.profile.atmelSDP = false → becomes (.flashProgramSetup r a) { c1 with phase := .programData }) ∧
      (c.profile.atmelSDP = true →
        becomes (.flashAtmelSetup r a) { c1 with atmelOpen := false, phase := .atmelPageLoad })) ∧
    (c.profile.writeBuffer = true → becomes (.flashWbLoad r a) { c1 with phase := .wbCount })

/-- R145, R160: the byte is ANDed into the image, the commit flags are set and the status mode is entered. -/
def Obligations.ProgramDataRow : Prop :=
  ∀ (s : State) (r : ChipRef) (c c1 : Chip) (a : Nat) (v : Byte), s.chipAt r = some c → c1 = c.expire s.now →
    c1.readMode ≠ .sectorEraseStatus → c1.phase = .programData → Memory.wf 0xFF#8 c.img →
    ∃ img, Memory.wf 0xFF#8 img ∧
      (∀ b, Memory.read 0xFF#8 img b =
        if b = a % c.profile.cap then Memory.read 0xFF#8 c.img b &&& v else Memory.read 0xFF#8 c.img b) ∧
      exec (.flashProgramData r a v) s =
        .next (s.chipDone r
          { c1 with img := img, dirty := true, writeActivity := true, readMode := .writeStatusPending, statusReads := 0
                    phase := .idle }
          s.draws (.flashWrite true))

/-- R152, R156: the whole image becomes 0xFF and the erase status is entered with the window closed to further sectors. -/
def Obligations.ChipEraseRow : Prop :=
  ∀ (s : State) (r : ChipRef) (c c1 : Chip) (a : Nat), s.chipAt r = some c → c1 = c.expire s.now →
    c1.readMode ≠ .sectorEraseStatus → c1.phase = .eraseUnlock2 →
    isU1 c.profile.unlockWindow (a % c.profile.cap) = true →
    ∃ img, (∀ b, b < c.profile.cap → Memory.read 0xFF#8 img b = 0xFF#8) ∧
      exec (.flashChipErase r a) s =
        .next (s.chipDone r
          { c1 with img := img, dirty := true, writeActivity := true, readMode := .sectorEraseStatus
                    multiEraseOpen := false, eraseDeadline := s.now + c.profile.sectorEraseTimeoutCycles, phase := .idle }
          s.draws (.flashWrite true))

/-- R155, R156: the sector of the address becomes 0xFF, every other byte stays, and the erase window opens. The sector holds
the address, lies in the chip, is aligned to its size and is the sector of each of its addresses (R195); for a profile of
uniform sectors it is the aligned one, and for a table of the sizes of an aligned partition it is the partition's. -/
def Obligations.SectorEraseRow : Prop :=
  ∀ (s : State) (r : ChipRef) (c c1 : Chip) (a : Nat), s.chipAt r = some c → c1 = c.expire s.now →
    c1.readMode ≠ .sectorEraseStatus → c1.phase = .eraseUnlock2 → c.profile.sectorErase = true →
    let sector := sectorOf c.profile (a % c.profile.cap)
    (sector.1 ≤ a % c.profile.cap ∧ a % c.profile.cap < sector.1 + sector.2 ∧ sector.1 + sector.2 ≤ c.profile.cap ∧
      sector.1 % sector.2 = 0 ∧
      ∀ b, sector.1 ≤ b → b < sector.1 + sector.2 → sectorOf c.profile b = sector) ∧
    (∀ bits, c.profile.sectors = .uniform bits → bits ≤ c.profile.capBits →
      sector = (a % c.profile.cap - a % c.profile.cap % 2 ^ bits, 2 ^ bits)) ∧
    (∀ sizes, c.profile.sectors = .table sizes → sizes.sum = c.profile.cap →
      (∀ before_ size after, sizes = before_ ++ size :: after → 0 < size ∧ before_.sum % size = 0) →
      ∀ before_ size after, sizes = before_ ++ size :: after → before_.sum ≤ a % c.profile.cap →
        a % c.profile.cap < before_.sum + size → sector = (before_.sum, size)) ∧
    ∃ img,
      (∀ b, Memory.read 0xFF#8 img b =
        if sector.1 ≤ b ∧ b < sector.1 + sector.2 then 0xFF#8 else Memory.read 0xFF#8 c.img b) ∧
      exec (.flashSectorErase r a) s =
        .next (s.chipDone r
          { c1 with img := img, dirty := true, writeActivity := true, readMode := .sectorEraseStatus
                    multiEraseOpen := true, eraseDeadline := s.now + c.profile.sectorEraseTimeoutCycles, phase := .idle }
          s.draws (.flashWrite true))

/-- R157: a write before the deadline is a further sector erase, which restarts the window, or ends the status. -/
def Obligations.EraseStatusWriteRows : Prop :=
  ∀ (s : State) (r : ChipRef) (c : Chip) (a : Nat) (v : Byte), s.chipAt r = some c →
    c.readMode = .sectorEraseStatus → reached s.now c.eraseDeadline = false →
    (c.multiEraseOpen = true → c.profile.sectorErase = true →
      let sector := sectorOf c.profile (a % c.profile.cap)
      ∃ img,
        (∀ b, Memory.read 0xFF#8 img b =
          if sector.1 ≤ b ∧ b < sector.1 + sector.2 then 0xFF#8 else Memory.read 0xFF#8 c.img b) ∧
        exec (.flashSectorEraseMore r a) s =
          .next (s.chipDone r
            { c with img := img, dirty := true, writeActivity := true
                     eraseDeadline := s.now + c.profile.sectorEraseTimeoutCycles }
            s.draws (.flashWrite true))) ∧
    (v ≠ 0x30#8 ∨ c.multiEraseOpen = false ∨ c.profile.sectorErase = false →
      exec (.flashEraseStatusExit r a v) s =
        .next (s.chipDone r { c with readMode := .normal, multiEraseOpen := false, phase := .idle } s.draws
          (.flashWrite true)))

/-- R148, R149, R106: a write cycle that no row of the command map accepts in its phase sets phase 0, whatever its byte, and
changes nothing else. -/
def Obligations.AbortRow : Prop :=
  ∀ (s : State) (r : ChipRef) (c c1 : Chip) (a : Nat) (v : Byte), s.chipAt r = some c → c1 = c.expire s.now →
    c1.readMode ≠ .sectorEraseStatus →
    let u1 := isU1 c.profile.unlockWindow (a % c.profile.cap)
    let u2 := isU2 c.profile.unlockWindow (a % c.profile.cap)
    (c1.phase = .idle ∧ v ≠ 0xF0#8 ∧ ¬ (v = 0xAA#8 ∧ u1 = true)) ∨
    (c1.phase = .unlock1 ∧ ¬ (v = 0x55#8 ∧ u2 = true)) ∨
    (c1.phase = .unlock2 ∧ v ≠ 0xF0#8 ∧ ¬ ((v = 0x90#8 ∨ v = 0xA0#8 ∨ v = 0x80#8) ∧ u1 = true) ∧
      ¬ (v = 0x25#8 ∧ c.profile.writeBuffer = true)) ∨
    (c1.phase = .eraseSetup ∧ ¬ (v = 0xAA#8 ∧ u1 = true)) ∨
    (c1.phase = .eraseUnlock1 ∧ ¬ (v = 0x55#8 ∧ u2 = true)) ∨
    (c1.phase = .eraseUnlock2 ∧ ¬ (v = 0x10#8 ∧ u1 = true) ∧ ¬ (v = 0x30#8 ∧ c.profile.sectorErase = true)) →
    exec (.flashAbort r a v) s =
      .next (s.chipDone r { c1 with phase := .idle } s.draws (.flashWrite (decide (c1.readMode ≠ c.readMode))))

/-- R181: the count byte arms the buffer, and a count above 32 aborts. -/
def Obligations.WbCountRow : Prop :=
  ∀ (s : State) (r : ChipRef) (c c1 : Chip) (a : Nat) (v : Byte), s.chipAt r = some c → c1 = c.expire s.now →
    c1.readMode ≠ .sectorEraseStatus → c1.phase = .wbCount →
    (v.toNat < 32 →
      exec (.flashWbCount r a v) s =
        .next (s.chipDone r
          { c1 with wbRemaining := v.toNat + 1, wbBaseValid := false, wbuf := Vector.replicate 32 0xFF#8, phase := .wbData }
          s.draws (.flashWrite (decide (c1.readMode ≠ c.readMode))))) ∧
    (32 ≤ v.toNat →
      exec (.flashWbCount r a v) s =
        .next (s.chipDone r { c1 with phase := .idle } s.draws (.flashWrite (decide (c1.readMode ≠ c.readMode)))))

/-- R182: a datum of the buffer's page is ANDed into its position and counted, the last one leads to the confirm phase, the
first one fixes the page, and a datum of another page aborts. The image is not written. -/
def Obligations.WbDataRow : Prop :=
  ∀ (s : State) (r : ChipRef) (c c1 : Chip) (a : Nat) (v : Byte), s.chipAt r = some c → c1 = c.expire s.now →
    c1.readMode ≠ .sectorEraseStatus → c1.phase = .wbData → 1 ≤ c1.wbRemaining →
    let page := a % c.profile.cap - a % c.profile.cap % 32
    (c1.wbBaseValid = false ∨ c1.wbBase = page →
      ∃ buf : Vector Byte 32,
        (∀ i : Fin 32, buf[i] = if i.val = a % c.profile.cap % 32 then c1.wbuf[i] &&& v else c1.wbuf[i]) ∧
        exec (.flashWbData r a v) s =
          .next (s.chipDone r
            { c1 with wbuf := buf, wbBase := page, wbBaseValid := true, wbRemaining := c1.wbRemaining - 1
                      phase := if c1.wbRemaining = 1 then .wbConfirm else .wbData }
            s.draws (.flashWrite (decide (c1.readMode ≠ c.readMode))))) ∧
    (c1.wbBaseValid = true → c1.wbBase ≠ page →
      exec (.flashWbData r a v) s =
        .next (s.chipDone r { c1 with phase := .idle } s.draws (.flashWrite (decide (c1.readMode ≠ c.readMode)))))

/-- R183, R160: `$29` ANDs the buffer into its page in one transition; any other byte aborts. The page lies in the chip. -/
def Obligations.WbConfirmRow : Prop :=
  ∀ (s : State) (r : ChipRef) (c c1 : Chip) (a : Nat) (v : Byte), s.chipAt r = some c → c1 = c.expire s.now →
    c1.readMode ≠ .sectorEraseStatus → c1.phase = .wbConfirm →
    (v = 0x29#8 → c1.wbBase + 32 ≤ c.profile.cap → Memory.wf 0xFF#8 c.img →
      ∃ img, Memory.wf 0xFF#8 img ∧
        (∀ b, Memory.read 0xFF#8 img b =
          if c1.wbBase ≤ b ∧ b < c1.wbBase + 32 then
            Memory.read 0xFF#8 c.img b &&& c1.wbuf.getD (b - c1.wbBase) 0xFF#8
          else Memory.read 0xFF#8 c.img b) ∧
        exec (.flashWbConfirm r a v) s =
          .next (s.chipDone r
            { c1 with img := img, dirty := true, writeActivity := true, readMode := .writeStatusPending, statusReads := 0
                      phase := .idle }
            s.draws (.flashWrite true))) ∧
    (v ≠ 0x29#8 →
      exec (.flashWbConfirm r a v) s =
        .next (s.chipDone r { c1 with phase := .idle } s.draws (.flashWrite (decide (c1.readMode ≠ c.readMode)))))

/-- R186, R187, R188: a byte of the open page, or the first byte, which opens its page, replaces the image byte and is marked
loaded; a byte of another page closes the page, is not programmed and leaves phase 0. The unloaded bytes of the closed page
are draws: `Config.atmelUnloaded` at the draw counter (assumption 9). -/
def Obligations.AtmelDataRow : Prop :=
  ∀ (s : State) (r : ChipRef) (c c1 : Chip) (a : Nat) (v : Byte), s.chipAt r = some c → c1 = c.expire s.now →
    c1.readMode ≠ .sectorEraseStatus → c1.phase = .atmelPageLoad → Memory.wf 0xFF#8 c.img →
    let a' := a % c.profile.cap
    (c1.atmelOpen = false ∨ c1.atmelBase = a' - a' % 256 →
      ∃ img, ∃ loaded : Vector Bool 256, Memory.wf 0xFF#8 img ∧
        (∀ b, Memory.read 0xFF#8 img b = if b = a' then v else Memory.read 0xFF#8 c.img b) ∧
        (∀ i : Fin 256, loaded[i] = if i.val = a' % 256 then true else c1.atmelOpen && c1.atmelLoaded[i]) ∧
        exec (.flashAtmelData r a v) s =
          .next (s.chipDone r
            { c1 with img := img, dirty := true, writeActivity := true, atmelOpen := true, atmelBase := a' - a' % 256
                      atmelLoaded := loaded, readMode := .writeStatusPending, statusReads := 0 }
            s.draws (.flashWrite true))) ∧
    (c1.atmelOpen = true → c1.atmelBase ≠ a' - a' % 256 → c1.atmelBase + 256 ≤ c.profile.cap →
      ∃ img, Memory.wf 0xFF#8 img ∧
        (∀ b, Memory.read 0xFF#8 img b =
          if c1.atmelBase ≤ b ∧ b < c1.atmelBase + 256 ∧ c1.atmelLoaded.getD (b - c1.atmelBase) false = false then
            Config.atmelUnloaded s.draws b (Memory.read 0xFF#8 c.img b)
          else Memory.read 0xFF#8 c.img b) ∧
        exec (.flashAtmelData r a v) s =
          .next (s.chipDone r
            { c1 with img := img, dirty := true, writeActivity := true, atmelOpen := false, phase := .idle }
            (s.draws + 1) (.flashWrite true)))

/-- The three cycles of R165 on any unlock window: they enter Autoselect exactly when each byte and each compared address is
the documented one; otherwise the mode is Normal; the image is unchanged in every case, and reads then return the ID bytes
the profile defines. -/
def Obligations.AutoselectSequence : Prop :=
  ∀ (p : Params) (c : Chip) (a1 a2 a3 a4 : Nat) (v1 v2 v3 : Byte) (t1 t2 t3 t4 : Cycles) (d1 d2 d3 d4 : Nat),
    c.readMode = .normal → c.phase = .idle →
    let u1 := fun a => isU1 c.profile.unlockWindow (a % c.profile.cap)
    let u2 := fun a => isU2 c.profile.unlockWindow (a % c.profile.cap)
    let c3 := ((((c.write a1 v1 t1 d1).chip).write a2 v2 t2 d2).chip.write a3 v3 t3 d3).chip
    let exact := v1 = 0xAA#8 ∧ u1 a1 = true ∧ v2 = 0x55#8 ∧ u2 a2 = true ∧ v3 = 0x90#8 ∧ u1 a3 = true
    (exact → c3 = { c with readMode := .autoselect } ∧
      ∀ v, idByte c.profile.ids (a4 % c.profile.cap) = some v → (c3.read p a4 t4 d4).value = v) ∧
    (¬ exact → c3.readMode = .normal) ∧
    c3.img = c.img

/-- On a chip without Atmel data protection a write cycle sets a 0 bit of the image to 1 only by an erase: at phase 6 a `$10` at
U1 or an accepted `$30`, and in the open erase window an accepted `$30`. Every byte is then as before or 0xFF; after any
other write cycle every byte keeps a subset of its 1 bits. -/
def Obligations.WritesOnlyClearOrErase : Prop :=
  ∀ (c : Chip) (a : Nat) (v : Byte) (now : Cycles) (draws b : Nat), c.Sound → c.profile.atmelSDP = false →
    let c1 := c.expire now
    let old := Memory.read 0xFF#8 c.img b
    let new := Memory.read 0xFF#8 (c.write a v now draws).chip.img b
    let erases :=
      (c1.readMode ≠ .sectorEraseStatus ∧ c1.phase = .eraseUnlock2 ∧
        ((v = 0x10#8 ∧ isU1 c.profile.unlockWindow (a % c.profile.cap) = true) ∨
          (v = 0x30#8 ∧ c.profile.sectorErase = true))) ∨
      (c1.readMode = .sectorEraseStatus ∧ v = 0x30#8 ∧ c1.multiEraseOpen = true ∧ c.profile.sectorErase = true)
    (¬ erases → new &&& old = new) ∧ (erases → new = old ∨ new = 0xFF#8)

/-- R189: on an Atmel profile no access changes the image outside a page load, but a chip erase. -/
def Obligations.AtmelProtection : Prop :=
  ∀ (p : Params) (c : Chip) (a : Nat) (v : Byte) (now : Cycles) (draws : Nat), c.Sound → c.profile.atmelSDP = true →
    c.phase ≠ .atmelPageLoad →
    (c.read p a now draws).chip.img = c.img ∧
    ((c.write a v now draws).chip.img = c.img ∨
      (c.phase = .eraseUnlock2 ∧ v = 0x10#8 ∧ isU1 c.profile.unlockWindow (a % c.profile.cap) = true))

/-- R162: `Init` makes a chip with the buffer's bytes and every other field at its value of R31, or faults. The check order
is the model's (assumption 14): each fault is stated where it is the only one. -/
def Obligations.FlashInitRow : Prop :=
  ∀ (s : State) (allocOk : Bool) (buffer : Buffer) (type : ChipType),
    let profile := profileOf s.cfg type
    let fits := buffer.size = profile.cap
    let fresh := ∀ c ∈ s.mapper.chips ++ s.chips, c.buf ≠ buffer.id
    (fits → allocOk = true → fresh →
      ∃ img, Memory.wf 0xFF#8 img ∧
        (buffer.cells.Pairwise (fun x y => x.1 ≠ y.1) →
          ∀ x ∈ buffer.cells, x.1 < buffer.size → Memory.read 0xFF#8 img x.1 = x.2) ∧
        (∀ b, (∀ x ∈ buffer.cells, x.1 ≠ b) → Memory.read 0xFF#8 img b = 0xFF#8) ∧
        exec (.flashInit allocOk buffer type) s =
          .next { s with
            chips := s.chips ++
              [{ type := type, profile := profile, buf := buffer.id, img := img, readMode := .normal, phase := .idle
                 toggleBits := 0x00#8, dirty := false, writeActivity := false, statusReads := 0, eraseDeadline := 0#64
                 multiEraseOpen := false, wbuf := Vector.replicate 32 0xFF#8, wbBase := 0, wbBaseValid := false
                 wbRemaining := 0, atmelBase := 0, atmelOpen := false, atmelLoaded := Vector.replicate 256 false }]
            out := { result := .chip s.chips.length, calls := s.out.calls } }) ∧
    (¬ fits → allocOk = true → fresh → exec (.flashInit allocOk buffer type) s = .fault .initSizeMismatch) ∧
    (fits → allocOk = false → fresh → exec (.flashInit allocOk buffer type) s = .fault .initAllocFailure) ∧
    (fits → allocOk = true → ¬ fresh → exec (.flashInit allocOk buffer type) s = .fault .sharedImage)

/-- R163: `ColdReset` sets the mode, the phase and the toggle bits and nothing else. A second one changes nothing. -/
def Obligations.FlashColdResetRow : Prop :=
  ∀ (s : State) (r : ChipRef) (c : Chip), s.chipAt r = some c →
    ∃ t, exec (.flashColdReset r) s = .next t ∧
      t = s.chipDone r { c with readMode := .normal, phase := .idle, toggleBits := 0x00#8 } s.draws .none ∧
      exec (.flashColdReset r) t = .next t

/-! ### The scheduler -/

/-- R211, R212, R215: `Add` replaces the entry of its id and goes before the first entry it is due before; `Delete` removes
the entry of its id. The range check comes before the reentrancy check (R375). -/
def Obligations.SchedAddDeleteRows : Prop :=
  ∀ (s : State) (id : Int) (delta : Cycles) (handler : Nat),
    let kept := s.sched.queue.filter (fun e => decide (e.id ≠ id))
    let e : Entry := { id := id, deadline := s.now + delta, handler := handler }
    (2 ^ 63 ≤ delta.toNat → exec (.schedAdd id delta handler) s = .fault .schedulerDeltaRange) ∧
    (delta.toNat < 2 ^ 63 → s.sched.inHandler = some id →
      exec (.schedAdd id delta handler) s = .fault .schedulerReentrantSameId) ∧
    (delta.toNat < 2 ^ 63 → s.sched.inHandler ≠ some id →
      ∃ before_ after : List Entry, before_ ++ after = kept ∧
        (∀ f ∈ before_, before e.deadline f.deadline = false) ∧
        (∀ f, after.head? = some f → before e.deadline f.deadline = true) ∧
        exec (.schedAdd id delta handler) s =
          .next { s with sched := { s.sched with queue := before_ ++ e :: after }
                         out := { result := .entry e, calls := s.out.calls } }) ∧
    (s.sched.inHandler = some id → exec (.schedDelete id) s = .fault .schedulerReentrantSameId) ∧
    (s.sched.inHandler ≠ some id →
      exec (.schedDelete id) s =
        .next { s with sched := { s.sched with queue := kept }, out := { result := .none, calls := s.out.calls } })

/-- R213: only the head is examined; it runs if it is due, is removed first, and its handler's calls are made. Where R213
returns `some e.id` the model returns the whole entry, its id in it: the model's form of the result. -/
def Obligations.SchedCheckRow : Prop :=
  ∀ (s : State) (hc : List HandlerCall),
    (s.sched.inHandler ≠ none → exec (.schedCheck hc) s = .fault .schedulerReentrantSameId) ∧
    (s.sched.inHandler = none →
      (s.sched.queue = [] →
        exec (.schedCheck hc) s = .next { s with out := { result := .ran none, calls := s.out.calls } }) ∧
      (∀ e rest, s.sched.queue = e :: rest → reached s.now e.deadline = false →
        exec (.schedCheck hc) s = .next { s with out := { result := .ran none, calls := s.out.calls } }) ∧
      (∀ e rest t, s.sched.queue = e :: rest → reached s.now e.deadline = true →
        runScript hc { s with sched := { queue := rest, inHandler := some e.id } } = .next t →
        exec (.schedCheck hc) s =
          .next { t with sched := { t.sched with inHandler := none }
                         out := { result := .ran (some e), calls := t.out.calls } }) ∧
      (∀ e rest, s.sched.queue = e :: rest → reached s.now e.deadline = true → hc = [] →
        exec (.schedCheck hc) s =
          .next { s with sched := { queue := rest, inHandler := none }
                         out := { result := .ran (some e), calls := s.out.calls } }))

/-- R214: a handler that calls `Add` or `Delete` of its own id, or `CheckAndHandle`, stops the machine with
`SchedulerReentrantSameId`, whatever it did before. -/
def Obligations.HandlerForbiddenCalls : Prop :=
  ∀ (s t : State) (pre post : List HandlerCall) (clk : HostTime) (bad : HostCall) (e : Entry) (rest : List Entry),
    s.sched.inHandler = none → s.sched.queue = e :: rest → reached s.now e.deadline = true →
    runScript pre { s with sched := { queue := rest, inHandler := some e.id } } = .next t →
    (bad = .schedCheck ∨ bad = .schedDelete e.id ∨
      ∃ delta handler, delta.toNat < 2 ^ 63 ∧ bad = .schedAdd e.id delta handler) →
    exec (.schedCheck (pre ++ { clock := clk, call := .host bad } :: post)) s = .fault .schedulerReentrantSameId

/-- R36, with R402's range: while every deadline, the new one too, lies within half the cycle range after some base, `Add`
keeps the queue in order and each id at most once, and puts the entry after those of the same deadline. -/
def Obligations.SchedAddKeepsOrder : Prop :=
  ∀ (s t : State) (id : Int) (delta base : Cycles) (handler : Nat),
    exec (.schedAdd id delta handler) s = .next t →
    inRange base s.sched.queue → (s.now + delta - base).toNat < 2 ^ 63 → inOrder s.sched.queue →
    (s.sched.queue.map (fun e => e.id)).Nodup →
    inOrder t.sched.queue ∧ (t.sched.queue.map (fun e => e.id)).Nodup ∧ inRange base t.sched.queue ∧
    ∃ before_ after : List Entry,
      t.sched.queue = before_ ++ { id := id, deadline := s.now + delta, handler := handler } :: after ∧
      ∀ f ∈ after, f.deadline ≠ s.now + delta

/-! ### The bit-serial link -/

/-- R240, R241, R242: the link's transitions on each pattern of levels, on both devices, and what `ReadState` returns. -/
def Obligations.SerialBitLayer : Prop :=
  ∀ (s : State) (ce clk d : Bool),
    let e := s.eeprom
    let r := s.rtc
    let ee := fun e' : Eeprom =>
      exec (.serialWriteState .eeprom ce clk d) s = .next ({ s with eeprom := e' }.answer .none)
    let rt := fun r' : Rtc => exec (.serialWriteState .rtc ce clk d) s = .next ({ s with rtc := r' }.answer .none)
    let idle : Link := { ce := false, clk := clk, bitCount := 0, inShift := 0x00#8, outShift := 0xFF#8, outBit := true }
    let rise := fun l : Link =>
      { l with ce := true, clk := true, inShift := (l.inShift <<< 1) ||| (if d then 1#8 else 0#8) }
    let fall := fun l : Link =>
      { l with ce := true, clk := false, bitCount := l.bitCount + 1, outBit := l.outShift.getLsbD 7
               outShift := (l.outShift <<< 1) ||| 1#8 }
    let other := fun l : Link => { l with ce := ce, clk := clk }
    (ce = false → e.link.ce = true →
      ee { e with link := idle, cmd := .idle, writeIssued := false, wel := e.wel && !e.writeIssued }) ∧
    (ce = false → r.link.ce = true →
      rt { r with link := idle, cmd := .idle, writeIssued := false, wel := r.wel && !r.writeIssued }) ∧
    (ce = true → clk = true → e.link.clk = false → ee { e with link := rise e.link }) ∧
    (ce = true → clk = true → r.link.clk = false → rt { r with link := rise r.link }) ∧
    (ce = true → clk = false → e.link.clk = true → e.link.bitCount ≠ 7 → ee { e with link := fall e.link }) ∧
    (ce = true → clk = false → r.link.clk = true → r.link.bitCount ≠ 7 → rt { r with link := fall r.link }) ∧
    (ce = true → clk = false → e.link.clk = true → e.link.bitCount = 7 →
      ee { (e.onNextByte e.link.inShift).2 with link := e.link.after (e.onNextByte e.link.inShift).1 }) ∧
    (ce = true → clk = false → r.link.clk = true → r.link.bitCount = 7 →
      rt { (r.onNextByte s.clock r.link.inShift).2 with link := r.link.after (r.onNextByte s.clock r.link.inShift).1 }) ∧
    ((ce = false ∧ e.link.ce = false) ∨ (ce = true ∧ clk = e.link.clk) → ee { e with link := other e.link }) ∧
    ((ce = false ∧ r.link.ce = false) ∨ (ce = true ∧ clk = r.link.clk) → rt { r with link := other r.link }) ∧
    exec (.serialReadState .eeprom) s = .next (s.answer (.bit e.link.outBit)) ∧
    exec (.serialReadState .rtc) s = .next (s.answer (.bit r.link.outBit))

/-- R243, R290: on both devices the 24 WriteState calls of `SPI v` hand `v` to the interpreter exactly once and load its response, which the next
eight bit-times give back most significant bit first. -/
def Obligations.ByteTransfer : Prop :=
  (∀ (e : Eeprom) (v : Byte), e.link.betweenBytes →
    e.spi v = { (e.onNextByte v).2 with link := { e.link with inShift := v }.after (e.onNextByte v).1 }) ∧
  (∀ (r : Rtc) (t : HostTime) (v : Byte), r.link.betweenBytes →
    r.spi t v = { (r.onNextByte t v).2 with link := { r.link with inShift := v }.after (r.onNextByte t v).1 }) ∧
  (∀ (e : Eeprom) (l : Link) (resp : Byte), e.link = l.after resp → e.spir = (resp, e.spi 0xFF#8)) ∧
  (∀ (r : Rtc) (t : HostTime) (l : Link) (resp : Byte), r.link = l.after resp → r.spir t = (resp, r.spi t 0xFF#8))

/-! ### The EEPROM

The link is one falling edge before the byte is complete (`Link.lastEdge`); an opcode row is that edge's WriteState call
(assumption 13). -/

/-- R256, R257, R262: WREN and WRDI set and clear the latch, an unknown opcode changes nothing, and the rest of each of these
transactions is ignored. -/
def Obligations.EeLatchRows : Prop :=
  ∀ (s : State) (op : Byte), s.eeprom.link.lastEdge op →
    let e := s.eeprom
    let l := e.link.after 0xFF#8
    (e.cmd = .idle → op = 0x06#8 →
      exec .eeWren s = .next ({ s with eeprom := { e with wel := true, cmd := .done, link := l } }.answer .none)) ∧
    (e.cmd = .idle → op = 0x04#8 →
      exec .eeWrdi s = .next ({ s with eeprom := { e with wel := false, cmd := .done, link := l } }.answer .none)) ∧
    (e.cmd = .idle → op = 0x00#8 ∨ 0x07#8 ≤ op →
      exec (.eeUnknown op) s = .next ({ s with eeprom := { e with cmd := .done, link := l } }.answer .none)) ∧
    (e.cmd = .done →
      exec (.serialWriteState .eeprom true false false) s = .next ({ s with eeprom := { e with link := l } }.answer .none))

/-- R258, R259, R250: the status register is read again at each further byte; the status byte of WRSR sets BP with WEL set
and is ignored without. -/
def Obligations.EeStatusRows : Prop :=
  ∀ (s : State) (b : Byte), s.eeprom.link.lastEdge b →
    let e := s.eeprom
    let status := (e.bp.setWidth 8 <<< 2) ||| (if e.wel then 0x02#8 else 0x00#8)
    let next := exec (.serialWriteState .eeprom true false false) s
    (e.cmd = .idle → b = 0x05#8 →
      exec .eeRdsr s = .next ({ s with eeprom := { e with cmd := .readStatus, link := e.link.after status } }.answer .none)) ∧
    (e.cmd = .readStatus →
      next = .next ({ s with eeprom := { e with link := e.link.after status } }.answer .none)) ∧
    (e.cmd = .idle → b = 0x01#8 →
      exec .eeWrsr s = .next ({ s with eeprom := { e with cmd := .writeStatus, link := e.link.after 0xFF#8 } }.answer .none)) ∧
    (e.cmd = .writeStatus → e.wel = true →
      next = .next ({ s with eeprom := { e with bp := ((b >>> 2) &&& 3#8).setWidth 2, writeIssued := true, cmd := .done
                                                link := e.link.after 0xFF#8 } }.answer .none)) ∧
    (e.cmd = .writeStatus → e.wel = false →
      next = .next ({ s with eeprom := { e with cmd := .done, link := e.link.after 0xFF#8 } }.answer .none))

/-- R260, R252: READ takes the address, then every byte answers the addressed byte and advances modulo 256. -/
def Obligations.EeReadRows : Prop :=
  ∀ (s : State) (b : Byte), s.eeprom.link.lastEdge b →
    let e := s.eeprom
    let next := exec (.serialWriteState .eeprom true false false) s
    let at_ := fun a : Byte => Memory.read 0xFF#8 e.mem a.toNat
    (e.cmd = .idle → b = 0x03#8 →
      exec .eeRead s = .next ({ s with eeprom := { e with cmd := .readAddr, link := e.link.after 0xFF#8 } }.answer .none)) ∧
    (e.cmd = .readAddr →
      next = .next ({ s with eeprom := { e with addr := BitVec.ofNat 8 ((b.toNat + 1) % 256), cmd := .readData
                                                link := e.link.after (at_ b) } }.answer .none)) ∧
    (e.cmd = .readData →
      next = .next ({ s with eeprom := { e with addr := BitVec.ofNat 8 ((e.addr.toNat + 1) % 256)
                                                link := e.link.after (at_ e.addr) } }.answer .none))

/-- R261, R252, R255: WRITE takes the address; a data byte is stored when the latch is set and the address is not protected,
and the address advances inside its 16-byte page either way. -/
def Obligations.EeWriteRows : Prop :=
  ∀ (s : State) (b : Byte), s.eeprom.link.lastEdge b → Memory.wf 0xFF#8 s.eeprom.mem →
    let e := s.eeprom
    let next := exec (.serialWriteState .eeprom true false false) s
    let advanced := (e.addr &&& 0xF0#8) ||| ((e.addr + 1) &&& 0x0F#8)
    let guarded := (e.bp = 1#2 ∧ 0xC0 ≤ e.addr.toNat) ∨ (e.bp = 2#2 ∧ 0x80 ≤ e.addr.toNat) ∨ e.bp = 3#2
    (e.cmd = .idle → b = 0x02#8 →
      exec .eeWrite s = .next ({ s with eeprom := { e with cmd := .writeAddr, link := e.link.after 0xFF#8 } }.answer .none)) ∧
    (e.cmd = .writeAddr →
      next = .next ({ s with eeprom := { e with addr := b, cmd := .writeData, link := e.link.after 0xFF#8 } }.answer .none)) ∧
    (e.cmd = .writeData → e.wel = true → ¬ guarded →
      ∃ mem, Memory.wf 0xFF#8 mem ∧
        (∀ x, Memory.read 0xFF#8 mem x = if x = e.addr.toNat then b else Memory.read 0xFF#8 e.mem x) ∧
        next = .next ({ s with eeprom := { e with mem := mem, writeIssued := true, addr := advanced
                                                  link := e.link.after 0xFF#8 } }.answer .none)) ∧
    (e.cmd = .writeData → e.wel = false ∨ guarded →
      next = .next ({ s with eeprom := { e with addr := advanced, link := e.link.after 0xFF#8 } }.answer .none))

/-- R268: writing any `v` to the status register after a WREN transaction reads back as `v & 0x0C`; without WREN the earlier
protect field is read. The EEPROM is deselected with the clock low. -/
def Obligations.EeStatusScenario : Prop :=
  ∀ (e : Eeprom) (v : Byte), e.Sound → e.link.ce = false → e.link.clk = false →
    let readStatus := fun e : Eeprom => ((e.select.spi 0x05#8).spir).1
    let writeStatus := fun e : Eeprom => ((e.select.spi 0x01#8).spi v).unselect
    readStatus (writeStatus (e.select.spi 0x06#8).unselect) = v &&& 0x0C#8 ∧
    (e.wel = false → readStatus (writeStatus e) = e.bp.setWidth 8 <<< 2)

/-! ### The RTC -/

/-- R303, R304, R314: EEWRDI and EEWREN clear and set the latch, EEWREN keeps the unlock progress, an unknown opcode resets
it, and the rest of each of these transactions is ignored. -/
def Obligations.RtcLatchRows : Prop :=
  ∀ (s : State) (op : Byte), s.rtc.link.lastEdge op →
    let r := s.rtc
    let l := r.link.after 0xFF#8
    (r.cmd = .idle → op = 0x04#8 →
      exec .rtcEeWrdi s = .next ({ s with rtc := { r with unlock := 0, wel := false, cmd := .done, link := l } }.answer .none)) ∧
    (r.cmd = .idle → op = 0x06#8 →
      exec .rtcEeWren s = .next ({ s with rtc := { r with wel := true, cmd := .done, link := l } }.answer .none)) ∧
    (r.cmd = .idle →
      op ∉ [0x03#8, 0x02#8, 0x04#8, 0x06#8, 0x05#8, 0x01#8, 0x13#8, 0x12#8, 0x14#8, 0x32#8, 0x33#8, 0x54#8] →
      exec (.rtcUnknown op) s = .next ({ s with rtc := { r with unlock := 0, cmd := .done, link := l } }.answer .none)) ∧
    (r.cmd = .done →
      exec (.serialWriteState .rtc true false false) s = .next ({ s with rtc := { r with link := l } }.answer .none))

/-- R301, R311, with the opcode and address bytes of R302, R307, R308 and R310: an opcode resets the unlock progress and
expects the address, an address byte sets the pointer, and the EEPROM and ID reads answer the addressed byte from the address
byte on, modulo 256 and modulo 16. The address byte of READ is `RtcTimeRefresh`. -/
def Obligations.RtcAddressRows : Prop :=
  ∀ (s : State) (b : Byte), s.rtc.link.lastEdge b →
    let r := s.rtc
    let next := exec (.serialWriteState .rtc true false false) s
    let opens := fun (i : Instr) (cmd : RtcCmd) =>
      exec i s = .next ({ s with rtc := { r with unlock := 0, cmd := cmd, link := r.link.after 0xFF#8 } }.answer .none)
    let goes := fun (cmd : RtcCmd) (addr resp : Byte) =>
      next = .next ({ s with rtc := { r with addr := addr, cmd := cmd, link := r.link.after resp } }.answer .none)
    let eeAt := fun a : Byte => Memory.read 0xFF#8 r.ee a.toNat
    let idAt := fun a : Byte => Memory.read 0xFF#8 r.id a.toNat
    (r.cmd = .idle →
      (b = 0x03#8 → opens .rtcEeRead .eeReadAddr) ∧
      (b = 0x02#8 → opens .rtcEeWrite .eeWriteAddr) ∧
      (b = 0x13#8 → opens .rtcRead .ramReadAddr) ∧
      (b = 0x12#8 → opens .rtcWrite .ramWriteAddr) ∧
      (b = 0x33#8 → opens .rtcIdRead .idReadAddr)) ∧
    (r.cmd = .eeReadAddr → goes .eeReadData (BitVec.ofNat 8 ((b.toNat + 1) % 256)) (eeAt b)) ∧
    (r.cmd = .eeReadData → goes .eeReadData (BitVec.ofNat 8 ((r.addr.toNat + 1) % 256)) (eeAt r.addr)) ∧
    (r.cmd = .idReadAddr →
      goes .idReadData (BitVec.ofNat 8 ((b.toNat % 16 + 1) % 16)) (idAt (BitVec.ofNat 8 (b.toNat % 16)))) ∧
    (r.cmd = .idReadData → goes .idReadData (BitVec.ofNat 8 ((r.addr.toNat + 1) % 16)) (idAt r.addr)) ∧
    (r.cmd = .eeWriteAddr → goes .eeWriteData b 0xFF#8) ∧
    (r.cmd = .ramWriteAddr → goes .ramWriteData b 0xFF#8) ∧
    (r.cmd = .idWriteAddr → goes .idWriteData (BitVec.ofNat 8 (b.toNat % 16)) 0xFF#8)

/-- R305, R306, R292: SRREAD answers the status at its opcode and at every further byte and keeps the unlock progress;
SRWRITE sets BP when the latch is set. -/
def Obligations.RtcStatusRows : Prop :=
  ∀ (s : State) (b : Byte), s.rtc.link.lastEdge b →
    let r := s.rtc
    let status := (r.bp.setWidth 8 <<< 2) ||| (if r.wel then 0x02#8 else 0x00#8)
    let next := exec (.serialWriteState .rtc true false false) s
    (r.cmd = .idle → b = 0x05#8 →
      exec .rtcSrRead s = .next ({ s with rtc := { r with cmd := .readStatus, link := r.link.after status } }.answer .none)) ∧
    (r.cmd = .readStatus → next = .next ({ s with rtc := { r with link := r.link.after status } }.answer .none)) ∧
    (r.cmd = .idle → b = 0x01#8 →
      exec .rtcSrWrite s =
        .next ({ s with rtc := { r with unlock := 0, cmd := .writeStatus, link := r.link.after 0xFF#8 } }.answer .none)) ∧
    (r.cmd = .writeStatus → r.wel = true →
      next = .next ({ s with rtc := { r with bp := ((b >>> 2) &&& 3#8).setWidth 2, writeIssued := true, cmd := .done
                                             link := r.link.after 0xFF#8 } }.answer .none)) ∧
    (r.cmd = .writeStatus → r.wel = false →
      next = .next ({ s with rtc := { r with cmd := .done, link := r.link.after 0xFF#8 } }.answer .none))

/-- R309, R310: UNLOCK steps to 1 on `$55` and from 1 to 2 on `$AA`, any other key goes back to 0; IDWRITE is armed only at 2
with the latch set, and uses the progress up either way. -/
def Obligations.RtcUnlockRows : Prop :=
  ∀ (s : State) (b : Byte), s.rtc.link.lastEdge b →
    let r := s.rtc
    let l := r.link.after 0xFF#8
    let next := exec (.serialWriteState .rtc true false false) s
    (r.cmd = .idle → b = 0x14#8 →
      exec .rtcUnlock s = .next ({ s with rtc := { r with cmd := .unlockKey, link := l } }.answer .none)) ∧
    (r.cmd = .unlockKey →
      next = .next ({ s with rtc := { r with
        unlock := if r.unlock = 0 ∧ b = 0x55#8 then 1 else if r.unlock = 1 ∧ b = 0xAA#8 then 2 else 0
        cmd := .done, link := l } }.answer .none)) ∧
    (r.cmd = .idle → b = 0x32#8 → r.unlock = 2 → r.wel = true →
      exec .rtcIdWrite s = .next ({ s with rtc := { r with unlock := 0, cmd := .idWriteAddr, link := l } }.answer .none)) ∧
    (r.cmd = .idle → b = 0x32#8 → r.unlock ≠ 2 ∨ r.wel = false →
      exec .rtcIdWrite s = .next ({ s with rtc := { r with unlock := 0, cmd := .done, link := l } }.answer .none))

/-- R312: CLRRAM clears the SRAM `0x20-0x5F` and keeps every other register. -/
def Obligations.RtcClrRamRow : Prop :=
  ∀ s : State, s.rtc.link.lastEdge 0x54#8 → s.rtc.cmd = .idle →
    ∃ ram, (∀ a, Memory.read 0x00#8 ram a = if 0x20 ≤ a ∧ a ≤ 0x5F then 0x00#8 else Memory.read 0x00#8 s.rtc.ram a) ∧
      exec .rtcClrRam s =
        .next ({ s with rtc := { s.rtc with unlock := 0, ram := ram, cmd := .done, link := s.rtc.link.after 0xFF#8 } }.answer .none)

/-- R300, R307: the address byte of READ puts the host clock into the seven time registers, in packed BCD with the control
bits kept and the leap-year flag, changes no other register, and answers the addressed byte of the refreshed RAM. The clock's
fields have the two digits that packed BCD holds, and a day of the week. -/
def Obligations.RtcTimeRefresh : Prop :=
  ∀ (s : State) (b : Byte), s.rtc.link.lastEdge b → s.rtc.cmd = .ramReadAddr → Memory.wf 0x00#8 s.rtc.ram →
    s.clock.sec ≤ 99 → s.clock.min ≤ 99 → s.clock.hour ≤ 99 → s.clock.day ≤ 99 → s.clock.month ≤ 99 → s.clock.wday ≤ 6 →
    let t := s.clock
    let old := fun a => Memory.read 0x00#8 s.rtc.ram a
    let packed := fun n : Nat => BitVec.ofNat 8 (16 * (n / 10) + n % 10)
    let leap := if t.year % 100 % 4 = 0 then 0x20#8 else 0x00#8
    ∃ ram, Memory.wf 0x00#8 ram ∧
      Memory.read 0x00#8 ram 0x01 = (old 0x01 &&& 0x80#8) ||| packed t.sec ∧
      Memory.read 0x00#8 ram 0x02 = (old 0x02 &&& 0x80#8) ||| packed t.min ∧
      Memory.read 0x00#8 ram 0x03 = (old 0x03 &&& 0x80#8) ||| packed t.hour ∧
      Memory.read 0x00#8 ram 0x04 = (old 0x04 &&& 0xF8#8) ||| BitVec.ofNat 8 (t.wday + 1) ∧
      Memory.read 0x00#8 ram 0x05 = (old 0x05 &&& 0xC0#8) ||| packed t.day ∧
      Memory.read 0x00#8 ram 0x06 = (old 0x06 &&& 0xC0#8) ||| leap ||| packed t.month ∧
      Memory.read 0x00#8 ram 0x07 = packed (t.year % 100) ∧
      (∀ a, a = 0 ∨ 7 < a → Memory.read 0x00#8 ram a = old a) ∧
      exec (.serialWriteState .rtc true false false) s =
        .next ({ s with rtc := { s.rtc with
          ram := ram, cmd := .ramReadData, addr := if b = 0x5F#8 then 0x00#8 else b + 1
          link := s.rtc.link.after (if b.toNat < 0x60 then Memory.read 0x00#8 ram b.toNat else 0xFF#8) } }.answer .none)

/-- R293, R294, R295, R255: the data bytes of the RAM, EEPROM and ID writes store at the address pointer, each under its own
condition, and advance it in its own way; a RAM burst read answers the addressed byte. -/
def Obligations.RtcDataBytes : Prop :=
  ∀ (s : State) (b : Byte), s.rtc.link.lastEdge b →
    Memory.wf 0x00#8 s.rtc.ram → Memory.wf 0xFF#8 s.rtc.ee → Memory.wf 0xFF#8 s.rtc.id →
    let r := s.rtc
    let l := r.link.after 0xFF#8
    let next := exec (.serialWriteState .rtc true false false) s
    let after5F := if r.addr = 0x5F#8 then 0x00#8 else r.addr + 1
    let inPage := (r.addr &&& 0xF8#8) ||| ((r.addr + 1) &&& 0x07#8)
    let guarded := (r.bp = 1#2 ∧ 0xC0 ≤ r.addr.toNat) ∨ (r.bp = 2#2 ∧ 0x80 ≤ r.addr.toNat) ∨ r.bp = 3#2
    (r.cmd = .ramReadData →
      next = .next ({ s with rtc := { r with
        addr := after5F
        link := r.link.after (if r.addr.toNat < 0x60 then Memory.read 0x00#8 r.ram r.addr.toNat else 0xFF#8) } }.answer .none)) ∧
    (r.cmd = .ramWriteData → r.addr.toNat < 0x60 →
      ∃ ram, (∀ a, Memory.read 0x00#8 ram a = if a = r.addr.toNat then b else Memory.read 0x00#8 r.ram a) ∧
        next = .next ({ s with rtc := { r with ram := ram, addr := after5F, link := l } }.answer .none)) ∧
    (r.cmd = .ramWriteData → 0x60 ≤ r.addr.toNat →
      next = .next ({ s with rtc := { r with addr := after5F, link := l } }.answer .none)) ∧
    (r.cmd = .eeWriteData → r.wel = true → ¬ guarded →
      ∃ ee, (∀ a, Memory.read 0xFF#8 ee a = if a = r.addr.toNat then b else Memory.read 0xFF#8 r.ee a) ∧
        next = .next ({ s with rtc := { r with ee := ee, writeIssued := true, addr := inPage, link := l } }.answer .none)) ∧
    (r.cmd = .eeWriteData → r.wel = false ∨ guarded →
      next = .next ({ s with rtc := { r with addr := inPage, link := l } }.answer .none)) ∧
    (r.cmd = .idWriteData →
      ∃ id, (∀ a, Memory.read 0xFF#8 id a = if a = r.addr.toNat then b else Memory.read 0xFF#8 r.id a) ∧
        next = .next ({ s with rtc := { r with
          id := id, writeIssued := true, addr := (r.addr + 1) &&& 0x0F#8, link := l } }.answer .none))

/-- R265, R266, R315, R316: `Load` sets the arrays and the protect field and nothing else, `Save` returns the stored bytes and
changes nothing, loading what was saved changes nothing, and an array of the wrong length faults. -/
def Obligations.SerialLoadSave : Prop :=
  (∀ (s : State) (mem : List Byte) (bp : BitVec 2),
    (mem.length = 256 →
      ∃ m, exec (.eeLoad mem bp) s = .next ({ s with eeprom := { s.eeprom with mem := m, bp := bp } }.answer .none) ∧
        exec .eeSave { s with eeprom := { s.eeprom with mem := m, bp := bp } } =
          .next ({ s with eeprom := { s.eeprom with mem := m, bp := bp } }.answer (.eeImage mem bp))) ∧
    (mem.length ≠ 256 → exec (.eeLoad mem bp) s = .fault .loadSizeMismatch)) ∧
  (∀ (s : State) (ram ee id : List Byte) (bp : BitVec 2),
    (ram.length = 0x60 → ee.length = 0x100 → id.length = 0x10 →
      ∃ m1 m2 m3,
        exec (.rtcLoad ram ee id bp) s =
          .next ({ s with rtc := { s.rtc with ram := m1, ee := m2, id := m3, bp := bp } }.answer .none) ∧
        exec .rtcSave { s with rtc := { s.rtc with ram := m1, ee := m2, id := m3, bp := bp } } =
          .next ({ s with rtc := { s.rtc with ram := m1, ee := m2, id := m3, bp := bp } }.answer (.rtcImage ram ee id bp))) ∧
    (ram.length ≠ 0x60 ∨ ee.length ≠ 0x100 ∨ id.length ≠ 0x10 →
      exec (.rtcLoad ram ee id bp) s = .fault .loadSizeMismatch)) ∧
  (∀ s : State, ∃ mem : List Byte, mem.length = 256 ∧
    (∀ i, i < 256 → mem.getD i 0x00#8 = Memory.read 0xFF#8 s.eeprom.mem i) ∧
    exec .eeSave s = .next (s.answer (.eeImage mem s.eeprom.bp)) ∧
    (s.eeprom.Sound → exec (.eeLoad mem s.eeprom.bp) s = .next (s.answer .none))) ∧
  (∀ s : State, ∃ ram ee id : List Byte, ram.length = 0x60 ∧ ee.length = 0x100 ∧ id.length = 0x10 ∧
    (∀ i, i < 0x60 → ram.getD i 0x00#8 = Memory.read 0x00#8 s.rtc.ram i) ∧
    (∀ i, i < 0x100 → ee.getD i 0x00#8 = Memory.read 0xFF#8 s.rtc.ee i) ∧
    (∀ i, i < 0x10 → id.getD i 0x00#8 = Memory.read 0xFF#8 s.rtc.id i) ∧
    exec .rtcSave s = .next (s.answer (.rtcImage ram ee id s.rtc.bp)) ∧
    (s.rtc.Sound → exec (.rtcLoad ram ee id s.rtc.bp) s = .next (s.answer .none)))

/-- R267, R317: a cold reset of a serial device resets its link, its interpreter and its latches, keeps its arrays and its
protect field, and a second one changes nothing. -/
def Obligations.SerialColdReset : Prop :=
  ∀ s : State,
    let l : Link := { ce := false, clk := false, bitCount := 0, inShift := 0x00#8, outShift := 0xFF#8, outBit := true }
    let s1 := { s with eeprom := { s.eeprom with link := l, cmd := .idle, writeIssued := false, wel := false } }.answer .none
    let s2 := { s with rtc := { s.rtc with link := l, cmd := .idle, writeIssued := false, wel := false, unlock := 0 } }.answer .none
    exec .eeColdReset s = .next s1 ∧ exec .eeColdReset s1 = .next s1 ∧
    exec .rtcColdReset s = .next s2 ∧ exec .rtcColdReset s2 = .next s2

/-! ### The mapper -/

/-- R331: a read in an installed window reads the chip at `base + (x - W.start)` through its `Read`, or the mapper RAM. A
disabled window is not the block's to answer (R337, D48: assumption 17). -/
def Obligations.WindowReadRow : Prop :=
  ∀ (s : State) (l : Layout) (x : CpuAddr) (w : Win), s.mapper.installed = some l → windowOf x = some w →
    let d := match w with | .w809f => l.w809f | .wa0bf => l.wa0bf
    let lin := d.base + (x.toNat - match w with | .w809f => 0x8000 | .wa0bf => 0xA000)
    (∀ k c, d.readSrc = .flash k → s.mapper.chips[k]? = some c →
      let y := c.read s.cfg lin s.now s.draws
      exec (.mapWinRead x) s = .next (s.chipDone (.mapper k) y.chip y.draws (.cpuByte y.value))) ∧
    (d.readSrc = .ram →
      exec (.mapWinRead x) s =
        .next (s.answer (.cpuByte (Memory.read 0x00#8 s.mapper.ram (lin % s.mapper.ramSize))))) ∧
    (d.readSrc = .none → exec (.mapWinRead x) s = .next (s.answer .notServed))

/-- R334: a write in an installed window is a command cycle to the chip of its write destination, a store to the mapper RAM,
or ignored. It is made at the model's second base, the write base (assumption 19); that a disabled window answers `notServed`
is the model's form (assumption 17). -/
def Obligations.WindowWriteRow : Prop :=
  ∀ (s : State) (l : Layout) (x : CpuAddr) (w : Win) (v : Byte), s.mapper.installed = some l → windowOf x = some w →
    Memory.wf 0x00#8 s.mapper.ram →
    let d := match w with | .w809f => l.w809f | .wa0bf => l.wa0bf
    let lin := d.writeBase + (x.toNat - match w with | .w809f => 0x8000 | .wa0bf => 0xA000)
    (d.readSrc ≠ .none →
      (∀ k c, d.writeDst = .flash k → s.mapper.chips[k]? = some c →
        let y := c.write lin v s.now s.draws
        exec (.mapWinWrite x v) s = .next (s.chipDone (.mapper k) y.chip y.draws .none)) ∧
      (d.writeDst = .ram →
        ∃ ram, Memory.wf 0x00#8 ram ∧
          (∀ b, Memory.read 0x00#8 ram b =
            if b = lin % s.mapper.ramSize then v else Memory.read 0x00#8 s.mapper.ram b) ∧
          exec (.mapWinWrite x v) s = .next ({ s with mapper := { s.mapper with ram := ram } }.answer .none)) ∧
      (d.writeDst = .none → exec (.mapWinWrite x v) s = .next (s.answer .none))) ∧
    (d.readSrc = .none → exec (.mapWinWrite x v) s = .next (s.answer .notServed))

/-- R341, R342, R340, R335, R339 on both MegaCarts, under the default `P_MegaCartRegs`: a control write sets the bank, shows
bank `v mod bankCount` at `$A000`, and calls the memory layer with one triple when that changes the window and not at all
when it does not; a control read returns 0xFF and changes nothing. `bankCount` is 32 on the 512K and 256 on the 4 MB. -/
def Obligations.MegaCartControl : Prop :=
  ∀ (s : State) (c : Chip) (x : CpuAddr) (v : Byte) (old : Desc) (bankCount : Nat),
    (s.mapper.type = .megaCart512 ∧ c.profile.cap = 0x80000 ∧ bankCount = 32) ∨
      (s.mapper.type = .megaCart4M ∧ c.profile.cap = 0x400000 ∧ bankCount = 256) →
    s.mapper.chips[0]? = some c → inCtlPage s.cfg.ctlPage x = true → s.cfg.megaCart = megaCartDefault →
    s.mapper.installed = some { w809f := Desc.disabled, wa0bf := old } →
    let new : Desc := { readSrc := .flash 0, writeDst := .flash 0, base := v.toNat % bankCount * 0x4000
                        writeBase := v.toNat % bankCount * 0x4000 }
    exec (.mapCtlWrite x v) s =
      .next { s with
        mapper := { s.mapper with regs := { s.mapper.regs with bank := v }
                                  installed := some { w809f := Desc.disabled, wa0bf := new } }
        out := { result := .none
                 calls := s.out.calls ++
                   (if old.readSrc = new.readSrc ∧ old.writeDst = new.writeDst ∧ old.base = new.base then []
                   else [.setFlashRoutines .wa0bf, .setFlash 0xA000 0xBFFF, .cartEnable .wa0bf]) } } ∧
    exec (.mapCtlRead x) s = .next (s.answer (.cpuByte 0xFF#8))

/-- R335, R346: on every cartridge, a control write installs the layout of the registers and makes the memory-layer calls of the
windows whose descriptor changes; one that leaves the layout as installed calls the memory layer not at all. The descriptor is
R53's: read source, write destination and base. A change of the model's write base alone, which TheCart can make where it
reads one source and writes another, is no change of it and makes no call (assumption 19). On a MegaCart the layout is the
installed one for every bank equal to the current one modulo the bank count, for a count that is a power of two (R336). -/
def Obligations.RemapIsIdempotent : Prop :=
  (∀ (s : State) (x : CpuAddr) (v : Byte), inCtlPage s.cfg.ctlPage x = true →
    ∃ t, exec (.mapCtlWrite x v) s = .next t ∧ t.mapper.installed = some (t.mapper.layout s.cfg) ∧
      t.out.calls = s.out.calls ++ applyCalls s.mapper.installed (t.mapper.layout s.cfg) ∧
      (s.mapper.installed = some (t.mapper.layout s.cfg) → t.out.calls = s.out.calls) ∧
      (∀ old, s.mapper.installed = some old →
        (∀ w : Win, (old.desc w).readSrc = ((t.mapper.layout s.cfg).desc w).readSrc ∧
          (old.desc w).writeDst = ((t.mapper.layout s.cfg).desc w).writeDst ∧
          (old.desc w).base = ((t.mapper.layout s.cfg).desc w).base) →
        t.out.calls = s.out.calls)) ∧
  (∀ (m : Mapper) (c : Chip) (b : Byte) (k : Nat), m.chips[0]? = some c → c.profile.cap = 2 ^ k * 0x4000 →
    b.toNat % 2 ^ k = m.regs.bank.toNat % 2 ^ k →
    Mapper.megaLayout { m with regs := { m.regs with bank := b } } = m.megaLayout)

/-- R332, R337: every window of every layout is disabled, or lies in its sources with an aligned base. The write base is the
model's second base (assumption 19). -/
def Obligations.LayoutInvariant : Prop :=
  ∀ (p : Params) (m : Mapper) (w : Win),
    let d := match w with | .w809f => (m.layout p).w809f | .wa0bf => (m.layout p).wa0bf
    (d.readSrc = .none → d.writeDst = .none ∧ d.base = 0) ∧
    (d.readSrc ≠ .none → d.base % 0x2000 = 0 ∧
      (∀ k, d.readSrc = .flash k → ∃ c, m.chips[k]? = some c ∧ d.base + 0x1FFF < c.profile.cap) ∧
      (d.readSrc = .ram → d.base + 0x1FFF < m.ramSize)) ∧
    (d.writeDst ≠ .none → d.writeBase % 0x2000 = 0 ∧
      (∀ k, d.writeDst = .flash k → ∃ c, m.chips[k]? = some c ∧ d.writeBase + 0x1FFF < c.profile.cap) ∧
      (d.writeDst = .ram → d.writeBase + 0x1FFF < m.ramSize))

/-- R338: a cold reset puts the power-on values in the registers, resets every chip, keeps every image, installs both windows
whatever was installed, returns nothing, and a second one leaves the same mapper. That MaxFlash powers on enabled is the model's
reading of R361 (assumption 20), and TheCart's layout has the model's write base (assumption 19). -/
def Obligations.MapperColdReset : Prop :=
  ∀ s : State,
    ∃ t, exec .mapColdReset s = .next t ∧
      t = { s with mapper := t.mapper, out := t.out } ∧
      t.mapper.type = s.mapper.type ∧ t.mapper.size = s.mapper.size ∧ t.mapper.ram = s.mapper.ram ∧
      t.mapper.ramSize = s.mapper.ramSize ∧ t.out.result = .none ∧
      t.mapper.chips =
        s.mapper.chips.map (fun c => { c with readMode := .normal, phase := .idle, toggleBits := 0x00#8 }) ∧
      (s.mapper.type = .megaCart512 → t.mapper.regs.bank = 0#8) ∧
      (s.mapper.type = .megaCart4M → t.mapper.regs.bank = 254#8) ∧
      (s.mapper.type = .sic → t.mapper.regs.sic = 0x00#8) ∧
      (s.mapper.type = .maxFlash1 ∨ s.mapper.type = .maxFlash8 →
        t.mapper.regs.bank = 0#8 ∧ t.mapper.regs.enabled = true) ∧
      (s.mapper.type ≠ .theCart → t.mapper.table = s.mapper.table) ∧
      (s.mapper.type = .theCart →
        t.mapper.regs.cart = { s.cfg.theCart.defaults with lock := 0x00#8 } ∧
        t.mapper.table = schemeTable s.cfg.theCart t.mapper.regs.cart.mode) ∧
      t.mapper.installed = some (t.mapper.layout s.cfg) ∧
      (∃ l, t.mapper.installed = some l ∧
        t.out.calls = s.out.calls ++
          (if l.w809f.readSrc = .none then [.cartDisable .w809f]
            else [.setFlashRoutines .w809f, .setFlash 0x8000 0x9FFF, .cartEnable .w809f]) ++
          (if l.wa0bf.readSrc = .none then [.cartDisable .wa0bf]
            else [.setFlashRoutines .wa0bf, .setFlash 0xA000 0xBFFF, .cartEnable .wa0bf])) ∧
      ∃ u, exec .mapColdReset t = .next u ∧ u.mapper = t.mapper

/-- R345, R340, R350, R360, R361: `Init` of each cartridge subtype makes one chip of its type over the whole image, puts the
power-on values in the registers and installs both windows; a length or a size the subtype does not support, a failed
allocation, and a buffer another chip holds fault. The check order is the model's (assumption 14). That the mapper RAM starts
with every byte 0x00 (`t.mapper.ram = []`) is the model's choice, not the spec's (assumption 7). That only the chips the host
initialised itself are asked for the buffer is the model's too: the chips of the mapper that `Init` replaces are dropped
(assumption 15). The chip types and TheCart's size are parameters (assumption 21), the enabled MaxFlash is the model's
reading of R361 (assumption 20), and TheCart's layout has the model's write base (assumption 19). -/
def Obligations.MapperInitRow : Prop :=
  ∀ (s : State) (allocOk : Bool) (type : MapperType) (image : Buffer) (sizeKB : Nat),
    let chipType := match type with
      | .megaCart512 => ChipType.am29f040b
      | .megaCart4M => s.cfg.megaCart4MChip
      | .theCart => s.cfg.theCart.chip
      | .sic => s.cfg.sicChip
      | .maxFlash1 => s.cfg.maxFlash1Chip
      | .maxFlash8 => s.cfg.maxFlash8Chip
    let profile := profileOf s.cfg chipType
    let supported := match type with
      | .megaCart512 => 512
      | .megaCart4M => 4096
      | .theCart => profile.cap / 1024
      | .sic => 512
      | .maxFlash1 => 128
      | .maxFlash8 => 1024
    let fits := image.size = sizeKB * 1024 ∧ sizeKB = supported ∧ image.size = profile.cap
    let fresh := ∀ c ∈ s.chips, c.buf ≠ image.id
    let shows := fun (t : State) (dst : Source) (base : Nat) =>
      t.mapper.installed = some
        { w809f := Desc.disabled, wa0bf := { readSrc := .flash 0, writeDst := dst, base := base, writeBase := base } }
    (fits → allocOk = true → fresh →
      ∃ t c, exec (.mapInit allocOk type image sizeKB) s = .next t ∧
        t = { s with mapper := t.mapper, out := t.out } ∧
        t.mapper.type = type ∧ t.mapper.size = image.size ∧ t.mapper.chips = [c] ∧ c.type = chipType ∧
        c.profile = profile ∧ c.readMode = .normal ∧ c.phase = .idle ∧ c.toggleBits = 0x00#8 ∧ c.dirty = false ∧
        c.writeActivity = false ∧ c.buf = image.id ∧
        (image.cells.Pairwise (fun x y => x.1 ≠ y.1) →
          ∀ b ∈ image.cells, b.1 < image.size → Memory.read 0xFF#8 c.img b.1 = b.2) ∧
        (∀ b, (∀ x ∈ image.cells, x.1 ≠ b) → Memory.read 0xFF#8 c.img b = 0xFF#8) ∧
        t.mapper.ram = [] ∧ t.mapper.ramSize = (if type = .theCart then s.cfg.theCart.ramSize else 0) ∧
        (type = .megaCart512 → t.mapper.regs.bank = 0#8 ∧ shows t (.flash 0) 0) ∧
        (type = .megaCart4M → t.mapper.regs.bank = 254#8 ∧ shows t (.flash 0) 0x3F8000) ∧
        (type = .theCart →
          t.mapper.regs.cart = { s.cfg.theCart.defaults with lock := 0x00#8 } ∧
          t.mapper.table = schemeTable s.cfg.theCart t.mapper.regs.cart.mode) ∧
        (type = .sic → t.mapper.regs.sic = 0x00#8 ∧ (s.cfg.sic = sicDefault → shows t .none 0x2000)) ∧
        (type = .maxFlash1 ∨ type = .maxFlash8 →
          t.mapper.regs.bank = 0#8 ∧ t.mapper.regs.enabled = true ∧ shows t (.flash 0) 0) ∧
        t.mapper.installed = some (t.mapper.layout s.cfg) ∧
        t.out.result = .none ∧
        ∃ l, t.mapper.installed = some l ∧
          t.out.calls = s.out.calls ++
            (if l.w809f.readSrc = .none then [.cartDisable .w809f]
              else [.setFlashRoutines .w809f, .setFlash 0x8000 0x9FFF, .cartEnable .w809f]) ++
            (if l.wa0bf.readSrc = .none then [.cartDisable .wa0bf]
              else [.setFlashRoutines .wa0bf, .setFlash 0xA000 0xBFFF, .cartEnable .wa0bf])) ∧
    (¬ fits → allocOk = true → fresh → exec (.mapInit allocOk type image sizeKB) s = .fault .initSizeMismatch) ∧
    (fits → allocOk = false → fresh → exec (.mapInit allocOk type image sizeKB) s = .fault .initAllocFailure) ∧
    (fits → allocOk = true → ¬ fresh → exec (.mapInit allocOk type image sizeKB) s = .fault .sharedImage)

/-- The MegaCart scenario of R343: the six cycles at `$A000` erase the first 64 KB sector, the control write installs bank 3,
whose base is `0xC000`, and the read of `$A000` returns `Img[0xC000]`, which is 0xFF, once the deadline is reached and a status byte before. The eight
CPU accesses are carried out through the step, at cycle counts of the host's choice. -/
def Obligations.MegaCartScenario : Prop :=
  ∀ (s : State) (c : Chip) (t1 t2 t3 t4 t5 t6 t7 t8 : Cycles) (clk : HostTime),
    let q := fun (t : Cycles) (x : CpuAddr) (v : Option Byte) =>
      ({ now := t, clock := clk, ownerClears := [], call := .cpu x v, handlerCalls := [] } : Request)
    s.mapper.type = .megaCart512 → s.mapper.chips[0]? = some c → c.profile.cap = 0x80000 → c.profile.unlockWindow = .w11 →
    c.profile.sectors = .uniform 16 → c.profile.sectorErase = true → c.readMode = .normal → c.phase = .idle →
    s.mapper.installed = some (s.mapper.layout s.cfg) → s.mapper.regs.bank = 0#8 → s.cfg.ctlPage = 0xD5#8 →
    s.cfg.megaCart = megaCartDefault →
    let deadline := t6 + c.profile.sectorEraseTimeoutCycles
    s.input =
      [q t1 0xA555#16 (some 0xAA#8), q t2 0xA2AA#16 (some 0x55#8), q t3 0xA555#16 (some 0x80#8),
       q t4 0xA555#16 (some 0xAA#8), q t5 0xA2AA#16 (some 0x55#8), q t6 0xA000#16 (some 0x30#8),
       q t7 0xD500#16 (some 3#8), q t8 0xA000#16 none] →
    ∃ s1 s2 s3 s4 s5 s6 s7 s8 c6,
      step s = .next s1 ∧ step s1 = .next s2 ∧ step s2 = .next s3 ∧ step s3 = .next s4 ∧ step s4 = .next s5 ∧
      step s5 = .next s6 ∧ step s6 = .next s7 ∧ step s7 = .next s8 ∧
      s6.mapper.chips[0]? = some c6 ∧
      (∀ b, Memory.read 0xFF#8 c6.img b = if b < 0x10000 then 0xFF#8 else Memory.read 0xFF#8 c.img b) ∧
      s7.mapper.regs.bank = 3#8 ∧
      s7.mapper.installed = some
        { w809f := Desc.disabled
          wa0bf := { readSrc := .flash 0, writeDst := .flash 0, base := 0xC000, writeBase := 0xC000 } } ∧
      (reached t8 deadline = true → s8.out.result = .cpuByte 0xFF#8) ∧
      (reached t8 deadline = false → s8.out.result = .cpuByte (c.toggleBits ||| s.cfg.eraseStatusBase))

/-- The control registers of the other cartridges. TheCart, under every register map (R339, R351, R352, R353): the serial
register, every bit a native register writes and reads, the lock, the mode register, the legacy table, and what a read
returns. SIC! (R360) and MaxFlash (R361), under the default maps; a MaxFlash read leaves what the write leaves, installed
layout and memory-layer calls (R335, R339), but for its byte and the draw counter.
The model's choices in it: the form of TheCart's registers, where the serial register goes before a native one at its offset
and the last of overlapping slices wins (assumption 18); the installed layout has a second base for writes, which is no part
of the descriptors the calls compare (assumption 19); a table entry which names no bank keeps the old bank number, with the
window disabled (assumption 33); what a MaxFlash register read returns is a free value (assumption 20). -/
def Obligations.OtherCartControl : Prop :=
  ∀ (s : State) (x : CpuAddr) (v : Byte), inCtlPage s.cfg.ctlPage x = true →
    let g := s.mapper.regs.cart
    let off := ctlOffset x
    let reads := fun b : Byte => exec (.mapCtlRead x) s = .next (s.answer (.cpuByte b))
    let selects := fun t : State => ∃ b, exec (.mapCtlRead x) s =
      .next { s with
        mapper := { s.mapper with
          regs := t.mapper.regs
          installed := if t.mapper.regs = s.mapper.regs then s.mapper.installed else some (t.mapper.layout s.cfg) }
        draws := s.draws + 1
        out := { result := .cpuByte b
                 calls := s.out.calls ++ (if t.mapper.regs = s.mapper.regs then []
                   else applyCalls s.mapper.installed (t.mapper.layout s.cfg)) } }
    ∃ t, exec (.mapCtlWrite x v) s = .next t ∧
    t = { s with
      mapper := { s.mapper with regs := t.mapper.regs, table := t.mapper.table, installed := t.mapper.installed }
      eeprom := t.eeprom, out := t.out } ∧
    t.mapper.installed = some (t.mapper.layout s.cfg) ∧ t.out.result = .none ∧
    t.out.calls = s.out.calls ++ applyCalls s.mapper.installed (t.mapper.layout s.cfg) ∧
    (s.mapper.type ≠ .theCart → t.mapper.table = s.mapper.table) ∧
    (s.mapper.type ≠ .theCart ∨ serialAt s.cfg.theCart off = none → t.eeprom = s.eeprom) ∧
    (s.mapper.type = .theCart →
      (∀ sr, serialAt s.cfg.theCart off = some sr →
        t.mapper.regs = s.mapper.regs ∧ t.mapper.table = s.mapper.table ∧
        (sr.lockable = false ∨ g.lock = 0#8 →
          t.eeprom = s.eeprom.writeState (v.getLsbD sr.ceBit) (v.getLsbD sr.clkBit) (v.getLsbD sr.dataBit)) ∧
        (sr.lockable = true → g.lock ≠ 0#8 → t.eeprom = s.eeprom) ∧
        ∃ b, reads b ∧ ∀ i < 8, b.getLsbD i = if i = sr.outBit then s.eeprom.link.outBit else sr.pad.getLsbD i) ∧
      (∀ rg, serialAt s.cfg.theCart off = none → registerAt s.cfg.theCart off = some rg →
        t.mapper.regs = { s.mapper.regs with cart := t.mapper.regs.cart } ∧
        (rg.lockable = true → g.lock ≠ 0#8 → t.mapper.regs = s.mapper.regs ∧ t.mapper.table = s.mapper.table) ∧
        (rg.lockable = false ∨ g.lock = 0#8 →
          (∀ sl ∈ rg.slices, sl.field ≠ .mode) → t.mapper.table = s.mapper.table) ∧
        (rg.lockable = false ∨ g.lock = 0#8 →
          rg.slices = [{ field := .mode, bit := 0, width := 8, pos := 0 }] →
          t.mapper.regs.cart = { g with mode := v } ∧ t.mapper.table = schemeTable s.cfg.theCart v) ∧
        (rg.lockable = false ∨ g.lock = 0#8 →
          (∀ before_ sl after i, rg.slices = before_ ++ sl :: after → i < tcWidth sl.field → decidesField sl after i →
            (tcGet t.mapper.regs.cart sl.field).getLsbD i = v.getLsbD (sl.bit + (i - sl.pos))) ∧
          (∀ f i, (∀ sl ∈ rg.slices, sl.field = f → i < sl.pos ∨ sl.pos + sl.width ≤ i) →
            (tcGet t.mapper.regs.cart f).getLsbD i = (tcGet g f).getLsbD i) ∧
          ((∃ sl ∈ rg.slices, sl.field = .mode) →
            t.mapper.table = schemeTable s.cfg.theCart t.mapper.regs.cart.mode)) ∧
        ∃ b, reads b ∧
          (∀ before_ sl after i, rg.slices = before_ ++ sl :: after → i < 8 → decidesByte sl after i →
            b.getLsbD i = (tcGet g sl.field).getLsbD (sl.pos + (i - sl.bit))) ∧
          ∀ i < 8, (∀ sl ∈ rg.slices, i < sl.bit ∨ sl.bit + sl.width ≤ i) → b.getLsbD i = rg.pad.getLsbD i) ∧
      (serialAt s.cfg.theCart off = none → registerAt s.cfg.theCart off = none →
        t.mapper.table = s.mapper.table ∧ reads 0xFF#8 ∧
        (schemeOf s.cfg.theCart g.mode = none → t.mapper.regs = s.mapper.regs) ∧
        ∀ sch, schemeOf s.cfg.theCart g.mode = some sch →
          let entry := s.mapper.table.getD (if sch.byAddress then x.toNat % 256 else v.toNat) .noChange
          (entry = .noChange → t.mapper.regs = s.mapper.regs) ∧
          (∀ b0 e0 b1 e1, entry = .set (.bank b0 e0) (.bank b1 e1) →
            t.mapper.regs = { s.mapper.regs with cart := { g with bank0 := b0, en0 := e0, bank1 := b1, en1 := e1 } }) ∧
          (∀ b0 e0, entry = .set (.bank b0 e0) .noBank →
            t.mapper.regs = { s.mapper.regs with cart := { g with bank0 := b0, en0 := e0, en1 := false } }) ∧
          (∀ b1 e1, entry = .set .noBank (.bank b1 e1) →
            t.mapper.regs = { s.mapper.regs with cart := { g with en0 := false, bank1 := b1, en1 := e1 } }) ∧
          (entry = .set .noBank .noBank →
            t.mapper.regs = { s.mapper.regs with cart := { g with en0 := false, en1 := false } }))) ∧
    (s.mapper.type = .sic → s.cfg.sic = sicDefault →
      (x.toNat % 256 < 0x20 → t.mapper.regs = { s.mapper.regs with sic := v } ∧ reads s.mapper.regs.sic) ∧
      (0x20 ≤ x.toNat % 256 → t.mapper.regs = s.mapper.regs ∧ reads 0xFF#8)) ∧
    (s.mapper.type = .maxFlash1 → s.cfg.maxFlash1 = maxFlash1Default →
      (x.toNat % 256 < 0x10 →
        t.mapper.regs = { s.mapper.regs with bank := BitVec.ofNat 8 (x.toNat % 256), enabled := true }) ∧
      (0x10 ≤ x.toNat % 256 → x.toNat % 256 < 0x20 → t.mapper.regs = { s.mapper.regs with enabled := false }) ∧
      (0x20 ≤ x.toNat % 256 → t.mapper.regs = s.mapper.regs ∧ reads 0xFF#8) ∧
      (x.toNat % 256 < 0x20 → selects t)) ∧
    (s.mapper.type = .maxFlash8 → s.cfg.maxFlash8 = maxFlash8Default →
      (x.toNat % 256 < 0x80 →
        t.mapper.regs = { s.mapper.regs with bank := BitVec.ofNat 8 (x.toNat % 256), enabled := true }) ∧
      (0x80 ≤ x.toNat % 256 → t.mapper.regs = { s.mapper.regs with enabled := false }) ∧
      selects t)

/-- R340, R350, R360, R361: the windows the registers of every cartridge derive, over sources whose bank count is a power of
two; an unknown TheCart mode derives none (R353, R337). TheCart's banks are of any size that holds a window, 0x2000 or more.
The write base is the model's reading of R350 (assumption 19). -/
def Obligations.CartLayouts : Prop :=
  ∀ (p : Params) (m : Mapper) (c : Chip), m.chips[0]? = some c →
    (∀ k, m.type = .megaCart512 ∨ m.type = .megaCart4M → c.profile.cap = 2 ^ k * 0x4000 →
      let base := m.regs.bank.toNat % 2 ^ k * 0x4000
      m.layout p =
        { w809f := Desc.disabled
          wa0bf := { readSrc := .flash 0, writeDst := .flash 0, base := base, writeBase := base } }) ∧
    (m.type = .sic → p.sic = sicDefault → c.profile.cap = 0x80000 →
      let reg := m.regs.sic
      let f := if reg.getLsbD 7 then Source.flash 0 else .none
      let window := fun base : Nat => ({ readSrc := .flash 0, writeDst := f, base := base, writeBase := base } : Desc)
      m.layout p =
        { w809f := if reg.getLsbD 5 then window (reg.toNat % 32 * 0x4000) else Desc.disabled
          wa0bf := if reg.getLsbD 6 then Desc.disabled else window (reg.toNat % 32 * 0x4000 + 0x2000) }) ∧
    (∀ k, m.type = .maxFlash1 ∨ m.type = .maxFlash8 → c.profile.cap = 2 ^ k * 0x2000 →
      let base := m.regs.bank.toNat % 2 ^ k * 0x2000
      m.layout p =
        { w809f := Desc.disabled
          wa0bf := if m.regs.enabled then
              { readSrc := .flash 0, writeDst := .flash 0, base := base, writeBase := base }
            else Desc.disabled }) ∧
    (∀ k j, m.type = .theCart → 13 ≤ p.theCart.bankBits → c.profile.cap = 2 ^ k * 2 ^ p.theCart.bankBits →
      m.ramSize = 2 ^ j * 2 ^ p.theCart.bankBits →
      let g := m.regs.cart
      let size := 2 ^ p.theCart.bankBits
      let count := fun src : Source => match src with | .ram => 2 ^ j | _ => 2 ^ k
      let src := if g.ramRead then Source.ram else .flash 0
      let dst := if g.ramWrite then Source.ram else if g.flashWrite then .flash 0 else .none
      let window := fun (bank : BitVec 16) (en : Bool) =>
        if en then
          { readSrc := src, writeDst := dst, base := bank.toNat % count src * size
            writeBase := bank.toNat % count (if dst = .none then src else dst) * size }
        else Desc.disabled
      ((schemeOf p.theCart g.mode).isSome = true →
        m.layout p = { w809f := window g.bank1 g.en1, wa0bf := window g.bank0 g.en0 }) ∧
      (schemeOf p.theCart g.mode = none → m.layout p = { w809f := Desc.disabled, wa0bf := Desc.disabled }))
end

