-- ==== Sys2Proof/Laws/Decode.lean ====
section
/-! SUPPORT. What the decoder reads from the key of a flash cycle. -/

namespace Sys2Proof

open Machine

/-- A key with its fields in range keeps them. -/
theorem Machine.flashKey_toNat {mode phase : Nat} {w : Bool} {v : Byte} (hm : mode < 4) (hp : phase < 16) :
    (flashKey mode w phase v).toNat = mode * 0x4000 + (if w then 0x1000 else 0) + phase * 0x100 + v.toNat := by
  have := v.isLt
  unfold flashKey
  rw [BitVec.toNat_ofNat, Nat.mod_eq_of_lt]
  cases w <;> simp <;> omega

/-- The decoder reads the fields a key was formed from. -/
theorem decodeFlash_flashKey {x : DecodeCtx} {chip : ChipRef} {mode phase a : Nat} {w : Bool} {v : Byte} (hm : mode < 4)
    (hp : phase ≤ 10) :
    decodeFlash x chip (flashKey mode w phase v) a =
      .ok (if w then decodeFlashWrite x chip mode phase v a else decodeFlashRead x chip mode phase a) := by
  have hv := v.isLt
  have h := flashKey_toNat (w := w) (v := v) hm (show phase < 16 by omega)
  obtain ⟨n, hn⟩ : ∃ n, n = (flashKey mode w phase v).toNat := ⟨_, rfl⟩
  rw [← hn] at h
  have hw : (if w then 0x1000 else 0) < 0x2000 ∧ (if w then 0x1000 else 0) / 0x1000 = (if w then 1 else 0) ∧
      (if w then 0x1000 else 0) % 0x1000 = 0 := by cases w <;> decide
  have hbyte : BitVec.ofNat 8 n = v := by
    apply BitVec.eq_of_toNat_eq
    rw [BitVec.toNat_ofNat]
    omega
  have h1 : n / 0x4000 = mode := by omega
  have h2 : n / 0x100 % 16 = phase := by omega
  have h3 : ¬ n / 0x2000 % 2 = 1 := by omega
  have h4 : n / 0x1000 % 2 = if w then 1 else 0 := by omega
  unfold decodeFlash
  simp only [← hn, hbyte, h1, h2, if_neg h3, if_neg (show ¬ 10 < phase by omega), h4]
  cases w <;> simp

/-- The first bytes of the EEPROM's map are its rows; any other byte is EE_UNKNOWN. -/
theorem decodeEeOpcode_unknown {op : Byte} (h : eeOpcodes.contains op = false) : decodeEeOpcode op = .eeUnknown op := by
  simp only [eeOpcodes, List.contains_cons, List.contains_nil, Bool.or_false, Bool.or_eq_false_iff, beq_eq_false_iff_ne] at h
  simp [decodeEeOpcode, h]

/-- The first bytes of the RTC's map are its rows; any other byte is RTC_UNKNOWN. -/
theorem decodeRtcOpcode_unknown {op : Byte} (h : rtcOpcodes.contains op = false) : decodeRtcOpcode op = .rtcUnknown op := by
  simp only [rtcOpcodes, List.contains_cons, List.contains_nil, Bool.or_false, Bool.or_eq_false_iff, beq_eq_false_iff_ne] at h
  simp [decodeRtcOpcode, h]

end Sys2Proof
end

