-- ==== Sys2Proof/Laws/Memory.lean ====
section
/-! SUPPORT. The memory operations: read after write, the canonical form kept by every operation, and that two canonical
memories that read the same are equal. -/

namespace Sys2Proof.Machine

variable {fill v : Byte} {m m' : Memory} {a b base n size : Nat}

/-- Every listed address is at least a lower bound when the memory is canonical with that first address. -/
theorem Memory.wf_tail {c : Host.Cell} (h : Memory.wf fill (c :: m)) : Memory.wf fill m := by
  obtain ⟨hp, hf⟩ := h
  exact ⟨(List.pairwise_cons.1 hp).2, fun x hx => hf x (List.mem_cons_of_mem _ hx)⟩

theorem Memory.wf_head_lt {c : Host.Cell} (h : Memory.wf fill (c :: m)) : ∀ x ∈ m, c.1 < x.1 :=
  (List.pairwise_cons.1 h.1).1

theorem Memory.wf_head_ne {c : Host.Cell} (h : Memory.wf fill (c :: m)) : c.2 ≠ fill :=
  h.2 c (List.mem_cons_self ..)

@[simp] theorem Memory.read_nil : Memory.read fill [] a = fill := rfl

/-- An address below every listed one reads as the fill byte. -/
theorem Memory.read_below (h : ∀ x ∈ m, a < x.1) : Memory.read fill m a = fill := by
  induction m with
  | nil => rfl
  | cons c m ih =>
    have hc := h c (List.mem_cons_self ..)
    rw [Memory.read, if_neg (by omega)]
    exact ih fun x hx => h x (List.mem_cons_of_mem _ hx)

/-- An address that is not listed reads as the fill byte. -/
theorem Memory.read_unlisted (h : ∀ x ∈ m, x.1 ≠ a) : Memory.read fill m a = fill := by
  induction m with
  | nil => rfl
  | cons c m ih =>
    rw [Memory.read, if_neg (h c (List.mem_cons_self ..))]
    exact ih fun x hx => h x (List.mem_cons_of_mem _ hx)

/-- A listed entry of a canonical memory is what its address reads as. -/
theorem Memory.read_listed (h : Memory.wf fill m) {c : Host.Cell} (hc : c ∈ m) : Memory.read fill m c.1 = c.2 := by
  induction m with
  | nil => cases hc
  | cons d m ih =>
    rcases List.mem_cons.1 hc with rfl | hm
    · simp [Memory.read]
    · have := Memory.wf_head_lt h c hm
      rw [Memory.read, if_neg (by omega)]
      exact ih (Memory.wf_tail h) hm

/-- Read after write at the same address. -/
theorem Memory.read_write_same (h : Memory.wf fill m) : Memory.read fill (Memory.write fill m a v) a = v := by
  induction m with
  | nil => by_cases hv : v = fill <;> simp [Memory.write, Memory.read, hv]
  | cons c m ih =>
    have hlt := Memory.wf_head_lt h
    unfold Memory.write
    split
    · next ha =>
      split
      · next hv =>
        rw [hv]
        refine Memory.read_below fun x hx => ?_
        rcases List.mem_cons.1 hx with rfl | hm
        · exact ha
        · exact lt_trans ha (hlt x hm)
      · simp [Memory.read]
    · split
      · next ha =>
        split
        · next hv =>
          rw [hv]
          exact Memory.read_below fun x hx => ha ▸ hlt x hx
        · simp [Memory.read]
      · next ha => rw [Memory.read, if_neg (Ne.symm ha)]; exact ih (Memory.wf_tail h)

/-- A write leaves every other address alone. -/
theorem Memory.read_write_other (hne : b ≠ a) : Memory.read fill (Memory.write fill m a v) b = Memory.read fill m b := by
  induction m with
  | nil => by_cases hv : v = fill <;> simp [Memory.write, Memory.read, hv, Ne.symm hne]
  | cons c m ih =>
    unfold Memory.write
    split
    · split
      · rfl
      · rw [Memory.read, if_neg (Ne.symm hne)]
    · split
      · next ha =>
        have hca : ¬ c.1 = b := fun hcb => hne (by rw [← hcb, ha])
        split
        · rw [Memory.read, if_neg hca]
        · rw [Memory.read, if_neg (Ne.symm hne), Memory.read, if_neg hca]
      · simp only [Memory.read, ih]

/-- Read after write, at any address. -/
theorem Memory.read_write (h : Memory.wf fill m) :
    Memory.read fill (Memory.write fill m a v) b = if b = a then v else Memory.read fill m b := by
  split
  · next hb => rw [hb, Memory.read_write_same h]
  · next hb => exact Memory.read_write_other hb

/-- What a write lists was listed before or is the byte written. -/
theorem Memory.mem_write {c : Host.Cell} (hc : c ∈ Memory.write fill m a v) : c ∈ m ∨ c = (a, v) ∧ v ≠ fill := by
  induction m with
  | nil =>
    by_cases hv : v = fill
    · simp [Memory.write, hv] at hc
    · simp only [Memory.write, if_neg hv, List.mem_singleton] at hc; exact .inr ⟨hc, hv⟩
  | cons d m ih =>
    unfold Memory.write at hc
    split at hc
    · split at hc
      · exact .inl hc
      · next hv =>
        rcases List.mem_cons.1 hc with h | h
        · exact .inr ⟨h, hv⟩
        · exact .inl h
    · split at hc
      · split at hc
        · exact .inl (List.mem_cons_of_mem _ hc)
        · next hv =>
          rcases List.mem_cons.1 hc with h | h
          · exact .inr ⟨h, hv⟩
          · exact .inl (List.mem_cons_of_mem _ h)
      · rcases List.mem_cons.1 hc with h | h
        · exact .inl (h ▸ List.mem_cons_self ..)
        · exact (ih h).imp (List.mem_cons_of_mem _) id

/-- A write keeps the canonical form. -/
theorem Memory.wf_write (h : Memory.wf fill m) : Memory.wf fill (Memory.write fill m a v) := by
  induction m with
  | nil => by_cases hv : v = fill <;> simp [Memory.write, Memory.wf, hv]
  | cons c m ih =>
    have hlt := Memory.wf_head_lt h
    have hne := Memory.wf_head_ne h
    have ht := Memory.wf_tail h
    unfold Memory.write
    split
    · next ha =>
      split
      · exact h
      · next hv =>
        refine ⟨List.pairwise_cons.2 ⟨fun x hx => ?_, h.1⟩, fun x hx => ?_⟩
        · rcases List.mem_cons.1 hx with rfl | hm
          · exact ha
          · exact lt_trans ha (hlt x hm)
        · rcases List.mem_cons.1 hx with rfl | hm
          · exact hv
          · exact h.2 x hm
    · split
      · next ha =>
        split
        · exact ht
        · next hv =>
          refine ⟨List.pairwise_cons.2 ⟨fun x hx => ha ▸ hlt x hx, ht.1⟩, fun x hx => ?_⟩
          rcases List.mem_cons.1 hx with rfl | hm
          · exact hv
          · exact ht.2 x hm
      · next hle hne' =>
        refine ⟨List.pairwise_cons.2 ⟨fun x hx => ?_, (ih ht).1⟩, fun x hx => ?_⟩
        · rcases Memory.mem_write hx with hm | ⟨rfl, -⟩
          · exact hlt x hm
          · change c.1 < a; omega
        · rcases List.mem_cons.1 hx with rfl | hm
          · exact hne
          · exact (ih ht).2 x hm

/-- The empty memory is canonical. -/
@[simp] theorem Memory.wf_nil : Memory.wf fill [] := ⟨List.Pairwise.nil, fun _ hc => by cases hc⟩

/-- A clear keeps the canonical form. -/
theorem Memory.wf_clear (h : Memory.wf fill m) : Memory.wf fill (Memory.clear m base size) :=
  ⟨h.1.sublist List.filter_sublist, fun c hc => h.2 c (List.mem_filter.1 hc).1⟩

/-- A clear sets its range to the fill byte and leaves every other address alone. -/
theorem Memory.read_clear :
    Memory.read fill (Memory.clear m base size) b =
      if base ≤ b ∧ b < base + size then fill else Memory.read fill m b := by
  induction m with
  | nil => simp [Memory.clear]
  | cons c m ih =>
    unfold Memory.clear at ih ⊢
    rw [List.filter_cons]
    split
    · next hc =>
      simp only [Bool.not_eq_true', Bool.and_eq_false_iff, decide_eq_false_iff_not] at hc
      simp only [Memory.read, ih]
      by_cases hcb : c.1 = b
      · simp only [hcb, if_true]; rw [if_neg]; omega
      · simp only [hcb, if_false]
    · next hc =>
      simp only [Bool.not_eq_true', Bool.not_eq_false, Bool.and_eq_true, decide_eq_true_eq] at hc
      rw [ih]
      by_cases hcb : c.1 = b
      · rw [if_pos (by omega), if_pos (by omega)]
      · simp only [Memory.read, hcb, if_false]

/-- A fill keeps the canonical form. -/
theorem Memory.wf_fillWith {f : Nat → Byte} (h : Memory.wf fill m) : Memory.wf fill (Memory.fillWith fill m base f n) := by
  induction n with
  | zero => exact h
  | succ n ih => exact Memory.wf_write ih

/-- What a fill leaves at every address. -/
theorem Memory.read_fillWith {f : Nat → Byte} (h : Memory.wf fill m) :
    Memory.read fill (Memory.fillWith fill m base f n) b =
      if base ≤ b ∧ b < base + n then f b else Memory.read fill m b := by
  induction n with
  | zero => rw [Memory.fillWith, if_neg (by omega)]
  | succ n ih =>
    rw [Memory.fillWith, Memory.read_write (Memory.wf_fillWith h), ih]
    by_cases hb : b = base + n
    · rw [if_pos hb, if_pos (by omega), hb]
    · rw [if_neg hb]
      by_cases hr : base ≤ b ∧ b < base + n
      · rw [if_pos hr, if_pos (by omega)]
      · rw [if_neg hr, if_neg (by omega)]

/-- A byte array's memory is canonical. -/
theorem Memory.wf_ofBytes {l : List Byte} : Memory.wf fill (Memory.ofBytes fill l) := Memory.wf_fillWith Memory.wf_nil

/-- What a byte array's memory reads as. -/
theorem Memory.read_ofBytes {l : List Byte} : Memory.read fill (Memory.ofBytes fill l) a = l.getD a fill := by
  rw [Memory.ofBytes, Memory.read_fillWith Memory.wf_nil]
  split
  · rfl
  · rw [Memory.read_nil, List.getD_eq_default]; omega

/-- Reading back the bytes of an array's memory gives the array. -/
theorem Memory.toBytes_ofBytes {l : List Byte} : Memory.toBytes fill (Memory.ofBytes fill l) l.length = l := by
  refine List.ext_getElem (by simp [Memory.toBytes]) fun i h1 h2 => ?_
  simp [Memory.toBytes, Memory.read_ofBytes, List.getD_eq_getElem?_getD, List.getElem?_eq_getElem h2]

/-- The write of one listed cell of a host buffer. -/
def Memory.cellStep (fill : Byte) (size : Nat) (m : Memory) (c : Host.Cell) : Memory :=
  if c.1 < size then Memory.write fill m c.1 c.2 else m

theorem Memory.ofCells_eq {cells : List Host.Cell} :
    Memory.ofCells fill size cells = cells.foldl (Memory.cellStep fill size) [] := rfl

theorem Memory.wf_foldl_cellStep {cells : List Host.Cell} (h : Memory.wf fill m) :
    Memory.wf fill (cells.foldl (Memory.cellStep fill size) m) := by
  induction cells generalizing m with
  | nil => exact h
  | cons c cells ih =>
    refine ih ?_
    unfold Memory.cellStep
    split
    · exact Memory.wf_write h
    · exact h

/-- A host buffer's memory is canonical. -/
theorem Memory.wf_ofCells {cells : List Host.Cell} : Memory.wf fill (Memory.ofCells fill size cells) :=
  Memory.wf_foldl_cellStep Memory.wf_nil

theorem Memory.read_foldl_cellStep {cells : List Host.Cell} (h : Memory.wf fill m) (hb : ∀ c ∈ cells, c.1 ≠ b) :
    Memory.read fill (cells.foldl (Memory.cellStep fill size) m) b = Memory.read fill m b := by
  induction cells generalizing m with
  | nil => rfl
  | cons c cells ih =>
    have hc := hb c (List.mem_cons_self ..)
    have hstep : Memory.wf fill (Memory.cellStep fill size m c) := by
      unfold Memory.cellStep
      split
      · exact Memory.wf_write h
      · exact h
    rw [List.foldl_cons, ih hstep fun d hd => hb d (List.mem_cons_of_mem _ hd)]
    unfold Memory.cellStep
    split
    · exact Memory.read_write_other (Ne.symm hc)
    · rfl

/-- An address no cell of a host buffer names reads as the fill byte. -/
theorem Memory.read_ofCells_unlisted {cells : List Host.Cell} (hb : ∀ c ∈ cells, c.1 ≠ b) :
    Memory.read fill (Memory.ofCells fill size cells) b = fill :=
  Memory.read_foldl_cellStep Memory.wf_nil hb

theorem Memory.read_foldl_listed {cells : List Host.Cell} {c : Host.Cell} (h : Memory.wf fill m)
    (hd : cells.Pairwise (fun x y => x.1 ≠ y.1)) (hc : c ∈ cells) (hs : c.1 < size) :
    Memory.read fill (cells.foldl (Memory.cellStep fill size) m) c.1 = c.2 := by
  induction cells generalizing m with
  | nil => cases hc
  | cons d cells ih =>
    obtain ⟨hd1, hd2⟩ := List.pairwise_cons.1 hd
    have hstep : Memory.wf fill (Memory.cellStep fill size m d) := by
      unfold Memory.cellStep
      split
      · exact Memory.wf_write h
      · exact h
    rcases List.mem_cons.1 hc with rfl | hm
    · rw [List.foldl_cons, Memory.read_foldl_cellStep hstep fun x hx => Ne.symm (hd1 x hx), Memory.cellStep, if_pos hs,
        Memory.read_write_same h]
    · exact ih hstep hd2 hm

/-- A listed cell inside a host buffer is the byte at its address, when no address is listed twice. -/
theorem Memory.read_ofCells_listed {cells : List Host.Cell} {c : Host.Cell}
    (hd : cells.Pairwise (fun x y => x.1 ≠ y.1)) (hc : c ∈ cells) (hs : c.1 < size) :
    Memory.read fill (Memory.ofCells fill size cells) c.1 = c.2 :=
  Memory.read_foldl_listed Memory.wf_nil hd hc hs

/-- Canonical memories that read the same at every address are equal. -/
theorem Memory.ext (h : Memory.wf fill m) (h' : Memory.wf fill m')
    (hr : ∀ a, Memory.read fill m a = Memory.read fill m' a) : m = m' := by
  induction m generalizing m' with
  | nil =>
    cases m' with
    | nil => rfl
    | cons d m' =>
      have := hr d.1
      rw [Memory.read_nil, Memory.read_listed h' (List.mem_cons_self ..)] at this
      exact absurd this.symm (Memory.wf_head_ne h')
  | cons c m ih =>
    cases m' with
    | nil =>
      have := hr c.1
      rw [Memory.read_nil, Memory.read_listed h (List.mem_cons_self ..)] at this
      exact absurd this (Memory.wf_head_ne h)
    | cons d m' =>
      have hc := hr c.1
      rw [Memory.read_listed h (List.mem_cons_self ..)] at hc
      have hd := hr d.1
      rw [Memory.read_listed h' (List.mem_cons_self ..)] at hd
      have h1 : ¬ c.1 < d.1 := fun hlt => Memory.wf_head_ne h (by
        rw [hc]; refine Memory.read_below fun x hx => ?_
        rcases List.mem_cons.1 hx with rfl | hm
        · exact hlt
        · exact lt_trans hlt (Memory.wf_head_lt h' x hm))
      have h2 : ¬ d.1 < c.1 := fun hlt => Memory.wf_head_ne h' (by
        rw [← hd]; refine Memory.read_below fun x hx => ?_
        rcases List.mem_cons.1 hx with rfl | hm
        · exact hlt
        · exact lt_trans hlt (Memory.wf_head_lt h x hm))
      have hcd : c.1 = d.1 := by omega
      have hv : c.2 = d.2 := by simpa [Memory.read, hcd] using hc
      have hce : c = d := Prod.ext hcd hv
      subst hce
      rw [ih (Memory.wf_tail h) (Memory.wf_tail h') fun a => ?_]
      by_cases ha : c.1 = a
      · rw [Memory.read_below (m := m) fun x hx => ha ▸ Memory.wf_head_lt h x hx,
          Memory.read_below (m := m') fun x hx => ha ▸ Memory.wf_head_lt h' x hx]
      · simpa [Memory.read, ha] using hr a

/-! ### Bounds -/

theorem Memory.inside_write (h : ∀ c ∈ m, c.1 < size) (ha : a < size) : ∀ c ∈ Memory.write fill m a v, c.1 < size := by
  intro c hc
  rcases Memory.mem_write hc with hm | ⟨rfl, -⟩
  · exact h c hm
  · exact ha

theorem Memory.inside_clear (h : ∀ c ∈ m, c.1 < size) : ∀ c ∈ Memory.clear m base n, c.1 < size :=
  fun c hc => h c (List.mem_filter.1 hc).1

theorem Memory.inside_fillWith {f : Nat → Byte} (h : ∀ c ∈ m, c.1 < size) (hn : base + n ≤ size) :
    ∀ c ∈ Memory.fillWith fill m base f n, c.1 < size := by
  induction n with
  | zero => exact h
  | succ n ih => exact Memory.inside_write (ih (by omega)) (by omega)

theorem Memory.inside_ofBytes {l : List Byte} : ∀ c ∈ Memory.ofBytes fill l, c.1 < l.length :=
  Memory.inside_fillWith (fun _ hc => by cases hc) (by omega)

theorem Memory.inside_foldl_cellStep {cells : List Host.Cell} (h : ∀ c ∈ m, c.1 < size) :
    ∀ c ∈ cells.foldl (Memory.cellStep fill size) m, c.1 < size := by
  induction cells generalizing m with
  | nil => exact h
  | cons d cells ih =>
    refine ih ?_
    unfold Memory.cellStep
    split
    · next hd => exact Memory.inside_write h hd
    · exact h

theorem Memory.inside_ofCells {cells : List Host.Cell} : ∀ c ∈ Memory.ofCells fill size cells, c.1 < size :=
  Memory.inside_foldl_cellStep fun _ hc => by cases hc

/-- A write inside a sound memory leaves it sound. -/
theorem Memory.Sound.write (h : Memory.Sound fill size m) (ha : a < size) :
    Memory.Sound fill size (Memory.write fill m a v) := ⟨Memory.wf_write h.1, Memory.inside_write h.2 ha⟩

theorem Memory.Sound.clear (h : Memory.Sound fill size m) : Memory.Sound fill size (Memory.clear m base n) :=
  ⟨Memory.wf_clear h.1, Memory.inside_clear h.2⟩

theorem Memory.Sound.ofBytes {l : List Byte} (hl : l.length = size) : Memory.Sound fill size (Memory.ofBytes fill l) :=
  ⟨Memory.wf_ofBytes, hl ▸ Memory.inside_ofBytes⟩

/-- Saving a sound memory and loading it again gives the memory. -/
theorem Memory.ofBytes_toBytes (h : Memory.Sound fill size m) : Memory.ofBytes fill (Memory.toBytes fill m size) = m := by
  refine Memory.ext Memory.wf_ofBytes h.1 fun a => ?_
  rw [Memory.read_ofBytes, Memory.toBytes]
  by_cases ha : a < size
  · simp [List.getD_eq_getElem?_getD, ha]
  · rw [List.getD_eq_default _ _ (by simp; omega), Memory.read_unlisted]
    intro x hx hxa
    exact ha (hxa ▸ h.2 x hx)

/-- Every memory of the reset state is canonical. -/
theorem State.reset_memories_wf :
    Memory.wf Space.eepromMem.fill State.reset.eeprom.mem ∧ Memory.wf Space.rtcRam.fill State.reset.rtc.ram ∧
      Memory.wf Space.rtcEe.fill State.reset.rtc.ee ∧ Memory.wf Space.rtcId.fill State.reset.rtc.id ∧
      Memory.wf Space.mapperRam.fill State.reset.mapper.ram ∧
      ∀ c ∈ State.reset.mapper.chips ++ State.reset.chips, Memory.wf Space.flashImage.fill c.img := by
  refine ⟨Memory.wf_nil, Memory.wf_nil, Memory.wf_nil, Memory.wf_nil, Memory.wf_nil, fun c hc => ?_⟩
  simp only [State.reset, Mapper.initial, List.append_nil, List.mem_singleton] at hc
  rw [hc]
  exact Memory.wf_nil

end Sys2Proof.Machine
end

