-- ==== Sys2Proof/Laws/State.lean ====
section
/-! SUPPORT. One lemma per field per update of the state, true by unfolding, so that no later proof unfolds a record
update. -/

namespace Sys2Proof.Machine

variable {s : State} {c : Chip} {r q : ChipRef}

@[simp] theorem State.answer_now {x : Result} : (s.answer x).now = s.now := rfl

@[simp] theorem State.answer_clock {x : Result} : (s.answer x).clock = s.clock := rfl

@[simp] theorem State.answer_chips {x : Result} : (s.answer x).chips = s.chips := rfl

@[simp] theorem State.answer_sched {x : Result} : (s.answer x).sched = s.sched := rfl

@[simp] theorem State.answer_eeprom {x : Result} : (s.answer x).eeprom = s.eeprom := rfl

@[simp] theorem State.answer_rtc {x : Result} : (s.answer x).rtc = s.rtc := rfl

@[simp] theorem State.answer_mapper {x : Result} : (s.answer x).mapper = s.mapper := rfl

@[simp] theorem State.answer_input {x : Result} : (s.answer x).input = s.input := rfl

@[simp] theorem State.answer_draws {x : Result} : (s.answer x).draws = s.draws := rfl

@[simp] theorem State.answer_cfg {x : Result} : (s.answer x).cfg = s.cfg := rfl

@[simp] theorem State.answer_result {x : Result} : (s.answer x).out.result = x := rfl

@[simp] theorem State.answer_calls {x : Result} : (s.answer x).out.calls = s.out.calls := rfl

@[simp] theorem State.answer_answer {x y : Result} : (s.answer x).answer y = s.answer y := rfl

@[simp] theorem State.emit_now {l : List LayerCall} : (s.emit l).now = s.now := rfl

@[simp] theorem State.emit_clock {l : List LayerCall} : (s.emit l).clock = s.clock := rfl

@[simp] theorem State.emit_chips {l : List LayerCall} : (s.emit l).chips = s.chips := rfl

@[simp] theorem State.emit_sched {l : List LayerCall} : (s.emit l).sched = s.sched := rfl

@[simp] theorem State.emit_eeprom {l : List LayerCall} : (s.emit l).eeprom = s.eeprom := rfl

@[simp] theorem State.emit_rtc {l : List LayerCall} : (s.emit l).rtc = s.rtc := rfl

@[simp] theorem State.emit_mapper {l : List LayerCall} : (s.emit l).mapper = s.mapper := rfl

@[simp] theorem State.emit_input {l : List LayerCall} : (s.emit l).input = s.input := rfl

@[simp] theorem State.emit_draws {l : List LayerCall} : (s.emit l).draws = s.draws := rfl

@[simp] theorem State.emit_cfg {l : List LayerCall} : (s.emit l).cfg = s.cfg := rfl

@[simp] theorem State.emit_result {l : List LayerCall} : (s.emit l).out.result = s.out.result := rfl

@[simp] theorem State.emit_calls {l : List LayerCall} : (s.emit l).out.calls = s.out.calls ++ l := rfl

@[simp] theorem State.setChip_now : (s.setChip r c).now = s.now := by cases r <;> rfl

@[simp] theorem State.setChip_clock : (s.setChip r c).clock = s.clock := by cases r <;> rfl

@[simp] theorem State.setChip_sched : (s.setChip r c).sched = s.sched := by cases r <;> rfl

@[simp] theorem State.setChip_eeprom : (s.setChip r c).eeprom = s.eeprom := by cases r <;> rfl

@[simp] theorem State.setChip_rtc : (s.setChip r c).rtc = s.rtc := by cases r <;> rfl

@[simp] theorem State.setChip_input : (s.setChip r c).input = s.input := by cases r <;> rfl

@[simp] theorem State.setChip_out : (s.setChip r c).out = s.out := by cases r <;> rfl

@[simp] theorem State.setChip_draws : (s.setChip r c).draws = s.draws := by cases r <;> rfl

@[simp] theorem State.setChip_cfg : (s.setChip r c).cfg = s.cfg := by cases r <;> rfl

@[simp] theorem State.setChip_mapper_type : (s.setChip r c).mapper.type = s.mapper.type := by cases r <;> rfl

@[simp] theorem State.setChip_mapper_size : (s.setChip r c).mapper.size = s.mapper.size := by cases r <;> rfl

@[simp] theorem State.setChip_mapper_ram : (s.setChip r c).mapper.ram = s.mapper.ram := by cases r <;> rfl

@[simp] theorem State.setChip_mapper_ramSize : (s.setChip r c).mapper.ramSize = s.mapper.ramSize := by cases r <;> rfl

@[simp] theorem State.setChip_mapper_regs : (s.setChip r c).mapper.regs = s.mapper.regs := by cases r <;> rfl

@[simp] theorem State.setChip_mapper_table : (s.setChip r c).mapper.table = s.mapper.table := by cases r <;> rfl

@[simp] theorem State.setChip_mapper_installed : (s.setChip r c).mapper.installed = s.mapper.installed := by cases r <;> rfl

@[simp] theorem State.putAccess_now {x : ChipAccess} : (s.putAccess r x).now = s.now := by cases r <;> rfl

@[simp] theorem State.putAccess_clock {x : ChipAccess} : (s.putAccess r x).clock = s.clock := by cases r <;> rfl

@[simp] theorem State.putAccess_sched {x : ChipAccess} : (s.putAccess r x).sched = s.sched := by cases r <;> rfl

@[simp] theorem State.putAccess_eeprom {x : ChipAccess} : (s.putAccess r x).eeprom = s.eeprom := by cases r <;> rfl

@[simp] theorem State.putAccess_rtc {x : ChipAccess} : (s.putAccess r x).rtc = s.rtc := by cases r <;> rfl

@[simp] theorem State.putAccess_input {x : ChipAccess} : (s.putAccess r x).input = s.input := by cases r <;> rfl

@[simp] theorem State.putAccess_out {x : ChipAccess} : (s.putAccess r x).out = s.out := by cases r <;> rfl

@[simp] theorem State.putAccess_cfg {x : ChipAccess} : (s.putAccess r x).cfg = s.cfg := by cases r <;> rfl

@[simp] theorem State.putAccess_draws {x : ChipAccess} : (s.putAccess r x).draws = x.draws := rfl

/-- The chip just put there is the one found there. -/
@[simp] theorem State.setChip_chipAt_same (h : (s.chipAt r).isSome) : (s.setChip r c).chipAt r = some c := by
  obtain ⟨d, hd⟩ := Option.isSome_iff_exists.1 h
  cases r <;> exact List.getElem?_set_self (List.getElem?_eq_some_iff.1 hd).1

/-- Every other chip is the one it was. -/
@[simp] theorem State.setChip_chipAt_other (h : q ≠ r) : (s.setChip r c).chipAt q = s.chipAt q := by
  cases r <;> cases q <;> simp_all [State.chipAt, State.setChip, eq_comm]

/-- Putting back the chip that is there changes nothing. -/
theorem State.setChip_self (h : s.chipAt r = some c) : s.setChip r c = s := by
  cases r with
  | mapper k =>
    have hk : s.mapper.chips.set k c = s.mapper.chips := by
      obtain ⟨hlt, hc⟩ := List.getElem?_eq_some_iff.1 h
      rw [← hc, List.set_getElem_self]
    simp only [State.setChip, hk]
  | host k =>
    have hk : s.chips.set k c = s.chips := by
      obtain ⟨hlt, hc⟩ := List.getElem?_eq_some_iff.1 h
      rw [← hc, List.set_getElem_self]
    simp only [State.setChip, hk]

/-- The chips of the machine are as many after a chip is replaced. -/
@[simp] theorem State.setChip_chipAt_isSome : ((s.setChip r c).chipAt q).isSome = (s.chipAt q).isSome := by
  cases r <;> cases q <;>
    first
    | rfl
    | (simp only [State.chipAt, State.setChip, List.getElem?_set]
       split
       · next h => subst h; split <;> simp_all
       · rfl)

@[simp] theorem Chip.commit_type : c.commit.type = c.type := rfl

@[simp] theorem Chip.commit_profile : c.commit.profile = c.profile := rfl

@[simp] theorem Chip.commit_buf : c.commit.buf = c.buf := rfl

@[simp] theorem Chip.commit_img : c.commit.img = c.img := rfl

@[simp] theorem Chip.commit_readMode : c.commit.readMode = c.readMode := rfl

@[simp] theorem Chip.commit_phase : c.commit.phase = c.phase := rfl

@[simp] theorem Chip.commit_toggleBits : c.commit.toggleBits = c.toggleBits := rfl

@[simp] theorem Chip.commit_dirty : c.commit.dirty = true := rfl

@[simp] theorem Chip.commit_writeActivity : c.commit.writeActivity = true := rfl

@[simp] theorem Chip.commit_statusReads : c.commit.statusReads = c.statusReads := rfl

@[simp] theorem Chip.commit_eraseDeadline : c.commit.eraseDeadline = c.eraseDeadline := rfl

@[simp] theorem Chip.commit_multiEraseOpen : c.commit.multiEraseOpen = c.multiEraseOpen := rfl

@[simp] theorem Chip.commit_wbuf : c.commit.wbuf = c.wbuf := rfl

@[simp] theorem Chip.commit_wbBase : c.commit.wbBase = c.wbBase := rfl

@[simp] theorem Chip.commit_wbBaseValid : c.commit.wbBaseValid = c.wbBaseValid := rfl

@[simp] theorem Chip.commit_wbRemaining : c.commit.wbRemaining = c.wbRemaining := rfl

@[simp] theorem Chip.commit_atmelBase : c.commit.atmelBase = c.atmelBase := rfl

@[simp] theorem Chip.commit_atmelOpen : c.commit.atmelOpen = c.atmelOpen := rfl

@[simp] theorem Chip.commit_atmelLoaded : c.commit.atmelLoaded = c.atmelLoaded := rfl

@[simp] theorem Chip.setByte_type {a : Nat} {v : Byte} : (c.setByte a v).type = c.type := rfl

@[simp] theorem Chip.setByte_profile {a : Nat} {v : Byte} : (c.setByte a v).profile = c.profile := rfl

@[simp] theorem Chip.setByte_buf {a : Nat} {v : Byte} : (c.setByte a v).buf = c.buf := rfl

@[simp] theorem Chip.setByte_readMode {a : Nat} {v : Byte} : (c.setByte a v).readMode = c.readMode := rfl

@[simp] theorem Chip.setByte_phase {a : Nat} {v : Byte} : (c.setByte a v).phase = c.phase := rfl

@[simp] theorem Chip.setByte_toggleBits {a : Nat} {v : Byte} : (c.setByte a v).toggleBits = c.toggleBits := rfl

@[simp] theorem Chip.setByte_dirty {a : Nat} {v : Byte} : (c.setByte a v).dirty = c.dirty := rfl

@[simp] theorem Chip.setByte_writeActivity {a : Nat} {v : Byte} : (c.setByte a v).writeActivity = c.writeActivity := rfl

@[simp] theorem Chip.setByte_statusReads {a : Nat} {v : Byte} : (c.setByte a v).statusReads = c.statusReads := rfl

@[simp] theorem Chip.setByte_eraseDeadline {a : Nat} {v : Byte} : (c.setByte a v).eraseDeadline = c.eraseDeadline := rfl

@[simp] theorem Chip.setByte_multiEraseOpen {a : Nat} {v : Byte} : (c.setByte a v).multiEraseOpen = c.multiEraseOpen := rfl

@[simp] theorem Chip.setByte_wbuf {a : Nat} {v : Byte} : (c.setByte a v).wbuf = c.wbuf := rfl

@[simp] theorem Chip.setByte_wbBase {a : Nat} {v : Byte} : (c.setByte a v).wbBase = c.wbBase := rfl

@[simp] theorem Chip.setByte_wbBaseValid {a : Nat} {v : Byte} : (c.setByte a v).wbBaseValid = c.wbBaseValid := rfl

@[simp] theorem Chip.setByte_wbRemaining {a : Nat} {v : Byte} : (c.setByte a v).wbRemaining = c.wbRemaining := rfl

@[simp] theorem Chip.setByte_atmelBase {a : Nat} {v : Byte} : (c.setByte a v).atmelBase = c.atmelBase := rfl

@[simp] theorem Chip.setByte_atmelOpen {a : Nat} {v : Byte} : (c.setByte a v).atmelOpen = c.atmelOpen := rfl

@[simp] theorem Chip.setByte_atmelLoaded {a : Nat} {v : Byte} : (c.setByte a v).atmelLoaded = c.atmelLoaded := rfl

@[simp] theorem Chip.eraseRange_type {a n : Nat} : (c.eraseRange a n).type = c.type := rfl

@[simp] theorem Chip.eraseRange_profile {a n : Nat} : (c.eraseRange a n).profile = c.profile := rfl

@[simp] theorem Chip.eraseRange_buf {a n : Nat} : (c.eraseRange a n).buf = c.buf := rfl

@[simp] theorem Chip.eraseRange_readMode {a n : Nat} : (c.eraseRange a n).readMode = c.readMode := rfl

@[simp] theorem Chip.eraseRange_phase {a n : Nat} : (c.eraseRange a n).phase = c.phase := rfl

@[simp] theorem Chip.eraseRange_toggleBits {a n : Nat} : (c.eraseRange a n).toggleBits = c.toggleBits := rfl

@[simp] theorem Chip.eraseRange_dirty {a n : Nat} : (c.eraseRange a n).dirty = c.dirty := rfl

@[simp] theorem Chip.eraseRange_writeActivity {a n : Nat} : (c.eraseRange a n).writeActivity = c.writeActivity := rfl

@[simp] theorem Chip.eraseRange_statusReads {a n : Nat} : (c.eraseRange a n).statusReads = c.statusReads := rfl

@[simp] theorem Chip.eraseRange_eraseDeadline {a n : Nat} : (c.eraseRange a n).eraseDeadline = c.eraseDeadline := rfl

@[simp] theorem Chip.eraseRange_multiEraseOpen {a n : Nat} : (c.eraseRange a n).multiEraseOpen = c.multiEraseOpen := rfl

@[simp] theorem Chip.eraseRange_wbuf {a n : Nat} : (c.eraseRange a n).wbuf = c.wbuf := rfl

@[simp] theorem Chip.eraseRange_wbBase {a n : Nat} : (c.eraseRange a n).wbBase = c.wbBase := rfl

@[simp] theorem Chip.eraseRange_wbBaseValid {a n : Nat} : (c.eraseRange a n).wbBaseValid = c.wbBaseValid := rfl

@[simp] theorem Chip.eraseRange_wbRemaining {a n : Nat} : (c.eraseRange a n).wbRemaining = c.wbRemaining := rfl

@[simp] theorem Chip.eraseRange_atmelBase {a n : Nat} : (c.eraseRange a n).atmelBase = c.atmelBase := rfl

@[simp] theorem Chip.eraseRange_atmelOpen {a n : Nat} : (c.eraseRange a n).atmelOpen = c.atmelOpen := rfl

@[simp] theorem Chip.eraseRange_atmelLoaded {a n : Nat} : (c.eraseRange a n).atmelLoaded = c.atmelLoaded := rfl

@[simp] theorem Chip.mapRange_type {a n : Nat} {g : Nat → Byte → Byte} : (c.mapRange a g n).type = c.type := by
  induction n with
  | zero => rfl
  | succ n ih => exact ih

@[simp] theorem Chip.mapRange_profile {a n : Nat} {g : Nat → Byte → Byte} : (c.mapRange a g n).profile = c.profile := by
  induction n with
  | zero => rfl
  | succ n ih => exact ih

@[simp] theorem Chip.mapRange_buf {a n : Nat} {g : Nat → Byte → Byte} : (c.mapRange a g n).buf = c.buf := by
  induction n with
  | zero => rfl
  | succ n ih => exact ih

@[simp] theorem Chip.mapRange_readMode {a n : Nat} {g : Nat → Byte → Byte} : (c.mapRange a g n).readMode = c.readMode := by
  induction n with
  | zero => rfl
  | succ n ih => exact ih

@[simp] theorem Chip.mapRange_phase {a n : Nat} {g : Nat → Byte → Byte} : (c.mapRange a g n).phase = c.phase := by
  induction n with
  | zero => rfl
  | succ n ih => exact ih

@[simp] theorem Chip.mapRange_toggleBits {a n : Nat} {g : Nat → Byte → Byte} : (c.mapRange a g n).toggleBits = c.toggleBits := by
  induction n with
  | zero => rfl
  | succ n ih => exact ih

@[simp] theorem Chip.mapRange_dirty {a n : Nat} {g : Nat → Byte → Byte} : (c.mapRange a g n).dirty = c.dirty := by
  induction n with
  | zero => rfl
  | succ n ih => exact ih

@[simp] theorem Chip.mapRange_writeActivity {a n : Nat} {g : Nat → Byte → Byte} : (c.mapRange a g n).writeActivity = c.writeActivity := by
  induction n with
  | zero => rfl
  | succ n ih => exact ih

@[simp] theorem Chip.mapRange_statusReads {a n : Nat} {g : Nat → Byte → Byte} : (c.mapRange a g n).statusReads = c.statusReads := by
  induction n with
  | zero => rfl
  | succ n ih => exact ih

@[simp] theorem Chip.mapRange_eraseDeadline {a n : Nat} {g : Nat → Byte → Byte} : (c.mapRange a g n).eraseDeadline = c.eraseDeadline := by
  induction n with
  | zero => rfl
  | succ n ih => exact ih

@[simp] theorem Chip.mapRange_multiEraseOpen {a n : Nat} {g : Nat → Byte → Byte} : (c.mapRange a g n).multiEraseOpen = c.multiEraseOpen := by
  induction n with
  | zero => rfl
  | succ n ih => exact ih

@[simp] theorem Chip.mapRange_wbuf {a n : Nat} {g : Nat → Byte → Byte} : (c.mapRange a g n).wbuf = c.wbuf := by
  induction n with
  | zero => rfl
  | succ n ih => exact ih

@[simp] theorem Chip.mapRange_wbBase {a n : Nat} {g : Nat → Byte → Byte} : (c.mapRange a g n).wbBase = c.wbBase := by
  induction n with
  | zero => rfl
  | succ n ih => exact ih

@[simp] theorem Chip.mapRange_wbBaseValid {a n : Nat} {g : Nat → Byte → Byte} : (c.mapRange a g n).wbBaseValid = c.wbBaseValid := by
  induction n with
  | zero => rfl
  | succ n ih => exact ih

@[simp] theorem Chip.mapRange_wbRemaining {a n : Nat} {g : Nat → Byte → Byte} : (c.mapRange a g n).wbRemaining = c.wbRemaining := by
  induction n with
  | zero => rfl
  | succ n ih => exact ih

@[simp] theorem Chip.mapRange_atmelBase {a n : Nat} {g : Nat → Byte → Byte} : (c.mapRange a g n).atmelBase = c.atmelBase := by
  induction n with
  | zero => rfl
  | succ n ih => exact ih

@[simp] theorem Chip.mapRange_atmelOpen {a n : Nat} {g : Nat → Byte → Byte} : (c.mapRange a g n).atmelOpen = c.atmelOpen := by
  induction n with
  | zero => rfl
  | succ n ih => exact ih

@[simp] theorem Chip.mapRange_atmelLoaded {a n : Nat} {g : Nat → Byte → Byte} : (c.mapRange a g n).atmelLoaded = c.atmelLoaded := by
  induction n with
  | zero => rfl
  | succ n ih => exact ih

@[simp] theorem Chip.expire_type {t : Cycles} : (c.expire t).type = c.type := by
  unfold Chip.expire; split <;> rfl

@[simp] theorem Chip.expire_profile {t : Cycles} : (c.expire t).profile = c.profile := by
  unfold Chip.expire; split <;> rfl

@[simp] theorem Chip.expire_buf {t : Cycles} : (c.expire t).buf = c.buf := by
  unfold Chip.expire; split <;> rfl

@[simp] theorem Chip.expire_img {t : Cycles} : (c.expire t).img = c.img := by
  unfold Chip.expire; split <;> rfl

@[simp] theorem Chip.expire_phase {t : Cycles} : (c.expire t).phase = c.phase := by
  unfold Chip.expire; split <;> rfl

@[simp] theorem Chip.expire_toggleBits {t : Cycles} : (c.expire t).toggleBits = c.toggleBits := by
  unfold Chip.expire; split <;> rfl

@[simp] theorem Chip.expire_dirty {t : Cycles} : (c.expire t).dirty = c.dirty := by
  unfold Chip.expire; split <;> rfl

@[simp] theorem Chip.expire_writeActivity {t : Cycles} : (c.expire t).writeActivity = c.writeActivity := by
  unfold Chip.expire; split <;> rfl

@[simp] theorem Chip.expire_statusReads {t : Cycles} : (c.expire t).statusReads = c.statusReads := by
  unfold Chip.expire; split <;> rfl

@[simp] theorem Chip.expire_eraseDeadline {t : Cycles} : (c.expire t).eraseDeadline = c.eraseDeadline := by
  unfold Chip.expire; split <;> rfl

@[simp] theorem Chip.expire_wbuf {t : Cycles} : (c.expire t).wbuf = c.wbuf := by
  unfold Chip.expire; split <;> rfl

@[simp] theorem Chip.expire_wbBase {t : Cycles} : (c.expire t).wbBase = c.wbBase := by
  unfold Chip.expire; split <;> rfl

@[simp] theorem Chip.expire_wbBaseValid {t : Cycles} : (c.expire t).wbBaseValid = c.wbBaseValid := by
  unfold Chip.expire; split <;> rfl

@[simp] theorem Chip.expire_wbRemaining {t : Cycles} : (c.expire t).wbRemaining = c.wbRemaining := by
  unfold Chip.expire; split <;> rfl

@[simp] theorem Chip.expire_atmelBase {t : Cycles} : (c.expire t).atmelBase = c.atmelBase := by
  unfold Chip.expire; split <;> rfl

@[simp] theorem Chip.expire_atmelOpen {t : Cycles} : (c.expire t).atmelOpen = c.atmelOpen := by
  unfold Chip.expire; split <;> rfl

@[simp] theorem Chip.expire_atmelLoaded {t : Cycles} : (c.expire t).atmelLoaded = c.atmelLoaded := by
  unfold Chip.expire; split <;> rfl

@[simp] theorem Chip.coldReset_type : c.coldReset.type = c.type := rfl

@[simp] theorem Chip.coldReset_profile : c.coldReset.profile = c.profile := rfl

@[simp] theorem Chip.coldReset_buf : c.coldReset.buf = c.buf := rfl

@[simp] theorem Chip.coldReset_img : c.coldReset.img = c.img := rfl

@[simp] theorem Chip.coldReset_dirty : c.coldReset.dirty = c.dirty := rfl

@[simp] theorem Chip.coldReset_writeActivity : c.coldReset.writeActivity = c.writeActivity := rfl

@[simp] theorem Chip.coldReset_statusReads : c.coldReset.statusReads = c.statusReads := rfl

@[simp] theorem Chip.coldReset_eraseDeadline : c.coldReset.eraseDeadline = c.eraseDeadline := rfl

@[simp] theorem Chip.coldReset_multiEraseOpen : c.coldReset.multiEraseOpen = c.multiEraseOpen := rfl

@[simp] theorem Chip.coldReset_wbuf : c.coldReset.wbuf = c.wbuf := rfl

@[simp] theorem Chip.coldReset_wbBase : c.coldReset.wbBase = c.wbBase := rfl

@[simp] theorem Chip.coldReset_wbBaseValid : c.coldReset.wbBaseValid = c.wbBaseValid := rfl

@[simp] theorem Chip.coldReset_wbRemaining : c.coldReset.wbRemaining = c.wbRemaining := rfl

@[simp] theorem Chip.coldReset_atmelBase : c.coldReset.atmelBase = c.atmelBase := rfl

@[simp] theorem Chip.coldReset_atmelOpen : c.coldReset.atmelOpen = c.atmelOpen := rfl

@[simp] theorem Chip.coldReset_atmelLoaded : c.coldReset.atmelLoaded = c.atmelLoaded := rfl

@[simp] theorem Chip.ownerClear_type {x : FlagClear} : (c.ownerClear x).type = c.type := rfl

@[simp] theorem Chip.ownerClear_profile {x : FlagClear} : (c.ownerClear x).profile = c.profile := rfl

@[simp] theorem Chip.ownerClear_buf {x : FlagClear} : (c.ownerClear x).buf = c.buf := rfl

@[simp] theorem Chip.ownerClear_img {x : FlagClear} : (c.ownerClear x).img = c.img := rfl

@[simp] theorem Chip.ownerClear_readMode {x : FlagClear} : (c.ownerClear x).readMode = c.readMode := rfl

@[simp] theorem Chip.ownerClear_phase {x : FlagClear} : (c.ownerClear x).phase = c.phase := rfl

@[simp] theorem Chip.ownerClear_toggleBits {x : FlagClear} : (c.ownerClear x).toggleBits = c.toggleBits := rfl

@[simp] theorem Chip.ownerClear_statusReads {x : FlagClear} : (c.ownerClear x).statusReads = c.statusReads := rfl

@[simp] theorem Chip.ownerClear_eraseDeadline {x : FlagClear} : (c.ownerClear x).eraseDeadline = c.eraseDeadline := rfl

@[simp] theorem Chip.ownerClear_multiEraseOpen {x : FlagClear} : (c.ownerClear x).multiEraseOpen = c.multiEraseOpen := rfl

@[simp] theorem Chip.ownerClear_wbuf {x : FlagClear} : (c.ownerClear x).wbuf = c.wbuf := rfl

@[simp] theorem Chip.ownerClear_wbBase {x : FlagClear} : (c.ownerClear x).wbBase = c.wbBase := rfl

@[simp] theorem Chip.ownerClear_wbBaseValid {x : FlagClear} : (c.ownerClear x).wbBaseValid = c.wbBaseValid := rfl

@[simp] theorem Chip.ownerClear_wbRemaining {x : FlagClear} : (c.ownerClear x).wbRemaining = c.wbRemaining := rfl

@[simp] theorem Chip.ownerClear_atmelBase {x : FlagClear} : (c.ownerClear x).atmelBase = c.atmelBase := rfl

@[simp] theorem Chip.ownerClear_atmelOpen {x : FlagClear} : (c.ownerClear x).atmelOpen = c.atmelOpen := rfl

@[simp] theorem Chip.ownerClear_atmelLoaded {x : FlagClear} : (c.ownerClear x).atmelLoaded = c.atmelLoaded := rfl

end Sys2Proof.Machine
end

