-- ==== Sys2Proof/Laws/Flash.lean ====
section
/-! SUPPORT. The FlashChip's shared operations: what a direct access answers, what a range of image bytes reads as after a
change, and what every access keeps. -/

namespace Sys2Proof.Machine

variable {s t : State} {c : Chip} {r : ChipRef} {a b base n draws : Nat} {v : Byte} {now : Cycles}

/-! ### Direct accesses -/

/-- A direct access to a chip that is there completes, and `State.chipDone` is all it does. -/
theorem onChip_of {access : Chip → ChipAccess} {result : ChipAccess → Result} (h : s.chipAt r = some c) :
    onChip s r access result = .next (s.chipDone r (access c).chip (access c).draws (result (access c))) := by
  simp only [onChip, h]
  cases r <;> rfl

/-- A direct access that completes is an access to a chip that is there. -/
theorem onChip_next {access : Chip → ChipAccess} {result : ChipAccess → Result} (h : onChip s r access result = .next t) :
    ∃ c, s.chipAt r = some c ∧ t = s.chipDone r (access c).chip (access c).draws (result (access c)) := by
  cases hc : s.chipAt r with
  | none => simp [onChip, hc] at h
  | some c =>
    rw [onChip_of hc] at h
    exact ⟨c, rfl, by injection h with h; exact h.symm⟩

/-- A chip left as it was, with the value of the call. -/
theorem State.chipDone_self {res : Result} (h : s.chipAt r = some c) : s.chipDone r c s.draws res = s.answer res := by
  simp only [State.chipDone, State.setChip_self h, State.answer]

/-- A write row whose condition holds takes its effect. -/
theorem chipWriteRow_applies {applies : Chip → Nat → Bool} {effect : Chip → Nat → WriteFx} (h : s.chipAt r = some c)
    (ha : applies (c.expire s.now) (a % c.profile.cap) = true) :
    chipWriteRow r a v applies effect s =
      .next (s.chipDone r (effect (c.expire s.now) (a % c.profile.cap)).chip
        (effect (c.expire s.now) (a % c.profile.cap)).draws
        (.flashWrite ((effect (c.expire s.now) (a % c.profile.cap)).finish c.readMode).handled)) := by
  rw [chipWriteRow, onChip_of h]
  simp only [ha, if_true, WriteFx.finish]

/-- A write row whose condition does not hold is the general write. -/
theorem chipWriteRow_other {applies : Chip → Nat → Bool} {effect : Chip → Nat → WriteFx} (h : s.chipAt r = some c)
    (ha : applies (c.expire s.now) (a % c.profile.cap) = false) :
    chipWriteRow r a v applies effect s = chipWrite r a v s := by
  rw [chipWriteRow, chipWrite, onChip_of h, onChip_of h]
  simp only [ha]
  rfl

/-- A write row whose effect is the dispatch's wherever its condition holds is the general write. -/
theorem chipWriteRow_eq_chipWrite {applies : Chip → Nat → Bool} {effect : Chip → Nat → WriteFx}
    (h : ∀ c, s.chipAt r = some c → applies (c.expire s.now) (a % c.profile.cap) = true →
      effect (c.expire s.now) (a % c.profile.cap) = (c.expire s.now).dispatch (a % c.profile.cap) v s.now s.draws) :
    chipWriteRow r a v applies effect s = chipWrite r a v s := by
  cases hc : s.chipAt r with
  | none => simp [chipWriteRow, chipWrite, onChip, hc]
  | some c =>
    cases ha : applies (c.expire s.now) (a % c.profile.cap) with
    | false => exact chipWriteRow_other hc ha
    | true =>
      rw [chipWriteRow_applies hc ha, chipWrite, onChip_of hc, h c hc ha]
      rfl

/-- A read row whose condition holds takes its effect. -/
theorem chipReadRow_applies {mode : ReadMode} {effect : Chip → Nat → ReadFx} (h : s.chipAt r = some c)
    (hp : c.phase ≠ .atmelPageLoad) (hm : (c.expire s.now).readMode = mode) :
    chipReadRow r a mode effect s =
      .next (s.chipDone r (effect (c.expire s.now) (a % c.profile.cap)).chip
        (effect (c.expire s.now) (a % c.profile.cap)).draws
        (.flashRead (effect (c.expire s.now) (a % c.profile.cap)).value
          ((effect (c.expire s.now) (a % c.profile.cap)).finish c.readMode mode false).handled)) := by
  rw [chipReadRow, onChip_of h]
  rw [if_pos ⟨hp, hm⟩]
  rfl

/-! ### Image bytes -/

/-- The image after one byte is set. -/
theorem Chip.read_setByte (h : Memory.wf 0xFF#8 c.img) :
    Memory.read 0xFF#8 (c.setByte a v).img b = if b = a % c.profile.cap then v else Memory.read 0xFF#8 c.img b :=
  Memory.read_write h

theorem Chip.wf_setByte (h : Memory.wf 0xFF#8 c.img) : Memory.wf 0xFF#8 (c.setByte a v).img := Memory.wf_write h

theorem Chip.wf_mapRange {f : Nat → Byte → Byte} (h : Memory.wf 0xFF#8 c.img) :
    Memory.wf 0xFF#8 (c.mapRange base f n).img := by
  induction n with
  | zero => exact h
  | succ n ih => exact Chip.wf_setByte ih

/-- The image after a range inside the chip is changed byte by byte. -/
theorem Chip.read_mapRange {f : Nat → Byte → Byte} (h : Memory.wf 0xFF#8 c.img) (hn : base + n ≤ c.profile.cap) :
    Memory.read 0xFF#8 (c.mapRange base f n).img b =
      if base ≤ b ∧ b < base + n then f (b - base) (Memory.read 0xFF#8 c.img b) else Memory.read 0xFF#8 c.img b := by
  induction n with
  | zero => rw [Chip.mapRange, if_neg (by omega)]
  | succ n ih =>
    have hmod : (base + n) % c.profile.cap = base + n := Nat.mod_eq_of_lt (by omega)
    rw [Chip.mapRange, Chip.read_setByte (Chip.wf_mapRange h), ih (by omega), Chip.byteAt]
    simp only [Chip.mapRange_profile, hmod]
    by_cases hb : b = base + n
    · subst hb
      rw [if_pos rfl, if_pos (by omega), show base + n - base = n by omega]
      have hlast := ih (by omega)
      rw [if_neg (by omega)] at hlast
      exact congrArg (f n) hlast
    · rw [if_neg hb]
      by_cases hr : base ≤ b ∧ b < base + n
      · rw [if_pos hr, if_pos (by omega)]
      · rw [if_neg hr, if_neg (by omega)]

/-- The image after a range is erased. -/
theorem Chip.read_eraseRange :
    Memory.read 0xFF#8 (c.eraseRange base n).img b =
      if base ≤ b ∧ b < base + n then 0xFF#8 else Memory.read 0xFF#8 c.img b := Memory.read_clear

/-! ### What every access keeps -/

/-- Expiry at an unreached deadline, or outside the erase status, does nothing. -/
theorem Chip.expire_of_not (h : c.readMode ≠ .sectorEraseStatus ∨ reached now c.eraseDeadline = false) :
    c.expire now = c := by
  unfold Chip.expire
  rw [if_neg]
  rintro ⟨h1, h2⟩
  rcases h with h | h
  · exact h h1
  · simp [h2] at h

/-- Expiry at a reached deadline ends the erase status. -/
theorem Chip.expire_of (h : c.readMode = .sectorEraseStatus) (hr : reached now c.eraseDeadline = true) :
    c.expire now = { c with readMode := .normal, multiEraseOpen := false } := by
  unfold Chip.expire
  rw [if_pos ⟨h, hr⟩]

/-- Expiry twice is expiry once. -/
@[simp] theorem Chip.expire_expire : (c.expire now).expire now = c.expire now := by
  by_cases h : c.readMode = .sectorEraseStatus ∧ reached now c.eraseDeadline = true
  · rw [Chip.expire_of h.1 h.2, Chip.expire_of_not (.inl (by simp))]
  · rw [Chip.expire_of_not (c := c)]
    · rw [Chip.expire_of_not]
      by_cases h1 : c.readMode = .sectorEraseStatus
      · exact .inr (by simpa [h1] using h)
      · exact .inl h1
    · by_cases h1 : c.readMode = .sectorEraseStatus
      · exact .inr (by simpa [h1] using h)
      · exact .inl h1

theorem Chip.expire_mode (h : (c.expire now).readMode = .sectorEraseStatus) :
    c.readMode = .sectorEraseStatus ∧ reached now c.eraseDeadline = false ∧ c.expire now = c := by
  by_cases h1 : c.readMode = .sectorEraseStatus
  · cases hr : reached now c.eraseDeadline with
    | true => rw [Chip.expire_of h1 hr] at h; simp at h
    | false => exact ⟨h1, rfl, Chip.expire_of_not (.inr hr)⟩
  · rw [Chip.expire_of_not (.inl h1)] at h
    exact absurd h h1

/-- The close of an Atmel page keeps what it does not name. -/
theorem Chip.atmelClose_frame :
    (c.atmelClose draws).1.type = c.type ∧ (c.atmelClose draws).1.profile = c.profile ∧
      (c.atmelClose draws).1.buf = c.buf ∧ (c.atmelClose draws).1.readMode = c.readMode ∧
      (c.atmelClose draws).1.phase = c.phase ∧ (c.atmelClose draws).1.toggleBits = c.toggleBits ∧
      (c.atmelClose draws).1.wbBase = c.wbBase ∧ (c.atmelClose draws).1.atmelBase = c.atmelBase ∧
      (c.atmelClose draws).1.eraseDeadline = c.eraseDeadline ∧
      (c.atmelClose draws).1.multiEraseOpen = c.multiEraseOpen := by
  unfold Chip.atmelClose
  split <;> simp

/-! ### A row is the general access of its cycle

Whatever the state, a row's meaning is the general read or write of its cycle: where the row's condition holds the effects
agree, elsewhere the meaning is the general access by definition (assumption 12). -/

theorem execFlashReset1_eq : execFlashReset1 r a s = chipWrite r a 0xF0#8 s := by
  refine chipWriteRow_eq_chipWrite fun c _ h => ?_
  simp_all [Chip.inPhase, Chip.dispatch]

theorem execFlashUnlock1_eq : execFlashUnlock1 r a s = chipWrite r a 0xAA#8 s := by
  refine chipWriteRow_eq_chipWrite fun c _ h => ?_
  simp_all [Chip.inPhase, Chip.dispatch]

theorem execFlashUnlock2_eq : execFlashUnlock2 r a s = chipWrite r a 0x55#8 s := by
  refine chipWriteRow_eq_chipWrite fun c _ h => ?_
  simp_all [Chip.inPhase, Chip.dispatch]

theorem execFlashAutoselect_eq : execFlashAutoselect r a s = chipWrite r a 0x90#8 s := by
  refine chipWriteRow_eq_chipWrite fun c _ h => ?_
  simp_all [Chip.inPhase, Chip.dispatch, Chip.command]

theorem execFlashProgramSetup_eq : execFlashProgramSetup r a s = chipWrite r a 0xA0#8 s := by
  refine chipWriteRow_eq_chipWrite fun c _ h => ?_
  simp_all [Chip.inPhase, Chip.dispatch, Chip.command]

theorem execFlashAtmelSetup_eq : execFlashAtmelSetup r a s = chipWrite r a 0xA0#8 s := by
  refine chipWriteRow_eq_chipWrite fun c _ h => ?_
  simp_all [Chip.inPhase, Chip.dispatch, Chip.command]

theorem execFlashEraseSetup_eq : execFlashEraseSetup r a s = chipWrite r a 0x80#8 s := by
  refine chipWriteRow_eq_chipWrite fun c _ h => ?_
  simp_all [Chip.inPhase, Chip.dispatch, Chip.command]

theorem execFlashReset3_eq : execFlashReset3 r a s = chipWrite r a 0xF0#8 s := by
  refine chipWriteRow_eq_chipWrite fun c _ h => ?_
  simp_all [Chip.inPhase, Chip.dispatch, Chip.command]

theorem execFlashWbLoad_eq : execFlashWbLoad r a s = chipWrite r a 0x25#8 s := by
  refine chipWriteRow_eq_chipWrite fun c _ h => ?_
  simp_all [Chip.inPhase, Chip.dispatch, Chip.command]

theorem execFlashProgramData_eq : execFlashProgramData r a v s = chipWrite r a v s := by
  refine chipWriteRow_eq_chipWrite fun c _ h => ?_
  simp_all [Chip.inPhase, Chip.dispatch]

theorem execFlashEraseUnlock1_eq : execFlashEraseUnlock1 r a s = chipWrite r a 0xAA#8 s := by
  refine chipWriteRow_eq_chipWrite fun c _ h => ?_
  simp_all [Chip.inPhase, Chip.dispatch]

theorem execFlashEraseUnlock2_eq : execFlashEraseUnlock2 r a s = chipWrite r a 0x55#8 s := by
  refine chipWriteRow_eq_chipWrite fun c _ h => ?_
  simp_all [Chip.inPhase, Chip.dispatch]

theorem execFlashChipErase_eq : execFlashChipErase r a s = chipWrite r a 0x10#8 s := by
  refine chipWriteRow_eq_chipWrite fun c _ h => ?_
  simp_all [Chip.inPhase, Chip.dispatch]

theorem execFlashSectorErase_eq : execFlashSectorErase r a s = chipWrite r a 0x30#8 s := by
  refine chipWriteRow_eq_chipWrite fun c _ h => ?_
  simp_all [Chip.inPhase, Chip.dispatch]

theorem execFlashWbCount_eq : execFlashWbCount r a v s = chipWrite r a v s := by
  refine chipWriteRow_eq_chipWrite fun c _ h => ?_
  simp_all [Chip.inPhase, Chip.dispatch]

theorem execFlashWbData_eq : execFlashWbData r a v s = chipWrite r a v s := by
  refine chipWriteRow_eq_chipWrite fun c _ h => ?_
  simp_all [Chip.inPhase, Chip.dispatch]

theorem execFlashWbConfirm_eq : execFlashWbConfirm r a v s = chipWrite r a v s := by
  refine chipWriteRow_eq_chipWrite fun c _ h => ?_
  simp_all [Chip.inPhase, Chip.dispatch]

theorem execFlashAtmelData_eq : execFlashAtmelData r a v s = chipWrite r a v s := by
  refine chipWriteRow_eq_chipWrite fun c _ h => ?_
  simp_all [Chip.inPhase, Chip.dispatch]

theorem execFlashSectorEraseMore_eq : execFlashSectorEraseMore r a s = chipWrite r a 0x30#8 s := by
  refine chipWriteRow_eq_chipWrite fun c _ h => ?_
  simp_all [Chip.dispatch]

theorem Chip.abort_idle (h : c.phase = .idle) : c.abort draws = .quiet c draws := by
  unfold Chip.abort
  rw [← h]

theorem execFlashAbort_eq : execFlashAbort r a v s = chipWrite r a v s := by
  refine chipWriteRow_eq_chipWrite fun c _ h => ?_
  simp only [Bool.and_eq_true, decide_eq_true_eq, Bool.not_eq_true'] at h
  obtain ⟨h1, h2⟩ := h
  rw [Chip.dispatch, if_neg h1]
  cases hp : (c.expire s.now).phase <;> rw [Chip.accepts, hp] at h2 <;>
    simp only [Bool.or_eq_false_iff, Bool.and_eq_false_imp, beq_eq_false_iff_ne, beq_iff_eq, Bool.true_eq_false] at h2
  · rw [Chip.abort_idle hp, if_neg h2.1, if_neg (by simpa using h2.2)]
  · simp_all
  · obtain ⟨⟨h2, h3⟩, h4⟩ := h2
    unfold Chip.command
    by_cases hu : (c.expire s.now).u1 (a % c.profile.cap) = true
    · have h3 := h3 hu
      simp_all
    · simp_all
  · simp_all
  · simp_all
  · dsimp only
    rw [if_neg fun h => absurd h.2 (Bool.eq_false_iff.1 (h2.1 h.1)), if_neg fun h => absurd h.2 (Bool.eq_false_iff.1 (h2.2 h.1))]

theorem execFlashEraseStatusExit_eq : execFlashEraseStatusExit r a v s = chipWrite r a v s := by
  refine chipWriteRow_eq_chipWrite fun c _ h => ?_
  simp only [Bool.and_eq_true, decide_eq_true_eq, Bool.not_eq_true', Bool.and_eq_false_iff, beq_eq_false_iff_ne] at h
  rw [Chip.dispatch, if_pos h.1, if_neg]
  rintro ⟨h1, h2, h3⟩
  simp_all

/-- A read row whose effect is the read of its mode is the general read. -/
theorem chipReadRow_eq_chipRead {mode : ReadMode} {effect : Chip → Nat → ReadFx}
    (h : ∀ c : Chip, c.readMode = mode → ∀ a, effect c a = c.readByMode s.cfg a s.draws) :
    chipReadRow r a mode effect s = chipRead r a s := by
  cases hc : s.chipAt r with
  | none => simp [chipReadRow, chipRead, onChip, hc]
  | some c =>
    by_cases hp : c.phase ≠ .atmelPageLoad ∧ (c.expire s.now).readMode = mode
    · rw [chipReadRow_applies hc hp.1 hp.2, chipRead, onChip_of hc, h _ hp.2]
      simp only [Chip.read, Chip.beforeRead, if_neg hp.1, ReadFx.finish, hp.2]
    · rw [chipReadRow, chipRead, onChip_of hc, onChip_of hc, if_neg hp]

theorem execFlashReadNormal_eq : execFlashReadNormal r a s = chipRead r a s :=
  chipReadRow_eq_chipRead fun c h a => by simp [Chip.readByMode, h]

theorem execFlashReadAutoselect_eq : execFlashReadAutoselect r a s = chipRead r a s :=
  chipReadRow_eq_chipRead fun c h a => by simp [Chip.readByMode, h]

theorem execFlashReadWriteStatus_eq : execFlashReadWriteStatus r a s = chipRead r a s :=
  chipReadRow_eq_chipRead fun c h a => by simp [Chip.readByMode, h]

theorem execFlashReadEraseStatus_eq : execFlashReadEraseStatus r a s = chipRead r a s :=
  chipReadRow_eq_chipRead fun c h a => by simp [Chip.readByMode, h]

theorem execFlashAtmelClose_eq : execFlashAtmelClose r a s = chipRead r a s := by
  cases hc : s.chipAt r with
  | none => simp [execFlashAtmelClose, chipRead, onChip, hc]
  | some c =>
    rw [execFlashAtmelClose, chipRead, onChip_of hc, onChip_of hc]
    by_cases hp : c.phase = .atmelPageLoad
    · simp only [hp, if_true, Chip.read, Chip.beforeRead]
    · simp only [if_neg hp]

/-- A direct cycle does not see the address bits above the chip's capacity (R71). -/
theorem chipRead_mod (h : s.chipAt r = some c) : chipRead r (a % c.profile.cap) s = chipRead r a s := by
  rw [chipRead, chipRead, onChip_of h, onChip_of h]
  simp only [Chip.read, Nat.mod_mod]

theorem chipWrite_mod (h : s.chipAt r = some c) : chipWrite r (a % c.profile.cap) v s = chipWrite r a v s := by
  rw [chipWrite, chipWrite, onChip_of h, onChip_of h]
  simp only [Chip.write, Nat.mod_mod]

end Sys2Proof.Machine
end

