-- ==== Sys2Proof/Laws/Serial.lean ====
section
/-! SUPPORT. The bit-serial link and the opcode rows: which event each pattern of levels is, and that an opcode row is the
WriteState call that completes its byte. -/

namespace Sys2Proof.Machine

variable {s : State} {l : Link} {e : Eeprom} {r : Rtc} {ce clk d : Bool} {op : Byte}

/-- Chip enable falls: a deselection, whatever the clock does. -/
theorem Link.event_deselect (h : l.ce = true) : l.event false clk d = .deselect := by simp [Link.event, h]

/-- A call with chip enable false on a link that is not selected only records the levels. -/
theorem Link.event_unselected (h : l.ce = false) : l.event false clk d = .shift l := by simp [Link.event, h]

/-- A rising edge shifts the data bit in. -/
theorem Link.event_rise (h : l.clk = false) : l.event true true d = .shift (l.shiftIn d) := by simp [Link.event, h]

/-- A falling edge but the eighth shifts the next output bit out. -/
theorem Link.event_fall (h : l.clk = true) (hb : l.bitCount ≠ 7) : l.event true false d = .shift l.shiftOut := by
  simp [Link.event, h, hb]

/-- The eighth falling edge completes the byte. -/
theorem Link.event_byte (h : l.clk = true) (hb : l.bitCount = 7) : l.event true false d = .byte l.inShift := by
  simp [Link.event, h, hb]

/-- A call that changes neither level does nothing but record them. -/
theorem Link.event_level (h : l.clk = clk) : l.event true clk d = .shift l := by cases clk <;> simp [Link.event, h]

/-- What `completes` says. -/
theorem Link.completes_iff : l.completes op = true ↔ l.clk = true ∧ l.bitCount = 7 ∧ l.inShift = op := by
  simp [Link.completes, and_assoc]

/-- The link after a response is loaded and the levels are recorded. -/
theorem Link.load_record {resp : Byte} : (l.load resp).record true false = l.after resp := rfl

/-- The byte that completes is handed to the EEPROM's interpreter. -/
theorem Eeprom.writeState_byte (h : e.link.clk = true) (hb : e.link.bitCount = 7) :
    e.writeState true false d = Eeprom.respond (e.onNextByte e.link.inShift) := by
  rw [Eeprom.writeState, Link.event_byte h hb]

/-- The byte that completes is handed to the RTC's interpreter. -/
theorem Rtc.writeState_byte {t : HostTime} (h : r.link.clk = true) (hb : r.link.bitCount = 7) :
    r.writeState t true false d = Rtc.respond (r.onNextByte t r.link.inShift) := by
  rw [Rtc.writeState, Link.event_byte h hb]

/-- No EEPROM command touches the link. -/
theorem Eeprom.onNextByte_link {b : Byte} : (e.onNextByte b).2.link = e.link := by
  unfold Eeprom.onNextByte Eeprom.opcode Eeprom.writeStatus Eeprom.readNext Eeprom.writeByte Eeprom.wren Eeprom.wrdi
    Eeprom.rdsr Eeprom.wrsr Eeprom.readOp Eeprom.writeOp Eeprom.unknownOp
  repeat' split
  all_goals rfl

/-- An EEPROM opcode row is the WriteState call, when its effect is the opcode's. -/
theorem eeRow_eq {effect : Eeprom → Byte × Eeprom} (h : effect s.eeprom = s.eeprom.opcode op) :
    eeRow op effect s = execSerialWriteState .eeprom true false d s := by
  unfold eeRow execSerialWriteState writeState
  cases hc : s.eeprom.link.completes op && decide (s.eeprom.cmd = EeCmd.idle) with
  | false =>
    have hd : s.eeprom.writeState true false false = s.eeprom.writeState true false d := by
      unfold Eeprom.writeState Link.event
      cases s.eeprom.link.clk <;> simp
    simp [hd]
  | true =>
    simp only [Bool.and_eq_true, decide_eq_true_eq, Link.completes_iff] at hc
    obtain ⟨⟨h1, h2, h3⟩, h4⟩ := hc
    have hw : s.eeprom.writeState true false d = Eeprom.respond (s.eeprom.opcode op) := by
      rw [Eeprom.writeState_byte h1 h2, Eeprom.onNextByte, h4, h3]
    simp only [if_true, h, hw]

/-- An RTC opcode row is the WriteState call, when its effect is the opcode's. -/
theorem rtcRow_eq {effect : Rtc → Byte × Rtc} (h : effect s.rtc = s.rtc.opcode op) :
    rtcRow op effect s = execSerialWriteState .rtc true false d s := by
  unfold rtcRow execSerialWriteState writeState
  cases hc : s.rtc.link.completes op && decide (s.rtc.cmd = RtcCmd.idle) with
  | false =>
    have hd : s.rtc.writeState s.clock true false false = s.rtc.writeState s.clock true false d := by
      unfold Rtc.writeState Link.event
      cases s.rtc.link.clk <;> simp
    simp [hd]
  | true =>
    simp only [Bool.and_eq_true, decide_eq_true_eq, Link.completes_iff] at hc
    obtain ⟨⟨h1, h2, h3⟩, h4⟩ := hc
    have hw : s.rtc.writeState s.clock true false d = Rtc.respond (s.rtc.opcode op) := by
      rw [Rtc.writeState_byte h1 h2, Rtc.onNextByte, h4, h3]
    simp only [if_true, h, hw]

/-! ### A row is the WriteState call that completes its opcode (assumption 13) -/

theorem execEeWren_eq : execEeWren s = execSerialWriteState .eeprom true false d s := eeRow_eq (by rfl)

theorem execEeWrdi_eq : execEeWrdi s = execSerialWriteState .eeprom true false d s := eeRow_eq (by rfl)

theorem execEeRdsr_eq : execEeRdsr s = execSerialWriteState .eeprom true false d s := eeRow_eq (by rfl)

theorem execEeWrsr_eq : execEeWrsr s = execSerialWriteState .eeprom true false d s := eeRow_eq (by rfl)

theorem execEeRead_eq : execEeRead s = execSerialWriteState .eeprom true false d s := eeRow_eq (by rfl)

theorem execEeWrite_eq : execEeWrite s = execSerialWriteState .eeprom true false d s := eeRow_eq (by rfl)

theorem execRtcEeRead_eq : execRtcEeRead s = execSerialWriteState .rtc true false d s := rtcRow_eq (by rfl)

theorem execRtcEeWrite_eq : execRtcEeWrite s = execSerialWriteState .rtc true false d s := rtcRow_eq (by rfl)

theorem execRtcEeWrdi_eq : execRtcEeWrdi s = execSerialWriteState .rtc true false d s := rtcRow_eq (by rfl)

theorem execRtcEeWren_eq : execRtcEeWren s = execSerialWriteState .rtc true false d s := rtcRow_eq (by rfl)

theorem execRtcSrRead_eq : execRtcSrRead s = execSerialWriteState .rtc true false d s := rtcRow_eq (by rfl)

theorem execRtcSrWrite_eq : execRtcSrWrite s = execSerialWriteState .rtc true false d s := rtcRow_eq (by rfl)

theorem execRtcRead_eq : execRtcRead s = execSerialWriteState .rtc true false d s := rtcRow_eq (by rfl)

theorem execRtcWrite_eq : execRtcWrite s = execSerialWriteState .rtc true false d s := rtcRow_eq (by rfl)

theorem execRtcUnlock_eq : execRtcUnlock s = execSerialWriteState .rtc true false d s := rtcRow_eq (by rfl)

theorem execRtcIdWrite_eq : execRtcIdWrite s = execSerialWriteState .rtc true false d s := rtcRow_eq (by rfl)

theorem execRtcIdRead_eq : execRtcIdRead s = execSerialWriteState .rtc true false d s := rtcRow_eq (by rfl)

theorem execRtcClrRam_eq : execRtcClrRam s = execSerialWriteState .rtc true false d s := rtcRow_eq (by rfl)

theorem execEeUnknown_eq : execEeUnknown op s = execSerialWriteState .eeprom true false d s := by
  refine eeRow_eq ?_
  split
  · rfl
  · next h =>
    simp only [eeOpcodes, List.contains_cons, List.contains_nil, Bool.or_false, Bool.or_eq_true, beq_iff_eq, not_or] at h
    simp [Eeprom.opcode, h]

theorem execRtcUnknown_eq : execRtcUnknown op s = execSerialWriteState .rtc true false d s := by
  refine rtcRow_eq ?_
  split
  · rfl
  · next h =>
    simp only [rtcOpcodes, List.contains_cons, List.contains_nil, Bool.or_false, Bool.or_eq_true, beq_iff_eq, not_or] at h
    simp [Rtc.opcode, h]

end Sys2Proof.Machine
end

