-- ==== Sys2Proof/Laws/Sched.lean ====
section
/-! SUPPORT. What the queue operations and a handler's calls can do. -/

namespace Sys2Proof.Machine

variable {e f : Entry} {q : List Entry} {id : Int} {s t : State} {c : Call} {cs ds : List HandlerCall}

/-- An entry is inserted behind those it is not `before` and in front of the first it is (R211). -/
theorem insertEntry_split (e : Entry) (q : List Entry) :
    ∃ front back : List Entry, q = front ++ back ∧ insertEntry e q = front ++ e :: back ∧
      (∀ f ∈ front, before e.deadline f.deadline = false) ∧
      ∀ f, back.head? = some f → before e.deadline f.deadline = true := by
  induction q with
  | nil => exact ⟨[], [], rfl, rfl, nofun, nofun⟩
  | cons g q ih =>
    by_cases h : before e.deadline g.deadline = true
    · exact ⟨[], g :: q, rfl, by simp [insertEntry, h], nofun, by rintro f ⟨rfl⟩; exact h⟩
    · obtain ⟨front, back, rfl, hi, hf, hb⟩ := ih
      refine ⟨g :: front, back, rfl, by simp [insertEntry, h, hi], ?_, hb⟩
      intro f hm
      rcases List.mem_cons.1 hm with rfl | hm
      · simpa using h
      · exact hf f hm

/-- The entries after an insertion. -/
theorem mem_insertEntry : f ∈ insertEntry e q ↔ f = e ∨ f ∈ q := by
  obtain ⟨front, back, rfl, hi, -, -⟩ := insertEntry_split e q
  rw [hi]
  simp only [List.mem_append, List.mem_cons]
  tauto

/-- What is left of a queue without an id. -/
theorem mem_removeId : f ∈ removeId q id ↔ f ∈ q ∧ f.id ≠ id := by simp [removeId]

/-- A queue without an id keeps its ids apart. -/
theorem nodup_removeId (h : (q.map (fun e => e.id)).Nodup) : ((removeId q id).map (fun e => e.id)).Nodup :=
  h.sublist ((List.filter_sublist).map _)

/-- The ids stay apart when the new one replaces its own (R36). -/
theorem nodup_insert_removeId (h : (q.map (fun e => e.id)).Nodup) :
    ((insertEntry e (removeId q e.id)).map (fun e => e.id)).Nodup := by
  obtain ⟨front, back, hq, hi, -, -⟩ := insertEntry_split e (removeId q e.id)
  have h1 := nodup_removeId (id := e.id) h
  have h2 : e.id ∉ (removeId q e.id).map (fun e => e.id) := by
    intro hm
    obtain ⟨f, hf, hid⟩ := List.mem_map.1 hm
    exact (mem_removeId.1 hf).2 hid
  rw [hi]
  rw [hq] at h1 h2
  rw [List.map_append, List.map_cons, List.nodup_middle, List.nodup_cons, ← List.map_append]
  exact ⟨h2, h1⟩

/-- A handler's calls are made one list after the other (R214). -/
theorem runScript_append :
    runScript (cs ++ ds) s =
      match runScript cs s with
      | .next s' => runScript ds s'
      | .fault f => .fault f
      | .refused r => .refused r := by
  induction cs generalizing s with
  | nil => rfl
  | cons c cs ih =>
    simp only [List.cons_append, runScript]
    cases runNested c.call { s with clock := c.clock } with
    | next s' => exact ih
    | fault f => rfl
    | refused r => rfl

/-- Applying a layout touches the mapper and the outputs only. -/
@[simp] theorem State.applyLayout_sched : s.applyLayout.sched = s.sched := rfl

theorem windowRead_sched {d : Desc} {w : Win} {x : CpuAddr} : (windowRead d w x s).sched = s.sched := by
  unfold windowRead
  split
  · rfl
  · split <;> simp
  · rfl

theorem windowWrite_sched {d : Desc} {w : Win} {x : CpuAddr} {v : Byte} : (windowWrite d w x v s).sched = s.sched := by
  unfold windowWrite
  split
  · rfl
  · split
    · rfl
    · split <;> simp
    · rfl

theorem ctlWrite_sched {x : CpuAddr} {v : Byte} : (ctlWrite x v s).sched = s.sched := by
  unfold ctlWrite
  split
  · rfl
  · rfl
  · unfold theCartWrite
    split
    · split <;> rfl
    · split <;> rfl
  · split <;> rfl
  · rfl
  · rfl

theorem ctlRead_sched {x : CpuAddr} : (ctlRead x s).2.sched = s.sched := by
  unfold ctlRead
  split
  · rfl
  · rfl
  · rfl
  · rfl
  · dsimp only
    split <;> rfl
  · dsimp only
    split <;> rfl

theorem mapperReset_sched : (mapperReset s).sched = s.sched := rfl

/-- A CPU access does not touch the scheduler. -/
theorem runCpu_sched {x : CpuAddr} {v : Option Byte} (h : runCpu x v s = .next t) : t.sched = s.sched := by
  unfold runCpu at h
  split at h
  · cases v with
    | none =>
      simp only [execMapWinRead] at h
      split at h <;> cases h
      · exact windowRead_sched
      · rfl
    | some b =>
      simp only [execMapWinWrite] at h
      split at h <;> cases h
      · exact windowWrite_sched
      · rfl
  · split at h
    · rename_i hp
      cases v with
      | none =>
        simp only [execMapCtlRead, if_pos hp] at h
        split at h <;> injection h with h <;> subst h <;> exact ctlRead_sched
      | some b =>
        simp only [execMapCtlWrite, if_pos hp] at h
        injection h with h
        subst h
        exact ctlWrite_sched
    · cases h; rfl

/-- No call a handler makes ends the handler (R213). -/
theorem runNested_inHandler (h : runNested c s = .next t) : t.sched.inHandler = s.sched.inHandler := by
  cases c with
  | chip r a v =>
    cases v with
    | none =>
      obtain ⟨c, -, rfl⟩ := onChip_next (show chipRead r a s = .next t from h)
      simp [State.chipDone]
    | some b =>
      obtain ⟨c, -, rfl⟩ := onChip_next (show chipWrite r a b s = .next t from h)
      simp [State.chipDone]
  | cpu x v => rw [runCpu_sched h]
  | wire dev ce clk data => cases h; cases dev <;> rfl
  | host g =>
    cases g with
    | schedCheck => cases h
    | readState dev | eeSave | eeColdReset | rtcSave | rtcColdReset | mapColdReset => cases h; rfl
    | flashColdReset r =>
      simp only [runNested, runNestedHost, execFlashColdReset] at h
      split at h <;> cases h
      simp
    | eeLoad mem bp =>
      simp only [runNested, runNestedHost, execEeLoad] at h
      split at h <;> cases h
      rfl
    | rtcLoad ram ee id bp =>
      simp only [runNested, runNestedHost, execRtcLoad] at h
      split at h <;> cases h
      rfl
    | schedDelete id =>
      simp only [runNested, runNestedHost, execSchedDelete] at h
      split at h <;> cases h
      rfl
    | schedAdd id delta handler =>
      simp only [runNested, runNestedHost, execSchedAdd] at h
      split at h
      · cases h
      · split at h <;> cases h
        rfl
    | flashInit allocOk buffer type =>
      simp only [runNested, runNestedHost, execFlashInit] at h
      split at h
      · cases h
      · split at h
        · cases h
        · split at h <;> cases h
          rfl
    | mapInit allocOk type image sizeKB =>
      simp only [runNested, runNestedHost, execMapInit] at h
      split at h
      · cases h
      · split at h
        · cases h
        · split at h <;> cases h
          rfl

/-- No list of a handler's calls ends the handler. -/
theorem runScript_inHandler (h : runScript cs s = .next t) : t.sched.inHandler = s.sched.inHandler := by
  induction cs generalizing s with
  | nil => cases h; rfl
  | cons c cs ih =>
    simp only [runScript] at h
    split at h
    · rename_i s' hs
      rw [ih h, runNested_inHandler hs]
    · cases h
    · cases h

end Sys2Proof.Machine
end

