-- ==== Sys2Proof/Laws/Mapper.lean ====
section
/-! SUPPORT. What the mapper's shared operations can do: bank arithmetic, derived windows, the install protocol. -/

namespace Sys2Proof.Machine

variable {s : State} {m : Mapper} {c : Chip} {d : Desc} {p : Params}

/-- A power-of-two bank count masks a bank to its remainder (R336). -/
theorem maskBank_pow (b k : Nat) : maskBank b (2 ^ k) = b % 2 ^ k := Nat.and_two_pow_sub_one_eq_mod b k

theorem maskBank_32 (b : Nat) : maskBank b 32 = b % 32 := maskBank_pow b 5

/-- A masked bank is a bank there is, when there is any. -/
theorem maskBank_lt {b n : Nat} (h : 0 < n) : maskBank b n < n := by
  have := Nat.and_le_right (n := b) (m := n - 1)
  unfold maskBank
  omega

/-- The size of chip 0 as a source (R332). -/
theorem Mapper.sourceSize_flash {k : Nat} (h : m.chips[k]? = some c) : m.sourceSize (.flash k) = c.profile.cap := by
  simp [Mapper.sourceSize, h]

/-- A chip that is not there has no size. -/
theorem Mapper.sourceSize_pos {k : Nat} (h : 0 < m.sourceSize (.flash k)) :
    ∃ c, m.chips[k]? = some c ∧ m.sourceSize (.flash k) = c.profile.cap := by
  cases hc : m.chips[k]? with
  | none => simp [Mapper.sourceSize, hc] at h
  | some c => exact ⟨c, rfl, Mapper.sourceSize_flash hc⟩

/-- A checked descriptor is the disabled one, or itself with both windows inside (R332, R337). -/
theorem Mapper.checked_cases (m : Mapper) (d : Desc) :
    m.checked d = Desc.disabled ∨
    (m.checked d = d ∧ d.readSrc ≠ .none ∧ m.fits d.readSrc d.base = true ∧ m.fits d.writeDst d.writeBase = true) := by
  unfold Mapper.checked
  split
  · rename_i h
    exact .inr ⟨rfl, h⟩
  · exact .inl rfl

/-- What fits: nothing, or an aligned window that lies in the source (R332). -/
theorem Mapper.fits_iff {src : Source} {base : Nat} :
    m.fits src base = true ↔ src = .none ∨ (base + 0x1FFF < m.sourceSize src ∧ base % 0x2000 = 0) := by
  simp [Mapper.fits]

/-- A bank of 8 KB multiples lies in its source. -/
theorem Mapper.fits_bankBase {src : Source} {bank size off n : Nat} (hs : m.sourceSize src = n * size)
    (hn : 0 < n) (h8 : size % 0x2000 = 0) (ho : off % 0x2000 = 0) (hoff : off + 0x2000 ≤ size) :
    m.bankBase src bank size off = maskBank bank n * size + off ∧ m.fits src (m.bankBase src bank size off) = true := by
  have hb : m.bankBase src bank size off = maskBank bank n * size + off := by
    rw [Mapper.bankBase, hs, Nat.mul_div_cancel n (by omega)]
  refine ⟨hb, Mapper.fits_iff.2 (.inr ?_)⟩
  have hlt := maskBank_lt (b := bank) hn
  have h1 : (maskBank bank n + 1) * size ≤ n * size := Nat.mul_le_mul_right _ hlt
  have h2 : maskBank bank n * size % 0x2000 = 0 := by
    rw [Nat.mul_mod, h8, Nat.mul_zero, Nat.zero_mod]
  rw [hb, hs]
  constructor
  · rw [Nat.add_mul] at h1
    omega
  · omega

/-- The window on chip 0 in full banks of a chip that is a power of two of them. -/
theorem Mapper.flashWindow_eq {dst : Source} {bank size off k : Nat} (hc : m.chips[0]? = some c)
    (hcap : c.profile.cap = 2 ^ k * size) (h8 : size % 0x2000 = 0) (ho : off % 0x2000 = 0) (hoff : off + 0x2000 ≤ size)
    (hd : dst = .none ∨ dst = .flash 0) :
    m.flashWindow dst bank size off =
      { readSrc := .flash 0, writeDst := dst
        base := bank % 2 ^ k * size + off, writeBase := bank % 2 ^ k * size + off } := by
  obtain ⟨hb, hf⟩ := Mapper.fits_bankBase (bank := bank) ((Mapper.sourceSize_flash hc).trans hcap) (by positivity) h8 ho hoff
  rw [maskBank_pow] at hb
  rw [hb] at hf
  have hd' : m.fits dst (bank % 2 ^ k * size + off) = true := by
    rcases hd with rfl | rfl
    · simp [Mapper.fits]
    · exact hf
  simp only [Mapper.flashWindow, hb, Mapper.checked]
  rw [if_pos ⟨by simp, hf, hd'⟩]

/-! ### Bit fields and register maps -/

/-- A bit of a bit field. -/
theorem getLsbD_bitField (v : BitVec 16) (lo width i : Nat) :
    (bitField v lo width).getLsbD i = (v.getLsbD (lo + i) && decide (i < width)) := by
  by_cases h : lo + i < 16
  · simp only [bitField, BitVec.getLsbD_and, BitVec.getLsbD_ushiftRight, BitVec.getLsbD_ofNat,
      Nat.testBit_two_pow_sub_one, show i < 16 by omega, decide_true, Bool.true_and]
  · simp [bitField, BitVec.getLsbD_of_ge v (lo + i) (by omega)]

/-- A bit of a value with a bit field replaced. -/
theorem getLsbD_setBitField (old v : BitVec 16) (lo width i : Nat) (hi : i < 16) :
    (setBitField old v lo width).getLsbD i =
      if lo ≤ i ∧ i < lo + width then v.getLsbD (i - lo) else old.getLsbD i := by
  simp only [setBitField, BitVec.getLsbD_or, BitVec.getLsbD_and, BitVec.getLsbD_not, BitVec.getLsbD_shiftLeft,
    BitVec.getLsbD_ofNat, Nat.testBit_two_pow_sub_one]
  by_cases h1 : lo ≤ i
  · by_cases h2 : i < lo + width
    · simp [h1, h2, hi, show ¬ i < lo by omega, show i - lo < width by omega, show i - lo < 16 by omega]
    · simp [h1, h2, hi, show ¬ i - lo < width by omega]
  · simp [h1, hi, show i < lo by omega]

/-- Every byte lies in the whole control page. -/
theorem rangeHas_all (off : Byte) : rangeHas { first := 0x00#8, last := 0xFF#8 } off = true := by
  have := off.isLt
  simp [rangeHas, show off.toNat ≤ 255 by omega]

/-- The default MegaCart map: every control write sets the bank (R342). -/
theorem megaBank_default (off bank v : Byte) : megaBank megaCartDefault off bank v = v := by
  simp only [megaBank, megaRegisterAt, megaCartDefault, List.find?, rangeHas_all, megaPut, List.foldl]
  ext i hi
  simp only [BitVec.getElem_setWidth, getLsbD_setBitField _ _ _ _ _ (show i < 16 by omega), getLsbD_bitField]
  rw [if_pos (by omega)]
  simp [show i < 16 by omega, hi]

/-- The default MegaCart map: every control read gives 0xFF (R342). -/
theorem megaByte_default (off bank : Byte) : megaByte megaCartDefault off bank = 0xFF#8 := by
  simp [megaByte, megaRegisterAt, megaCartDefault, rangeHas_all, noData]

/-- The bank of the default SIC! map: bits 4:0 of the register (R360). -/
theorem sicBank_default (reg : Byte) :
    (bitField (reg.setWidth 16) sicDefault.bankBit sicDefault.bankWidth).toNat = reg.toNat % 32 := by
  have h := Nat.and_two_pow_sub_one_eq_mod reg.toNat 5
  have := reg.isLt
  simp only [bitField, sicDefault, BitVec.ushiftRight_zero, BitVec.toNat_and, BitVec.toNat_setWidth, BitVec.toNat_ofNat]
  rw [Nat.mod_eq_of_lt (by omega)]
  exact h

/-! ### The native registers of TheCart -/

/-- A field has no bit at or above its width. -/
theorem tcGet_high {g : TcRegs} {f : TcField} {i : Nat} (h : tcWidth f ≤ i) : (tcGet g f).getLsbD i = false := by
  cases f <;> simp only [tcWidth] at h <;>
    simp only [tcGet, BitVec.getLsbD_setWidth, Bool.and_eq_false_iff] <;>
    first | exact BitVec.getLsbD_of_ge _ _ h | exact .inr (BitVec.getLsbD_of_ge _ _ h)

/-- A field that is set holds the bits it has room for. -/
theorem tcGet_tcPut_same {g : TcRegs} {f : TcField} {v : BitVec 16} {i : Nat} (h : i < tcWidth f) :
    (tcGet (tcPut g f v) f).getLsbD i = v.getLsbD i := by
  cases f <;> simp only [tcWidth] at h <;> simp only [tcGet, tcPut, BitVec.getLsbD_setWidth] <;>
    first
      | rfl
      | (rw [Nat.lt_one_iff.1 h]
         simp)
      | simp [h, Nat.lt_trans h (show 8 < 16 by decide)]

/-- A field that is set leaves the others. -/
theorem tcGet_tcPut_ne {g : TcRegs} {f f' : TcField} {v : BitVec 16} (h : f' ≠ f) : tcGet (tcPut g f v) f' = tcGet g f' := by
  cases f <;> cases f' <;> first | exact absurd rfl h | rfl

/-- What one slice of a written byte does to a bit of a field. -/
theorem tcPut_slice {g : TcRegs} {f : TcField} {sl : TcSlice} {v : Byte} {i : Nat} :
    (tcGet (tcPut g sl.field
      (setBitField (tcGet g sl.field) (bitField (v.setWidth 16) sl.bit sl.width) sl.pos sl.width)) f).getLsbD i =
      if f = sl.field ∧ i < tcWidth f ∧ sl.pos ≤ i ∧ i < sl.pos + sl.width then v.getLsbD (sl.bit + (i - sl.pos))
      else (tcGet g f).getLsbD i := by
  by_cases hf : f = sl.field
  · subst hf
    by_cases hi : i < tcWidth sl.field
    · have h16 : i < 16 := by
        have h : tcWidth sl.field ≤ 16 := by cases sl.field <;> decide
        omega
      rw [tcGet_tcPut_same hi, getLsbD_setBitField _ _ _ _ _ h16]
      by_cases hr : sl.pos ≤ i ∧ i < sl.pos + sl.width
      · rw [if_pos hr, if_pos ⟨rfl, hi, hr⟩, getLsbD_bitField, BitVec.getLsbD_setWidth]
        by_cases hb : sl.bit + (i - sl.pos) < 16
        · simp [hb, show i - sl.pos < sl.width by omega]
        · simp [hb, BitVec.getLsbD_of_ge v (sl.bit + (i - sl.pos)) (by omega)]
      · rw [if_neg hr, if_neg (fun h => hr h.2.2)]
    · rw [tcGet_high (by omega), if_neg (fun h => hi h.2.1), tcGet_high (by omega)]
  · rw [tcGet_tcPut_ne hf, if_neg (fun h => hf h.1)]

/-- A bit no slice covers keeps its value. -/
theorem tcWrite_uncovered {g : TcRegs} {r : TcRegister} {v : Byte} {f : TcField} {i : Nat}
    (h : ∀ sl ∈ r.slices, sl.field = f → i < sl.pos ∨ sl.pos + sl.width ≤ i) :
    (tcGet (tcWrite g r v) f).getLsbD i = (tcGet g f).getLsbD i := by
  unfold tcWrite
  generalize r.slices = slices at h
  induction slices generalizing g with
  | nil => rfl
  | cons sl slices ih =>
    rw [List.foldl_cons, ih fun y hy => h y (List.mem_cons_of_mem _ hy), tcPut_slice, if_neg]
    rintro ⟨rfl, -, h1, h2⟩
    rcases h sl (List.mem_cons_self ..) rfl with h3 | h3 <;> omega

/-- A bit takes the written bit of the last slice that covers it (assumption 18). -/
theorem tcWrite_covered {g : TcRegs} {r : TcRegister} {v : Byte} {sl : TcSlice} {before after : List TcSlice} {i : Nat}
    (hs : r.slices = before ++ sl :: after) (hi : i < tcWidth sl.field) (hd : decidesField sl after i) :
    (tcGet (tcWrite g r v) sl.field).getLsbD i = v.getLsbD (sl.bit + (i - sl.pos)) := by
  rw [tcWrite, hs, List.foldl_append, List.foldl_cons]
  refine (tcWrite_uncovered (r := { r with slices := after }) hd.2).trans ?_
  rw [tcPut_slice, if_pos ⟨rfl, hi, hd.1⟩]

/-- A bit of a read that no slice drives is the pad's. -/
theorem tcRead_uncovered {g : TcRegs} {slices : List TcSlice} {w : BitVec 16} {i : Nat} (hi : i < 16)
    (h : ∀ sl ∈ slices, i < sl.bit ∨ sl.bit + sl.width ≤ i) :
    (slices.foldl (fun v sl => setBitField v (bitField (tcGet g sl.field) sl.pos sl.width) sl.bit sl.width) w).getLsbD i =
      w.getLsbD i := by
  induction slices generalizing w with
  | nil => rfl
  | cons sl slices ih =>
    rw [List.foldl_cons, ih fun y hy => h y (List.mem_cons_of_mem _ hy), getLsbD_setBitField _ _ _ _ _ hi, if_neg]
    rcases h sl (List.mem_cons_self ..) with h3 | h3 <;> omega

/-- A bit of a read is that of the last slice that drives it (assumption 18). -/
theorem tcRead_covered {g : TcRegs} {r : TcRegister} {sl : TcSlice} {before after : List TcSlice} {i : Nat}
    (hs : r.slices = before ++ sl :: after) (hi : i < 8) (hd : decidesByte sl after i) :
    (tcRead g r).getLsbD i = (tcGet g sl.field).getLsbD (sl.pos + (i - sl.bit)) := by
  rw [tcRead, hs, BitVec.getLsbD_setWidth, List.foldl_append, List.foldl_cons, tcRead_uncovered (by omega) hd.2,
    getLsbD_setBitField _ _ _ _ _ (by omega), if_pos hd.1, getLsbD_bitField]
  obtain ⟨⟨h1, h2⟩, -⟩ := hd
  simp [hi, show i - sl.bit < sl.width by omega]

/-- The layout is a function of the type, the registers and the sizes of the sources: an access to a chip leaves it. -/
theorem Mapper.layout_congr {m' : Mapper} (ht : m'.type = m.type) (hr : m'.regs = m.regs)
    (hs : ∀ src, m'.sourceSize src = m.sourceSize src) : m'.layout p = m.layout p := by
  have hb : ∀ src bank size off, m'.bankBase src bank size off = m.bankBase src bank size off := by
    intro src bank size off
    simp only [Mapper.bankBase, hs]
  have hf : ∀ src base, m'.fits src base = m.fits src base := by
    intro src base
    simp only [Mapper.fits, hs]
  have hk : ∀ d, m'.checked d = m.checked d := by
    intro d
    simp only [Mapper.checked, hf]
  simp only [Mapper.layout, ht, Mapper.megaLayout, Mapper.theCartLayout, Mapper.sicLayout, Mapper.sicWindow,
    Mapper.maxLayout, hr, Mapper.flashWindow, Mapper.theCartWindow, hb, hk]

/-- What is installed has no part in the layout. -/
@[simp] theorem Mapper.layout_installed (l : Option Layout) : Mapper.layout { m with installed := l } p = m.layout p :=
  Mapper.layout_congr rfl rfl fun _ => rfl

/-- What `Apply` leaves: the derived layout installed, the calls of the windows that changed made, nothing else (R335). -/
theorem State.applyLayout_eq :
    s.applyLayout =
      { s with
        mapper := { s.mapper with installed := some (s.mapper.layout s.cfg) }
        out := { s.out with
          calls := s.out.calls ++
            (windowCalls s.mapper.installed (s.mapper.layout s.cfg) .w809f ++
              windowCalls s.mapper.installed (s.mapper.layout s.cfg) .wa0bf) } } := rfl

/-- A window whose descriptor of R53 is the installed one is not installed again, whatever its write base (R335, R346). -/
theorem windowCalls_same {old new : Layout} {w : Win} (h : (old.desc w).triple = (new.desc w).triple) :
    windowCalls (some old) new w = [] := if_pos (congrArg some h)

/-- `Apply` of the layout that is installed calls the memory layer not at all (R335, R346). -/
theorem State.applyLayout_self (h : s.mapper.installed = some (s.mapper.layout s.cfg)) : s.applyLayout = s := by
  have hw : ∀ w, windowCalls s.mapper.installed (s.mapper.layout s.cfg) w = [] := by
    intro w
    rw [h]
    exact windowCalls_same rfl
  rw [State.applyLayout_eq, hw, hw, ← h]
  simp

/-- The calls `Apply` makes, as R335 lists them. -/
theorem windowCalls_eq (old : Option Layout) (new : Layout) :
    windowCalls old new .w809f ++ windowCalls old new .wa0bf = applyCalls old new := rfl

/-- The calls that install a window: one disable, or the three calls of R335. -/
theorem installCalls_cases (w : Win) (d : Desc) :
    (d.readSrc = .none ∧ installCalls w d = [.cartDisable w]) ∨
    (d.readSrc ≠ .none ∧
      installCalls w d = [.setFlashRoutines w, .setFlash w.start (w.start + 0x1FFF), .cartEnable w]) := by
  unfold installCalls
  split
  · exact .inl ⟨‹_›, rfl⟩
  · exact .inr ⟨‹_›, rfl⟩

/-- A MaxFlash access changes at most the bank and the enable (R361). -/
theorem Mapper.maxAccess_frame (r : MaxMap) (x : CpuAddr) (m : Mapper) :
    ∃ bank enabled, m.maxAccess r x = { m with regs := { m.regs with bank := bank, enabled := enabled } } := by
  unfold Mapper.maxAccess
  dsimp only
  split
  · exact ⟨_, _, rfl⟩
  · split
    · exact ⟨_, _, rfl⟩
    · exact ⟨_, _, rfl⟩

/-- The test of MAP_CTL_READ is R339's: the registers changed. -/
theorem readChanged_ctlRead (x : CpuAddr) (s : State) :
    readChanged s.mapper.regs (ctlRead x s).2.mapper.regs = true ↔ (ctlRead x s).2.mapper.regs ≠ s.mapper.regs := by
  have h : ∃ bank enabled, (ctlRead x s).2.mapper.regs = { s.mapper.regs with bank := bank, enabled := enabled } := by
    unfold ctlRead
    split
    · exact ⟨_, _, rfl⟩
    · exact ⟨_, _, rfl⟩
    · exact ⟨_, _, rfl⟩
    · exact ⟨_, _, rfl⟩
    · dsimp only
      split
      · obtain ⟨bank, enabled, h⟩ := Mapper.maxAccess_frame (maxMapOf s.cfg s.mapper.type) x s.mapper
        exact ⟨bank, enabled, by rw [h]⟩
      · exact ⟨_, _, rfl⟩
    · dsimp only
      split
      · obtain ⟨bank, enabled, h⟩ := Mapper.maxAccess_frame (maxMapOf s.cfg s.mapper.type) x s.mapper
        exact ⟨bank, enabled, by rw [h]⟩
      · exact ⟨_, _, rfl⟩
  obtain ⟨bank, enabled, h⟩ := h
  rw [h]
  obtain ⟨b, e, c, d⟩ := s.mapper.regs
  simp only [readChanged, ne_eq, MapRegs.mk.injEq, and_true, Bool.or_eq_true, bne_iff_ne]
  tauto

/-- A control write changes the registers, the table and, through TheCart's serial register, the EEPROM; nothing else. -/
theorem ctlWrite_frame (x : CpuAddr) (v : Byte) (s : State) :
    ∃ regs table eeprom,
      ctlWrite x v s = { s with mapper := { s.mapper with regs := regs, table := table }, eeprom := eeprom } := by
  unfold ctlWrite
  split
  · exact ⟨_, _, _, rfl⟩
  · exact ⟨_, _, _, rfl⟩
  · unfold theCartWrite
    split
    · split
      · exact ⟨_, _, _, rfl⟩
      · exact ⟨_, _, _, rfl⟩
    · split
      · unfold Mapper.nativeWrite
        split
        · exact ⟨_, _, _, rfl⟩
        · exact ⟨_, _, _, rfl⟩
      · unfold Mapper.legacyWrite
        split
        · exact ⟨_, _, _, rfl⟩
        · exact ⟨_, _, _, rfl⟩
  · split
    · exact ⟨_, _, _, rfl⟩
    · exact ⟨_, _, _, rfl⟩
  · obtain ⟨bank, enabled, h⟩ := Mapper.maxAccess_frame (maxMapOf s.cfg s.mapper.type) x s.mapper
    exact ⟨_, s.mapper.table, s.eeprom, by rw [h]⟩
  · obtain ⟨bank, enabled, h⟩ := Mapper.maxAccess_frame (maxMapOf s.cfg s.mapper.type) x s.mapper
    exact ⟨_, s.mapper.table, s.eeprom, by rw [h]⟩

/-- A control read changes at most the registers and the draw counter. -/
theorem ctlRead_frame (x : CpuAddr) (s : State) :
    ∃ regs draws, (ctlRead x s).2 = { s with mapper := { s.mapper with regs := regs }, draws := draws } := by
  unfold ctlRead
  split
  · exact ⟨_, _, rfl⟩
  · exact ⟨_, _, rfl⟩
  · exact ⟨_, _, rfl⟩
  · exact ⟨_, _, rfl⟩
  · dsimp only
    split
    · obtain ⟨bank, enabled, h⟩ := Mapper.maxAccess_frame (maxMapOf s.cfg s.mapper.type) x s.mapper
      exact ⟨_, s.draws + 1, by rw [h]⟩
    · exact ⟨_, _, rfl⟩
  · dsimp only
    split
    · obtain ⟨bank, enabled, h⟩ := Mapper.maxAccess_frame (maxMapOf s.cfg s.mapper.type) x s.mapper
      exact ⟨_, s.draws + 1, by rw [h]⟩
    · exact ⟨_, _, rfl⟩

end Sys2Proof.Machine
end

