-- ==== Sys2Proof/Laws/PerInstr.lean ====
section
/-! SUPPORT. The statement made per instruction: the fetch record of a well-formed instruction is in its row's format and
matches the row's `mask` and `match` in spec/opcode_table.json (R117). -/

namespace Sys2Proof.Laws

open Sys2Proof.Machine

/-- The format, mask and match of a row of the opcode table. An interface call has neither mask nor match. -/
inductive Row where
  | flash (mask value : BitVec 16)
  | opcode (dev : Dev) (mask value : Byte)
  | cpu (mask value : BitVec 16)
  | interface
deriving DecidableEq, Repr

/-- The rows, transcribed from spec/opcode_table.json in its order. -/
def rowOf : Instr → Row
  | .flashReadNormal _ _ => .flash 0xD000#16 0x0000#16
  | .flashReadAutoselect _ _ => .flash 0xD000#16 0x4000#16
  | .flashReadWriteStatus _ _ => .flash 0xD000#16 0x8000#16
  | .flashReadEraseStatus _ _ => .flash 0xD000#16 0xC000#16
  | .flashAtmelClose _ _ => .flash 0x1F00#16 0x0A00#16
  | .flashReset1 _ _ => .flash 0x1FFF#16 0x10F0#16
  | .flashUnlock1 _ _ => .flash 0x1FFF#16 0x10AA#16
  | .flashUnlock2 _ _ => .flash 0x1FFF#16 0x1155#16
  | .flashAutoselect _ _ => .flash 0x1FFF#16 0x1290#16
  | .flashProgramSetup _ _ => .flash 0x1FFF#16 0x12A0#16
  | .flashAtmelSetup _ _ => .flash 0x1FFF#16 0x12A0#16
  | .flashEraseSetup _ _ => .flash 0x1FFF#16 0x1280#16
  | .flashReset3 _ _ => .flash 0x1FFF#16 0x12F0#16
  | .flashWbLoad _ _ => .flash 0x1FFF#16 0x1225#16
  | .flashProgramData _ _ _ => .flash 0x1F00#16 0x1300#16
  | .flashEraseUnlock1 _ _ => .flash 0x1FFF#16 0x14AA#16
  | .flashEraseUnlock2 _ _ => .flash 0x1FFF#16 0x1555#16
  | .flashChipErase _ _ => .flash 0x1FFF#16 0x1610#16
  | .flashSectorErase _ _ => .flash 0x1FFF#16 0x1630#16
  | .flashWbCount _ _ _ => .flash 0x1F00#16 0x1700#16
  | .flashWbData _ _ _ => .flash 0x1F00#16 0x1800#16
  | .flashWbConfirm _ _ _ => .flash 0x1F00#16 0x1900#16
  | .flashAtmelData _ _ _ => .flash 0x1F00#16 0x1A00#16
  | .flashAbort _ _ _ => .flash 0x1000#16 0x1000#16
  | .flashSectorEraseMore _ _ => .flash 0xD0FF#16 0xD030#16
  | .flashEraseStatusExit _ _ _ => .flash 0xD000#16 0xD000#16
  | .flashInit _ _ _ => .interface
  | .flashColdReset _ => .interface
  | .serialWriteState _ _ _ _ => .interface
  | .serialReadState _ => .interface
  | .eeWren => .opcode .eeprom 0xFF#8 0x06#8
  | .eeWrdi => .opcode .eeprom 0xFF#8 0x04#8
  | .eeRdsr => .opcode .eeprom 0xFF#8 0x05#8
  | .eeWrsr => .opcode .eeprom 0xFF#8 0x01#8
  | .eeRead => .opcode .eeprom 0xFF#8 0x03#8
  | .eeWrite => .opcode .eeprom 0xFF#8 0x02#8
  | .eeUnknown _ => .opcode .eeprom 0x00#8 0x00#8
  | .eeLoad _ _ => .interface
  | .eeSave => .interface
  | .eeColdReset => .interface
  | .rtcEeRead => .opcode .rtc 0xFF#8 0x03#8
  | .rtcEeWrite => .opcode .rtc 0xFF#8 0x02#8
  | .rtcEeWrdi => .opcode .rtc 0xFF#8 0x04#8
  | .rtcEeWren => .opcode .rtc 0xFF#8 0x06#8
  | .rtcSrRead => .opcode .rtc 0xFF#8 0x05#8
  | .rtcSrWrite => .opcode .rtc 0xFF#8 0x01#8
  | .rtcRead => .opcode .rtc 0xFF#8 0x13#8
  | .rtcWrite => .opcode .rtc 0xFF#8 0x12#8
  | .rtcUnlock => .opcode .rtc 0xFF#8 0x14#8
  | .rtcIdWrite => .opcode .rtc 0xFF#8 0x32#8
  | .rtcIdRead => .opcode .rtc 0xFF#8 0x33#8
  | .rtcClrRam => .opcode .rtc 0xFF#8 0x54#8
  | .rtcUnknown _ => .opcode .rtc 0x00#8 0x00#8
  | .rtcLoad _ _ _ _ => .interface
  | .rtcSave => .interface
  | .rtcColdReset => .interface
  | .schedAdd _ _ _ => .interface
  | .schedDelete _ => .interface
  | .schedCheck _ => .interface
  | .mapWinRead _ => .cpu 0xC000#16 0x8000#16
  | .mapWinWrite _ _ => .cpu 0xC000#16 0x8000#16
  | .mapCtlRead _ => .cpu 0xFF00#16 0xD500#16
  | .mapCtlWrite _ _ => .cpu 0xFF00#16 0xD500#16
  | .mapColdReset => .interface
  | .mapInit _ _ _ _ => .interface

/-- A fetch record matches a row. -/
def rowMatches : Row → Fetched → Prop
  | .flash mask value, .flashCycle _ key _ => key &&& mask = value
  | .opcode dev mask value, .serialOpcode d op => d = dev ∧ op &&& mask = value
  | .cpu mask value, .cpuCycle x _ => x &&& mask = value
  | .interface, .interface _ _ => True
  | .interface, .wire _ _ _ _ => True
  | _, _ => False

/-- The encoding of a well-formed instruction matches its row; the control page is the table's `$D5`. -/
def KeyMatches.Statement (i : Instr) : Prop :=
  ∀ x : DecodeCtx, x.ctlPage = 0xD5#8 → wellFormed x i = true → rowMatches (rowOf i) (encode x i)

/-- A write key at a phase and a byte matches the phase and write bits (R117). -/
theorem writeKey_phase (v : Byte) :
    flashKey 0 true 3 v &&& 0x1F00#16 = 0x1300#16 ∧ flashKey 0 true 7 v &&& 0x1F00#16 = 0x1700#16 ∧
    flashKey 0 true 8 v &&& 0x1F00#16 = 0x1800#16 ∧ flashKey 0 true 9 v &&& 0x1F00#16 = 0x1900#16 ∧
    flashKey 0 true 10 v &&& 0x1F00#16 = 0x1A00#16 ∧ flashKey 0 true 0 v &&& 0x1000#16 = 0x1000#16 ∧
    flashKey 0 true 1 v &&& 0x1000#16 = 0x1000#16 ∧ flashKey 3 true 0 v &&& 0xD000#16 = 0xD000#16 := by
  revert v; decide +kernel

/-- An address of a window has bits 15:14 equal to `10` (row MAP_WIN_READ). -/
theorem windowOf_bits {x : CpuAddr} (h : (windowOf x).isSome = true) : x &&& 0xC000#16 = 0x8000#16 := by
  have h2 : 0x8000 ≤ x.toNat ∧ x.toNat < 0xC000 := by
    unfold windowOf at h
    split at h
    · omega
    · split at h
      · omega
      · cases h
  have h3 : x &&& 0xC000#16 = (x >>> 14) <<< 14 := by
    apply BitVec.eq_of_getLsbD_eq
    intro i hi
    interval_cases i <;> simp
  rw [h3]
  apply BitVec.eq_of_toNat_eq
  simp [BitVec.toNat_shiftLeft, Nat.shiftRight_eq_div_pow, Nat.shiftLeft_eq]
  omega

/-- An address of the control page has the page in its high byte (R72). -/
theorem inCtlPage_bits {x : CpuAddr} (h : inCtlPage 0xD5#8 x = true) : x &&& 0xFF00#16 = 0xD500#16 := by
  unfold inCtlPage at h
  simp only [Bool.and_eq_true, beq_iff_eq] at h
  replace h := h.2
  have h3 : x &&& 0xFF00#16 = (x.extractLsb' 8 8).setWidth 16 <<< 8 := by
    apply BitVec.eq_of_getLsbD_eq
    intro i hi
    interval_cases i <;> simp
  rw [h3, h]
  rfl

theorem KeyMatches.flashReadNormal (chip : ChipRef) (a : Nat) : KeyMatches.Statement (.flashReadNormal chip a) :=
  fun _ _ _ => rfl

theorem KeyMatches.flashReadAutoselect (chip : ChipRef) (a : Nat) :
    KeyMatches.Statement (.flashReadAutoselect chip a) := fun _ _ _ => rfl

theorem KeyMatches.flashReadWriteStatus (chip : ChipRef) (a : Nat) :
    KeyMatches.Statement (.flashReadWriteStatus chip a) := fun _ _ _ => rfl

theorem KeyMatches.flashReadEraseStatus (chip : ChipRef) (a : Nat) :
    KeyMatches.Statement (.flashReadEraseStatus chip a) := fun _ _ _ => rfl

theorem KeyMatches.flashAtmelClose (chip : ChipRef) (a : Nat) : KeyMatches.Statement (.flashAtmelClose chip a) :=
  fun _ _ _ => rfl

theorem KeyMatches.flashReset1 (chip : ChipRef) (a : Nat) : KeyMatches.Statement (.flashReset1 chip a) :=
  fun _ _ _ => rfl

theorem KeyMatches.flashUnlock1 (chip : ChipRef) (a : Nat) : KeyMatches.Statement (.flashUnlock1 chip a) :=
  fun _ _ _ => rfl

theorem KeyMatches.flashUnlock2 (chip : ChipRef) (a : Nat) : KeyMatches.Statement (.flashUnlock2 chip a) :=
  fun _ _ _ => rfl

theorem KeyMatches.flashAutoselect (chip : ChipRef) (a : Nat) : KeyMatches.Statement (.flashAutoselect chip a) :=
  fun _ _ _ => rfl

theorem KeyMatches.flashProgramSetup (chip : ChipRef) (a : Nat) : KeyMatches.Statement (.flashProgramSetup chip a) :=
  fun _ _ _ => rfl

theorem KeyMatches.flashAtmelSetup (chip : ChipRef) (a : Nat) : KeyMatches.Statement (.flashAtmelSetup chip a) :=
  fun _ _ _ => rfl

theorem KeyMatches.flashEraseSetup (chip : ChipRef) (a : Nat) : KeyMatches.Statement (.flashEraseSetup chip a) :=
  fun _ _ _ => rfl

theorem KeyMatches.flashReset3 (chip : ChipRef) (a : Nat) : KeyMatches.Statement (.flashReset3 chip a) :=
  fun _ _ _ => rfl

theorem KeyMatches.flashWbLoad (chip : ChipRef) (a : Nat) : KeyMatches.Statement (.flashWbLoad chip a) :=
  fun _ _ _ => rfl

theorem KeyMatches.flashProgramData (chip : ChipRef) (a : Nat) (v : Byte) :
    KeyMatches.Statement (.flashProgramData chip a v) := fun _ _ _ => (writeKey_phase v).1

theorem KeyMatches.flashEraseUnlock1 (chip : ChipRef) (a : Nat) : KeyMatches.Statement (.flashEraseUnlock1 chip a) :=
  fun _ _ _ => rfl

theorem KeyMatches.flashEraseUnlock2 (chip : ChipRef) (a : Nat) : KeyMatches.Statement (.flashEraseUnlock2 chip a) :=
  fun _ _ _ => rfl

theorem KeyMatches.flashChipErase (chip : ChipRef) (a : Nat) : KeyMatches.Statement (.flashChipErase chip a) :=
  fun _ _ _ => rfl

theorem KeyMatches.flashSectorErase (chip : ChipRef) (a : Nat) : KeyMatches.Statement (.flashSectorErase chip a) :=
  fun _ _ _ => rfl

theorem KeyMatches.flashWbCount (chip : ChipRef) (a : Nat) (v : Byte) :
    KeyMatches.Statement (.flashWbCount chip a v) := fun _ _ _ => (writeKey_phase v).2.1

theorem KeyMatches.flashWbData (chip : ChipRef) (a : Nat) (v : Byte) : KeyMatches.Statement (.flashWbData chip a v) :=
  fun _ _ _ => (writeKey_phase v).2.2.1

theorem KeyMatches.flashWbConfirm (chip : ChipRef) (a : Nat) (v : Byte) :
    KeyMatches.Statement (.flashWbConfirm chip a v) := fun _ _ _ => (writeKey_phase v).2.2.2.1

theorem KeyMatches.flashAtmelData (chip : ChipRef) (a : Nat) (v : Byte) :
    KeyMatches.Statement (.flashAtmelData chip a v) := fun _ _ _ => (writeKey_phase v).2.2.2.2.1

theorem KeyMatches.flashAbort (chip : ChipRef) (a : Nat) (v : Byte) : KeyMatches.Statement (.flashAbort chip a v) :=
  fun x _ _ => by
  have h : encode x (.flashAbort chip a v) = encodeWrite chip 1 v a ∨
      encode x (.flashAbort chip a v) = encodeWrite chip 0 v a := by
    unfold encode; dsimp only; split <;> simp
  rcases h with h | h <;> rw [h]
  · exact (writeKey_phase v).2.2.2.2.2.2.1
  · exact (writeKey_phase v).2.2.2.2.2.1

theorem KeyMatches.flashSectorEraseMore (chip : ChipRef) (a : Nat) :
    KeyMatches.Statement (.flashSectorEraseMore chip a) := fun _ _ _ => rfl

theorem KeyMatches.flashEraseStatusExit (chip : ChipRef) (a : Nat) (v : Byte) :
    KeyMatches.Statement (.flashEraseStatusExit chip a v) := fun _ _ _ => (writeKey_phase v).2.2.2.2.2.2.2

theorem KeyMatches.flashInit (allocOk : Bool) (buffer : Buffer) (type : ChipType) :
    KeyMatches.Statement (.flashInit allocOk buffer type) := fun _ _ _ => trivial

theorem KeyMatches.flashColdReset (chip : ChipRef) : KeyMatches.Statement (.flashColdReset chip) :=
  fun _ _ _ => trivial

theorem KeyMatches.serialWriteState (dev : Dev) (ce : Bool) (clk : Bool) (data : Bool) :
    KeyMatches.Statement (.serialWriteState dev ce clk data) := fun _ _ _ => trivial

theorem KeyMatches.serialReadState (dev : Dev) : KeyMatches.Statement (.serialReadState dev) := fun _ _ _ => trivial

theorem KeyMatches.eeWren : KeyMatches.Statement .eeWren := fun _ _ _ => ⟨rfl, rfl⟩

theorem KeyMatches.eeWrdi : KeyMatches.Statement .eeWrdi := fun _ _ _ => ⟨rfl, rfl⟩

theorem KeyMatches.eeRdsr : KeyMatches.Statement .eeRdsr := fun _ _ _ => ⟨rfl, rfl⟩

theorem KeyMatches.eeWrsr : KeyMatches.Statement .eeWrsr := fun _ _ _ => ⟨rfl, rfl⟩

theorem KeyMatches.eeRead : KeyMatches.Statement .eeRead := fun _ _ _ => ⟨rfl, rfl⟩

theorem KeyMatches.eeWrite : KeyMatches.Statement .eeWrite := fun _ _ _ => ⟨rfl, rfl⟩

theorem KeyMatches.eeUnknown (op : Byte) : KeyMatches.Statement (.eeUnknown op) := fun _ _ _ => ⟨rfl, by simp⟩

theorem KeyMatches.eeLoad (mem : List Byte) (bp : BitVec 2) : KeyMatches.Statement (.eeLoad mem bp) :=
  fun _ _ _ => trivial

theorem KeyMatches.eeSave : KeyMatches.Statement .eeSave := fun _ _ _ => trivial

theorem KeyMatches.eeColdReset : KeyMatches.Statement .eeColdReset := fun _ _ _ => trivial

theorem KeyMatches.rtcEeRead : KeyMatches.Statement .rtcEeRead := fun _ _ _ => ⟨rfl, rfl⟩

theorem KeyMatches.rtcEeWrite : KeyMatches.Statement .rtcEeWrite := fun _ _ _ => ⟨rfl, rfl⟩

theorem KeyMatches.rtcEeWrdi : KeyMatches.Statement .rtcEeWrdi := fun _ _ _ => ⟨rfl, rfl⟩

theorem KeyMatches.rtcEeWren : KeyMatches.Statement .rtcEeWren := fun _ _ _ => ⟨rfl, rfl⟩

theorem KeyMatches.rtcSrRead : KeyMatches.Statement .rtcSrRead := fun _ _ _ => ⟨rfl, rfl⟩

theorem KeyMatches.rtcSrWrite : KeyMatches.Statement .rtcSrWrite := fun _ _ _ => ⟨rfl, rfl⟩

theorem KeyMatches.rtcRead : KeyMatches.Statement .rtcRead := fun _ _ _ => ⟨rfl, rfl⟩

theorem KeyMatches.rtcWrite : KeyMatches.Statement .rtcWrite := fun _ _ _ => ⟨rfl, rfl⟩

theorem KeyMatches.rtcUnlock : KeyMatches.Statement .rtcUnlock := fun _ _ _ => ⟨rfl, rfl⟩

theorem KeyMatches.rtcIdWrite : KeyMatches.Statement .rtcIdWrite := fun _ _ _ => ⟨rfl, rfl⟩

theorem KeyMatches.rtcIdRead : KeyMatches.Statement .rtcIdRead := fun _ _ _ => ⟨rfl, rfl⟩

theorem KeyMatches.rtcClrRam : KeyMatches.Statement .rtcClrRam := fun _ _ _ => ⟨rfl, rfl⟩

theorem KeyMatches.rtcUnknown (op : Byte) : KeyMatches.Statement (.rtcUnknown op) := fun _ _ _ => ⟨rfl, by simp⟩

theorem KeyMatches.rtcLoad (ram : List Byte) (ee : List Byte) (id : List Byte) (bp : BitVec 2) :
    KeyMatches.Statement (.rtcLoad ram ee id bp) := fun _ _ _ => trivial

theorem KeyMatches.rtcSave : KeyMatches.Statement .rtcSave := fun _ _ _ => trivial

theorem KeyMatches.rtcColdReset : KeyMatches.Statement .rtcColdReset := fun _ _ _ => trivial

theorem KeyMatches.schedAdd (id : Int) (delta : Cycles) (handler : Nat) :
    KeyMatches.Statement (.schedAdd id delta handler) := fun _ _ _ => trivial

theorem KeyMatches.schedDelete (id : Int) : KeyMatches.Statement (.schedDelete id) := fun _ _ _ => trivial

theorem KeyMatches.schedCheck (handlerCalls : List HandlerCall) : KeyMatches.Statement (.schedCheck handlerCalls) :=
  fun _ _ _ => trivial

theorem KeyMatches.mapWinRead (x : CpuAddr) : KeyMatches.Statement (.mapWinRead x) := fun _ _ h => windowOf_bits h

theorem KeyMatches.mapWinWrite (x : CpuAddr) (v : Byte) : KeyMatches.Statement (.mapWinWrite x v) :=
  fun _ _ h => windowOf_bits h

theorem KeyMatches.mapCtlRead (x : CpuAddr) : KeyMatches.Statement (.mapCtlRead x) :=
  fun _ hp h => inCtlPage_bits (hp ▸ h)

theorem KeyMatches.mapCtlWrite (x : CpuAddr) (v : Byte) : KeyMatches.Statement (.mapCtlWrite x v) :=
  fun _ hp h => inCtlPage_bits (hp ▸ h)

theorem KeyMatches.mapColdReset : KeyMatches.Statement .mapColdReset := fun _ _ _ => trivial

theorem KeyMatches.mapInit (allocOk : Bool) (type : MapperType) (image : Buffer) (sizeKB : Nat) :
    KeyMatches.Statement (.mapInit allocOk type image sizeKB) := fun _ _ _ => trivial

end Sys2Proof.Laws
end

