-- ==== Sys2Proof/Laws/Profile.lean ====
section
/-! SUPPORT. Every profile record meets the constraints of R195, and every partition R195 allows is the table of its sizes. -/

namespace Sys2Proof.Machine

variable {cap size base a b : Nat} {sizes : List Nat} {p : Profile}

/-- The page base of an address (R76). -/
theorem pageBase_facts (h : 0 < size) :
    pageBase size a ≤ a ∧ a < pageBase size a + size ∧ pageBase size a % size = 0 := by
  have h1 := Nat.div_add_mod a size
  have h2 := Nat.mod_lt a h
  rw [Nat.mul_comm] at h1
  unfold pageBase
  exact ⟨by omega, by omega, Nat.mul_mod_left _ _⟩

/-- The addresses of one page have one page base. -/
theorem pageBase_same (hl : pageBase size a ≤ b) (hu : b < pageBase size a + size) :
    pageBase size b = pageBase size a := by
  have hb : b / size = a / size := by
    unfold pageBase at hl hu
    exact Nat.div_eq_of_lt_le hl (by rwa [Nat.add_mul, Nat.one_mul])
  rw [pageBase, pageBase, hb]

/-- A page of an address below a multiple of the page size ends at or before it. -/
theorem pageBase_le (hd : size ∣ cap) (ha : a < cap) : pageBase size a + size ≤ cap := by
  obtain ⟨n, rfl⟩ := hd
  have h : a / size + 1 ≤ n := Nat.div_lt_of_lt_mul ha
  calc pageBase size a + size = (a / size + 1) * size := by rw [pageBase, Nat.add_mul, Nat.one_mul]
    _ ≤ n * size := Nat.mul_le_mul_right _ h
    _ = size * n := Nat.mul_comm ..

/-- What may be a sector: R195. -/
theorem sectorFits_iff : sectorFits cap base size = true ↔ 0 < size ∧ base % size = 0 ∧ base + size ≤ cap := by
  simp [sectorFits, and_assoc]

/-- What a sector table does, for an address of the chip at or behind `base`: the sector of `a` holds it, begins at or behind
`base`, lies in the chip, is aligned to its size, and is the sector of each of its addresses. -/
theorem sectorAt_facts (hb : base ≤ a) (ha : a < cap) :
    base ≤ (sectorAt cap sizes base a).1 ∧ (sectorAt cap sizes base a).1 ≤ a ∧
    a < (sectorAt cap sizes base a).1 + (sectorAt cap sizes base a).2 ∧
    (sectorAt cap sizes base a).1 + (sectorAt cap sizes base a).2 ≤ cap ∧
    (sectorAt cap sizes base a).1 % (sectorAt cap sizes base a).2 = 0 ∧
    ∀ b, (sectorAt cap sizes base a).1 ≤ b → b < (sectorAt cap sizes base a).1 + (sectorAt cap sizes base a).2 →
      sectorAt cap sizes base b = sectorAt cap sizes base a := by
  induction sizes generalizing base with
  | nil =>
    simp only [sectorAt, Prod.mk.injEq, and_true]
    exact ⟨hb, Nat.le_refl a, by omega, ha, Nat.mod_one a, fun b _ _ => by omega⟩
  | cons size sizes ih =>
    have hval : ∀ b, sectorAt cap (size :: sizes) base b =
        if sectorFits cap base size then
          if b < base + size then (base, size) else sectorAt cap sizes (base + size) b
        else sectorAt cap sizes base b := fun b => rfl
    rw [hval a]
    by_cases hf : sectorFits cap base size = true
    · rw [if_pos hf]
      obtain ⟨-, hal, hin⟩ := sectorFits_iff.1 hf
      by_cases hlt : a < base + size
      · rw [if_pos hlt]
        exact ⟨Nat.le_refl _, hb, hlt, hin, hal, fun b _ hu => by rw [hval b, if_pos hf, if_pos hu]⟩
      · rw [if_neg hlt]
        obtain ⟨h1, h2, h3, h4, h5, h6⟩ := ih (base := base + size) (by omega)
        refine ⟨by omega, h2, h3, h4, h5, fun b hl hu => ?_⟩
        rw [hval b, if_pos hf, if_neg (by omega), h6 b hl hu]
    · rw [if_neg hf]
      obtain ⟨h1, h2, h3, h4, h5, h6⟩ := ih hb
      exact ⟨h1, h2, h3, h4, h5, fun b hl hu => by rw [hval b, if_neg hf, h6 b hl hu]⟩

/-- The table of an aligned partition gives back its sectors: behind `base`, the sizes `before`, then the sector of `a`. -/
theorem sectorAt_table {before after : List Nat}
    (h : ∀ pre n post, before ++ size :: after = pre ++ n :: post →
      0 < n ∧ (base + pre.sum) % n = 0 ∧ base + pre.sum + n ≤ cap)
    (hl : base + before.sum ≤ a) (hu : a < base + before.sum + size) :
    sectorAt cap (before ++ size :: after) base a = (base + before.sum, size) := by
  induction before generalizing base with
  | nil =>
    simp only [List.nil_append, List.sum_nil, Nat.add_zero] at h hl hu ⊢
    have hf := sectorFits_iff.2 (by simpa using h [] size after rfl)
    rw [sectorAt, if_pos hf, if_pos hu]
  | cons n before ih =>
    have hf := sectorFits_iff.2 (by simpa using h [] n (before ++ size :: after) rfl)
    simp only [List.sum_cons, ← Nat.add_assoc] at hl hu ⊢
    rw [List.cons_append, sectorAt, if_pos hf, if_neg (by omega)]
    refine ih (fun pre m post hs => ?_) hl hu
    simpa [Nat.add_assoc] using h (n :: pre) m post (by rw [List.cons_append, hs, List.cons_append])

/-- Every profile record meets R195. -/
theorem profile_valid (p : Profile) : Profile.Valid p := by
  have key : ∀ a < p.cap, (sectorOf p a).1 ≤ a ∧ a < (sectorOf p a).1 + (sectorOf p a).2 ∧
      (sectorOf p a).1 + (sectorOf p a).2 ≤ p.cap ∧ (sectorOf p a).1 % (sectorOf p a).2 = 0 ∧
      ∀ b, (sectorOf p a).1 ≤ b → b < (sectorOf p a).1 + (sectorOf p a).2 → sectorOf p b = sectorOf p a := by
    intro a ha
    unfold sectorOf
    split
    · rename_i sizeBits _
      obtain ⟨h1, h2, h3⟩ := pageBase_facts (a := a) (show 0 < 2 ^ min sizeBits p.capBits by positivity)
      exact ⟨h1, h2, pageBase_le (Nat.pow_dvd_pow 2 (Nat.min_le_right ..)) ha, h3, fun b hl hu => by rw [pageBase_same hl hu]⟩
    · exact (sectorAt_facts (Nat.zero_le a) ha).2
  exact {
    capacity := ⟨p.capBits, rfl⟩
    contains := fun a ha => ⟨(key a ha).1, (key a ha).2.1⟩
    inside := fun a ha => (key a ha).2.2.1
    aligned := fun a ha => (key a ha).2.2.2.1
    partition := fun a ha => (key a ha).2.2.2.2
    atmel := fun h => by
      simp only [Profile.atmelSDP, decide_eq_true_eq] at h
      simp [Profile.writeBuffer, Profile.sectorErase, Profile.atmelSDP, h] }

/-- A chip has a byte. -/
theorem Profile.cap_pos (p : Profile) : 0 < Profile.cap p := Nat.pow_pos (by omega)

/-- `P_EraseStatusBase` leaves the toggle bits alone (R134). -/
theorem eraseStatusBase_and (p : Params) : p.eraseStatusBase &&& 0x44#8 = 0x00#8 := by
  rw [Params.eraseStatusBase, BitVec.and_assoc]
  simp

end Sys2Proof.Machine
end

