-- ==== Sys2Proof/Tests/Slice0.lean ====
section
/-! SUPPORT. The model's own tests. Expected values are those of spec/95_test_vectors.md (the vector is named in each test)
or are worked out by hand from the rule named there; the `witness` theorems show that the hypotheses of each statement of
Certificates/Slice0/Obligations.lean can be met, every clause at a boundary of its range. -/

namespace Sys2Proof.Tests

open Sys2Proof.Machine

/-! ### The machines the tests run on (95_test_vectors.md section 0) -/

/-- The profile `AM` with the timeout the vectors assume. -/
def amProfile : Profile where
  capBits := 19
  ids := .standard 0x01#8 0xA4#8
  unlockWindow := .w11
  sectors := .uniform 16
  sectorEraseTimeoutCycles := 100#64
  program := .byte
  sectorCommand := true

/-- The profile `GL`. -/
def glProfile : Profile where
  capBits := 24
  ids := .spansion 0x21#8 0x01#8
  unlockWindow := .w12i
  sectors := .uniform 17
  sectorEraseTimeoutCycles := 100#64
  program := .buffer
  sectorCommand := true

/-- The profile `AT`. -/
def atProfile : Profile where
  capBits := 19
  ids := .standard 0x1F#8 0x5B#8
  unlockWindow := .w15
  sectors := .uniform 8
  sectorEraseTimeoutCycles := 100#64
  program := .atmelPage
  sectorCommand := false

/-- A profile with boot sectors of 480, 8, 8 and 16 KB. -/
def bootProfile : Profile := { amProfile with sectors := .table [0x78000, 0x2000, 0x2000, 0x4000] }

/-- A chip of each profile, right after `Init`. -/
def am : Chip := Chip.initial .am29f040b amProfile 1 [(0x100, 0xF0#8)]
def gl : Chip := Chip.initial .s29gl128p glProfile 1 [(0x20005, 0xF0#8)]
def at_ : Chip := Chip.initial .at29c040 atProfile 1 [(0x1000, 0x00#8)]

/-- A TheCart register map: banks at offsets 0 and 2, enables at 1, the mode at 3, the lock at 4, the serial register at 5,
and one legacy scheme, of mode 1, indexed by the value written, with every form of entry. -/
def cartParams : TcParams where
  registers :=
    [ { off := 0#8, lockable := false, slices := [{ field := .bank0, bit := 0, width := 8, pos := 0 }], pad := 0xFF#8 },
      { off := 1#8, lockable := false
        slices := [{ field := .en0, bit := 0, width := 1, pos := 0 }, { field := .en1, bit := 1, width := 1, pos := 0 }]
        pad := 0xFF#8 },
      { off := 2#8, lockable := false, slices := [{ field := .bank1, bit := 0, width := 8, pos := 0 }], pad := 0xFF#8 },
      { off := 3#8, lockable := true, slices := [{ field := .mode, bit := 0, width := 8, pos := 0 }], pad := 0xFF#8 },
      { off := 4#8, lockable := false, slices := [{ field := .lock, bit := 0, width := 8, pos := 0 }], pad := 0xFF#8 } ]
  serial := some { off := 5#8, lockable := true, ceBit := 7, clkBit := 6, dataBit := 0, outBit := 0, pad := 0xFE#8 }
  defaults := { bank0 := 0#16, bank1 := 0#16, en0 := true, en1 := false, mode := 1#8, ramRead := false, ramWrite := false
                flashWrite := false, lock := 0#8 }
  schemes := [(1#8, { byAddress := false, entries :=
    [ .noChange, .set (.bank 6#16 true) .noBank, .set (.bank 7#16 true) (.bank 8#16 true), .set .noBank (.bank 9#16 true),
      .set .noBank .noBank ] })]
  bankBits := 13
  ramBits := 13
  chip := .am29f040b

/-- The parameters the vectors assume. -/
def params : Params where
  programStatusReads := 1
  eraseStatusBits := 0x00#8
  ctlPage := 0xD5#8
  catalogue :=
    [ (.am29f040b, amProfile), (.s29gl128p, glProfile), (.at29c040, atProfile), (.other 0, { amProfile with capBits := 22 }),
      (.am29f010, { amProfile with capBits := 17 }), (.other 1, { amProfile with capBits := 20 }) ]
  megaCart4MChip := .other 0
  sicChip := .am29f040b
  maxFlash1Chip := .am29f010
  maxFlash8Chip := .other 1
  megaCart := megaCartDefault
  sic := sicDefault
  maxFlash1 := maxFlash1Default
  maxFlash8 := maxFlash8Default
  theCart := cartParams

/-- A mapper of a type over one chip, with the registers given and nothing installed yet. -/
def mapperOn (type : MapperType) (c : Chip) (regs : MapRegs) : Mapper where
  type := type
  size := 0x80000
  chips := [c]
  ram := []
  ramSize := 0x2000
  regs := regs
  table := schemeTable cartParams 1#8
  installed := none

/-- Registers at bank 0. -/
def regs0 : MapRegs := { bank := 0#8, enabled := true, sic := 0#8, cart := cartParams.defaults }

/-- The layout of a MegaCart at a bank base. -/
def megaAt (base : Nat) : Layout where
  w809f := Desc.disabled
  wa0bf := { readSrc := .flash 0, writeDst := .flash 0, base := base, writeBase := base }

/-- A machine at `now = 1000` whose mapper is a MegaCart 512K at bank 0 over the chip. -/
def machine (c : Chip) : State where
  now := 1000#64
  clock := { year := 2024, month := 2, day := 29, wday := 4, hour := 13, min := 45, sec := 7 }
  chips := []
  sched := { queue := [], inHandler := none }
  eeprom := Eeprom.initial
  rtc := Rtc.initial
  mapper := { mapperOn .megaCart512 c regs0 with installed := some (megaAt 0) }
  input := []
  out := { result := .none, calls := [] }
  draws := 0
  cfg := params

/-- The machine with another mapper. -/
def machineWith (m : Mapper) : State := { machine am with mapper := m }

/-- The machine with a scheduler queue. -/
def machineQueue (now : Cycles) (q : List Entry) : State :=
  { machine am with now := now, sched := { queue := q, inHandler := none } }

/-- The machine with an EEPROM at an interpreter state, one falling edge before the byte `b` is complete. -/
def machineEe (e : Eeprom) (cmd : EeCmd) (b : Byte) : State :=
  { machine am with eeprom := { e with cmd := cmd, link := e.link.forOpcode b } }

/-- The same of an RTC. -/
def machineRtc (r : Rtc) (cmd : RtcCmd) (b : Byte) : State :=
  { machine am with rtc := { r with cmd := cmd, link := r.link.forOpcode b } }

/-- The wall clock of the tests. -/
def clock0 : HostTime := (machine am).clock

/-- A handler's interface call. -/
def calls (h : HostCall) : HandlerCall := { clock := clock0, call := .host h }

/-- The machine with one pending call. -/
def machineCall (s : State) (c : Call) : State := s.queueFirst c

/-- The next state of an outcome. -/
def nextOf : Host.Outcome State Fault Refusal → Option State
  | .next s => some s
  | _ => none

/-- The fault of an outcome. -/
def faultOf : Host.Outcome State Fault Refusal → Option Fault
  | .fault f => some f
  | _ => none

/-- What the call returned. -/
def resultOf (o : Host.Outcome State Fault Refusal) : Option Result := (nextOf o).map (fun t => t.out.result)

/-- Chip 0 after the step. -/
def chipOf_ (o : Host.Outcome State Fault Refusal) : Option Chip := (nextOf o).bind (fun t => t.chipAt (.mapper 0))

/-- The mode and phase of chip 0, and what the call returned. -/
def seen (o : Host.Outcome State Fault Refusal) : Option (ReadMode × Phase × Result) :=
  (nextOf o).bind (fun t => (t.chipAt (.mapper 0)).map (fun c => (c.readMode, c.phase, t.out.result)))

/-- One byte of chip 0's image after the step. -/
def byteOf (a : Nat) (o : Host.Outcome State Fault Refusal) : Option Byte := (chipOf_ o).map (fun c => c.byteAt a)

def eeOf (o : Host.Outcome State Fault Refusal) : Option Eeprom := (nextOf o).map (fun t => t.eeprom)

def rtcOf (o : Host.Outcome State Fault Refusal) : Option Rtc := (nextOf o).map (fun t => t.rtc)

def queueOf (o : Host.Outcome State Fault Refusal) : Option (List (Int × Cycles)) :=
  (nextOf o).map (fun t => t.sched.queue.map (fun e => (e.id, e.deadline)))

/-- The chip the tests address. -/
def m0 : ChipRef := .mapper 0

/-- The context of the chip `AM`. -/
def amCtx : DecodeCtx := am.decodeCtx 0xD5#8
def glCtx : DecodeCtx := { gl.decodeCtx 0xD5#8 with multiEraseOpen := true }
def atCtx : DecodeCtx := at_.decodeCtx 0xD5#8

/-! ### WellFormed: one ill-formed term for each check -/

theorem test_illFormed_unlockAddress :
    wellFormed amCtx (.flashUnlock1 m0 0x554) = false ∧ wellFormed amCtx (.flashUnlock2 m0 0x2AB) = false ∧
    wellFormed amCtx (.flashAutoselect m0 0) = false ∧ wellFormed amCtx (.flashEraseSetup m0 0) = false ∧
    wellFormed amCtx (.flashEraseUnlock1 m0 0x2AA) = false ∧ wellFormed amCtx (.flashEraseUnlock2 m0 0x555) = false ∧
    wellFormed amCtx (.flashChipErase m0 0) = false ∧ wellFormed amCtx (.flashProgramSetup m0 0x554) = false ∧
    wellFormed atCtx (.flashAtmelSetup m0 0x555) = false := by decide

theorem test_illFormed_profile :
    wellFormed amCtx (.flashAtmelClose m0 0) = false ∧ wellFormed amCtx (.flashAtmelSetup m0 0x555) = false ∧
    wellFormed atCtx (.flashProgramSetup m0 0x5555) = false ∧ wellFormed amCtx (.flashWbLoad m0 0) = false ∧
    wellFormed amCtx (.flashWbCount m0 0 0#8) = false ∧ wellFormed amCtx (.flashWbData m0 0 0#8) = false ∧
    wellFormed amCtx (.flashWbConfirm m0 0 0x29#8) = false ∧ wellFormed amCtx (.flashAtmelData m0 0 0#8) = false ∧
    wellFormed atCtx (.flashSectorErase m0 0) = false := by decide

theorem test_illFormed_eraseWindow :
    wellFormed amCtx (.flashSectorEraseMore m0 0) = false ∧
    wellFormed glCtx (.flashEraseStatusExit m0 0 0x30#8) = false := by decide

theorem test_illFormed_opcode :
    wellFormed amCtx (.eeUnknown 0x06#8) = false ∧ wellFormed amCtx (.rtcUnknown 0x54#8) = false := by decide

theorem test_illFormed_cpuAddress :
    wellFormed amCtx (.mapWinRead 0xC000#16) = false ∧ wellFormed amCtx (.mapWinWrite 0x7FFF#16 0#8) = false ∧
    wellFormed amCtx (.mapCtlRead 0xD600#16) = false ∧ wellFormed amCtx (.mapCtlWrite 0xD4FF#16 0#8) = false := by decide

/-! ### Decoding: one word of each row, written out from R103, R111, R112 and R117

A key is `readMode << 14 | isWrite << 12 | phase << 8 | v`. -/

/-- Modes 0 to 3, write bit 0; phase 10 on an Atmel chip. -/
theorem test_decode_flashReads :
    decode amCtx (.flashCycle m0 0x0000#16 5) = .ok (.flashReadNormal m0 5) ∧
    decode amCtx (.flashCycle m0 0x4000#16 5) = .ok (.flashReadAutoselect m0 5) ∧
    decode amCtx (.flashCycle m0 0x8000#16 5) = .ok (.flashReadWriteStatus m0 5) ∧
    decode amCtx (.flashCycle m0 0xC000#16 5) = .ok (.flashReadEraseStatus m0 5) ∧
    decode atCtx (.flashCycle m0 0x8A00#16 5) = .ok (.flashAtmelClose m0 5) := ⟨rfl, rfl, rfl, rfl, rfl⟩

/-- Phases 0 to 2, write bit 1. -/
theorem test_decode_flashCommands :
    decode amCtx (.flashCycle m0 0x10F0#16 9) = .ok (.flashReset1 m0 9) ∧
    decode amCtx (.flashCycle m0 0x50AA#16 0x555) = .ok (.flashUnlock1 m0 0x555) ∧
    decode amCtx (.flashCycle m0 0x1155#16 0x2AA) = .ok (.flashUnlock2 m0 0x2AA) ∧
    decode amCtx (.flashCycle m0 0x1290#16 0x555) = .ok (.flashAutoselect m0 0x555) ∧
    decode amCtx (.flashCycle m0 0x12A0#16 0x555) = .ok (.flashProgramSetup m0 0x555) ∧
    decode atCtx (.flashCycle m0 0x12A0#16 0x5555) = .ok (.flashAtmelSetup m0 0x5555) ∧
    decode amCtx (.flashCycle m0 0x1280#16 0x555) = .ok (.flashEraseSetup m0 0x555) ∧
    decode amCtx (.flashCycle m0 0x12F0#16 7) = .ok (.flashReset3 m0 7) ∧
    decode glCtx (.flashCycle m0 0x1225#16 7) = .ok (.flashWbLoad m0 7) :=
  ⟨rfl, rfl, rfl, rfl, rfl, rfl, rfl, rfl, rfl⟩

/-- Phases 3 to 10, and the two rows of SectorEraseStatus (mode 3). -/
theorem test_decode_flashData :
    decode amCtx (.flashCycle m0 0x133C#16 0x100) = .ok (.flashProgramData m0 0x100 0x3C#8) ∧
    decode amCtx (.flashCycle m0 0x14AA#16 0x555) = .ok (.flashEraseUnlock1 m0 0x555) ∧
    decode amCtx (.flashCycle m0 0x1555#16 0x2AA) = .ok (.flashEraseUnlock2 m0 0x2AA) ∧
    decode amCtx (.flashCycle m0 0x1610#16 0x555) = .ok (.flashChipErase m0 0x555) ∧
    decode amCtx (.flashCycle m0 0x1630#16 0x12345) = .ok (.flashSectorErase m0 0x12345) ∧
    decode glCtx (.flashCycle m0 0x171F#16 8) = .ok (.flashWbCount m0 8 0x1F#8) ∧
    decode glCtx (.flashCycle m0 0x18F3#16 8) = .ok (.flashWbData m0 8 0xF3#8) ∧
    decode glCtx (.flashCycle m0 0x1929#16 8) = .ok (.flashWbConfirm m0 8 0x29#8) ∧
    decode atCtx (.flashCycle m0 0x1A12#16 8) = .ok (.flashAtmelData m0 8 0x12#8) ∧
    decode amCtx (.flashCycle m0 0x1412#16 8) = .ok (.flashAbort m0 8 0x12#8) ∧
    decode glCtx (.flashCycle m0 0xD030#16 8) = .ok (.flashSectorEraseMore m0 8) ∧
    decode amCtx (.flashCycle m0 0xD030#16 8) = .ok (.flashEraseStatusExit m0 8 0x30#8) :=
  ⟨rfl, rfl, rfl, rfl, rfl, rfl, rfl, rfl, rfl, rfl, rfl, rfl⟩

theorem test_decode_rejects :
    decode amCtx (.flashCycle m0 0x2000#16 0) = .error (.reservedKeyBit 0x2000#16) ∧
    decode amCtx (.flashCycle m0 0x1B00#16 0) = .error (.noSuchPhase 11) ∧
    decode amCtx (.cpuCycle 0x7FFF#16 none) = .error (.notServed 0x7FFF#16) := ⟨rfl, rfl, rfl⟩

/-- R111. -/
theorem test_decode_eeprom :
    decode amCtx (.serialOpcode .eeprom 0x06#8) = .ok .eeWren ∧ decode amCtx (.serialOpcode .eeprom 0x04#8) = .ok .eeWrdi ∧
    decode amCtx (.serialOpcode .eeprom 0x05#8) = .ok .eeRdsr ∧ decode amCtx (.serialOpcode .eeprom 0x01#8) = .ok .eeWrsr ∧
    decode amCtx (.serialOpcode .eeprom 0x03#8) = .ok .eeRead ∧ decode amCtx (.serialOpcode .eeprom 0x02#8) = .ok .eeWrite ∧
    decode amCtx (.serialOpcode .eeprom 0x07#8) = .ok (.eeUnknown 0x07#8) := ⟨rfl, rfl, rfl, rfl, rfl, rfl, rfl⟩

/-- R112. -/
theorem test_decode_rtc :
    decode amCtx (.serialOpcode .rtc 0x03#8) = .ok .rtcEeRead ∧ decode amCtx (.serialOpcode .rtc 0x02#8) = .ok .rtcEeWrite ∧
    decode amCtx (.serialOpcode .rtc 0x04#8) = .ok .rtcEeWrdi ∧ decode amCtx (.serialOpcode .rtc 0x06#8) = .ok .rtcEeWren ∧
    decode amCtx (.serialOpcode .rtc 0x05#8) = .ok .rtcSrRead ∧ decode amCtx (.serialOpcode .rtc 0x01#8) = .ok .rtcSrWrite ∧
    decode amCtx (.serialOpcode .rtc 0x13#8) = .ok .rtcRead ∧ decode amCtx (.serialOpcode .rtc 0x12#8) = .ok .rtcWrite ∧
    decode amCtx (.serialOpcode .rtc 0x14#8) = .ok .rtcUnlock ∧ decode amCtx (.serialOpcode .rtc 0x32#8) = .ok .rtcIdWrite ∧
    decode amCtx (.serialOpcode .rtc 0x33#8) = .ok .rtcIdRead ∧ decode amCtx (.serialOpcode .rtc 0x54#8) = .ok .rtcClrRam ∧
    decode amCtx (.serialOpcode .rtc 0x99#8) = .ok (.rtcUnknown 0x99#8) :=
  ⟨rfl, rfl, rfl, rfl, rfl, rfl, rfl, rfl, rfl, rfl, rfl, rfl, rfl⟩

/-- R72: the windows and the control page. -/
theorem test_decode_cpu :
    decode amCtx (.cpuCycle 0x8000#16 none) = .ok (.mapWinRead 0x8000#16) ∧
    decode amCtx (.cpuCycle 0xBFFF#16 (some 1#8)) = .ok (.mapWinWrite 0xBFFF#16 1#8) ∧
    decode amCtx (.cpuCycle 0xD5FF#16 none) = .ok (.mapCtlRead 0xD5FF#16) ∧
    decode amCtx (.cpuCycle 0xD500#16 (some 3#8)) = .ok (.mapCtlWrite 0xD500#16 3#8) := ⟨rfl, rfl, rfl, rfl⟩

/-- R115: the host calls that have no encoding. -/
theorem test_decode_interface (b : Buffer) (l : List Byte) (cs : List HandlerCall) :
    decode amCtx (.wire .rtc true false true) = .ok (.serialWriteState .rtc true false true) ∧
    decode amCtx (.interface (.flashInit true b .am29f040b) []) = .ok (.flashInit true b .am29f040b) ∧
    decode amCtx (.interface (.flashColdReset m0) []) = .ok (.flashColdReset m0) ∧
    decode amCtx (.interface (.readState .rtc) []) = .ok (.serialReadState .rtc) ∧
    decode amCtx (.interface (.eeLoad l 1#2) []) = .ok (.eeLoad l 1#2) ∧
    decode amCtx (.interface .eeSave []) = .ok .eeSave ∧
    decode amCtx (.interface .eeColdReset []) = .ok .eeColdReset ∧
    decode amCtx (.interface (.rtcLoad l l l 1#2) []) = .ok (.rtcLoad l l l 1#2) ∧
    decode amCtx (.interface .rtcSave []) = .ok .rtcSave ∧
    decode amCtx (.interface .rtcColdReset []) = .ok .rtcColdReset ∧
    decode amCtx (.interface (.schedAdd 7 8#64 9) []) = .ok (.schedAdd 7 8#64 9) ∧
    decode amCtx (.interface (.schedDelete 7) []) = .ok (.schedDelete 7) ∧
    decode amCtx (.interface .schedCheck cs) = .ok (.schedCheck cs) ∧
    decode amCtx (.interface .mapColdReset []) = .ok .mapColdReset ∧
    decode amCtx (.interface (.mapInit true .sic b 512) []) = .ok (.mapInit true .sic b 512) :=
  ⟨rfl, rfl, rfl, rfl, rfl, rfl, rfl, rfl, rfl, rfl, rfl, rfl, rfl, rfl, rfl⟩

/-- Words of spec/opcode_table.json. -/
theorem test_decodeTableWord :
    decodeTableWord 16 4266 = some (.flashUnlock1 m0 0x555) ∧ decodeTableWord 16 4437 = some (.flashUnlock2 m0 0x2AA) ∧
    decodeTableWord 16 5648 = some (.flashChipErase m0 0x555) ∧ decodeTableWord 16 53296 = some (.flashSectorEraseMore m0 0) ∧
    decodeTableWord 16 6656 = some (.flashAtmelData m0 0 0#8) ∧ decodeTableWord 8 19 = some .rtcRead ∧
    decodeTableWord 8 5 = some .eeRdsr ∧ decodeTableWord 16 54528 = some (.mapCtlRead 0xD500#16) := by decide

/-! ### The step -/

/-- A placed word runs as the first instruction after reset. -/
theorem test_step_placedWord :
    (seen (step (State.reset.withFetchWord 16 4266))).map (fun x => x.2.1) = some .unlock1 ∧
    (seen (step (State.reset.withFetchWord 16 5440))).map (fun x => x.2.1) = some .idle ∧
    (eeOf (step (State.reset.withFetchWord 8 6))).map (fun e => e.wel) = some true ∧
    (rtcOf (step (State.reset.withFetchWord 8 20))).map (fun r => r.cmd) = some .unlockKey ∧
    resultOf (step (State.reset.withFetchWord 16 54528)) = some (.cpuByte 0xFF#8) := by decide

/-- R6: with no call pending nothing happens. -/
theorem test_step_idle : nextOf (step State.reset) = some State.reset := rfl

/-- R390, R345: the mapper of the reset state is the one MAP_INIT makes of a blank image, its calls apart. -/
theorem test_reset_is_boot :
    (nextOf (exec (.mapInit true .megaCart512 { id := 0, size := 0x80000, cells := [] } 512) State.reset)).map
      (fun t => (t.mapper.type, t.mapper.size, t.mapper.regs.bank, t.mapper.installed, t.mapper.chips.length)) =
    some (State.reset.mapper.type, State.reset.mapper.size, State.reset.mapper.regs.bank, State.reset.mapper.installed, 1) := by
  decide

/-- R25: the owner clears `dirty` before its call. -/
theorem test_step_ownerClear :
    (chipOf_ (step { machine { am with dirty := true, writeActivity := true } with
      input := [{ now := 5#64, clock := (machine am).clock
                  ownerClears := [{ chip := m0, dirty := true, activity := false }]
                  call := .chip m0 5 none, handlerCalls := [] }] })).map (fun c => (c.dirty, c.writeActivity)) =
    some (false, true) := by decide

/-- R71: the access is reduced mod `cap` (V-F12). -/
theorem test_step_chipRead :
    resultOf (step (machineCall (machine am) (.chip m0 0x80100 none))) = some (.flashRead 0xF0#8 false) := by decide

/-! ### Flash reads -/

theorem test_readNormal : resultOf (exec (.flashReadNormal m0 0x100) (machine am)) = some (.flashRead 0xF0#8 false) := by
  decide

/-- V-E04: Normal at the deadline. -/
theorem test_readNormal_expiry :
    seen (exec (.flashReadNormal m0 0x12345)
      (machine { am with readMode := .sectorEraseStatus, eraseDeadline := 1000#64, multiEraseOpen := true })) =
    some (.normal, .idle, .flashRead 0xFF#8 true) := by decide

/-- V-F07. -/
theorem test_readAutoselect :
    [0x7FFFC, 0x7FFFD, 0x2].map (fun a => resultOf (exec (.flashReadAutoselect m0 a) (machine { am with readMode := .autoselect }))) =
    [0x01#8, 0xA4#8, 0x00#8].map (fun v => some (.flashRead v true)) := by decide

/-- V-W11. -/
theorem test_readAutoselect_spansion :
    [0x00, 0x01, 0x02, 0x03, 0x1C, 0x1D, 0x1E, 0x1F].map (fun a => idByte glProfile.ids a) =
    [0x01#8, 0x00#8, 0x7E#8, 0x22#8, 0x21#8, 0x22#8, 0x01#8, 0x22#8].map some ∧ idByte glProfile.ids 0x06 = none := by
  decide

/-- V-P03: the complement of the byte addressed; the mode ends after one read. -/
theorem test_readWriteStatus :
    seen (exec (.flashReadWriteStatus m0 0x100) (machine { am with readMode := .writeStatusPending })) =
    some (.normal, .idle, .flashRead 0x0F#8 true) := by decide

/-- V-E02: the old toggle bits are returned; R134: bits 6 and 2 of the base are clear, whatever the parameter holds. -/
theorem test_readEraseStatus :
    let o := exec (.flashReadEraseStatus m0 0) (machine { am with readMode := .sectorEraseStatus, eraseDeadline := 1001#64 })
    seen o = some (.sectorEraseStatus, .idle, .flashRead 0x00#8 true) ∧
    (chipOf_ o).map (fun c => c.toggleBits) = some 0x44#8 ∧
    ({ params with eraseStatusBits := 0xFF#8 } : Params).eraseStatusBase = 0xBB#8 := by decide

/-- V-A05: the read closes the page and returns the complement. -/
theorem test_atmelClose :
    seen (exec (.flashAtmelClose m0 0x1001) (machine { at_ with
      img := [(0x1001, 0x34#8)], readMode := .writeStatusPending, phase := .atmelPageLoad, atmelOpen := true
      atmelBase := 0x1000, atmelLoaded := Vector.replicate 256 true })) =
    some (.normal, .idle, .flashRead 0xCB#8 true) := by decide +kernel

/-! ### Flash writes -/

/-- V-F13. -/
theorem test_reset1 :
    seen (exec (.flashReset1 m0 0x9999) (machine { am with readMode := .autoselect })) =
    some (.normal, .idle, .flashWrite true) := by decide

/-- V-F02: bits above 10 are ignored. -/
theorem test_unlock1 :
    seen (exec (.flashUnlock1 m0 0x40555) (machine am)) = some (.normal, .unlock1, .flashWrite false) := by decide

theorem test_unlock2 :
    seen (exec (.flashUnlock2 m0 0x2AA) (machine { am with phase := .unlock1 })) =
    some (.normal, .unlock2, .flashWrite false) := by decide

/-- V-F04: the row at another address aborts. -/
theorem test_unlock2_address :
    seen (exec (.flashUnlock2 m0 0x2AB) (machine { am with phase := .unlock1 })) =
    some (.normal, .idle, .flashWrite false) := by decide

/-- V-F06. -/
theorem test_autoselect :
    seen (exec (.flashAutoselect m0 0x555) (machine { am with phase := .unlock2 })) =
    some (.autoselect, .idle, .flashWrite true) := by decide

theorem test_programSetup :
    seen (exec (.flashProgramSetup m0 0x555) (machine { am with phase := .unlock2 })) =
    some (.normal, .programData, .flashWrite false) := by decide

/-- V-A01: the page is not open yet. -/
theorem test_atmelSetup :
    (chipOf_ (exec (.flashAtmelSetup m0 0x5555) (machine { at_ with phase := .unlock2, atmelOpen := true }))).map
      (fun c => (c.phase, c.atmelOpen)) = some (.atmelPageLoad, false) := by decide

theorem test_eraseSetup :
    seen (exec (.flashEraseSetup m0 0x555) (machine { am with phase := .unlock2 })) =
    some (.normal, .eraseSetup, .flashWrite false) := by decide

/-- V-F09. -/
theorem test_reset3 :
    seen (exec (.flashReset3 m0 0) (machine { am with phase := .unlock2, readMode := .autoselect })) =
    some (.normal, .idle, .flashWrite true) := by decide

/-- V-W01. -/
theorem test_wbLoad :
    seen (exec (.flashWbLoad m0 0x20000) (machine { gl with phase := .unlock2 })) =
    some (.normal, .wbCount, .flashWrite false) := by decide

/-- V-P01. -/
theorem test_programData :
    let o := exec (.flashProgramData m0 0x100 0x3C#8) (machine { am with phase := .programData })
    byteOf 0x100 o = some 0x30#8 ∧ seen o = some (.writeStatusPending, .idle, .flashWrite true) ∧
    (chipOf_ o).map (fun c => (c.dirty, c.writeActivity, c.img)) = some (true, true, [(0x100, 0x30#8)]) := by decide

/-- V-P07: a 0 never becomes 1. -/
theorem test_programData_zero :
    byteOf 0x10 (exec (.flashProgramData m0 0x10 0xFF#8) (machine { am with phase := .programData, img := [(0x10, 0#8)] })) =
    some 0x00#8 := by decide

theorem test_eraseUnlock1 :
    seen (exec (.flashEraseUnlock1 m0 0x555) (machine { am with phase := .eraseSetup })) =
    some (.normal, .eraseUnlock1, .flashWrite false) := by decide

theorem test_eraseUnlock2 :
    seen (exec (.flashEraseUnlock2 m0 0x2AA) (machine { am with phase := .eraseUnlock1 })) =
    some (.normal, .eraseUnlock2, .flashWrite false) := by decide

/-- V-E09. -/
theorem test_chipErase :
    (chipOf_ (exec (.flashChipErase m0 0x555) (machine { am with phase := .eraseUnlock2 }))).map
      (fun c => (c.img, c.readMode, c.eraseDeadline, c.multiEraseOpen)) =
    some ([], .sectorEraseStatus, 1100#64, false) := by decide

/-- V-E01, T3: the sector of `0x12345` is `[0x10000, 0x20000)`. -/
theorem test_sectorErase :
    (chipOf_ (exec (.flashSectorErase m0 0x12345) (machine { am with
      phase := .eraseUnlock2, img := [(0xFFFF, 0#8), (0x10000, 0#8), (0x1FFFF, 0#8), (0x20000, 0#8)] }))).map
      (fun c => (c.img, c.readMode, c.eraseDeadline, c.multiEraseOpen)) =
    some ([(0xFFFF, 0#8), (0x20000, 0#8)], .sectorEraseStatus, 1100#64, true) := by decide

/-- R156, R195: the sectors of a table, at the ends of each; a size that may not stand where it comes is no sector. -/
theorem test_sectorOf_table :
    [0, 0x77FFF, 0x78000, 0x79FFF, 0x7A000, 0x7C000, 0x7FFFF].map (sectorOf bootProfile) =
      [(0, 0x78000), (0, 0x78000), (0x78000, 0x2000), (0x78000, 0x2000), (0x7A000, 0x2000), (0x7C000, 0x4000),
        (0x7C000, 0x4000)] ∧
    sectorOf { amProfile with sectors := .table [0x2000, 0x4000, 0, 0x2000] } 0x2000 = (0x2000, 0x2000) := by decide

/-- V-W04 and V-W03. -/
theorem test_wbCount :
    (chipOf_ (exec (.flashWbCount m0 0x20000 0x1F#8) (machine { gl with phase := .wbCount }))).map
      (fun c => (c.phase, c.wbRemaining)) = some (.wbData, 32) ∧
    (chipOf_ (exec (.flashWbCount m0 0x20000 0x20#8) (machine { gl with phase := .wbCount }))).map (fun c => c.phase) =
    some .idle := by decide

/-- V-W05, the second datum: the AND of both. -/
theorem test_wbData :
    (chipOf_ (exec (.flashWbData m0 0x20005 0x3F#8) (machine { gl with
      phase := .wbData, wbRemaining := 1, wbBase := 0x20000, wbBaseValid := true
      wbuf := (Vector.replicate 32 0xFF#8).set 5 0xF3#8 }))).map
      (fun c => (c.wbuf[5], c.wbuf[6], c.phase)) = some (0x33#8, 0xFF#8, .wbConfirm) := by decide

/-- V-W07: a datum of another page. -/
theorem test_wbData_page :
    seen (exec (.flashWbData m0 0x20025 0x00#8) (machine { gl with
      phase := .wbData, wbRemaining := 1, wbBase := 0x20000, wbBaseValid := true })) =
    some (.normal, .idle, .flashWrite false) := by decide

/-- V-W06. -/
theorem test_wbConfirm :
    (chipOf_ (exec (.flashWbConfirm m0 0x20000 0x29#8) (machine { gl with
      phase := .wbConfirm, wbBase := 0x20000, wbBaseValid := true, wbuf := (Vector.replicate 32 0xFF#8).set 5 0x33#8
      img := [(0x20005, 0xF0#8), (0x20006, 0x12#8)] }))).map (fun c => (c.img, c.readMode, c.dirty)) =
    some ([(0x20005, 0x30#8), (0x20006, 0x12#8)], .writeStatusPending, true) := by decide

/-- V-A02: the byte replaces. -/
theorem test_atmelData :
    (chipOf_ (exec (.flashAtmelData m0 0x1000 0xFF#8) (machine { at_ with phase := .atmelPageLoad }))).map
      (fun c => (c.byteAt 0x1000, c.atmelOpen, c.atmelBase, c.readMode, c.phase)) =
    some (0xFF#8, true, 0x1000, .writeStatusPending, .atmelPageLoad) := by decide

/-- V-A04: the byte of another page is not programmed. -/
theorem test_atmelData_page :
    let o := exec (.flashAtmelData m0 0x1100 0x56#8) (machine { at_ with
      phase := .atmelPageLoad, readMode := .writeStatusPending, atmelOpen := true, atmelBase := 0x1000
      atmelLoaded := Vector.replicate 256 true })
    seen o = some (.writeStatusPending, .idle, .flashWrite true) ∧ byteOf 0x1100 o = some 0xFF#8 := by decide +kernel

/-- V-F10: `$F0` at phase 1 aborts and keeps the mode. -/
theorem test_abort :
    seen (exec (.flashAbort m0 0 0xF0#8) (machine { am with phase := .unlock1, readMode := .autoselect })) =
    some (.autoselect, .idle, .flashWrite false) := by decide

/-- V-E05. -/
theorem test_sectorEraseMore :
    (chipOf_ (exec (.flashSectorEraseMore m0 0x25000) (machine { am with
      readMode := .sectorEraseStatus, eraseDeadline := 1050#64, multiEraseOpen := true
      img := [(0x20000, 0#8), (0x30000, 0#8)] }))).map (fun c => (c.img, c.eraseDeadline, c.readMode)) =
    some ([(0x30000, 0#8)], 1100#64, .sectorEraseStatus) := by decide

/-- V-E07. -/
theorem test_eraseStatusExit :
    seen (exec (.flashEraseStatusExit m0 0x555 0xAA#8) (machine { am with
      readMode := .sectorEraseStatus, eraseDeadline := 1001#64, multiEraseOpen := true })) =
    some (.normal, .idle, .flashWrite true) := by decide

/-- V-E08: at the deadline the window has ended, and the byte erases nothing. -/
theorem test_eraseStatusExit_expired :
    let o := exec (.flashSectorEraseMore m0 0x100) (machine { am with
      readMode := .sectorEraseStatus, eraseDeadline := 1000#64, multiEraseOpen := true })
    seen o = some (.normal, .idle, .flashWrite true) ∧ byteOf 0x100 o = some 0xF0#8 := by decide

/-- V-L01 to V-L03. -/
theorem test_flashInit :
    faultOf (exec (.flashInit true { id := 9, size := 0x40000, cells := [] } .am29f040b) (machine am)) = some .initSizeMismatch ∧
    faultOf (exec (.flashInit true { id := 1, size := 0x80000, cells := [] } .am29f040b) (machine am)) = some .sharedImage ∧
    resultOf (exec (.flashInit true { id := 9, size := 0x80000, cells := [(5, 0x77#8)] } .am29f040b) (machine am)) =
      some (.chip 0) := by decide

/-- V-E12. -/
theorem test_flashColdReset :
    (chipOf_ (exec (.flashColdReset m0) (machine { am with
      readMode := .sectorEraseStatus, toggleBits := 0x44#8, dirty := true }))).map
      (fun c => (c.readMode, c.toggleBits, c.dirty, c.img)) = some (.normal, 0x00#8, true, [(0x100, 0xF0#8)]) := by decide

/-! ### The scheduler -/

/-- V-S02: equal deadlines keep insertion order. -/
theorem test_schedAdd :
    queueOf (exec (.schedAdd 5 50#64 0) (machineQueue 100#64
      [{ id := 3, deadline := 120#64, handler := 0 }, { id := 7, deadline := 150#64, handler := 0 }])) =
    some [(3, 120#64), (7, 150#64), (5, 150#64)] := by decide

/-- V-S03: the old entry of the id is removed. -/
theorem test_schedAdd_replaces :
    queueOf (exec (.schedAdd 7 10#64 0) (machineQueue 100#64
      [{ id := 3, deadline := 120#64, handler := 0 }, { id := 7, deadline := 150#64, handler := 0 }])) =
    some [(7, 110#64), (3, 120#64)] := by decide

/-- V-S04. -/
theorem test_schedDelete :
    queueOf (exec (.schedDelete 3) (machineQueue 100#64
      [{ id := 7, deadline := 110#64, handler := 0 }, { id := 3, deadline := 120#64, handler := 0 }])) =
    some [(7, 110#64)] := by decide

/-- P7, step 6: handler 2 runs across the wrap and adds entry 3. R300: a READ of a handler is refreshed at that call's own
wall clock. -/
theorem test_schedCheck :
    queueOf (exec (.schedCheck [calls (.schedAdd 3 4#64 0)]) (machineQueue (0#64 - 5#64)
      [{ id := 2, deadline := 0#64 - 5#64, handler := 1 }, { id := 1, deadline := 20#64, handler := 0 }])) =
    some [(3, 0#64 - 1#64), (1, 20#64)] ∧
    (rtcOf (exec (.schedCheck [{ clock := { clock0 with sec := 59 }, call := .wire .rtc true false false }])
      { machineRtc Rtc.initial .ramReadAddr 0x01#8 with
        sched := { queue := [{ id := 2, deadline := 1000#64, handler := 0 }], inHandler := none } })).map
      (fun r => r.ramAt 1) = some 0x59#8 := by decide

/-- V-S09: the handler calls `Add` with its own id. -/
theorem test_schedCheck_reentrant :
    faultOf (exec (.schedCheck [calls (.schedAdd 7 5#64 0)]) (machineQueue 110#64
      [{ id := 7, deadline := 110#64, handler := 0 }])) = some .schedulerReentrantSameId := by decide

/-! ### The bit-serial link -/

/-- V-B03: a falling edge while selected, from a link whose clock was high when it was deselected. -/
theorem test_writeState :
    (eeOf (exec (.serialWriteState .eeprom true false false)
      { machine am with eeprom := { Eeprom.initial with link := { Link.initial with clk := true } } })).map
      (fun e => e.link.bitCount) = some 1 := by decide

/-- R241: a deselection clears the link and ends the transaction. -/
theorem test_writeState_deselect :
    (rtcOf (exec (.serialWriteState .rtc false true false)
      { machine am with rtc := { Rtc.initial with
          link := { Link.initial with ce := true, bitCount := 3, outBit := false }, cmd := .eeWriteData
          wel := true, writeIssued := true, unlock := 1 } })).map (fun r => (r.link, r.cmd, r.wel, r.unlock)) =
    some ({ Link.initial with clk := true }, .idle, false, 1) := by decide

/-- V-B01. -/
theorem test_readState : resultOf (exec (.serialReadState .rtc) (machine am)) = some (.bit true) := by decide

/-! ### The EEPROM -/

/-- V-EE01 and V-EE02. -/
theorem test_eeWren :
    (eeOf (exec .eeWren (machineEe Eeprom.initial .idle 0x06#8))).map (fun e => (e.wel, e.cmd)) = some (true, .done) := by
  decide

theorem test_eeWrdi :
    (eeOf (exec .eeWrdi (machineEe { Eeprom.initial with wel := true } .idle 0x04#8))).map (fun e => (e.wel, e.cmd)) =
    some (false, .done) := by decide

/-- V-EE04, P4: the status `$0A` is loaded: the first bit out is 0, the rest follows. -/
theorem test_eeRdsr :
    (eeOf (exec .eeRdsr (machineEe { Eeprom.initial with wel := true, bp := 2#2 } .idle 0x05#8))).map
      (fun e => (e.cmd, e.link.outBit, e.link.outShift)) = some (.readStatus, false, 0x15#8) := by decide

/-- V-EE06: the status byte. -/
theorem test_eeWrsr :
    (eeOf (exec .eeWrsr (machineEe Eeprom.initial .idle 0x01#8))).map (fun e => e.cmd) = some .writeStatus ∧
    (eeOf (exec (.serialWriteState .eeprom true false false)
      (machineEe { Eeprom.initial with wel := true } .writeStatus 0x8E#8))).map (fun e => (e.bp, e.writeIssued)) =
    some (3#2, true) := by decide

/-- V-EE07: the address wraps at 256. -/
theorem test_eeRead :
    (eeOf (exec .eeRead (machineEe Eeprom.initial .idle 0x03#8))).map (fun e => e.cmd) = some .readAddr ∧
    (eeOf (exec (.serialWriteState .eeprom true false false)
      (machineEe { Eeprom.initial with mem := [(0xFF, 0x12#8)] } .readAddr 0xFF#8))).map
      (fun e => (e.addr, e.link.outShift)) = some (0x00#8, 0x25#8) := by decide

/-- V-EE08, V-EE09: the page wrap, and a protected address. -/
theorem test_eeWrite :
    (eeOf (exec .eeWrite (machineEe Eeprom.initial .idle 0x02#8))).map (fun e => e.cmd) = some .writeAddr ∧
    (eeOf (exec (.serialWriteState .eeprom true false false)
      (machineEe { Eeprom.initial with wel := true, addr := 0x0F#8 } .writeData 0xBB#8))).map
      (fun e => (e.mem, e.addr)) = some ([(0x0F, 0xBB#8)], 0x00#8) ∧
    (eeOf (exec (.serialWriteState .eeprom true false false)
      (machineEe { Eeprom.initial with wel := true, bp := 1#2, addr := 0xC0#8 } .writeData 0x00#8))).map
      (fun e => (e.mem, e.addr, e.writeIssued)) = some ([], 0xC1#8, false) := by decide

/-- V-EE12. -/
theorem test_eeUnknown :
    (eeOf (exec (.eeUnknown 0x07#8) (machineEe { Eeprom.initial with wel := true } .idle 0x07#8))).map
      (fun e => (e.wel, e.cmd, e.link.outBit)) = some (true, .done, true) := by decide

/-- V-EE16. -/
theorem test_eeLoad :
    faultOf (exec (.eeLoad (List.replicate 255 0#8) 0#2) (machine am)) = some .loadSizeMismatch ∧
    (eeOf (exec (.eeLoad (0x12#8 :: List.replicate 255 0xFF#8) 1#2) (machine am))).map (fun e => (e.mem, e.bp)) =
    some ([(0, 0x12#8)], 1#2) := by decide +kernel

theorem test_eeSave :
    resultOf (exec .eeSave { machine am with eeprom := { Eeprom.initial with mem := [(0, 0x12#8)], bp := 1#2 } }) =
    some (.eeImage (0x12#8 :: List.replicate 255 0xFF#8) 1#2) := by decide +kernel

/-- V-EE15. -/
theorem test_eeColdReset :
    (eeOf (exec .eeColdReset { machine am with
      eeprom := { Eeprom.initial with mem := [(0, 0x12#8)], bp := 3#2, wel := true, cmd := .writeData } })).map
      (fun e => (e.mem, e.bp, e.wel, e.cmd)) = some ([(0, 0x12#8)], 3#2, false, .idle) := by decide

/-! ### The RTC -/

/-- R301: the opcode, then the address byte answers the addressed byte. -/
theorem test_rtcEeRead :
    (rtcOf (exec .rtcEeRead (machineRtc { Rtc.initial with unlock := 2 } .idle 0x03#8))).map (fun r => (r.cmd, r.unlock)) =
    some (.eeReadAddr, 0) ∧
    (rtcOf (exec (.serialWriteState .rtc true false false)
      (machineRtc { Rtc.initial with ee := [(0xFF, 0x12#8)] } .eeReadAddr 0xFF#8))).map
      (fun r => (r.addr, r.link.outShift)) = some (0x00#8, 0x25#8) := by decide

/-- V-RT10: the page is eight bytes. -/
theorem test_rtcEeWrite :
    (rtcOf (exec .rtcEeWrite (machineRtc Rtc.initial .idle 0x02#8))).map (fun r => r.cmd) = some .eeWriteAddr ∧
    (rtcOf (exec (.serialWriteState .rtc true false false)
      (machineRtc { Rtc.initial with wel := true, addr := 0x07#8 } .eeWriteData 0x11#8))).map
      (fun r => (r.ee, r.addr, r.writeIssued)) = some ([(7, 0x11#8)], 0x00#8, true) := by decide

theorem test_rtcEeWrdi :
    (rtcOf (exec .rtcEeWrdi (machineRtc { Rtc.initial with wel := true, unlock := 1 } .idle 0x04#8))).map
      (fun r => (r.wel, r.unlock, r.cmd)) = some (false, 0, .done) := by decide

/-- V-RT18. -/
theorem test_rtcEeWren :
    (rtcOf (exec .rtcEeWren (machineRtc { Rtc.initial with unlock := 1 } .idle 0x06#8))).map
      (fun r => (r.wel, r.unlock, r.cmd)) = some (true, 1, .done) := by decide

/-- V-RT12: status `$06`. -/
theorem test_rtcSrRead :
    (rtcOf (exec .rtcSrRead (machineRtc { Rtc.initial with wel := true, bp := 1#2, unlock := 1 } .idle 0x05#8))).map
      (fun r => (r.cmd, r.link.outShift, r.unlock)) = some (.readStatus, 0x0D#8, 1) := by decide

/-- V-RT13. -/
theorem test_rtcSrWrite :
    (rtcOf (exec .rtcSrWrite (machineRtc Rtc.initial .idle 0x01#8))).map (fun r => r.cmd) = some .writeStatus ∧
    (rtcOf (exec (.serialWriteState .rtc true false false)
      (machineRtc { Rtc.initial with wel := true } .writeStatus 0x04#8))).map (fun r => (r.bp, r.writeIssued, r.cmd)) =
    some (1#2, true, .done) := by decide

/-- V-RT01: 2024-02-29, Thursday, 13:45:07; the address byte `$01` answers the seconds. -/
theorem test_rtcRead :
    (rtcOf (exec (.serialWriteState .rtc true false false) (machineRtc Rtc.initial .ramReadAddr 0x01#8))).map
      (fun r => ([1, 2, 3, 4, 5, 6, 7].map r.ramAt, r.addr, r.link.outShift)) =
    some ([0x07#8, 0x45#8, 0x13#8, 0x05#8, 0x29#8, 0x22#8, 0x24#8], 0x02#8, 0x0F#8) := by decide

/-- V-RT05: bit 7 of the seconds is kept; V-RT06: the address wraps at `$5F`. -/
theorem test_rtcRead_burst :
    (rtcOf (exec (.serialWriteState .rtc true false false)
      { machineRtc { Rtc.initial with ram := [(1, 0x80#8)] } .ramReadAddr 0x5F#8 with
        clock := { (machine am).clock with sec := 59 } })).map (fun r => (r.ramAt 1, r.addr)) =
    some (0xD9#8, 0x00#8) := by decide

/-- V-RT08 and V-RT09. -/
theorem test_rtcWrite :
    (rtcOf (exec .rtcWrite (machineRtc Rtc.initial .idle 0x12#8))).map (fun r => r.cmd) = some .ramWriteAddr ∧
    (rtcOf (exec (.serialWriteState .rtc true false false)
      (machineRtc { Rtc.initial with addr := 0x20#8 } .ramWriteData 0xAB#8))).map (fun r => r.ram) = some [(0x20, 0xAB#8)] ∧
    (rtcOf (exec (.serialWriteState .rtc true false false)
      (machineRtc { Rtc.initial with addr := 0x60#8 } .ramWriteData 0xAB#8))).map (fun r => (r.ram, r.addr)) =
    some ([], 0x61#8) := by decide

/-- V-RT14, V-RT15. -/
theorem test_rtcUnlock :
    (rtcOf (exec .rtcUnlock (machineRtc { Rtc.initial with unlock := 1 } .idle 0x14#8))).map (fun r => (r.cmd, r.unlock)) =
    some (.unlockKey, 1) ∧
    (rtcOf (exec (.serialWriteState .rtc true false false)
      (machineRtc Rtc.initial .unlockKey 0xAA#8))).map (fun r => r.unlock) = some 0 ∧
    (rtcOf (exec (.serialWriteState .rtc true false false)
      (machineRtc { Rtc.initial with unlock := 1 } .unlockKey 0xAA#8))).map (fun r => r.unlock) = some 2 := by decide

/-- V-RT16, V-RT17. -/
theorem test_rtcIdWrite :
    (rtcOf (exec .rtcIdWrite (machineRtc { Rtc.initial with unlock := 2 } .idle 0x32#8))).map (fun r => (r.cmd, r.unlock)) =
    some (.done, 0) ∧
    (rtcOf (exec .rtcIdWrite (machineRtc { Rtc.initial with unlock := 2, wel := true } .idle 0x32#8))).map
      (fun r => (r.cmd, r.unlock)) = some (.idWriteAddr, 0) ∧
    (rtcOf (exec (.serialWriteState .rtc true false false)
      (machineRtc { Rtc.initial with wel := true, addr := 0x0F#8 } .idWriteData 0xDE#8))).map (fun r => (r.id, r.addr)) =
    some ([(0xF, 0xDE#8)], 0x00#8) := by decide

/-- V-RT20: the index is the low four bits. -/
theorem test_rtcIdRead :
    (rtcOf (exec .rtcIdRead (machineRtc Rtc.initial .idle 0x33#8))).map (fun r => r.cmd) = some .idReadAddr ∧
    (rtcOf (exec (.serialWriteState .rtc true false false)
      (machineRtc { Rtc.initial with id := [(0, 0xDE#8)] } .idReadAddr 0x10#8))).map
      (fun r => (r.link.outBit, r.link.outShift, r.addr)) = some (true, 0xBD#8, 0x01#8) := by decide

/-- V-RT21. -/
theorem test_rtcClrRam :
    (rtcOf (exec .rtcClrRam (machineRtc { Rtc.initial with
      ram := [(0x05, 0x12#8), (0x20, 0xAB#8), (0x5F, 0x01#8)] } .idle 0x54#8))).map (fun r => r.ram) =
    some [(0x05, 0x12#8)] := by decide

/-- V-RT22. -/
theorem test_rtcUnknown :
    (rtcOf (exec (.rtcUnknown 0x99#8) (machineRtc { Rtc.initial with unlock := 1 } .idle 0x99#8))).map
      (fun r => (r.unlock, r.cmd)) = some (0, .done) := by decide

/-- V-RT24. -/
theorem test_rtcLoad :
    faultOf (exec (.rtcLoad (List.replicate 0x5F 0#8) (List.replicate 0x100 0#8) (List.replicate 0x10 0#8) 0#2) (machine am)) =
      some .loadSizeMismatch ∧
    (rtcOf (exec (.rtcLoad (List.replicate 0x60 0#8) (List.replicate 0x100 0xFF#8) (0x01#8 :: List.replicate 0xF 0xFF#8) 2#2)
      (machine am))).map (fun r => (r.ram, r.ee, r.id, r.bp)) = some ([], [], [(0, 0x01#8)], 2#2) := by decide +kernel

theorem test_rtcSave :
    resultOf (exec .rtcSave { machine am with rtc := { Rtc.initial with bp := 1#2 } }) =
    some (.rtcImage (List.replicate 0x60 0#8) (List.replicate 0x100 0xFF#8) (List.replicate 0x10 0xFF#8) 1#2) := by
  decide +kernel

/-- V-RT23. -/
theorem test_rtcColdReset :
    (rtcOf (exec .rtcColdReset { machine am with
      rtc := { Rtc.initial with unlock := 2, wel := true, ram := [(1, 1#8)], bp := 1#2 } })).map
      (fun r => (r.unlock, r.wel, r.ram, r.bp)) = some (0, false, [(1, 1#8)], 1#2) := by decide

/-! ### The mapper -/

/-- R331, and V-M08: a disabled window is not served. -/
theorem test_mapWinRead :
    resultOf (exec (.mapWinRead 0xA100#16) (machine am)) = some (.cpuByte 0xF0#8) ∧
    resultOf (exec (.mapWinRead 0x8000#16) (machine am)) = some .notServed := by decide

/-- V-M07: at bank 3 the write reaches the chip at `$C555`. -/
theorem test_mapWinWrite :
    seen (exec (.mapWinWrite 0xA555#16 0xAA#8)
      (machineWith { mapperOn .megaCart512 am { regs0 with bank := 3#8 } with installed := some (megaAt 0xC000) })) =
    some (.normal, .unlock1, .none) := by decide

/-- V-M10: a SIC! window whose write destination is none. -/
theorem test_mapWinWrite_ignored :
    seen (exec (.mapWinWrite 0xA555#16 0xAA#8) (machineWith { mapperOn .sic am regs0 with
      installed := some ((mapperOn .sic am regs0).layout params) })) = some (.normal, .idle, .none) := by decide

/-- V-M05, and V-M13: a MaxFlash read selects. -/
theorem test_mapCtlRead :
    resultOf (exec (.mapCtlRead 0xD500#16) (machine am)) = some (.cpuByte 0xFF#8) ∧
    (nextOf (exec (.mapCtlRead 0xD503#16)
      (machineWith { mapperOn .maxFlash1 am regs0 with installed := some (megaAt 0) }))).map
      (fun t => (t.mapper.regs.bank, t.mapper.installed, t.draws, t.out.calls)) =
    some (3#8, some (megaAt 0x6000), 1,
      [.setFlashRoutines .wa0bf, .setFlash 0xA000 0xBFFF, .cartEnable .wa0bf]) := by decide

/-- V-M02 and V-M04: the calls in order, and none for a bank of the same base. -/
theorem test_mapCtlWrite :
    (nextOf (exec (.mapCtlWrite 0xD500#16 3#8) (machine am))).map (fun t => (t.mapper.installed, t.out.calls)) =
      some (some (megaAt 0xC000), [.setFlashRoutines .wa0bf, .setFlash 0xA000 0xBFFF, .cartEnable .wa0bf]) ∧
    (nextOf (exec (.mapCtlWrite 0xD500#16 35#8)
      (machineWith { mapperOn .megaCart512 am { regs0 with bank := 3#8 } with installed := some (megaAt 0xC000) }))).map
      (fun t => (t.mapper.regs.bank, t.out.calls)) = some (35#8, []) := by decide

/-- V-M11 and V-M12. -/
theorem test_sicControl :
    (nextOf (exec (.mapCtlWrite 0xD500#16 0xA1#8) (machineWith (mapperOn .sic am regs0)))).map (fun t => t.mapper.installed) =
      some (some { w809f := { readSrc := .flash 0, writeDst := .flash 0, base := 0x4000, writeBase := 0x4000 }
                   wa0bf := { readSrc := .flash 0, writeDst := .flash 0, base := 0x6000, writeBase := 0x6000 } }) ∧
    (nextOf (exec (.mapCtlWrite 0xD500#16 0x40#8) (machineWith (mapperOn .sic am regs0)))).map (fun t => t.mapper.installed) =
      some (some { w809f := Desc.disabled, wa0bf := Desc.disabled }) := by decide

/-- V-M15, V-M16 and V-M18. -/
theorem test_theCartLayout :
    ((mapperOn .theCart am { regs0 with cart := { cartParams.defaults with bank0 := 5#16 } }).layout params).wa0bf =
      { readSrc := .flash 0, writeDst := .none, base := 0xA000, writeBase := 0xA000 } ∧
    ((mapperOn .theCart am { regs0 with cart := { cartParams.defaults with en0 := false } }).layout params).wa0bf =
      Desc.disabled ∧
    ((mapperOn .theCart am { regs0 with cart := { cartParams.defaults with mode := 9#8 } }).layout params).wa0bf =
      Desc.disabled := by decide

/-- R351 to R353: a native register, a locked one, the serial port, and a legacy write. R335, R346: reading one bank of RAM and
writing the flash, a bank write that moves the write base alone makes no call. -/
theorem test_theCartControl :
    (nextOf (exec (.mapCtlWrite 0xD500#16 5#8) (machineWith (mapperOn .theCart am regs0)))).map
      (fun t => t.mapper.regs.cart.bank0) = some 5#16 ∧
    (nextOf (exec (.mapCtlWrite 0xD503#16 2#8) (machineWith (mapperOn .theCart am
      { regs0 with cart := { cartParams.defaults with lock := 1#8 } })))).map (fun t => t.mapper.regs.cart.mode) = some 1#8 ∧
    (nextOf (exec (.mapCtlWrite 0xD505#16 0x80#8) (machineWith (mapperOn .theCart am regs0)))).map
      (fun t => t.eeprom.link.ce) = some true ∧
    (nextOf (exec (.mapCtlWrite 0xD580#16 1#8) (machineWith (mapperOn .theCart am regs0)))).map
      (fun t => (t.mapper.regs.cart.bank0, t.mapper.regs.cart.en0, t.mapper.regs.cart.en1)) = some (6#16, true, false) ∧
    (let m := mapperOn .theCart am { regs0 with cart := { cartParams.defaults with ramRead := true, flashWrite := true } }
     (nextOf (exec (.mapCtlWrite 0xD500#16 1#8) (machineWith { m with installed := some (m.layout params) }))).map
      (fun t => (t.mapper.installed.map (fun l => (l.wa0bf.base, l.wa0bf.writeBase)), t.out.calls)) =
      some (some (0, 0x2000), [])) := by
  decide

/-- V-M09. -/
theorem test_mapColdReset :
    (nextOf (exec .mapColdReset (machine am))).map (fun t => (t.mapper.regs.bank, t.out.calls)) =
    some (0#8, [.cartDisable .w809f, .setFlashRoutines .wa0bf, .setFlash 0xA000 0xBFFF, .cartEnable .wa0bf]) := by
  decide

/-- V-M01, and V-M06: a 4 MB image at bank 254. -/
theorem test_mapInit :
    (nextOf (exec (.mapInit true .megaCart512 { id := 9, size := 0x80000, cells := [] } 512) (machine am))).map
      (fun t => (t.mapper.installed, t.out.calls)) =
    some (some (megaAt 0), [.cartDisable .w809f, .setFlashRoutines .wa0bf, .setFlash 0xA000 0xBFFF, .cartEnable .wa0bf]) ∧
    (nextOf (exec (.mapInit true .megaCart4M { id := 9, size := 0x400000, cells := [] } 4096) State.reset)).map
      (fun t => (t.mapper.regs.bank, t.mapper.installed)) = some (254#8, some (megaAt 0x3F8000)) := by decide

/-! ### Witnesses: every hypothesis of every statement can be met

Each theorem shows concrete states and operands that meet all the hypotheses of the clauses of the statement it is named
after, at boundary values of their ranges. -/

/-- A fresh chip is sound when its image is. -/
theorem chip_sound {type : ChipType} {profile : Profile} {buf : Nat} {img : Memory} (h : Memory.wf 0xFF#8 img)
    (hi : ∀ x ∈ img, x.1 < profile.cap) : (Chip.initial type profile buf img).Sound where
  imgCanonical := h
  imgInside := hi
  toggles := .inl rfl
  wbAligned := rfl
  atmelAligned := rfl
  eraseIdle := nofun
  programPhase := nofun
  bufferPhase := by rintro (h | h | h) <;> cases h
  atmelPhase := nofun
  bufferCount := nofun

theorem am_sound : am.Sound := chip_sound (by decide) (by decide)

theorem gl_sound : gl.Sound := chip_sound (by decide) (by decide)

theorem at_sound : at_.Sound := chip_sound (by decide) (by decide)

/-- An empty memory is sound. -/
theorem memory_sound {fill : Byte} {size : Nat} : Memory.Sound fill size [] := ⟨⟨List.Pairwise.nil, nofun⟩, nofun⟩

theorem eeprom_sound : Eeprom.initial.Sound :=
  ⟨fun _ => ⟨rfl, rfl, rfl, rfl⟩, memory_sound, fun _ => rfl, fun _ => rfl, nofun⟩

theorem rtc_sound : Rtc.initial.Sound :=
  ⟨fun _ => ⟨rfl, rfl, rfl, rfl⟩, memory_sound, memory_sound, memory_sound, fun _ => rfl, fun _ => rfl, nofun,
    (by rintro (h | h) <;> cases h), (by rintro (h | h) <;> cases h)⟩

theorem mapper_sound : (machine am).mapper.Sound params where
  chips := by
    intro c hc
    rw [show (machine am).mapper.chips = [am] from rfl, List.mem_singleton] at hc
    rw [hc]
    exact am_sound
  ramCanonical := memory_sound (size := 0) |>.1
  ramInside := fun _ _ hx => absurd hx List.not_mem_nil
  table := fun h => by cases h
  installed := by decide

/-- The machine with a call pending is sound. -/
theorem machine_sound (c : Call) : (machineCall (machine am) c).Sound :=
  ⟨fun _ h => absurd h List.not_mem_nil, mapper_sound, (by simp [machineCall, State.queueFirst, machine, mapperOn]),
    (by
      intro c hc
      rw [show (machineCall (machine am) _).mapper.chips ++ (machineCall (machine am) _).chips = [am] from rfl,
        List.mem_singleton] at hc
      rw [hc]
      rfl),
    List.nodup_nil, rfl, eeprom_sound, rtc_sound⟩

/-- Each check of WellFormed accepts: an unlock address at both ends, each profile, the byte `$30` and another in the erase
status, an unknown opcode, the ends of the windows and of the control page. -/
theorem witness_DecodeEncodeAgree :
    wellFormed amCtx (.flashUnlock1 m0 0x7FD55) = true ∧ wellFormed amCtx (.flashUnlock2 m0 0x2AA) = true ∧
    wellFormed amCtx (.flashProgramSetup m0 0x555) = true ∧ wellFormed atCtx (.flashAtmelSetup m0 0x5555) = true ∧
    wellFormed glCtx (.flashWbConfirm m0 0 0#8) = true ∧ wellFormed atCtx (.flashAtmelClose m0 0) = true ∧
    wellFormed glCtx (.flashSectorEraseMore m0 0) = true ∧ wellFormed glCtx (.flashEraseStatusExit m0 0 0x31#8) = true ∧
    wellFormed amCtx (.eeUnknown 0x00#8) = true ∧ wellFormed amCtx (.rtcUnknown 0xFF#8) = true ∧
    wellFormed amCtx (.mapWinRead 0x8000#16) = true ∧ wellFormed amCtx (.mapWinWrite 0xBFFF#16 0#8) = true ∧
    wellFormed amCtx (.mapCtlRead 0xD500#16) = true ∧ wellFormed amCtx (.mapCtlWrite 0xD5FF#16 0#8) = true := by decide

/-- An access on either side of the windows, which the memory layer answers. -/
theorem witness_EveryFetchDecodes :
    windowOf 0x7FFF#16 = none ∧ inCtlPage (machine am).cfg.ctlPage 0x7FFF#16 = false ∧
    windowOf 0xC000#16 = none ∧ inCtlPage (machine am).cfg.ctlPage 0xC000#16 = false := by decide

/-- A request that decodes, one the memory layer answers, no request, and an owner's clear of a chip that is there and of one
that is not. -/
theorem witness_StepRunsTheDecodedInstruction :
    (machine am).input = [] ∧
    (let s := machineCall (machine am) (.chip m0 5 none)
     let q := (machine am).requestOf (.chip m0 5 none)
     s.input = q :: [] ∧ q.ownerClears = [] ∧
      decode (fetchCtx (s.accept q []) q.call) (fetch (s.accept q []) q.handlerCalls q.call) = .ok (.flashReadNormal m0 5)) ∧
    (let s := machineCall (machine am) (.cpu 0xC000#16 none)
     let q := (machine am).requestOf (.cpu 0xC000#16 none)
     s.input = q :: [] ∧
      decode (fetchCtx (s.accept q []) q.call) (fetch (s.accept q []) q.handlerCalls q.call) = .error (.notServed 0xC000#16)) ∧
    (let q : Request := { (machine am).requestOf (.chip m0 5 none) with
      ownerClears := [{ chip := m0, dirty := true, activity := false }, { chip := .host 7, dirty := true, activity := true }] }
     ({ machine am with input := [q] } : State).input = [q] ∧ (machine am).chipAt m0 = some am ∧
      (machine am).chipAt (.host 7) = none) :=
  ⟨rfl, ⟨rfl, rfl, rfl⟩, ⟨rfl, rfl⟩, rfl, rfl, rfl⟩

theorem witness_StepIsTheHostCall :
    (machineCall (machine am) (.host .eeSave)).input = (machine am).requestOf (.host .eeSave) :: [] := rfl

theorem witness_StepKeepsSound :
    ∃ s t : State, s.Sound ∧ step s = .next t :=
  ⟨machineCall (machine am) (.chip m0 5 none), _, machine_sound _, rfl⟩

theorem witness_BusCyclesNeverStop :
    let s := machineCall (machine am) (.chip m0 5 (some 0xAA#8))
    let q := (machine am).requestOf (.chip m0 5 (some 0xAA#8))
    s.input = q :: [] ∧ Machine.Call.isBusCycle q.call = true ∧
      ∀ r a v, q.call = .chip r a v → (s.chipAt r).isSome = true :=
  ⟨rfl, rfl, by rintro r a v ⟨⟩; rfl⟩

/-- The deadline itself, the cycle before it, and a chip in Normal mode. -/
theorem witness_EraseWindowExpiry :
    (let c := { am with readMode := .sectorEraseStatus, eraseDeadline := 1000#64 }
     c.readMode = .sectorEraseStatus ∧ reached 1000#64 c.eraseDeadline = true ∧ reached 999#64 c.eraseDeadline = false) ∧
    am.readMode ≠ .sectorEraseStatus := by decide

theorem witness_ReadNormalRow :
    ((machine am).chipAt m0 = some am ∧ am.phase ≠ .atmelPageLoad ∧ am.readMode = .normal) ∧
    (let c := { am with readMode := .sectorEraseStatus, eraseDeadline := 1000#64 }
     (machine c).chipAt m0 = some c ∧ c.phase ≠ .atmelPageLoad ∧ c.readMode = .sectorEraseStatus ∧
      reached (machine c).now c.eraseDeadline = true) := ⟨⟨rfl, by decide, rfl⟩, rfl, by decide, rfl, by decide⟩

/-- Both tables, and the addresses where the clauses of each meet. -/
theorem witness_ReadAutoselectRow :
    (let c := { am with readMode := .autoselect }
     (machine c).chipAt m0 = some c ∧ c.phase ≠ .atmelPageLoad ∧ c.readMode = .autoselect ∧
      c.profile.ids = .standard 0x01#8 0xA4#8 ∧ 0x7FFFC % c.profile.cap % 4 = 0 ∧ 0x1 % c.profile.cap % 4 = 1 ∧
      0x2 % c.profile.cap % 4 = 2 ∧ 0x3 % c.profile.cap % 4 = 3) ∧
    (let c := { gl with readMode := .autoselect }
     (machine c).chipAt m0 = some c ∧ c.phase ≠ .atmelPageLoad ∧ c.readMode = .autoselect ∧
      c.profile.ids = .spansion 0x21#8 0x01#8 ∧ 0x05 % c.profile.cap % 32 = 0x05 ∧
      (0x06 ≤ 0x06 % c.profile.cap % 32 ∧ 0x06 % c.profile.cap % 32 < 0x1C) ∧
      (0x06 ≤ 0x1B % c.profile.cap % 32 ∧ 0x1B % c.profile.cap % 32 < 0x1C) ∧
      0x1C % c.profile.cap % 32 = 0x1C ∧ 0x1F % c.profile.cap % 32 = 0x1F) :=
  ⟨⟨rfl, by decide, rfl, rfl, by decide⟩, rfl, by decide, rfl, rfl, by decide⟩

/-- The erase status one cycle before the deadline. -/
theorem witness_StatusReadRows :
    (let c := { am with readMode := .writeStatusPending }
     (machine c).chipAt m0 = some c ∧ c.phase ≠ .atmelPageLoad ∧ c.readMode = .writeStatusPending) ∧
    (let c := { am with readMode := .sectorEraseStatus, eraseDeadline := 1001#64 }
     (machine c).chipAt m0 = some c ∧ c.phase ≠ .atmelPageLoad ∧ c.readMode = .sectorEraseStatus ∧
      reached (machine c).now c.eraseDeadline = false) := ⟨⟨rfl, by decide, rfl⟩, rfl, by decide, rfl, by decide⟩

/-- An open page at the top of the chip, and no page open in each mode, on either side of the deadline and of the ID table. -/
theorem witness_AtmelCloseRow :
    (let c := { at_ with phase := .atmelPageLoad, atmelOpen := true, readMode := .writeStatusPending, atmelBase := 0x7FF00 }
     (machine c).chipAt m0 = some c ∧ c.phase = .atmelPageLoad ∧ c.atmelOpen = true ∧ c.readMode = .writeStatusPending ∧
      c.atmelBase + 256 ≤ c.profile.cap ∧ Memory.wf 0xFF#8 c.img) ∧
    (let c := { at_ with phase := .atmelPageLoad }
     (machine c).chipAt m0 = some c ∧ c.phase = .atmelPageLoad ∧ c.atmelOpen = false ∧ c.readMode = .normal) ∧
    (∀ mode, let c := { at_ with phase := .atmelPageLoad, readMode := mode, eraseDeadline := 1001#64 }
     (machine c).chipAt m0 = some c ∧ c.phase = .atmelPageLoad ∧ c.atmelOpen = false ∧ c.readMode = mode) ∧
    idByte at_.profile.ids (2 % at_.profile.cap) = some 0x00#8 ∧ idByte at_.profile.ids (3 % at_.profile.cap) = none ∧
    reached 1000#64 1001#64 = false ∧ reached 1000#64 1000#64 = true :=
  ⟨⟨rfl, rfl, rfl, rfl, by decide, by decide⟩, ⟨rfl, rfl, rfl, rfl⟩, fun _ => ⟨rfl, rfl, rfl, rfl⟩, by decide⟩

/-- A chip in a phase meets the common hypotheses of the write rows. -/
theorem takesCommands (c : Chip) (ph : Phase) (h : c.readMode = .normal) :
    (machine { c with phase := ph }).chipAt m0 = some { c with phase := ph } ∧
    ({ c with phase := ph }.expire (machine c).now).readMode ≠ .sectorEraseStatus ∧
    ({ c with phase := ph }.expire (machine c).now).phase = ph := by
  refine ⟨rfl, ?_⟩
  unfold Chip.expire
  rw [if_neg (by simp [h])]
  exact ⟨by simp [h], rfl⟩

theorem witness_ModeRows :
    ({ am with phase := .idle }.expire 1000#64).phase = .idle ∧ ({ am with phase := .unlock2 }.expire 1000#64).phase = .unlock2 ∧
    ({ am with phase := .unlock2 }.expire 1000#64).readMode ≠ .sectorEraseStatus ∧
    (machine { am with phase := .unlock2 }).chipAt m0 = some { am with phase := .unlock2 } ∧
    (machine am).chipAt m0 = some am ∧ (am.expire 1000#64).readMode ≠ .sectorEraseStatus ∧
    isU1 am.profile.unlockWindow (0x40555 % am.profile.cap) = true :=
  ⟨rfl, rfl, by decide, rfl, rfl, by decide, by decide⟩

/-- The four phases, at both unlock addresses of the window W11. -/
theorem witness_UnlockRows :
    (∀ ph ∈ [Phase.idle, .unlock1, .eraseSetup, .eraseUnlock1],
      (machine { am with phase := ph }).chipAt m0 = some { am with phase := ph } ∧
      ({ am with phase := ph }.expire 1000#64).readMode ≠ .sectorEraseStatus ∧
      ({ am with phase := ph }.expire 1000#64).phase = ph) ∧
    isU1 am.profile.unlockWindow (0x555 % am.profile.cap) = true ∧
    isU2 am.profile.unlockWindow (0x2AA % am.profile.cap) = true :=
  ⟨fun ph _ => takesCommands am ph rfl, by decide, by decide⟩

/-- Each profile at phase 2. -/
theorem witness_SetupRows :
    (∀ c ∈ [am, gl, at_],
      (machine { c with phase := .unlock2 }).chipAt m0 = some { c with phase := .unlock2 } ∧
      ({ c with phase := .unlock2 }.expire (machine c).now).readMode ≠ .sectorEraseStatus ∧
      ({ c with phase := .unlock2 }.expire (machine c).now).phase = .unlock2) ∧
    isU1 am.profile.unlockWindow (0x555 % am.profile.cap) = true ∧ am.profile.atmelSDP = false ∧
    isU1 at_.profile.unlockWindow (0x5555 % at_.profile.cap) = true ∧ at_.profile.atmelSDP = true ∧
    gl.profile.writeBuffer = true := by
  refine ⟨?_, by decide, rfl, by decide, rfl, rfl⟩
  intro c hc
  simp only [List.mem_cons, List.not_mem_nil, or_false] at hc
  rcases hc with rfl | rfl | rfl <;> exact takesCommands _ _ rfl

theorem witness_ProgramDataRow :
    let c := { am with phase := .programData }
    (machine c).chipAt m0 = some c ∧ (c.expire (machine c).now).readMode ≠ .sectorEraseStatus ∧
    (c.expire (machine c).now).phase = .programData ∧ Memory.wf 0xFF#8 c.img := ⟨rfl, by decide, rfl, by decide⟩

theorem witness_ChipEraseRow :
    let c := { am with phase := .eraseUnlock2 }
    (machine c).chipAt m0 = some c ∧ (c.expire (machine c).now).readMode ≠ .sectorEraseStatus ∧
    (c.expire (machine c).now).phase = .eraseUnlock2 ∧ isU1 c.profile.unlockWindow (0x555 % c.profile.cap) = true :=
  ⟨rfl, by decide, rfl, by decide⟩

theorem witness_SectorEraseRow :
    let c := { am with phase := .eraseUnlock2 }
    (machine c).chipAt m0 = some c ∧ (c.expire (machine c).now).readMode ≠ .sectorEraseStatus ∧
    (c.expire (machine c).now).phase = .eraseUnlock2 ∧ c.profile.sectorErase = true ∧
    c.profile.sectors = .uniform 16 ∧ 16 ≤ c.profile.capBits ∧
    sectorOf c.profile (0x1FFFF % c.profile.cap) = (0x10000, 0x10000) ∧
    (let b := { c with profile := bootProfile }
     let sizes := [0x78000, 0x2000, 0x2000, 0x4000]
     (machine b).chipAt m0 = some b ∧ (b.expire (machine b).now).phase = .eraseUnlock2 ∧ b.profile.sectorErase = true ∧
      b.profile.sectors = .table sizes ∧ sizes.sum = b.profile.cap ∧
      (∀ before_ size after, sizes = before_ ++ size :: after → 0 < size ∧ before_.sum % size = 0) ∧
      sizes = [0x78000, 0x2000] ++ 0x2000 :: [0x4000] ∧ 0x7A000 % b.profile.cap = [0x78000, 0x2000].sum) := by
  refine ⟨rfl, by decide, rfl, rfl, rfl, by decide, by decide, rfl, rfl, rfl, rfl, by decide, ?_, rfl, by decide⟩
  rintro (_ | ⟨_, _ | ⟨_, _ | ⟨_, _ | ⟨_, before_⟩⟩⟩⟩) size after h <;>
    simp only [List.nil_append, List.cons_append, List.cons.injEq] at h
  · obtain ⟨rfl, -⟩ := h
    decide
  · obtain ⟨rfl, rfl, -⟩ := h
    decide
  · obtain ⟨rfl, rfl, rfl, -⟩ := h
    decide
  · obtain ⟨rfl, rfl, rfl, rfl, -⟩ := h
    decide
  · obtain ⟨-, -, -, -, h⟩ := h
    exact absurd h (by simp)

/-- One cycle before the deadline; the bytes on either side of `$30`, and a window closed to further sectors. -/
theorem witness_EraseStatusWriteRows :
    (let c := { am with readMode := .sectorEraseStatus, eraseDeadline := 1001#64, multiEraseOpen := true }
     (machine c).chipAt m0 = some c ∧ c.readMode = .sectorEraseStatus ∧ reached (machine c).now c.eraseDeadline = false ∧
      c.multiEraseOpen = true ∧ c.profile.sectorErase = true ∧ 0x2F#8 ≠ 0x30#8 ∧ 0x31#8 ≠ 0x30#8) ∧
    (let c := { am with readMode := .sectorEraseStatus, eraseDeadline := 1001#64 }
     (machine c).chipAt m0 = some c ∧ c.readMode = .sectorEraseStatus ∧ reached (machine c).now c.eraseDeadline = false ∧
      c.multiEraseOpen = false) := ⟨⟨rfl, rfl, by decide, rfl, rfl, by decide, by decide⟩, rfl, rfl, by decide, rfl⟩

/-- The six phases, each at a byte or an address next to the accepted one. -/
theorem witness_AbortRow :
    (∀ ph ∈ [Phase.idle, .unlock1, .unlock2, .eraseSetup, .eraseUnlock1, .eraseUnlock2],
      (machine { am with phase := ph }).chipAt m0 = some { am with phase := ph } ∧
      ({ am with phase := ph }.expire 1000#64).readMode ≠ .sectorEraseStatus ∧
      ({ am with phase := ph }.expire 1000#64).phase = ph) ∧
    isU1 am.profile.unlockWindow (0x554 % am.profile.cap) = false ∧
    isU2 am.profile.unlockWindow (0x2AB % am.profile.cap) = false ∧ am.profile.writeBuffer = false ∧
    at_.profile.sectorErase = false ∧ 0xAB#8 ≠ 0xAA#8 ∧ 0xAB#8 ≠ 0xF0#8 :=
  ⟨fun ph _ => takesCommands am ph rfl, by decide, by decide, rfl, rfl, by decide, by decide⟩

/-- The counts 31 and 32. -/
theorem witness_WbCountRow :
    let c := { gl with phase := .wbCount }
    (machine c).chipAt m0 = some c ∧ (c.expire (machine c).now).readMode ≠ .sectorEraseStatus ∧
    (c.expire (machine c).now).phase = .wbCount ∧ (31#8).toNat < 32 ∧ 32 ≤ (32#8).toNat :=
  ⟨rfl, by decide, rfl, by decide, by decide⟩

/-- The last datum of a page, the first one of a load, and one of the next page. -/
theorem witness_WbDataRow :
    (let c := { gl with phase := .wbData, wbRemaining := 1, wbBaseValid := true, wbBase := 0x20000 }
     (machine c).chipAt m0 = some c ∧ (c.expire (machine c).now).readMode ≠ .sectorEraseStatus ∧
      (c.expire (machine c).now).phase = .wbData ∧ 1 ≤ (c.expire (machine c).now).wbRemaining ∧
      (c.expire (machine c).now).wbBase = 0x2001F % c.profile.cap - 0x2001F % c.profile.cap % 32 ∧
      (c.expire (machine c).now).wbBaseValid = true ∧
      (c.expire (machine c).now).wbBase ≠ 0x20020 % c.profile.cap - 0x20020 % c.profile.cap % 32) ∧
    (let c := { gl with phase := .wbData, wbRemaining := 32 }
     (machine c).chipAt m0 = some c ∧ (c.expire (machine c).now).readMode ≠ .sectorEraseStatus ∧
      (c.expire (machine c).now).phase = .wbData ∧ 1 ≤ (c.expire (machine c).now).wbRemaining ∧
      (c.expire (machine c).now).wbBaseValid = false) :=
  ⟨⟨rfl, by decide, rfl, by decide, by decide, rfl, by decide⟩, rfl, by decide, rfl, by decide, rfl⟩

/-- The last page of the chip, confirmed and not. -/
theorem witness_WbConfirmRow :
    let c := { gl with phase := .wbConfirm, wbBase := 0xFFFFE0 }
    (machine c).chipAt m0 = some c ∧ (c.expire (machine c).now).readMode ≠ .sectorEraseStatus ∧
    (c.expire (machine c).now).phase = .wbConfirm ∧ (c.expire (machine c).now).wbBase + 32 ≤ c.profile.cap ∧
    Memory.wf 0xFF#8 c.img ∧ 0x28#8 ≠ 0x29#8 := ⟨rfl, by decide, rfl, by decide, by decide, by decide⟩

/-- No page open; a byte of the open page; the first byte of the next page. -/
theorem witness_AtmelDataRow :
    (let c := { at_ with phase := .atmelPageLoad }
     (machine c).chipAt m0 = some c ∧ (c.expire (machine c).now).readMode ≠ .sectorEraseStatus ∧
      (c.expire (machine c).now).phase = .atmelPageLoad ∧ Memory.wf 0xFF#8 c.img ∧
      (c.expire (machine c).now).atmelOpen = false) ∧
    (let c := { at_ with phase := .atmelPageLoad, atmelOpen := true, atmelBase := 0x7FE00 }
     (machine c).chipAt m0 = some c ∧ (c.expire (machine c).now).readMode ≠ .sectorEraseStatus ∧
      (c.expire (machine c).now).phase = .atmelPageLoad ∧ Memory.wf 0xFF#8 c.img ∧
      (c.expire (machine c).now).atmelOpen = true ∧
      (c.expire (machine c).now).atmelBase = 0x7FEFF % c.profile.cap - 0x7FEFF % c.profile.cap % 256 ∧
      (c.expire (machine c).now).atmelBase ≠ 0x7FF00 % c.profile.cap - 0x7FF00 % c.profile.cap % 256 ∧
      (c.expire (machine c).now).atmelBase + 256 ≤ c.profile.cap) :=
  ⟨⟨rfl, by decide, rfl, by decide, rfl⟩, rfl, by decide, rfl, by decide, rfl, by decide, by decide, by decide⟩

/-- The exact sequence on each window, and a sequence one address off (T1). -/
theorem witness_AutoselectSequence :
    (am.readMode = .normal ∧ am.phase = .idle ∧ isU1 am.profile.unlockWindow (0x555 % am.profile.cap) = true ∧
      isU2 am.profile.unlockWindow (0x2AA % am.profile.cap) = true ∧
      isU2 am.profile.unlockWindow (0x2AB % am.profile.cap) = false) ∧
    (gl.readMode = .normal ∧ gl.phase = .idle ∧ isU1 gl.profile.unlockWindow (0xAAA % gl.profile.cap) = true ∧
      isU2 gl.profile.unlockWindow (0x555 % gl.profile.cap) = true) ∧
    (at_.readMode = .normal ∧ at_.phase = .idle ∧ isU1 at_.profile.unlockWindow (0x5555 % at_.profile.cap) = true ∧
      isU2 at_.profile.unlockWindow (0x2AAA % at_.profile.cap) = true) ∧
    idByte am.profile.ids (1 % am.profile.cap) = some 0xA4#8 := by decide

/-- A chip at phase 6, where `$10` at U1 and `$30` erase, and one in phase 0, where no write does. -/
theorem witness_WritesOnlyClearOrErase :
    am.Sound ∧ am.profile.atmelSDP = false ∧ gl.Sound ∧ gl.profile.atmelSDP = false ∧ am.profile.sectorErase = true ∧
    ({ am with phase := .eraseUnlock2 }.expire 0#64).phase = .eraseUnlock2 ∧
    ({ am with phase := .eraseUnlock2 }.expire 0#64).readMode ≠ .sectorEraseStatus ∧
    isU1 am.profile.unlockWindow (0x555 % am.profile.cap) = true ∧ (am.expire 0#64).phase ≠ .eraseUnlock2 :=
  ⟨am_sound, rfl, gl_sound, rfl, rfl, rfl, by decide, by decide, by decide⟩

theorem witness_AtmelProtection :
    at_.Sound ∧ at_.profile.atmelSDP = true ∧ at_.phase ≠ .atmelPageLoad := ⟨at_sound, rfl, by decide⟩

/-- A fitting fresh buffer, one byte more, one byte less, and a bound one. -/
theorem witness_FlashInitRow :
    (profileOf params .am29f040b).cap = 0x80000 ∧
    (∀ c ∈ (machine am).mapper.chips ++ (machine am).chips, c.buf ≠ 9) ∧
    ¬ (∀ c ∈ (machine am).mapper.chips ++ (machine am).chips, c.buf ≠ 1) ∧
    (0x80001 ≠ (profileOf params .am29f040b).cap ∧ 0x7FFFF ≠ (profileOf params .am29f040b).cap) ∧
    ([(0, 1#8), (0x7FFFF, 2#8)] : List Host.Cell).Pairwise (fun x y => x.1 ≠ y.1) := by decide

theorem witness_FlashColdResetRow : (machine am).chipAt m0 = some am := rfl

/-- The delta on either side of `2^63`, no handler running, the handler of the id, and of another. -/
theorem witness_SchedAddDeleteRows :
    2 ^ 63 ≤ (0x8000000000000000#64).toNat ∧ (0x7FFFFFFFFFFFFFFF#64).toNat < 2 ^ 63 ∧
    (machine am).sched.inHandler ≠ some 7 ∧
    ({ (machine am).sched with inHandler := some 7 } : Sched).inHandler = some 7 ∧
    ({ (machine am).sched with inHandler := some 8 } : Sched).inHandler ≠ some 7 := by decide

/-- A queue whose head is due at its deadline, not due one cycle before, and the empty queue; a handler that adds. -/
theorem witness_SchedCheckRow :
    (let e : Entry := { id := 7, deadline := 110#64, handler := 0 }
     let s := machineQueue 110#64 [e]
     s.sched.inHandler = none ∧ s.sched.queue = [e] ∧ reached s.now e.deadline = true ∧
      reached (machineQueue 109#64 [e]).now e.deadline = false ∧ (machine am).sched.queue = [] ∧
      (∃ t, runScript [calls (.schedAdd 8 5#64 0)] { s with sched := { queue := [], inHandler := some 7 } } = .next t) ∧
      ({ s with sched := { queue := [], inHandler := some 7 } } : State).sched.inHandler ≠ none) :=
  ⟨rfl, rfl, by decide, by decide, rfl, ⟨_, rfl⟩, by decide⟩

theorem witness_HandlerForbiddenCalls :
    let e : Entry := { id := 7, deadline := 110#64, handler := 0 }
    let s := machineQueue 110#64 [e]
    s.sched.inHandler = none ∧ s.sched.queue = e :: [] ∧ reached s.now e.deadline = true ∧
    (∃ t, runScript [calls (.schedAdd 8 5#64 0)] { s with sched := { queue := [], inHandler := some e.id } } = .next t) ∧
    (0x7FFFFFFFFFFFFFFF#64).toNat < 2 ^ 63 := ⟨rfl, rfl, by decide, ⟨_, rfl⟩, by decide⟩

/-- A queue across the wrap, in order within its range (P7). -/
theorem witness_SchedAddKeepsOrder :
    let q : List Entry := [{ id := 2, deadline := 0#64 - 5#64, handler := 0 }, { id := 1, deadline := 20#64, handler := 0 }]
    let s := machineQueue (0#64 - 10#64) q
    (∃ t, exec (.schedAdd 9 8#64 0) s = .next t) ∧ (∀ e ∈ q, (e.deadline - (0#64 - 10#64)).toNat < 2 ^ 63) ∧
    (s.now + 8#64 - (0#64 - 10#64)).toNat < 2 ^ 63 ∧ q.Pairwise (fun x y => before y.deadline x.deadline = false) ∧
    (q.map (fun e => e.id)).Nodup := ⟨⟨_, rfl⟩, by decide, by decide, by decide, by decide⟩

/-- Every pattern of levels: a deselection, a rise, a fall after six and after seven, and no edge. -/
theorem witness_SerialBitLayer :
    Link.initial.ce = false ∧ Link.initial.clk = false ∧ (Link.initial.forOpcode 5#8).ce = true ∧
    (Link.initial.forOpcode 5#8).clk = true ∧ (Link.initial.forOpcode 5#8).bitCount = 7 ∧
    ({ Link.initial.forOpcode 5#8 with bitCount := 6 } : Link).bitCount ≠ 7 := by decide

theorem witness_ByteTransfer :
    (let e := Eeprom.initial.select
     e.link.betweenBytes ∧ ∃ resp, (e.spi 0x05#8).link = (e.spi 0x05#8).link.after resp) ∧
    (let r := Rtc.initial.writeState clock0 true false false
     r.link.betweenBytes ∧ ∃ resp, (r.spi clock0 0x05#8).link = (r.spi clock0 0x05#8).link.after resp) :=
  ⟨⟨⟨rfl, rfl, rfl⟩, 0x00#8, by decide⟩, ⟨rfl, rfl, rfl⟩, 0x00#8, by decide⟩

/-- The opcodes on either side of the map, and a byte after the opcode. -/
theorem witness_EeLatchRows :
    (∀ cmd op, (machineEe Eeprom.initial cmd op).eeprom.link.lastEdge op ∧ (machineEe Eeprom.initial cmd op).eeprom.cmd = cmd) ∧
    (0x07#8 : Byte) ≤ 0x07#8 ∧ (0x07#8 : Byte) ≤ 0xFF#8 := ⟨fun _ _ => ⟨⟨rfl, rfl, rfl⟩, rfl⟩, by decide, by decide⟩

theorem witness_EeStatusRows :
    (∀ cmd b, (machineEe Eeprom.initial cmd b).eeprom.link.lastEdge b ∧ (machineEe Eeprom.initial cmd b).eeprom.cmd = cmd) ∧
    (machineEe { Eeprom.initial with wel := true } .writeStatus 0x8E#8).eeprom.wel = true ∧
    (machineEe Eeprom.initial .writeStatus 0x8E#8).eeprom.wel = false := ⟨fun _ _ => ⟨⟨rfl, rfl, rfl⟩, rfl⟩, rfl, rfl⟩

theorem witness_EeReadRows (cmd : EeCmd) (b : Byte) :
    (machineEe Eeprom.initial cmd b).eeprom.link.lastEdge b ∧ (machineEe Eeprom.initial cmd b).eeprom.cmd = cmd :=
  ⟨⟨rfl, rfl, rfl⟩, rfl⟩

/-- The ends of each protected range. -/
theorem witness_EeWriteRows :
    (∀ e cmd b, (machineEe e cmd b).eeprom.link.lastEdge b ∧ (machineEe e cmd b).eeprom.cmd = cmd) ∧
    Memory.wf 0xFF#8 Eeprom.initial.mem ∧
    ((1#2 = 1#2 ∧ 0xC0 ≤ (0xC0#8).toNat) ∧ ¬ 0xC0 ≤ (0xBF#8).toNat) ∧ 0x80 ≤ (0x80#8).toNat ∧ ¬ 0x80 ≤ (0x7F#8).toNat ∧
    (0#2 ≠ 1#2 ∧ 0#2 ≠ 2#2 ∧ 0#2 ≠ 3#2) := ⟨fun _ _ _ => ⟨⟨rfl, rfl, rfl⟩, rfl⟩, by decide⟩

theorem witness_EeStatusScenario :
    Eeprom.initial.Sound ∧ Eeprom.initial.link.ce = false ∧ Eeprom.initial.link.clk = false ∧ Eeprom.initial.wel = false :=
  ⟨eeprom_sound, rfl, rfl, rfl⟩

/-- One falling edge before any byte, in any interpreter state; an opcode outside the map. -/
theorem witness_RtcLatchRows :
    (∀ r cmd b, (machineRtc r cmd b).rtc.link.lastEdge b ∧ (machineRtc r cmd b).rtc.cmd = cmd) ∧
    0x99#8 ∉ [0x03#8, 0x02#8, 0x04#8, 0x06#8, 0x05#8, 0x01#8, 0x13#8, 0x12#8, 0x14#8, 0x32#8, 0x33#8, 0x54#8] :=
  ⟨fun _ _ _ => ⟨⟨rfl, rfl, rfl⟩, rfl⟩, by decide⟩

theorem witness_RtcAddressRows (cmd : RtcCmd) (b : Byte) :
    (machineRtc Rtc.initial cmd b).rtc.link.lastEdge b ∧ (machineRtc Rtc.initial cmd b).rtc.cmd = cmd :=
  ⟨⟨rfl, rfl, rfl⟩, rfl⟩

theorem witness_RtcStatusRows :
    (∀ cmd b, (machineRtc Rtc.initial cmd b).rtc.link.lastEdge b ∧ (machineRtc Rtc.initial cmd b).rtc.cmd = cmd) ∧
    (machineRtc { Rtc.initial with wel := true } .writeStatus 4#8).rtc.wel = true ∧
    (machineRtc Rtc.initial .writeStatus 4#8).rtc.wel = false := ⟨fun _ _ => ⟨⟨rfl, rfl, rfl⟩, rfl⟩, rfl, rfl⟩

/-- The three unlock states, with and without the latch. -/
theorem witness_RtcUnlockRows :
    (∀ u w cmd b, let r := (machineRtc { Rtc.initial with unlock := u, wel := w } cmd b).rtc
      r.link.lastEdge b ∧ r.cmd = cmd ∧ r.unlock = u ∧ r.wel = w) ∧ (1 : Fin 3) ≠ 2 :=
  ⟨fun _ _ _ _ => ⟨⟨rfl, rfl, rfl⟩, rfl, rfl, rfl⟩, by decide⟩

theorem witness_RtcClrRamRow :
    (machineRtc Rtc.initial .idle 0x54#8).rtc.link.lastEdge 0x54#8 ∧ (machineRtc Rtc.initial .idle 0x54#8).rtc.cmd = .idle :=
  ⟨⟨rfl, rfl, rfl⟩, rfl⟩

/-- A clock with every field at its bound. -/
theorem witness_RtcTimeRefresh :
    let s := { machineRtc Rtc.initial .ramReadAddr 0x5F#8 with
      clock := { year := 2099, month := 99, day := 99, wday := 6, hour := 99, min := 99, sec := 99 } }
    s.rtc.link.lastEdge 0x5F#8 ∧ s.rtc.cmd = .ramReadAddr ∧ Memory.wf 0x00#8 s.rtc.ram ∧ s.clock.sec ≤ 99 ∧
    s.clock.min ≤ 99 ∧ s.clock.hour ≤ 99 ∧ s.clock.day ≤ 99 ∧ s.clock.month ≤ 99 ∧ s.clock.wday ≤ 6 :=
  ⟨⟨rfl, rfl, rfl⟩, rfl, by decide⟩

/-- Every data state; the ends of the RAM and of a protected range. -/
theorem witness_RtcDataBytes :
    (∀ a w bp cmd b, let r := (machineRtc { Rtc.initial with addr := a, wel := w, bp := bp } cmd b).rtc
      r.link.lastEdge b ∧ r.cmd = cmd ∧ r.addr = a ∧ r.wel = w ∧ r.bp = bp) ∧
    Memory.wf 0x00#8 Rtc.initial.ram ∧ Memory.wf 0xFF#8 Rtc.initial.ee ∧ Memory.wf 0xFF#8 Rtc.initial.id ∧
    (0x5F#8).toNat < 0x60 ∧ 0x60 ≤ (0x60#8).toNat ∧ 0xC0 ≤ (0xC0#8).toNat ∧ ¬ 0xC0 ≤ (0xBF#8).toNat :=
  ⟨fun _ _ _ _ _ => ⟨⟨rfl, rfl, rfl⟩, rfl, rfl, rfl, rfl⟩, by decide⟩

/-- Arrays of the right length and of one byte less; devices that meet their invariants. -/
theorem witness_SerialLoadSave :
    (List.replicate 256 0#8).length = 256 ∧ (List.replicate 255 0#8).length ≠ 256 ∧
    (List.replicate 0x60 0#8).length = 0x60 ∧ (List.replicate 0x100 0#8).length = 0x100 ∧
    (List.replicate 0x10 0#8).length = 0x10 ∧ (List.replicate 0x5F 0#8).length ≠ 0x60 ∧
    (machine am).eeprom.Sound ∧ (machine am).rtc.Sound := by
  refine ⟨List.length_replicate, by rw [List.length_replicate]; decide, List.length_replicate, List.length_replicate,
    List.length_replicate, by rw [List.length_replicate]; decide, eeprom_sound, rtc_sound⟩

/-- A chip source and a disabled window on a MegaCart, the RAM source on TheCart; the ends of both windows. -/
theorem witness_WindowReadRow :
    ((machine am).mapper.installed = some (megaAt 0) ∧ windowOf 0xA000#16 = some .wa0bf ∧ windowOf 0xBFFF#16 = some .wa0bf ∧
      windowOf 0x8000#16 = some .w809f ∧ windowOf 0x9FFF#16 = some .w809f ∧
      (megaAt 0).wa0bf.readSrc = .flash 0 ∧ (machine am).mapper.chips[0]? = some am ∧ (megaAt 0).w809f.readSrc = .none) ∧
    ((mapperOn .theCart am { regs0 with cart := { cartParams.defaults with ramRead := true } }).layout params).wa0bf.readSrc =
      .ram := ⟨⟨rfl, by decide, by decide, by decide, by decide, rfl, rfl, rfl⟩, by decide⟩

/-- The three write destinations, and a disabled window. -/
theorem witness_WindowWriteRow :
    Memory.wf 0x00#8 (machine am).mapper.ram ∧ (megaAt 0).wa0bf.readSrc ≠ .none ∧ (megaAt 0).wa0bf.writeDst = .flash 0 ∧
    (megaAt 0).w809f.readSrc = .none ∧ windowOf 0xA000#16 = some .wa0bf ∧
    (let l := (mapperOn .theCart am { regs0 with cart := { cartParams.defaults with ramWrite := true } }).layout params
     l.wa0bf.readSrc ≠ .none ∧ l.wa0bf.writeDst = .ram) ∧
    (let l := (mapperOn .theCart am regs0).layout params
     l.wa0bf.readSrc ≠ .none ∧ l.wa0bf.writeDst = .none) := by decide

/-- Both MegaCarts at the first address of the page; a bank that shows the installed one and one that does not. -/
theorem witness_MegaCartControl :
    (machine am).mapper.type = .megaCart512 ∧ (machine am).mapper.chips[0]? = some am ∧ am.profile.cap = 0x80000 ∧
    inCtlPage params.ctlPage 0xD500#16 = true ∧ (machine am).mapper.installed = some (megaAt 0) ∧
    (32#8).toNat % 32 * 0x4000 = (megaAt 0).wa0bf.base ∧ (31#8).toNat % 32 * 0x4000 ≠ (megaAt 0).wa0bf.base ∧
    (machine am).cfg.megaCart = megaCartDefault ∧
    (let c := { am with profile := { amProfile with capBits := 22 } }
     let m := { mapperOn .megaCart4M c regs0 with installed := some (megaAt 0) }
     (machineWith m).mapper.type = .megaCart4M ∧ (machineWith m).mapper.chips[0]? = some c ∧ c.profile.cap = 0x400000 ∧
      (machineWith m).mapper.installed = some (megaAt 0) ∧ (255#8).toNat % 256 * 0x4000 ≠ (megaAt 0).wa0bf.base) :=
  ⟨rfl, rfl, by decide, by decide, rfl, by decide, by decide, rfl, rfl, rfl, by decide, rfl, by decide⟩

/-- A write that leaves the installed layout, and two banks equal modulo the bank count. -/
theorem witness_RemapIsIdempotent :
    inCtlPage params.ctlPage 0xD5FF#16 = true ∧
    (∃ t, exec (.mapCtlWrite 0xD5FF#16 32#8) (machine am) = .next t ∧
      (machine am).mapper.installed = some (t.mapper.layout params)) ∧
    (machine am).mapper.chips[0]? = some am ∧ am.profile.cap = 2 ^ 5 * 0x4000 ∧
    (32#8).toNat % 2 ^ 5 = (machine am).mapper.regs.bank.toNat % 2 ^ 5 :=
  ⟨by decide, ⟨_, rfl, by decide⟩, rfl, by decide, by decide⟩

/-- A disabled window, a chip source and a RAM destination. -/
theorem witness_LayoutInvariant :
    ((machine am).mapper.layout params).w809f.readSrc = .none ∧ ((machine am).mapper.layout params).wa0bf.readSrc = .flash 0 ∧
    ((machine am).mapper.layout params).wa0bf.readSrc ≠ .none ∧
    ((mapperOn .theCart am { regs0 with cart := { cartParams.defaults with ramWrite := true } }).layout params).wa0bf.writeDst =
      .ram := by decide

/-- Every cartridge, for the clauses on its type. -/
theorem witness_MapperColdReset :
    (∀ type, (machineWith (mapperOn type am regs0)).mapper.type = type) ∧
    (∃ l, (machine am).mapper.installed = some l) := ⟨fun _ => rfl, ⟨_, rfl⟩⟩

/-- The image of each subtype, one byte more and less, a fresh buffer, and one a chip of the host holds. -/
theorem witness_MapperInitRow :
    [(profileOf params .am29f040b).cap, (profileOf params params.megaCart4MChip).cap, (profileOf params params.theCart.chip).cap,
      (profileOf params params.sicChip).cap, (profileOf params params.maxFlash1Chip).cap,
      (profileOf params params.maxFlash8Chip).cap] =
      [512 * 1024, 4096 * 1024, 512 * 1024, 512 * 1024, 128 * 1024, 1024 * 1024] ∧
    (∀ c ∈ (machine am).chips, c.buf ≠ 9) ∧
    ¬ (∀ c ∈ ({ machine am with chips := [{ am with buf := 9 }] } : State).chips, c.buf ≠ 9) ∧ (0x80001 ≠ 512 * 1024) ∧
    (0x7FFFF ≠ 512 * 1024) ∧ params.sic = sicDefault ∧
    ([(0, 1#8), (0x7FFFF, 2#8)] : List Host.Cell).Pairwise (fun x y => x.1 ≠ y.1) := by decide

/-- The eight calls of P3 at its cycle counts, with the last read at the deadline; one cycle before it is not reached. -/
theorem witness_MegaCartScenario :
    let q := fun (t : Cycles) (x : CpuAddr) (v : Option Byte) =>
      ({ now := t, clock := (machine am).clock, ownerClears := [], call := .cpu x v, handlerCalls := [] } : Request)
    let s := { machine am with input :=
      [q 10#64 0xA555#16 (some 0xAA#8), q 14#64 0xA2AA#16 (some 0x55#8), q 18#64 0xA555#16 (some 0x80#8),
       q 22#64 0xA555#16 (some 0xAA#8), q 26#64 0xA2AA#16 (some 0x55#8), q 30#64 0xA000#16 (some 0x30#8),
       q 34#64 0xD500#16 (some 3#8), q 130#64 0xA000#16 none] }
    s.mapper.type = .megaCart512 ∧ s.mapper.chips[0]? = some am ∧ am.profile.cap = 0x80000 ∧
    am.profile.unlockWindow = .w11 ∧ am.profile.sectors = .uniform 16 ∧ s.cfg.megaCart = megaCartDefault ∧ am.profile.sectorErase = true ∧
    am.readMode = .normal ∧ am.phase = .idle ∧ s.mapper.installed = some (s.mapper.layout s.cfg) ∧ s.mapper.regs.bank = 0#8 ∧
    s.cfg.ctlPage = 0xD5#8 ∧ reached 130#64 (30#64 + am.profile.sectorEraseTimeoutCycles) = true ∧
    reached 129#64 (30#64 + am.profile.sectorEraseTimeoutCycles) = false ∧ s.input.length = 8 :=
  ⟨rfl, rfl, by decide, rfl, rfl, rfl, rfl, rfl, rfl, by decide, rfl, rfl, by decide, by decide, rfl⟩

/-- The serial register and native registers with the lock clear and set, the mode register, a register of one slice of a
16-bit and of an 8-bit field and one of two slices, every form of legacy entry, an unknown mode; the ends of the SIC! and MaxFlash ranges. -/
theorem witness_OtherCartControl :
    inCtlPage params.ctlPage 0xD505#16 = true ∧
    (∃ sr, serialAt cartParams (ctlOffset 0xD505#16) = some sr ∧ sr.lockable = true) ∧
    (∃ rg, serialAt cartParams (ctlOffset 0xD503#16) = none ∧ registerAt cartParams (ctlOffset 0xD503#16) = some rg ∧
      rg.lockable = true ∧ rg.slices = [{ field := .mode, bit := 0, width := 8, pos := 0 }] ∧ 0 + 8 ≤ tcWidth .mode) ∧
    (∃ rg, registerAt cartParams (ctlOffset 0xD500#16) = some rg ∧ rg.lockable = false ∧
      rg.slices = [{ field := .bank0, bit := 0, width := 8, pos := 0 }] ∧ 0 + 8 ≤ tcWidth .bank0 ∧
      ∀ sl ∈ rg.slices, sl.field ≠ .mode) ∧
    (let en0 : TcSlice := { field := .en0, bit := 0, width := 1, pos := 0 }
     let en1 : TcSlice := { field := .en1, bit := 1, width := 1, pos := 0 }
     ∃ rg, registerAt cartParams (ctlOffset 0xD501#16) = some rg ∧ rg.lockable = false ∧
      rg.slices = [] ++ en0 :: [en1] ∧ rg.slices = [en0] ++ en1 :: [] ∧ 0 < tcWidth .en0 ∧ 0 < tcWidth .en1 ∧
      decidesField en0 [en1] 0 ∧ decidesField en1 [] 0 ∧ decidesByte en0 [en1] 0 ∧ decidesByte en1 [] 1 ∧
      (∀ sl ∈ rg.slices, 2 < sl.bit ∨ sl.bit + sl.width ≤ 2) ∧
      ∀ sl ∈ rg.slices, sl.field = .en0 → 1 < sl.pos ∨ sl.pos + sl.width ≤ 1) ∧
    cartParams.defaults.lock = 0#8 ∧ ({ cartParams.defaults with lock := 1#8 } : TcRegs).lock ≠ 0#8 ∧
    serialAt cartParams (ctlOffset 0xD580#16) = none ∧ registerAt cartParams (ctlOffset 0xD580#16) = none ∧
    (∃ sch, schemeOf cartParams cartParams.defaults.mode = some sch) ∧ schemeOf cartParams 9#8 = none ∧
    [1, 2, 3, 4, 5].map (fun i => (schemeTable cartParams 1#8).getD i .noChange) =
      [.set (.bank 6#16 true) .noBank, .set (.bank 7#16 true) (.bank 8#16 true), .set .noBank (.bank 9#16 true),
        .set .noBank .noBank, .noChange] ∧
    (mapperOn .theCart am regs0).type = .theCart ∧ (mapperOn .sic am regs0).type = .sic ∧
    (mapperOn .maxFlash1 am regs0).type = .maxFlash1 ∧ (mapperOn .maxFlash8 am regs0).type = .maxFlash8 ∧
    params.sic = sicDefault ∧ params.maxFlash1 = maxFlash1Default ∧ params.maxFlash8 = maxFlash8Default ∧
    (0xD51F#16).toNat % 256 < 0x20 ∧ 0x20 ≤ (0xD520#16).toNat % 256 ∧ (0xD50F#16).toNat % 256 < 0x10 ∧
    0x10 ≤ (0xD510#16).toNat % 256 ∧ (0xD57F#16).toNat % 256 < 0x80 ∧ 0x80 ≤ (0xD580#16).toNat % 256 :=
  ⟨by decide, ⟨_, rfl, rfl⟩, ⟨_, rfl, rfl, rfl, rfl, by decide⟩, ⟨_, rfl, rfl, rfl, by decide, by decide⟩,
    ⟨_, rfl, rfl, rfl, rfl, by decide, by decide, ⟨by decide, by decide⟩, ⟨by decide, nofun⟩, ⟨by decide, by decide⟩,
      ⟨by decide, nofun⟩, by decide, by decide⟩, by decide, by decide, rfl, rfl, ⟨_, rfl⟩, by decide, by decide, rfl, rfl, rfl, rfl, rfl, rfl, rfl, by decide⟩

/-- A chip that is a power of two of banks, under each type; a known and an unknown mode. -/
theorem witness_CartLayouts :
    (∀ type, (mapperOn type am regs0).chips[0]? = some am ∧ (mapperOn type am regs0).type = type) ∧
    am.profile.cap = 0x80000 ∧ am.profile.cap = 2 ^ 5 * 0x4000 ∧ am.profile.cap = 2 ^ 6 * 0x2000 ∧ params.sic = sicDefault ∧
    13 ≤ params.theCart.bankBits ∧ am.profile.cap = 2 ^ 6 * 2 ^ params.theCart.bankBits ∧
    (mapperOn .theCart am regs0).ramSize = 2 ^ 0 * 2 ^ params.theCart.bankBits ∧ (schemeOf params.theCart 1#8).isSome = true ∧
    schemeOf params.theCart 9#8 = none := ⟨fun _ => ⟨rfl, rfl⟩, by decide⟩

end Sys2Proof.Tests
end

/-! PROOFS. The step and the owner's clears (00_scope.md): what `step` answers for each outcome of the decoder, and how
`State.accept` goes through the clears of a request. -/

namespace Sys2Proof.Machine

variable {s : State} {q : Request} {rest : List Request}

/-! ### The owner's clears -/

/-- The state in which a request's clears begin: its inputs taken (R62), the last call's outputs dropped. -/
def State.takeInputs (s : State) (q : Request) (rest : List Request) : State :=
  { s with now := q.now, clock := q.clock, input := rest, out := { result := .none, calls := [] } }

theorem State.accept_eq_foldl :
    s.accept q rest = q.ownerClears.foldl State.ownerClear (s.takeInputs q rest) := rfl

@[simp] theorem State.takeInputs_chipAt {r : ChipRef} : (s.takeInputs q rest).chipAt r = s.chipAt r := by
  cases r <;> rfl

theorem State.takeInputs_setChip {r : ChipRef} {c : Chip} :
    (s.takeInputs q rest).setChip r c = (s.setChip r c).takeInputs q rest := by
  cases r <;> rfl

theorem State.ownerClear_of_chip {f : FlagClear} {c : Chip} (hc : s.chipAt f.chip = some c) :
    s.ownerClear f = s.setChip f.chip (c.ownerClear f) := by
  rw [State.ownerClear, hc]

theorem State.ownerClear_of_noChip {f : FlagClear} (hc : s.chipAt f.chip = none) : s.ownerClear f = s := by
  rw [State.ownerClear, hc]

/-- A clear touches one chip only, so it may come before the inputs are taken. -/
theorem State.takeInputs_ownerClear {f : FlagClear} :
    (s.takeInputs q rest).ownerClear f = (s.ownerClear f).takeInputs q rest := by
  cases hc : s.chipAt f.chip with
  | none => rw [ownerClear_of_noChip hc, ownerClear_of_noChip (takeInputs_chipAt.trans hc)]
  | some c => rw [ownerClear_of_chip hc, ownerClear_of_chip (takeInputs_chipAt.trans hc), takeInputs_setChip]

theorem State.accept_of_noClears (hq : q.ownerClears = []) : s.accept q rest = s.takeInputs q rest := by
  rw [accept_eq_foldl, hq, List.foldl_nil]

theorem State.accept_of_firstClear {f : FlagClear} {fs : List FlagClear} (hq : q.ownerClears = f :: fs) :
    s.accept q rest = (s.ownerClear f).accept { q with ownerClears := fs } rest := by
  calc s.accept q rest
      = fs.foldl State.ownerClear ((s.takeInputs q rest).ownerClear f) := by rw [accept_eq_foldl, hq, List.foldl_cons]
    _ = fs.foldl State.ownerClear ((s.ownerClear f).takeInputs q rest) := by rw [takeInputs_ownerClear]
    _ = (s.ownerClear f).accept { q with ownerClears := fs } rest := rfl

/-! ### The step -/

theorem step_of_noCall (hs : s.input = []) : step s = .next s := by
  rw [step, hs]

theorem step_of_call (hs : s.input = q :: rest) :
    step s = afterDecode exec (s.accept q rest)
      (decode (fetchCtx (s.accept q rest) q.call) (fetch (s.accept q rest) q.handlerCalls q.call)) := by
  rw [step, hs]

theorem step_of_decoded {i : Instr} (hs : s.input = q :: rest)
    (hd : decode (fetchCtx (s.accept q rest) q.call) (fetch (s.accept q rest) q.handlerCalls q.call) = .ok i) :
    step s = exec i (s.accept q rest) := by
  rw [step_of_call hs, hd, afterDecode]

theorem step_of_notServed {x : CpuAddr} (hs : s.input = q :: rest)
    (hd : decode (fetchCtx (s.accept q rest) q.call) (fetch (s.accept q rest) q.handlerCalls q.call) =
      .error (.notServed x)) :
    step s = .next ((s.accept q rest).answer .notServed) := by
  rw [step_of_call hs, hd, afterDecode]

/-- Settles O4: one lemma per outcome of the decoder, and one per form of the list of clears. -/
theorem stepRunsTheDecodedInstruction : Obligations.StepRunsTheDecodedInstruction := by
  refine ⟨fun s hs => step_of_noCall hs, fun s q rest hs => ⟨?decoded, ?notServed, ?noClears, ?firstClear⟩⟩
  case decoded => exact fun i hd => step_of_decoded hs hd
  case notServed => exact fun x hd => step_of_notServed hs hd
  case noClears => exact fun hq => State.accept_of_noClears hq
  case firstClear => exact fun f fs hq => State.accept_of_firstClear hq

end Sys2Proof.Machine

/-! PROOFS. The scheduler's queue (R36, R211, R402): inside a half range `before` is the order of the offsets from the base,
so an insertion keeps the queue sorted. -/

namespace Sys2Proof.Machine

variable {s t : State} {e f g : Entry} {q : List Entry} {id : Int} {base x y : Cycles}

/-- Within half the cycle range after a base, `before` compares the distances from the base (R11, R402). -/
theorem before_iff_offset_lt (hx : (x - base).toNat < 2 ^ 63) (hy : (y - base).toNat < 2 ^ 63) :
    before x y = true ↔ (x - base).toNat < (y - base).toNat := by
  have hxy : x - y = (x - base) - (y - base) := by bv_omega
  rw [before, decide_eq_true_iff, hxy, BitVec.toNat_sub]
  omega

theorem before_eq_false_iff_offset_le (hx : (x - base).toNat < 2 ^ 63) (hy : (y - base).toNat < 2 ^ 63) :
    before x y = false ↔ (y - base).toNat ≤ (x - base).toNat := by
  rw [← Bool.not_eq_true, before_iff_offset_lt hx hy, not_lt]

/-- The order of R36 is that of the offsets from the base. -/
theorem inOrder_iff_offsets (hq : inRange base q) :
    inOrder q ↔ q.Pairwise (fun e f => (e.deadline - base).toNat ≤ (f.deadline - base).toNat) :=
  List.Pairwise.iff_of_mem fun he hf => before_eq_false_iff_offset_le (hq _ hf) (hq _ he)

theorem inRange_removeId (hq : inRange base q) : inRange base (removeId q id) :=
  fun e he => hq e (mem_removeId.1 he).1

theorem inOrder_removeId (hq : inOrder q) : inOrder (removeId q id) := hq.sublist List.filter_sublist

theorem inRange_insertEntry (hq : inRange base q) (he : (e.deadline - base).toNat < 2 ^ 63) :
    inRange base (insertEntry e q) := by
  intro f hf
  rcases mem_insertEntry.1 hf with rfl | hf
  · exact he
  · exact hq f hf

/-- An entry goes behind those not due after it and in front of those due after it: the first it is `before` has the least
offset of the rest. -/
theorem insertEntry_sorted_split (hq : inRange base q) (he : (e.deadline - base).toNat < 2 ^ 63) (ho : inOrder q) :
    ∃ front back : List Entry, q = front ++ back ∧ insertEntry e q = front ++ e :: back ∧
      (∀ f ∈ front, (f.deadline - base).toNat ≤ (e.deadline - base).toNat) ∧
      ∀ f ∈ back, (e.deadline - base).toNat < (f.deadline - base).toNat := by
  obtain ⟨front, back, rfl, hi, hfront, hhead⟩ := insertEntry_split e q
  refine ⟨front, back, rfl, hi, fun f hf => ?_, ?_⟩
  · exact (before_eq_false_iff_offset_le he (hq f (List.mem_append_left _ hf))).1 (hfront f hf)
  · have hsorted := (List.pairwise_append.1 ((inOrder_iff_offsets hq).1 ho)).2.1
    cases back with
    | nil => exact nofun
    | cons g back =>
      have hg : (e.deadline - base).toNat < (g.deadline - base).toNat :=
        (before_iff_offset_lt he (hq g (by simp))).1 (hhead g rfl)
      intro f hf
      rcases List.mem_cons.1 hf with rfl | hf
      · exact hg
      · exact hg.trans_le ((List.pairwise_cons.1 hsorted).1 f hf)

theorem inOrder_insertEntry (hq : inRange base q) (he : (e.deadline - base).toNat < 2 ^ 63) (ho : inOrder q) :
    inOrder (insertEntry e q) := by
  rw [inOrder_iff_offsets (inRange_insertEntry hq he)]
  rw [inOrder_iff_offsets hq] at ho
  obtain ⟨front, back, rfl, hi, hfront, hback⟩ := insertEntry_sorted_split hq he ((inOrder_iff_offsets hq).2 ho)
  obtain ⟨h1, h2, h3⟩ := List.pairwise_append.1 ho
  rw [hi]
  refine List.pairwise_append.2 ⟨h1, List.pairwise_cons.2 ⟨fun f hf => (hback f hf).le, h2⟩, fun f hf g hg => ?_⟩
  rcases List.mem_cons.1 hg with rfl | hg
  · exact hfront f hf
  · exact h3 f hf g hg

/-- A SCHED_ADD that completes replaces the entry of its id, and touches the queue and the outputs only (R211). -/
theorem execSchedAdd_next {delta : Cycles} {handler : Nat} (h : execSchedAdd id delta handler s = .next t) :
    t = ({ s with sched := { s.sched with
      queue := insertEntry (newEntry s.now id delta handler) (removeId s.sched.queue id) } }).answer
        (.entry (newEntry s.now id delta handler)) := by
  unfold execSchedAdd at h
  split at h
  · cases h
  · split at h
    · cases h
    · exact (Host.Outcome.next.inj h).symm

/-- Settles O34: the queue without the id is still sorted, and the new entry goes between the entries not due after it and
those due after it. -/
theorem schedAddKeepsOrder : Obligations.SchedAddKeepsOrder := by
  intro s t id delta base handler h hr he ho hn
  obtain rfl := execSchedAdd_next h
  have hr' := inRange_removeId (id := id) hr
  have ho' := inOrder_removeId (id := id) ho
  refine ⟨inOrder_insertEntry hr' he ho', nodup_insert_removeId hn, inRange_insertEntry hr' he, ?_⟩
  obtain ⟨front, back, -, hi, -, hback⟩ :=
    insertEntry_sorted_split (e := newEntry s.now id delta handler) hr' he ho'
  refine ⟨front, back, hi, fun f hf heq => ?_⟩
  have hlt := hback f hf
  rw [heq] at hlt
  exact lt_irrefl _ hlt

end Sys2Proof.Machine

/-! PROOFS. What an access to a FlashChip keeps: the chip is the same one (R20, R162), and sound if it was. One lemma per
kind of update, then one per row of the command map; `Chip.read` and `Chip.write` are put together from them. -/

namespace Sys2Proof.Machine

variable {c c' d : Chip} {a draws base size : Nat} {v : Byte} {now : Cycles} {p : Params}

/-- `c'` is the chip `c` after an access. -/
structure Chip.Follows (c' c : Chip) : Prop where
  type : c'.type = c.type
  profile : c'.profile = c.profile
  buf : c'.buf = c.buf
  sound : c.Sound → c'.Sound

theorem Chip.Follows.refl (c : Chip) : c.Follows c := ⟨rfl, rfl, rfl, id⟩

theorem Chip.Follows.trans (h' : d.Follows c') (h : c'.Follows c) : d.Follows c :=
  ⟨h'.type.trans h.type, h'.profile.trans h.profile, h'.buf.trans h.buf, h'.sound ∘ h.sound⟩

/-! ### The kinds of update -/

/-- The profiles on which a phase is entered (R103, R189). -/
def Phase.allowedOn (p : Profile) : Phase → Prop
  | .programData => p.atmelSDP = false
  | .wbCount | .wbData | .wbConfirm => p.writeBuffer = true
  | .atmelPageLoad => p.atmelSDP = true
  | _ => True

/-- A sound chip stays sound in any phase its profile allows, outside the erase status unless the phase is Idle. -/
theorem Chip.Sound.withPhase {ph : Phase} (h : c.Sound) (hm : c.readMode = .sectorEraseStatus → ph = .idle)
    (ha : ph.allowedOn c.profile) (hw : ph = .wbData → 1 ≤ c.wbRemaining ∧ c.wbRemaining ≤ 32) :
    Chip.Sound { c with phase := ph } :=
  { h with
    eraseIdle := hm
    programPhase := by rintro ⟨⟩; exact ha
    bufferPhase := by rintro (⟨⟨⟩⟩ | ⟨⟨⟩⟩ | ⟨⟨⟩⟩) <;> exact ha
    atmelPhase := by rintro ⟨⟩; exact ha
    bufferCount := hw }

/-- The command machine goes to Idle, in any read mode; the status fields are free. -/
theorem Chip.toIdle_follows {m : ReadMode} {n : Nat} {t : Cycles} {o : Bool} :
    Chip.Follows { c with readMode := m, statusReads := n, phase := .idle, eraseDeadline := t, multiEraseOpen := o } c where
  type := rfl
  profile := rfl
  buf := rfl
  sound h := { h with
    eraseIdle := fun _ => rfl
    programPhase := nofun
    bufferPhase := by simp
    atmelPhase := nofun
    bufferCount := nofun }

/-- The read mode leaves the erase status, or was never in it. -/
theorem Chip.toMode_follows {m : ReadMode} {n : Nat} {o : Bool} (hm : m ≠ .sectorEraseStatus) :
    Chip.Follows { c with readMode := m, statusReads := n, multiEraseOpen := o } c where
  type := rfl
  profile := rfl
  buf := rfl
  sound h := { h with eraseIdle := fun he => absurd he hm }

theorem Chip.goto_follows {ph : Phase} (hm : c.readMode ≠ .sectorEraseStatus) (ha : ph.allowedOn c.profile)
    (hw : ph ≠ .wbData) : (c.goto ph draws).chip.Follows c :=
  ⟨rfl, rfl, rfl, fun h => h.withPhase (fun he => absurd he hm) ha (fun he => absurd he hw)⟩

/-- The fields the invariant leaves free, outside the buffer load and the read mode. -/
theorem Chip.freeFields_follows {dirty activity multiOpen valid pageOpen : Bool} {n : Nat} {t : Cycles}
    {wbuf : Vector Byte 32} {loaded : Vector Bool 256} :
    Chip.Follows { c with
      dirty := dirty, writeActivity := activity, statusReads := n, eraseDeadline := t, multiEraseOpen := multiOpen
      wbuf := wbuf, wbBaseValid := valid, atmelOpen := pageOpen, atmelLoaded := loaded } c :=
  ⟨rfl, rfl, rfl, fun h => { h with }⟩

theorem Chip.commit_follows : c.commit.Follows c := freeFields_follows

theorem Chip.ownerClear_follows {f : FlagClear} : (c.ownerClear f).Follows c := freeFields_follows

/-- The image is replaced by a canonical one inside the chip. -/
theorem Chip.withImg_follows {m : Memory} (hw : c.Sound → Memory.wf Space.flashImage.fill m)
    (hi : c.Sound → ∀ x ∈ m, x.1 < c.profile.cap) : Chip.Follows { c with img := m } c :=
  ⟨rfl, rfl, rfl, fun h => { h with imgCanonical := hw h, imgInside := hi h }⟩

theorem Chip.setByte_follows : (c.setByte a v).Follows c :=
  withImg_follows (fun h => Memory.wf_write h.imgCanonical)
    (fun h => Memory.inside_write h.imgInside (Nat.mod_lt _ (Profile.cap_pos _)))

theorem Chip.eraseRange_follows : (c.eraseRange base size).Follows c :=
  withImg_follows (fun h => Memory.wf_clear h.imgCanonical) (fun h => Memory.inside_clear h.imgInside)

theorem Chip.mapRange_follows {f : Nat → Byte → Byte} {n : Nat} : (c.mapRange base f n).Follows c := by
  induction n with
  | zero => exact .refl c
  | succ n ih => exact setByte_follows.trans ih

theorem Chip.toggle_follows : c.toggle.Follows c where
  type := rfl
  profile := rfl
  buf := rfl
  sound h := { h with
    toggles := by
      rcases h.toggles with ht | ht
      · exact .inr (congrArg (· ^^^ toggleMask) ht)
      · exact .inl (congrArg (· ^^^ toggleMask) ht) }

theorem Chip.expire_follows : (c.expire now).Follows c := by
  unfold expire
  split
  · exact toMode_follows (by decide)
  · exact .refl c

theorem Chip.coldReset_follows : c.coldReset.Follows c where
  type := rfl
  profile := rfl
  buf := rfl
  sound h :=
    have hi : Chip.Sound { c with readMode := .normal, phase := .idle } := toIdle_follows.sound h
    { hi with toggles := .inl rfl }

theorem Chip.initial_sound {type : ChipType} {profile : Profile} {buf : Nat} {img : Memory}
    (hw : Memory.wf Space.flashImage.fill img) (hi : ∀ x ∈ img, x.1 < profile.cap) :
    (Chip.initial type profile buf img).Sound where
  imgCanonical := hw
  imgInside := hi
  toggles := .inl rfl
  wbAligned := rfl
  atmelAligned := rfl
  eraseIdle _ := rfl
  programPhase := nofun
  bufferPhase := by simp [initial]
  atmelPhase := nofun
  bufferCount := nofun

/-- The chip of a host buffer of the profile's size is sound (R162). -/
theorem chipOf_sound {b : Buffer} {type : ChipType} (hs : b.size = (profileOf p type).cap) : (chipOf p b type).Sound :=
  Chip.initial_sound Memory.wf_ofCells (hs ▸ Memory.inside_ofCells)

/-! ### Reads -/

theorem Chip.atmelClose_follows : (c.atmelClose draws).1.Follows c := by
  unfold atmelClose
  split
  · exact freeFields_follows.trans (commit_follows.trans mapRange_follows)
  · exact .refl c

theorem Chip.beforeRead_follows : (c.beforeRead now draws).1.Follows c := by
  by_cases hp : c.phase = .atmelPageLoad
  · simp only [beforeRead, if_pos hp]
    exact expire_follows.trans (toIdle_follows.trans atmelClose_follows)
  · simp only [beforeRead, if_neg hp]
    exact expire_follows

theorem Chip.readByMode_follows : (c.readByMode p a draws).chip.Follows c := by
  unfold readByMode
  split
  case h_1 => exact .refl c
  case h_2 => unfold readAutoselect; split <;> exact .refl c
  case h_3 hm =>
    refine toMode_follows ?_
    split
    · decide
    · rw [hm]; decide
  case h_4 => exact toggle_follows

theorem Chip.read_follows : (c.read p a now draws).chip.Follows c :=
  readByMode_follows.trans beforeRead_follows

/-! ### Writes -/

theorem Chip.abort_follows : (c.abort draws).chip.Follows c := toIdle_follows

theorem Chip.programByte_follows : (c.programByte a v draws).chip.Follows c :=
  toIdle_follows.trans (commit_follows.trans setByte_follows)

theorem Chip.eraseSectorOf_follows : (c.eraseSectorOf a).Follows c := commit_follows.trans eraseRange_follows

theorem Chip.chipErase_follows : (c.chipErase now draws).chip.Follows c :=
  toIdle_follows.trans (commit_follows.trans eraseRange_follows)

theorem Chip.sectorErase_follows : (c.sectorErase a now draws).chip.Follows c :=
  toIdle_follows.trans eraseSectorOf_follows

theorem Chip.sectorEraseMore_follows : (c.sectorEraseMore a now draws).chip.Follows c :=
  freeFields_follows.trans eraseSectorOf_follows

/-- A count of 1 to 32 begins the buffer load; any other aborts (R181). -/
theorem Chip.loadCount_follows (hm : c.readMode ≠ .sectorEraseStatus) (hp : c.phase = .wbCount) :
    (c.loadCount v draws).chip.Follows c := by
  unfold loadCount
  split
  · exact abort_follows
  · next hv =>
    refine ⟨rfl, rfl, rfl, fun h => ?_⟩
    have hd : Chip.Sound { c with
        wbRemaining := v.toNat + 1, wbBaseValid := false, wbuf := Vector.replicate 32 0xFF#8 } :=
      { h with bufferCount := fun hp' => absurd (hp.symm.trans hp') (by decide) }
    exact hd.withPhase (fun he => absurd he hm) (h.bufferPhase (.inl hp))
      (fun _ => ⟨Nat.le_add_left 1 _, not_lt.1 hv⟩)

/-- A datum leaves the load going while it still expects a byte, and confirming when it was the last (R182). -/
theorem Chip.bufferByte_follows (hm : c.readMode ≠ .sectorEraseStatus) (hp : c.phase = .wbData) :
    (c.bufferByte a v).Follows c := by
  refine ⟨rfl, rfl, rfl, fun h => ?_⟩
  have hb : c.profile.writeBuffer = true := h.bufferPhase (.inr (.inl hp))
  have hn := h.bufferCount hp
  have hidle : Chip.Sound { c with phase := .idle } := toIdle_follows.sound h
  have hdatum : Chip.Sound { c with
      wbuf := c.wbuf.setIfInBounds (a % wbPageSize) (c.wbuf.getD (a % wbPageSize) 0xFF#8 &&& v)
      wbRemaining := c.wbRemaining - 1, phase := .idle } := { hidle with bufferCount := nofun }
  refine hdatum.withPhase (fun he => absurd he hm) ?_ fun hph => ?_
  · split
    · exact hb
    · rw [hp]; exact hb
  · dsimp only at hph ⊢
    split at hph
    · cases hph
    · omega

theorem Chip.loadData_follows (hm : c.readMode ≠ .sectorEraseStatus) (hp : c.phase = .wbData) :
    (c.loadData a v draws).chip.Follows c := by
  have hbase : ∀ d : Chip, d.Follows c → d.readMode = c.readMode → d.phase = c.phase →
      (if pageBase wbPageSize a ≠ d.wbBase then d.abort draws else .quiet (d.bufferByte a v) draws).chip.Follows c := by
    intro d hd hdm hdp
    split
    · exact abort_follows.trans hd
    · exact (bufferByte_follows (hdm ▸ hm) (hdp.trans hp)).trans hd
  unfold loadData
  split
  · exact hbase c (.refl c) rfl rfl
  · exact hbase { c with wbBase := pageBase wbPageSize a, wbBaseValid := true }
      ⟨rfl, rfl, rfl, fun h => { h with wbAligned := (pageBase_facts (by decide)).2.2 }⟩ rfl rfl

theorem Chip.confirm_follows : (c.confirm v draws).chip.Follows c := by
  unfold confirm
  split
  · exact toIdle_follows.trans (commit_follows.trans mapRange_follows)
  · exact abort_follows

theorem Chip.atmelStart_follows (hm : c.readMode ≠ .sectorEraseStatus) (ha : c.profile.atmelSDP = true) :
    (c.atmelStart draws).chip.Follows c where
  type := rfl
  profile := rfl
  buf := rfl
  sound h :=
    have hload : Chip.Sound { c with phase := .atmelPageLoad } := h.withPhase (fun he => absurd he hm) ha nofun
    { hload with }

theorem Chip.atmelByte_follows : (c.atmelByte a v draws).chip.Follows c := by
  exact (toMode_follows (by decide)).trans ((freeFields_follows (c := c.setByte a v)).trans setByte_follows)

theorem Chip.atmelLeave_follows : (c.atmelLeave draws).chip.Follows c := toIdle_follows.trans atmelClose_follows

theorem Chip.atmelData_follows : (c.atmelData a v draws).chip.Follows c := by
  have hbase : ∀ d : Chip, d.Follows c →
      (if pageBase atmelPageSize a ≠ d.atmelBase then d.atmelLeave draws else d.atmelByte a v draws).chip.Follows c := by
    intro d hd
    split
    · exact atmelLeave_follows.trans hd
    · exact atmelByte_follows.trans hd
  unfold atmelData
  split
  · exact hbase c (.refl c)
  · exact hbase { c with
      atmelOpen := true, atmelBase := pageBase atmelPageSize a, atmelLoaded := Vector.replicate 256 false }
      ⟨rfl, rfl, rfl, fun h => { h with atmelAligned := (pageBase_facts (by decide)).2.2 }⟩

theorem Chip.command_follows (hm : c.readMode ≠ .sectorEraseStatus) : (c.command a v draws).chip.Follows c := by
  unfold command
  split_ifs with hauto hprog hatmel herase hreset hbuffer
  · exact toIdle_follows
  · exact atmelStart_follows hm hatmel
  · exact goto_follows hm (Bool.eq_false_iff.2 hatmel) (by decide)
  · exact goto_follows hm trivial (by decide)
  · exact toIdle_follows
  · exact goto_follows hm hbuffer.2 (by decide)
  · exact abort_follows

/-- The phase dispatch of R139 outside SectorEraseStatus. -/
theorem Chip.dispatch_follows : (c.dispatch a v now draws).chip.Follows c := by
  unfold dispatch
  split
  · split
    · exact sectorEraseMore_follows
    · exact toIdle_follows
  · next hm =>
    have hgoto : ∀ {ph : Phase} {cond : Prop} [Decidable cond], ph.allowedOn c.profile → ph ≠ .wbData →
        (if cond then c.goto ph draws else c.abort draws).chip.Follows c := by
      intro ph cond _ ha hw
      split
      · exact goto_follows hm ha hw
      · exact abort_follows
    cases hp : c.phase with
    | idle =>
      dsimp only
      split_ifs
      · exact toMode_follows (by decide)
      · exact goto_follows hm trivial (by decide)
      · exact .refl c
    | unlock1 => exact hgoto trivial (by decide)
    | unlock2 => exact command_follows hm
    | programData => exact programByte_follows
    | eraseSetup => exact hgoto trivial (by decide)
    | eraseUnlock1 => exact hgoto trivial (by decide)
    | eraseUnlock2 =>
      dsimp only
      split_ifs
      · exact chipErase_follows
      · exact sectorErase_follows
      · exact abort_follows
    | wbCount => exact loadCount_follows hm hp
    | wbData => exact loadData_follows hm hp
    | wbConfirm => exact confirm_follows
    | atmelPageLoad => exact atmelData_follows

theorem Chip.write_follows : (c.write a v now draws).chip.Follows c := dispatch_follows.trans expire_follows

end Sys2Proof.Machine

/-! PROOFS. What a WriteState call keeps of the serial devices (R240, R241, R253). A completed byte leaves its device in a
transaction; a deselection ends it and clears the link; any other call only moves the link. -/

namespace Sys2Proof.Machine

variable {l l' : Link} {e : Eeprom} {r : Rtc} {b v : Byte} {ce clk data : Bool} {t : HostTime}

/-! ### The link -/

theorem Link.initial_sound : Link.initial.Sound := fun _ => ⟨rfl, rfl, rfl, rfl⟩

/-- A call that neither deselects nor completes a byte selects the link or leaves it as it is. -/
theorem Link.event_eq_shift (h : l.event ce clk data = .shift l') : ce = true ∨ l.ce = false ∧ l' = l := by
  cases ce with
  | true => exact .inl rfl
  | false =>
    cases hl : l.ce with
    | true => rw [event_deselect hl] at h; cases h
    | false => rw [event_unselected hl] at h; cases h; exact .inr ⟨rfl, rfl⟩

/-- A recorded link is sound if it is selected, or was sound and unselected. -/
theorem Link.Sound.record_shift (hl : l.Sound) (h : ce = true ∨ l.ce = false ∧ l' = l) : (l'.record ce clk).Sound := by
  rcases h with rfl | ⟨hce, rfl⟩
  · exact nofun
  · exact fun _ => hl hce

theorem Link.clear_record_sound : (l.clear.record ce clk).Sound := fun _ => ⟨rfl, rfl, rfl, rfl⟩

/-! ### The EEPROM -/

/-- What holds of the EEPROM after a byte of a transaction. -/
structure Eeprom.InTransaction (e : Eeprom) : Prop where
  memory : Memory.Sound Space.eepromMem.fill eepromSize e.mem
  started : e.cmd ≠ .idle
  enabled : e.writeIssued = true → e.wel = true

theorem Eeprom.InTransaction.respond (h : e.InTransaction) : (Eeprom.respond (v, e)).Sound where
  link := nofun
  memory := h.memory
  deselected := nofun
  idleClean hi := absurd hi h.started
  enabled := h.enabled

theorem Eeprom.Sound.inTransaction (h : e.Sound) (hc : e.cmd ≠ .idle) : e.InTransaction := ⟨h.memory, hc, h.enabled⟩

/-- An opcode byte opens a transaction (R256 to R262). -/
theorem Eeprom.Sound.opcode (h : e.Sound) (hi : e.cmd = .idle) : (e.opcode b).2.InTransaction := by
  unfold Eeprom.opcode
  split_ifs
  · exact ⟨h.memory, nofun, fun _ => rfl⟩
  · exact ⟨h.memory, nofun, fun hw => absurd ((h.idleClean hi).symm.trans hw) nofun⟩
  all_goals exact ⟨h.memory, nofun, h.enabled⟩

theorem Eeprom.InTransaction.writeByte (h : e.InTransaction) : (e.writeByte b).InTransaction := by
  unfold Eeprom.writeByte
  split
  · next hw =>
    exact ⟨h.memory.write (BitVec.isLt _), h.started, fun _ => (Bool.and_eq_true_iff.1 hw).1⟩
  · exact ⟨h.memory, h.started, h.enabled⟩

theorem Eeprom.Sound.writeStatus (h : e.Sound) : { e.writeStatus b with cmd := .done }.InTransaction := by
  unfold Eeprom.writeStatus
  split
  · next hw => exact ⟨h.memory, nofun, fun _ => hw⟩
  · exact ⟨h.memory, nofun, h.enabled⟩

/-- The next byte of a transaction, by the interpreter's state (R251). -/
theorem Eeprom.Sound.onNextByte (h : e.Sound) : (e.onNextByte b).2.InTransaction := by
  unfold Eeprom.onNextByte
  cases hc : e.cmd with
  | idle => exact h.opcode hc
  | writeStatus => exact h.writeStatus
  | writeData => exact (h.inTransaction (by simp [hc])).writeByte
  | readAddr | writeAddr => exact ⟨h.memory, nofun, h.enabled⟩
  | readStatus | readData | done => exact ⟨h.memory, by simp [hc, Eeprom.readNext], h.enabled⟩

/-- The end of a transaction clears the write flag, and the latch where a write was issued (R253). -/
theorem Eeprom.endOfTransaction_frame :
    e.endOfTransaction.mem = e.mem ∧ e.endOfTransaction.writeIssued = false := by
  unfold endOfTransaction
  split
  · exact ⟨rfl, rfl⟩
  · next h => exact ⟨rfl, Bool.eq_false_iff.2 h⟩

/-- An EEPROM outside a transaction with a sound memory. -/
theorem Eeprom.sound_of_idle (hl : e.link.Sound) (hm : Memory.Sound Space.eepromMem.fill eepromSize e.mem)
    (hc : e.cmd = .idle) (hw : e.writeIssued = false) : e.Sound where
  link := hl
  memory := hm
  deselected _ := hc
  idleClean _ := hw
  enabled h := absurd (hw.symm.trans h) nofun

theorem Eeprom.Sound.deselect (h : e.Sound) :
    { e.deselect with link := e.deselect.link.record ce clk }.Sound := by
  obtain ⟨hmem, hissued⟩ := e.endOfTransaction_frame
  exact sound_of_idle Link.clear_record_sound (hmem ▸ h.memory) rfl hissued

theorem Eeprom.Sound.writeState (h : e.Sound) : (e.writeState ce clk data).Sound := by
  unfold Eeprom.writeState
  split
  case h_1 => exact h.deselect
  case h_2 => exact h.onNextByte.respond
  case h_3 l' he =>
    have hl := Link.event_eq_shift he
    exact { h with
      link := h.link.record_shift hl
      deselected := by
        rintro rfl
        rcases hl with hl | ⟨hce, -⟩
        · cases hl
        · exact h.deselected hce }

theorem Eeprom.Sound.load {mem : List Byte} {bp : BitVec 2} (h : e.Sound) (hm : mem.length = eepromSize) :
    (e.load mem bp).Sound :=
  { h with memory := Memory.Sound.ofBytes hm }

theorem Eeprom.Sound.coldReset (h : e.Sound) : e.coldReset.Sound :=
  sound_of_idle Link.initial_sound h.memory rfl rfl

theorem Eeprom.initial_sound : Eeprom.initial.Sound :=
  sound_of_idle Link.initial_sound ⟨Memory.wf_nil, nofun⟩ rfl rfl

/-! ### The RTC -/

/-- What a state of the interpreter in a transaction asks of the latch and of the address (R293, R294, R310). -/
def RtcCmd.allows (wel : Bool) (addr : Byte) : RtcCmd → Prop
  | .idle => False
  | .idWriteAddr => wel = true
  | .idWriteData => wel = true ∧ addr.toNat < rtcIdSize
  | .idReadData => addr.toNat < rtcIdSize
  | _ => True

/-- What holds of the RTC whatever its interpreter's state. -/
structure Rtc.DataSound (r : Rtc) : Prop where
  ram : Memory.Sound Space.rtcRam.fill rtcRamSize r.ram
  ee : Memory.Sound Space.rtcEe.fill rtcEeSize r.ee
  id : Memory.Sound Space.rtcId.fill rtcIdSize r.id
  enabled : r.writeIssued = true → r.wel = true

/-- What holds of the RTC after a byte of a transaction. -/
structure Rtc.InTransaction (r : Rtc) : Prop where
  data : r.DataSound
  cmd : r.cmd.allows r.wel r.addr

theorem Rtc.Sound.dataSound (h : r.Sound) : r.DataSound := { h with }

theorem Rtc.Sound.inTransaction (h : r.Sound) (hc : r.cmd ≠ .idle) : r.InTransaction where
  data := h.dataSound
  cmd := by
    cases hr : r.cmd with
    | idle => exact hc hr
    | idWriteAddr => exact h.armed (.inl hr)
    | idWriteData => exact ⟨h.armed (.inr hr), h.idAddress (.inr hr)⟩
    | idReadData => exact h.idAddress (.inl hr)
    | _ => trivial

theorem Rtc.InTransaction.respond (h : r.InTransaction) : (Rtc.respond (v, r)).Sound where
  link := nofun
  ram := h.data.ram
  ee := h.data.ee
  id := h.data.id
  deselected := nofun
  idleClean hi := by
    have hc := h.cmd
    rw [show r.cmd = .idle from hi] at hc
    exact hc.elim
  enabled := h.data.enabled
  armed ha := by
    have hc := h.cmd
    rcases ha with ha | ha
    · rw [show r.cmd = _ from ha] at hc; exact hc
    · rw [show r.cmd = _ from ha] at hc; exact hc.1
  idAddress ha := by
    have hc := h.cmd
    rcases ha with ha | ha
    · rw [show r.cmd = _ from ha] at hc; exact hc
    · rw [show r.cmd = _ from ha] at hc; exact hc.2

theorem idAddr_lt (a : Byte) : (a &&& 0x0F#8).toNat < rtcIdSize := by
  rw [BitVec.toNat_and]
  exact Nat.lt_succ_of_le Nat.and_le_right

/-- The ID write is armed by the unlock and the latch together (R310). -/
theorem Rtc.Sound.idWriteOp (h : r.Sound) : r.idWriteOp.2.InTransaction := by
  refine ⟨{ h.dataSound with }, ?_⟩
  dsimp only [Rtc.idWriteOp]
  split
  · next harmed => exact harmed.2
  · trivial

/-- What the opcode byte answers is what one of the commands answers; those of `enter` go to a state that asks nothing
(R293, R301 to R314). -/
theorem Rtc.opcode_induction {P : Byte × Rtc → Prop}
    (enter : ∀ c : RtcCmd, (∀ wel addr, c.allows wel addr) → P (r.enter c)) (eeWrdi : P r.eeWrdi) (eeWren : P r.eeWren)
    (srRead : P r.srRead) (unlockOp : P r.unlockOp) (idWriteOp : P r.idWriteOp) (clrRam : P r.clrRam) :
    P (r.opcode b) := by
  have either : ∀ {c : Prop} [Decidable c] {x y : Byte × Rtc}, P x → P y → P (if c then x else y) :=
    fun hx hy => iteInduction (motive := P) (fun _ => hx) (fun _ => hy)
  have free : ∀ {c : RtcCmd}, (∀ wel addr, c.allows wel addr) → P (r.enter c) := enter _
  exact either (free fun _ _ => trivial) <| either (free fun _ _ => trivial) <| either eeWrdi <| either eeWren <|
    either srRead <| either (free fun _ _ => trivial) <| either (free fun _ _ => trivial) <|
    either (free fun _ _ => trivial) <| either unlockOp <| either idWriteOp <| either (free fun _ _ => trivial) <|
    either clrRam (free fun _ _ => trivial)

/-- An opcode byte opens a transaction. -/
theorem Rtc.Sound.opcode (h : r.Sound) (hi : r.cmd = .idle) : (r.opcode b).2.InTransaction := by
  have hd := h.dataSound
  refine opcode_induction (P := fun x => x.2.InTransaction) ?enter ?eeWrdi ?eeWren ?srRead ?unlockOp ?idWriteOp ?clrRam
  case enter => exact fun c hc => ⟨{ hd with }, hc _ _⟩
  case eeWrdi => exact ⟨{ hd with enabled := fun hw => absurd ((h.idleClean hi).symm.trans hw) nofun }, trivial⟩
  case eeWren => exact ⟨{ hd with enabled := fun _ => rfl }, trivial⟩
  case srRead => exact ⟨{ hd with }, trivial⟩
  case unlockOp => exact ⟨{ hd with }, trivial⟩
  case idWriteOp => exact h.idWriteOp
  case clrRam => exact ⟨{ hd with ram := hd.ram.clear }, trivial⟩

theorem Rtc.DataSound.setRam {a : Nat} (h : r.DataSound) (ha : a < rtcRamSize) : (r.setRam a v).DataSound :=
  { h with ram := h.ram.write ha }

/-- The time refresh writes the seven clock registers (R300). -/
theorem Rtc.DataSound.timeRefresh (h : r.DataSound) : (r.timeRefresh t).DataSound :=
  ((((((h.setRam (by decide)).setRam (by decide)).setRam (by decide)).setRam (by decide)).setRam (by decide)).setRam
    (by decide)).setRam (by decide)

theorem Rtc.DataSound.ramNext (h : r.DataSound) : r.ramNext.2.DataSound := { h with }

theorem Rtc.DataSound.ramWriteByte (h : r.DataSound) : (r.ramWriteByte b).DataSound := by
  unfold Rtc.ramWriteByte
  split
  · next ha => exact { h.setRam ha with }
  · exact { h with }

@[simp] theorem Rtc.ramWriteByte_cmd : (r.ramWriteByte b).cmd = r.cmd := by
  unfold ramWriteByte; split <;> rfl

@[simp] theorem Rtc.eeWriteByte_cmd : (r.eeWriteByte b).cmd = r.cmd := by
  unfold eeWriteByte; split <;> rfl

theorem Rtc.DataSound.eeWriteByte (h : r.DataSound) : (r.eeWriteByte b).DataSound := by
  unfold Rtc.eeWriteByte
  split
  · next hw => exact { h with ee := h.ee.write (BitVec.isLt _), enabled := fun _ => (Bool.and_eq_true_iff.1 hw).1 }
  · exact { h with }

theorem Rtc.DataSound.writeStatus (h : r.DataSound) : (r.writeStatus b).DataSound := by
  unfold Rtc.writeStatus
  split
  · next hw => exact { h with enabled := fun _ => hw }
  · exact h

theorem Rtc.DataSound.unlockStep (h : r.DataSound) : (r.unlockStep b).DataSound := by
  unfold Rtc.unlockStep
  split_ifs <;> exact { h with }

/-- The ID byte write: the transaction was armed with the latch set, and the address is in the ID area (R293, R310). -/
theorem Rtc.InTransaction.idWriteByte (h : r.InTransaction) (hc : r.cmd = .idWriteData) :
    (r.idWriteByte b).InTransaction := by
  have harmed := h.cmd
  rw [hc] at harmed
  obtain ⟨hwel, haddr⟩ := harmed
  refine ⟨{ h.data with id := h.data.id.write haddr, enabled := fun _ => hwel }, ?_⟩
  rw [show (r.idWriteByte b).cmd = .idWriteData from hc]
  exact ⟨hwel, idAddr_lt _⟩

/-- The next byte of a transaction, by the interpreter's state (R293). -/
theorem Rtc.Sound.onNextByte (h : r.Sound) : (r.onNextByte t b).2.InTransaction := by
  have hd := h.dataSound
  have ht := h.inTransaction
  unfold Rtc.onNextByte
  cases hc : r.cmd with
  | idle => exact h.opcode hc
  | readStatus | done => exact ht (by simp [hc])
  | writeStatus => exact ⟨{ hd.writeStatus with }, trivial⟩
  | eeReadAddr | eeWriteAddr | ramWriteAddr => exact ⟨{ hd with }, trivial⟩
  | ramReadAddr =>
    have hx : Rtc.DataSound { r with addr := b, cmd := .ramReadData } := { hd with }
    exact ⟨hx.timeRefresh.ramNext, trivial⟩
  | eeReadData | ramReadData => exact ⟨{ hd with }, by simp [Rtc.eeNext, Rtc.ramNext, hc, RtcCmd.allows]⟩
  | eeWriteData => exact ⟨hd.eeWriteByte, by rw [Rtc.eeWriteByte_cmd, hc]; trivial⟩
  | ramWriteData => exact ⟨hd.ramWriteByte, by rw [Rtc.ramWriteByte_cmd, hc]; trivial⟩
  | idReadAddr => exact ⟨{ hd with }, idAddr_lt _⟩
  | idReadData => exact ⟨{ hd with }, by simp only [Rtc.idNext, hc]; exact idAddr_lt _⟩
  | idWriteAddr =>
    have hi := h.armed (.inl hc)
    exact ⟨{ hd with }, hi, idAddr_lt _⟩
  | idWriteData => exact (ht (by simp [hc])).idWriteByte hc
  | unlockKey => exact ⟨{ hd.unlockStep with }, trivial⟩

/-- The end of a transaction clears the write flag, and the latch where a write was issued (R313). -/
theorem Rtc.endOfTransaction_frame :
    r.endOfTransaction.ram = r.ram ∧ r.endOfTransaction.ee = r.ee ∧ r.endOfTransaction.id = r.id ∧
      r.endOfTransaction.writeIssued = false := by
  unfold endOfTransaction
  split
  · exact ⟨rfl, rfl, rfl, rfl⟩
  · next h => exact ⟨rfl, rfl, rfl, Bool.eq_false_iff.2 h⟩

/-- An RTC outside a transaction with sound memories. -/
theorem Rtc.sound_of_idle (hl : r.link.Sound) (hram : Memory.Sound Space.rtcRam.fill rtcRamSize r.ram)
    (hee : Memory.Sound Space.rtcEe.fill rtcEeSize r.ee) (hid : Memory.Sound Space.rtcId.fill rtcIdSize r.id)
    (hc : r.cmd = .idle) (hw : r.writeIssued = false) : r.Sound where
  link := hl
  ram := hram
  ee := hee
  id := hid
  deselected _ := hc
  idleClean _ := hw
  enabled h := absurd (hw.symm.trans h) nofun
  armed := by simp [hc]
  idAddress := by simp [hc]

theorem Rtc.Sound.deselect (h : r.Sound) : { r.deselect with link := r.deselect.link.record ce clk }.Sound := by
  obtain ⟨hram, hee, hid, hissued⟩ := r.endOfTransaction_frame
  exact sound_of_idle Link.clear_record_sound (hram ▸ h.ram) (hee ▸ h.ee) (hid ▸ h.id) rfl hissued

theorem Rtc.Sound.writeState (h : r.Sound) : (r.writeState t ce clk data).Sound := by
  unfold Rtc.writeState
  split
  case h_1 => exact h.deselect
  case h_2 => exact h.onNextByte.respond
  case h_3 l' he =>
    have hl := Link.event_eq_shift he
    exact { h with
      link := h.link.record_shift hl
      deselected := by
        rintro rfl
        rcases hl with hl | ⟨hce, -⟩
        · cases hl
        · exact h.deselected hce }

theorem Rtc.Sound.load {ram ee id : List Byte} {bp : BitVec 2} (h : r.Sound) (hram : ram.length = rtcRamSize)
    (hee : ee.length = rtcEeSize) (hid : id.length = rtcIdSize) : (r.load ram ee id bp).Sound :=
  { h with ram := Memory.Sound.ofBytes hram, ee := Memory.Sound.ofBytes hee, id := Memory.Sound.ofBytes hid }

theorem Rtc.Sound.coldReset (h : r.Sound) : r.coldReset.Sound :=
  sound_of_idle Link.initial_sound h.ram h.ee h.id rfl rfl

theorem Rtc.initial_sound : Rtc.initial.Sound :=
  sound_of_idle Link.initial_sound ⟨Memory.wf_nil, nofun⟩ ⟨Memory.wf_nil, nofun⟩ ⟨Memory.wf_nil, nofun⟩ rfl rfl

end Sys2Proof.Machine


/-! PROOFS. The invariant of the machine (10_state.md). A handler's calls run with `inHandler` set, so the calls are shown to
keep `State.PartsSound`, the invariant but for that field; `inHandler` itself is kept by every call but SCHED_CHECK, which
clears it at its end. -/

namespace Sys2Proof.Machine

variable {s t : State} {r : ChipRef} {c c' : Chip} {m m' : Mapper} {p : Params} {x : CpuAddr} {v : Byte}

/-- `State.Sound` but for `quiet`: what also holds while a handler runs. -/
structure State.PartsSound (s : State) : Prop where
  chips : ∀ c ∈ s.chips, c.Sound
  mapper : s.mapper.Sound s.cfg
  owners : ((s.mapper.chips ++ s.chips).map (fun c => c.buf)).Nodup
  profiles : ∀ c ∈ s.mapper.chips ++ s.chips, c.profile = profileOf s.cfg c.type
  ids : (s.sched.queue.map (fun e => e.id)).Nodup
  eeprom : s.eeprom.Sound
  rtc : s.rtc.Sound

theorem State.sound_iff : s.Sound ↔ s.PartsSound ∧ s.sched.inHandler = none :=
  ⟨fun h => ⟨{ h with }, h.quiet⟩, fun ⟨h, hq⟩ => { h with quiet := hq }⟩

theorem State.PartsSound.answer {res : Result} (h : s.PartsSound) : (s.answer res).PartsSound := { h with }

/-! ### Replacing a chip -/

/-- Replacing an element by one of the same value under `f` does not show under `f`. -/
theorem map_set_of_eq {α β : Type} {f : α → β} {l : List α} {k : Nat} {a b : α} (hk : l[k]? = some a) (hf : f b = f a) :
    (l.set k b).map f = l.map f := by
  obtain ⟨hlt, rfl⟩ := List.getElem?_eq_some_iff.1 hk
  rw [List.map_set, hf, ← List.getElem_map f (h := by simpa using hlt), List.set_getElem_self]

theorem forall_mem_set {α : Type} {P : α → Prop} {l : List α} {k : Nat} {b : α} (hl : ∀ a ∈ l, P a) (hb : P b) :
    ∀ a ∈ l.set k b, P a :=
  fun a ha => (List.mem_or_eq_of_mem_set ha).elim (hl a) fun he => he ▸ hb

/-- The layout sees of the chips only their profiles. -/
theorem Mapper.layout_withChips {chips : List Chip}
    (h : chips.map (fun c => c.profile) = m.chips.map (fun c => c.profile)) :
    Mapper.layout { m with chips := chips } p = m.layout p := by
  refine Mapper.layout_congr rfl rfl fun src => ?_
  cases src with
  | none => rfl
  | ram => rfl
  | flash k =>
    have hk : chips[k]?.map (fun c => c.profile) = m.chips[k]?.map (fun c => c.profile) := by
      rw [← List.getElem?_map, h, List.getElem?_map]
    simp only [Mapper.sourceSize]
    cases h1 : chips[k]? <;> cases h2 : m.chips[k]? <;> simp_all

theorem State.PartsSound.of_chipAt (h : s.PartsSound) (hc : s.chipAt r = some c) :
    c.Sound ∧ c.profile = profileOf s.cfg c.type := by
  cases r with
  | mapper k =>
    have hm := List.mem_of_getElem? hc
    exact ⟨h.mapper.chips c hm, h.profiles c (List.mem_append_left _ hm)⟩
  | host k =>
    have hm := List.mem_of_getElem? hc
    exact ⟨h.chips c hm, h.profiles c (List.mem_append_right _ hm)⟩

/-- Replacing a chip by one that follows it keeps the invariant. -/
theorem State.PartsSound.setChip (h : s.PartsSound) (hc : s.chipAt r = some c) (hf : c'.Follows c) :
    (s.setChip r c').PartsSound := by
  obtain ⟨hsound, hprofile⟩ := h.of_chipAt hc
  have hsound' := hf.sound hsound
  have hprofile' : c'.profile = profileOf s.cfg c'.type := by rw [hf.profile, hf.type, hprofile]
  obtain ⟨hmapper, hhost⟩ := List.forall_mem_append.1 h.profiles
  have howners := h.owners
  rw [List.map_append] at howners
  cases r with
  | mapper k =>
    have hlayout := Mapper.layout_withChips (p := s.cfg) (map_set_of_eq hc hf.profile)
    exact { h with
      mapper := { h.mapper with
        chips := forall_mem_set h.mapper.chips hsound'
        installed := h.mapper.installed.trans (congrArg some hlayout.symm) }
      owners := by rwa [State.setChip, List.map_append, map_set_of_eq hc hf.buf]
      profiles := List.forall_mem_append.2 ⟨forall_mem_set hmapper hprofile', hhost⟩ }
  | host k =>
    exact { h with
      chips := forall_mem_set h.chips hsound'
      owners := by rwa [State.setChip, List.map_append, map_set_of_eq hc hf.buf]
      profiles := List.forall_mem_append.2 ⟨hmapper, forall_mem_set hhost hprofile'⟩ }

theorem State.PartsSound.putAccess {y : ChipAccess} (h : s.PartsSound) (hc : s.chipAt r = some c)
    (hf : y.chip.Follows c) : (s.putAccess r y).PartsSound :=
  { h.setChip hc hf with }

/-- A direct access keeps the invariant when what it leaves follows the chip it found. -/
theorem State.PartsSound.onChip {access : Chip → ChipAccess} {result : ChipAccess → Result} (h : s.PartsSound)
    (ha : ∀ c, (access c).chip.Follows c) (hx : onChip s r access result = .next t) : t.PartsSound := by
  obtain ⟨c, hc, rfl⟩ := onChip_next hx
  exact { h.setChip hc (ha c) with }

theorem State.PartsSound.chipRead {a : Nat} (h : s.PartsSound) (hx : chipRead r a s = .next t) : t.PartsSound :=
  h.onChip (fun _ => Chip.read_follows) hx

theorem State.PartsSound.chipWrite {a : Nat} (h : s.PartsSound) (hx : chipWrite r a v s = .next t) : t.PartsSound :=
  h.onChip (fun _ => Chip.write_follows) hx

/-! ### The mapper -/

/-- After `Apply` the installed layout is the layout of the registers (R335), whatever was installed. -/
theorem State.PartsSound.applyLayout {regs : MapRegs} {table : List TcEntry} (h : s.PartsSound)
    (ht : s.mapper.type = .theCart → table.length = 256) :
    State.PartsSound (State.applyLayout { s with mapper := { s.mapper with regs := regs, table := table } }) :=
  { h with mapper := { h.mapper with table := ht, installed := congrArg some (Mapper.layout_installed _).symm } }

theorem schemeTable_length (p : TcParams) (mode : Byte) : (schemeTable p mode).length = 256 := by
  unfold schemeTable
  split
  · rw [List.length_map, List.length_range]
  · exact List.length_replicate

theorem State.PartsSound.writeState {dev : Dev} {ce clk data : Bool} (h : s.PartsSound) :
    (writeState dev ce clk data s).PartsSound := by
  cases dev with
  | eeprom => exact { h with eeprom := h.eeprom.writeState }
  | rtc => exact { h with rtc := h.rtc.writeState }

/-- Applying the layout that is installed already. -/
theorem State.PartsSound.applyLayout_self (h : s.PartsSound) : s.applyLayout.PartsSound := by
  rw [State.applyLayout_self h.mapper.installed]
  exact h

/-- A control write of TheCart: the serial register, a native register or a legacy write (R351 to R353). -/
theorem State.PartsSound.theCartWrite (h : s.PartsSound) : (theCartWrite x v s).applyLayout.PartsSound := by
  unfold Machine.theCartWrite
  split
  · split
    · exact h.applyLayout_self
    · exact h.writeState.applyLayout_self
  · split
    · unfold Mapper.nativeWrite
      split
      · exact h.applyLayout_self
      · refine h.applyLayout fun ht => ?_
        split
        · exact schemeTable_length _ _
        · exact h.mapper.table ht
    · unfold Mapper.legacyWrite
      split
      · exact h.applyLayout h.mapper.table
      · exact h.applyLayout_self

/-- A MaxFlash access, then `Apply`. -/
theorem State.PartsSound.maxAccess {q : MaxMap} {n : Nat} (h : s.PartsSound) :
    State.PartsSound (State.applyLayout { s with mapper := s.mapper.maxAccess q x, draws := n }) := by
  obtain ⟨bank, enabled, heq⟩ := Mapper.maxAccess_frame q x s.mapper
  rw [heq]
  exact { h.applyLayout h.mapper.table with }

theorem State.PartsSound.ctlWrite (h : s.PartsSound) : (ctlWrite x v s).applyLayout.PartsSound := by
  unfold Machine.ctlWrite
  split
  · exact h.applyLayout h.mapper.table
  · exact h.applyLayout h.mapper.table
  · exact h.theCartWrite
  · split
    · exact h.applyLayout h.mapper.table
    · exact h.applyLayout_self
  · exact h.maxAccess
  · exact h.maxAccess

theorem State.PartsSound.execMapCtlWrite (h : s.PartsSound) (hx : execMapCtlWrite x v s = .next t) : t.PartsSound := by
  unfold Machine.execMapCtlWrite at hx
  split at hx <;> cases hx
  · exact h.ctlWrite.answer
  · exact h.answer

/-- A control read that changes no register changes the draws only; one that does is followed by `Apply` (R339). -/
theorem State.PartsSound.execMapCtlRead (h : s.PartsSound) (hx : execMapCtlRead x s = .next t) : t.PartsSound := by
  obtain ⟨regs, draws, heq⟩ := ctlRead_frame x s
  have hiff := readChanged_ctlRead x s
  unfold Machine.execMapCtlRead at hx
  split at hx
  · dsimp only at hx
    split at hx
    · cases hx
      rw [heq]
      have hd : State.PartsSound { s with draws := draws } := { h with }
      exact (hd.applyLayout h.mapper.table).answer
    · next hsame =>
      cases hx
      rw [hiff, not_not] at hsame
      rw [heq] at hsame ⊢
      have hregs : regs = s.mapper.regs := hsame
      subst hregs
      exact State.PartsSound.answer { h with }
  · cases hx
    exact h.answer

theorem State.PartsSound.windowRead {d : Desc} {w : Win} (h : s.PartsSound) : (windowRead d w x s).PartsSound := by
  unfold Machine.windowRead
  split
  · exact h.answer
  · split
    · next hc => exact (h.putAccess hc Chip.read_follows).answer
    · exact h.answer
  · exact h.answer

theorem State.PartsSound.setRam {a : Nat} (h : s.PartsSound) :
    State.PartsSound { s with mapper := s.mapper.setRam a v } :=
  { h with mapper := { h.mapper with
      ramCanonical := Memory.wf_write h.mapper.ramCanonical
      ramInside := fun hr => Memory.inside_write (h.mapper.ramInside hr) (Nat.mod_lt _ hr)
      installed := h.mapper.installed.trans (congrArg some (Mapper.layout_congr rfl rfl fun _ => rfl)) } }

theorem State.PartsSound.windowWrite {d : Desc} {w : Win} (h : s.PartsSound) : (windowWrite d w x v s).PartsSound := by
  unfold Machine.windowWrite
  split
  · exact h.answer
  · split
    · exact h.answer
    · split
      · next hc => exact (h.putAccess hc Chip.write_follows).answer
      · exact h.answer
    · exact h.setRam.answer

theorem State.PartsSound.execMapWinRead (h : s.PartsSound) (hx : execMapWinRead x s = .next t) : t.PartsSound := by
  unfold Machine.execMapWinRead at hx
  split at hx <;> cases hx
  · exact h.windowRead
  · exact h.answer

theorem State.PartsSound.execMapWinWrite (h : s.PartsSound) (hx : execMapWinWrite x v s = .next t) : t.PartsSound := by
  unfold Machine.execMapWinWrite at hx
  split at hx <;> cases hx
  · exact h.windowWrite
  · exact h.answer

/-- A CPU access: a window, the control page, or neither (R72). -/
theorem State.PartsSound.runCpu {w : Option Byte} (h : s.PartsSound) (hx : runCpu x w s = .next t) : t.PartsSound := by
  unfold Machine.runCpu at hx
  split at hx
  · cases w with
    | none => exact h.execMapWinRead hx
    | some b => exact h.execMapWinWrite hx
  · split at hx
    · cases w with
      | none => exact h.execMapCtlRead hx
      | some b => exact h.execMapCtlWrite hx
    · cases hx
      exact h.answer

/-- A mapper's ColdReset resets its chips, sets TheCart's table and installs the power-on layout (R338). So the mapper before
it need have neither table nor layout, as after `Init` (R345). -/
theorem State.PartsSound.mapperReset (h : s.PartsSound) (hchips : ∀ c ∈ m.chips, c.Sound)
    (hram : Memory.wf Space.mapperRam.fill m.ram) (hinside : 0 < m.ramSize → ∀ x ∈ m.ram, x.1 < m.ramSize)
    (howners : ((m.chips ++ s.chips).map (fun c => c.buf)).Nodup)
    (hprofiles : ∀ c ∈ m.chips, c.profile = profileOf s.cfg c.type) :
    (mapperReset { s with mapper := m }).PartsSound :=
  { h with
    mapper :=
      { chips := List.forall_mem_map.2 fun c hc => Chip.coldReset_follows.sound (hchips c hc)
        ramCanonical := hram
        ramInside := hinside
        table := fun ht => (congrArg List.length (if_pos ht)).trans (schemeTable_length _ _)
        installed := congrArg some (Mapper.layout_installed _).symm }
    owners := by
      have hbuf : (m.chips.map Chip.coldReset).map (fun c => c.buf) = m.chips.map (fun c => c.buf) := by
        rw [List.map_map]; rfl
      rw [List.map_append] at howners ⊢
      exact hbuf.symm ▸ howners
    profiles := List.forall_mem_append.2
      ⟨List.forall_mem_map.2 fun c hc => hprofiles c hc, (List.forall_mem_append.1 h.profiles).2⟩ }

theorem State.PartsSound.execMapColdReset (h : s.PartsSound) (hx : execMapColdReset s = .next t) : t.PartsSound := by
  cases hx
  exact (h.mapperReset h.mapper.chips h.mapper.ramCanonical h.mapper.ramInside h.owners
    (List.forall_mem_append.1 h.profiles).1).answer

/-- A buffer that no chip is bound to gives a chip with an owner of its own (R162). -/
theorem isBound_eq_false {chips : List Chip} {buf : Nat} (h : ¬ isBound chips buf = true) :
    buf ∉ chips.map (fun c => c.buf) := by
  simpa [isBound] using h

theorem State.PartsSound.execMapInit {allocOk : Bool} {type : MapperType} {image : Buffer} {sizeKB : Nat}
    (h : s.PartsSound) (hx : execMapInit allocOk type image sizeKB s = .next t) : t.PartsSound := by
  unfold Machine.execMapInit at hx
  split_ifs at hx with hsize halloc hbound
  cases hx
  rw [not_or, not_or, not_not, not_not, not_not] at hsize
  refine State.PartsSound.answer (h.mapperReset ?_ Memory.wf_nil (fun _ => nofun) ?_ ?_)
  · exact List.forall_mem_singleton.2 (chipOf_sound hsize.2.2)
  · have hhost := h.owners
    rw [List.map_append] at hhost
    exact List.nodup_cons.2 ⟨isBound_eq_false hbound, (List.nodup_append.1 hhost).2.1⟩
  · exact List.forall_mem_singleton.2 rfl

/-! ### The other interface calls -/

theorem State.PartsSound.execFlashInit {allocOk : Bool} {buffer : Buffer} {type : ChipType} (h : s.PartsSound)
    (hx : execFlashInit allocOk buffer type s = .next t) : t.PartsSound := by
  unfold Machine.execFlashInit at hx
  split_ifs at hx with hsize halloc hbound
  cases hx
  rw [not_not] at hsize
  have hbuf := isBound_eq_false hbound
  exact { h with
    chips := List.forall_mem_append.2 ⟨h.chips, List.forall_mem_singleton.2 (chipOf_sound hsize)⟩
    owners := by
      change ((s.mapper.chips ++ (s.chips ++ [chipOf s.cfg buffer type])).map (fun c => c.buf)).Nodup
      rw [← List.append_assoc, List.map_append]
      exact List.nodup_append_comm.1 (List.nodup_cons.2 ⟨hbuf, h.owners⟩)
    profiles := by
      change ∀ c ∈ s.mapper.chips ++ (s.chips ++ [chipOf s.cfg buffer type]), c.profile = profileOf s.cfg c.type
      rw [← List.append_assoc]
      exact List.forall_mem_append.2 ⟨h.profiles, List.forall_mem_singleton.2 rfl⟩ }

theorem State.PartsSound.execFlashColdReset (h : s.PartsSound) (hx : execFlashColdReset r s = .next t) :
    t.PartsSound := by
  unfold Machine.execFlashColdReset at hx
  split at hx <;> cases hx
  next hc => exact (h.setChip hc Chip.coldReset_follows).answer

theorem State.PartsSound.execEeLoad {mem : List Byte} {bp : BitVec 2} (h : s.PartsSound)
    (hx : execEeLoad mem bp s = .next t) : t.PartsSound := by
  unfold Machine.execEeLoad at hx
  split_ifs at hx with hm
  cases hx
  exact { h with eeprom := h.eeprom.load (not_not.1 hm) }

theorem State.PartsSound.execRtcLoad {ram ee id : List Byte} {bp : BitVec 2} (h : s.PartsSound)
    (hx : execRtcLoad ram ee id bp s = .next t) : t.PartsSound := by
  unfold Machine.execRtcLoad at hx
  split_ifs at hx with hm
  cases hx
  rw [not_or, not_or, not_not, not_not, not_not] at hm
  obtain ⟨hram, hee, hid⟩ := hm
  exact { h with rtc := h.rtc.load hram hee hid }

theorem State.PartsSound.execSchedAdd {id : Int} {delta : Cycles} {handler : Nat} (h : s.PartsSound)
    (hx : execSchedAdd id delta handler s = .next t) : t.PartsSound := by
  obtain rfl := execSchedAdd_next hx
  exact { h with ids := nodup_insert_removeId h.ids }

theorem State.PartsSound.execSchedDelete {id : Int} (h : s.PartsSound) (hx : execSchedDelete id s = .next t) :
    t.PartsSound := by
  unfold Machine.execSchedDelete at hx
  split_ifs at hx
  cases hx
  exact { h with ids := nodup_removeId h.ids }

/-- An interface call, as a handler may make it (R214). -/
theorem State.PartsSound.runNestedHost {g : HostCall} (h : s.PartsSound) (hx : runNestedHost g s = .next t) :
    t.PartsSound := by
  cases g with
  | flashInit allocOk buffer type => exact h.execFlashInit hx
  | flashColdReset chip => exact h.execFlashColdReset hx
  | readState dev | eeSave | rtcSave => cases hx; exact h.answer
  | eeLoad mem bp => exact h.execEeLoad hx
  | eeColdReset => cases hx; exact { h with eeprom := h.eeprom.coldReset }
  | rtcLoad ram ee id bp => exact h.execRtcLoad hx
  | rtcColdReset => cases hx; exact { h with rtc := h.rtc.coldReset }
  | schedAdd id delta handler => exact h.execSchedAdd hx
  | schedDelete id => exact h.execSchedDelete hx
  | schedCheck => cases hx
  | mapColdReset => exact h.execMapColdReset hx
  | mapInit allocOk type image sizeKB => exact h.execMapInit hx

/-! ### Calls and scripts -/

theorem State.PartsSound.runNested {c : Call} (h : s.PartsSound) (hx : runNested c s = .next t) : t.PartsSound := by
  cases c with
  | chip r a w =>
    cases w with
    | none => exact h.chipRead hx
    | some b => exact h.chipWrite hx
  | cpu x w => exact h.runCpu hx
  | wire dev ce clk data => cases hx; exact h.writeState.answer
  | host g => exact h.runNestedHost hx

theorem State.PartsSound.runScript {cs : List HandlerCall} (h : s.PartsSound) (hx : runScript cs s = .next t) :
    t.PartsSound := by
  induction cs generalizing s with
  | nil => cases hx; exact h
  | cons c cs ih =>
    have hclock : State.PartsSound { s with clock := c.clock } := { h with }
    unfold Machine.runScript at hx
    split at hx
    · next hn => exact ih (hclock.runNested hn) hx
    · cases hx
    · cases hx

/-- SCHED_CHECK: the head leaves the queue, its handler's calls keep the invariant, and no handler runs at the end (R213). -/
theorem State.Sound.execSchedCheck {hc : List HandlerCall} (h : s.Sound) (hx : execSchedCheck hc s = .next t) :
    t.Sound := by
  unfold Machine.execSchedCheck at hx
  rw [if_neg (by simp [h.quiet])] at hx
  split at hx
  · cases hx; exact { h with }
  · next e rest hq =>
    split_ifs at hx
    · have hids := h.ids
      rw [hq] at hids
      have henter : (s.enterHandler e rest).PartsSound := { h with ids := (List.nodup_cons.1 hids).2 }
      unfold runHandler at hx
      split at hx <;> cases hx
      next s' hs => exact { henter.runScript hs with quiet := rfl }
    · cases hx; exact { h with }

theorem State.Sound.runCall {hc : List HandlerCall} {c : Call} (h : s.Sound) (hx : runCall hc c s = .next t) :
    t.Sound := by
  unfold Machine.runCall at hx
  split at hx
  · exact h.execSchedCheck hx
  · obtain ⟨hparts, hquiet⟩ := sound_iff.1 h
    exact sound_iff.2 ⟨hparts.runNested hx, (runNested_inHandler hx).trans hquiet⟩

/-- The owner's clears touch commit flags only, and taking the inputs nothing the invariant speaks of (R25, R26, R62). -/
theorem State.Sound.ownerClear {f : FlagClear} (h : s.Sound) : (s.ownerClear f).Sound := by
  cases hc : s.chipAt f.chip with
  | none => rw [ownerClear_of_noChip hc]; exact h
  | some c =>
    obtain ⟨hparts, hquiet⟩ := sound_iff.1 h
    rw [ownerClear_of_chip hc]
    exact sound_iff.2 ⟨hparts.setChip hc Chip.ownerClear_follows, by rwa [setChip_sched]⟩

theorem State.Sound.accept {q : Request} {rest : List Request} (h : s.Sound) : (s.accept q rest).Sound := by
  have htake : (s.takeInputs q rest).Sound := { h with }
  rw [accept_eq_foldl]
  generalize s.takeInputs q rest = s0 at htake
  generalize q.ownerClears = clears
  induction clears generalizing s0 with
  | nil => exact htake
  | cons f fs ih => exact ih _ htake.ownerClear

/-! ### The step -/

theorem execMapWinRead_cases :
    execMapWinRead x s = runCpu x none s ∨ execMapWinRead x s = .next (s.answer .notServed) := by
  unfold runCpu
  cases hw : windowOf x with
  | some w => exact .inl rfl
  | none => exact .inr (by rw [execMapWinRead, hw])

theorem execMapWinWrite_cases :
    execMapWinWrite x v s = runCpu x (some v) s ∨ execMapWinWrite x v s = .next (s.answer .notServed) := by
  unfold runCpu
  cases hw : windowOf x with
  | some w => exact .inl rfl
  | none => exact .inr (by rw [execMapWinWrite, hw])

/-- No window holds an address of the control page (assumption 27). -/
theorem windowOf_of_inCtlPage {page : Byte} (h : inCtlPage page x = true) : (windowOf x).isSome = false := by
  unfold inCtlPage at h
  cases hw : windowOf x with
  | none => rfl
  | some w => simp [hw] at h

theorem execMapCtlRead_cases :
    execMapCtlRead x s = runCpu x none s ∨ execMapCtlRead x s = .next (s.answer .notServed) := by
  by_cases hp : inCtlPage s.cfg.ctlPage x = true
  · exact .inl (by rw [runCpu, windowOf_of_inCtlPage hp, if_neg nofun, if_pos hp])
  · exact .inr (by rw [execMapCtlRead, if_neg hp])

theorem execMapCtlWrite_cases :
    execMapCtlWrite x v s = runCpu x (some v) s ∨ execMapCtlWrite x v s = .next (s.answer .notServed) := by
  by_cases hp : inCtlPage s.cfg.ctlPage x = true
  · exact .inl (by rw [runCpu, windowOf_of_inCtlPage hp, if_neg nofun, if_pos hp])
  · exact .inr (by rw [execMapCtlWrite, if_neg hp])

/-- What an instruction is: the host call of its cycle, or an access the block does not serve. A row of the opcode table is
its cycle's general access (assumptions 12 and 13); a CPU row does nothing at an address of no window and no register. -/
theorem exec_cases (i : Instr) (s : State) :
    (∃ hc c, exec i s = runCall hc c s) ∨ exec i s = .next (s.answer .notServed) := by
  cases i with
  | flashReadNormal r a => exact .inl ⟨[], .chip r a none, execFlashReadNormal_eq⟩
  | flashReadAutoselect r a => exact .inl ⟨[], .chip r a none, execFlashReadAutoselect_eq⟩
  | flashReadWriteStatus r a => exact .inl ⟨[], .chip r a none, execFlashReadWriteStatus_eq⟩
  | flashReadEraseStatus r a => exact .inl ⟨[], .chip r a none, execFlashReadEraseStatus_eq⟩
  | flashAtmelClose r a => exact .inl ⟨[], .chip r a none, execFlashAtmelClose_eq⟩
  | flashReset1 r a => exact .inl ⟨[], .chip r a (some 0xF0#8), execFlashReset1_eq⟩
  | flashUnlock1 r a => exact .inl ⟨[], .chip r a (some 0xAA#8), execFlashUnlock1_eq⟩
  | flashUnlock2 r a => exact .inl ⟨[], .chip r a (some 0x55#8), execFlashUnlock2_eq⟩
  | flashAutoselect r a => exact .inl ⟨[], .chip r a (some 0x90#8), execFlashAutoselect_eq⟩
  | flashProgramSetup r a => exact .inl ⟨[], .chip r a (some 0xA0#8), execFlashProgramSetup_eq⟩
  | flashAtmelSetup r a => exact .inl ⟨[], .chip r a (some 0xA0#8), execFlashAtmelSetup_eq⟩
  | flashEraseSetup r a => exact .inl ⟨[], .chip r a (some 0x80#8), execFlashEraseSetup_eq⟩
  | flashReset3 r a => exact .inl ⟨[], .chip r a (some 0xF0#8), execFlashReset3_eq⟩
  | flashWbLoad r a => exact .inl ⟨[], .chip r a (some 0x25#8), execFlashWbLoad_eq⟩
  | flashProgramData r a v => exact .inl ⟨[], .chip r a (some v), execFlashProgramData_eq⟩
  | flashEraseUnlock1 r a => exact .inl ⟨[], .chip r a (some 0xAA#8), execFlashEraseUnlock1_eq⟩
  | flashEraseUnlock2 r a => exact .inl ⟨[], .chip r a (some 0x55#8), execFlashEraseUnlock2_eq⟩
  | flashChipErase r a => exact .inl ⟨[], .chip r a (some 0x10#8), execFlashChipErase_eq⟩
  | flashSectorErase r a => exact .inl ⟨[], .chip r a (some 0x30#8), execFlashSectorErase_eq⟩
  | flashWbCount r a v => exact .inl ⟨[], .chip r a (some v), execFlashWbCount_eq⟩
  | flashWbData r a v => exact .inl ⟨[], .chip r a (some v), execFlashWbData_eq⟩
  | flashWbConfirm r a v => exact .inl ⟨[], .chip r a (some v), execFlashWbConfirm_eq⟩
  | flashAtmelData r a v => exact .inl ⟨[], .chip r a (some v), execFlashAtmelData_eq⟩
  | flashAbort r a v => exact .inl ⟨[], .chip r a (some v), execFlashAbort_eq⟩
  | flashSectorEraseMore r a => exact .inl ⟨[], .chip r a (some 0x30#8), execFlashSectorEraseMore_eq⟩
  | flashEraseStatusExit r a v => exact .inl ⟨[], .chip r a (some v), execFlashEraseStatusExit_eq⟩
  | flashInit ok b type => exact .inl ⟨[], .host (.flashInit ok b type), rfl⟩
  | flashColdReset r => exact .inl ⟨[], .host (.flashColdReset r), rfl⟩
  | serialWriteState dev ce clk d => exact .inl ⟨[], .wire dev ce clk d, rfl⟩
  | serialReadState dev => exact .inl ⟨[], .host (.readState dev), rfl⟩
  | eeWren => exact .inl ⟨[], .wire .eeprom true false false, execEeWren_eq⟩
  | eeWrdi => exact .inl ⟨[], .wire .eeprom true false false, execEeWrdi_eq⟩
  | eeRdsr => exact .inl ⟨[], .wire .eeprom true false false, execEeRdsr_eq⟩
  | eeWrsr => exact .inl ⟨[], .wire .eeprom true false false, execEeWrsr_eq⟩
  | eeRead => exact .inl ⟨[], .wire .eeprom true false false, execEeRead_eq⟩
  | eeWrite => exact .inl ⟨[], .wire .eeprom true false false, execEeWrite_eq⟩
  | eeUnknown op => exact .inl ⟨[], .wire .eeprom true false false, execEeUnknown_eq⟩
  | eeLoad mem bp => exact .inl ⟨[], .host (.eeLoad mem bp), rfl⟩
  | eeSave => exact .inl ⟨[], .host .eeSave, rfl⟩
  | eeColdReset => exact .inl ⟨[], .host .eeColdReset, rfl⟩
  | rtcEeRead => exact .inl ⟨[], .wire .rtc true false false, execRtcEeRead_eq⟩
  | rtcEeWrite => exact .inl ⟨[], .wire .rtc true false false, execRtcEeWrite_eq⟩
  | rtcEeWrdi => exact .inl ⟨[], .wire .rtc true false false, execRtcEeWrdi_eq⟩
  | rtcEeWren => exact .inl ⟨[], .wire .rtc true false false, execRtcEeWren_eq⟩
  | rtcSrRead => exact .inl ⟨[], .wire .rtc true false false, execRtcSrRead_eq⟩
  | rtcSrWrite => exact .inl ⟨[], .wire .rtc true false false, execRtcSrWrite_eq⟩
  | rtcRead => exact .inl ⟨[], .wire .rtc true false false, execRtcRead_eq⟩
  | rtcWrite => exact .inl ⟨[], .wire .rtc true false false, execRtcWrite_eq⟩
  | rtcUnlock => exact .inl ⟨[], .wire .rtc true false false, execRtcUnlock_eq⟩
  | rtcIdWrite => exact .inl ⟨[], .wire .rtc true false false, execRtcIdWrite_eq⟩
  | rtcIdRead => exact .inl ⟨[], .wire .rtc true false false, execRtcIdRead_eq⟩
  | rtcClrRam => exact .inl ⟨[], .wire .rtc true false false, execRtcClrRam_eq⟩
  | rtcUnknown op => exact .inl ⟨[], .wire .rtc true false false, execRtcUnknown_eq⟩
  | rtcLoad ram ee id bp => exact .inl ⟨[], .host (.rtcLoad ram ee id bp), rfl⟩
  | rtcSave => exact .inl ⟨[], .host .rtcSave, rfl⟩
  | rtcColdReset => exact .inl ⟨[], .host .rtcColdReset, rfl⟩
  | schedAdd id delta handler => exact .inl ⟨[], .host (.schedAdd id delta handler), rfl⟩
  | schedDelete id => exact .inl ⟨[], .host (.schedDelete id), rfl⟩
  | schedCheck hc => exact .inl ⟨hc, .host .schedCheck, rfl⟩
  | mapWinRead x => exact execMapWinRead_cases.imp_left fun h => ⟨[], .cpu x none, h⟩
  | mapWinWrite x v => exact execMapWinWrite_cases.imp_left fun h => ⟨[], .cpu x (some v), h⟩
  | mapCtlRead x => exact execMapCtlRead_cases.imp_left fun h => ⟨[], .cpu x none, h⟩
  | mapCtlWrite x v => exact execMapCtlWrite_cases.imp_left fun h => ⟨[], .cpu x (some v), h⟩
  | mapColdReset => exact .inl ⟨[], .host .mapColdReset, rfl⟩
  | mapInit ok type image kb => exact .inl ⟨[], .host (.mapInit ok type image kb), rfl⟩

/-- A step is nothing, a host call in the accepted state, or an access the block does not serve (R6, R72). -/
theorem step_cases (h : step s = .next t) :
    t = s ∨ ∃ q rest, s.input = q :: rest ∧
      ((∃ hc c, runCall hc c (s.accept q rest) = .next t) ∨ t = (s.accept q rest).answer .notServed) := by
  cases hs : s.input with
  | nil =>
    rw [step_of_noCall hs] at h
    exact .inl (Host.Outcome.next.inj h).symm
  | cons q rest =>
    refine .inr ⟨q, rest, rfl, ?_⟩
    rw [step_of_call hs] at h
    unfold afterDecode at h
    split at h
    · next i hi =>
      rcases exec_cases i (s.accept q rest) with ⟨hc, c, he⟩ | he
      · exact .inl ⟨hc, c, he ▸ h⟩
      · exact .inr (Host.Outcome.next.inj (he.symm.trans h)).symm
    · exact .inr (Host.Outcome.next.inj h).symm
    · cases h

/-- Settles O6: a step is one host call in the accepted state, and both keep the invariant. -/
theorem stepKeepsSound : Obligations.StepKeepsSound := by
  intro s t hs h
  rcases step_cases h with rfl | ⟨q, rest, -, ⟨hc, c, hrun⟩ | rfl⟩
  · exact hs
  · exact hs.accept.runCall hrun
  · exact { hs.accept with }

/-! ### The state after reset -/

/-- A MegaCart 512K at bank 0 shows the first bank of its chip at `$A000` (R340). -/
theorem Mapper.initial_layout : Mapper.initial.layout defaultParams =
    { w809f := Desc.disabled, wa0bf := { readSrc := .flash 0, writeDst := .flash 0, base := 0, writeBase := 0 } } :=
  congrArg (Layout.mk Desc.disabled)
    (Mapper.flashWindow_eq (k := 5) (c := Chip.initial .am29f040b (profileOf defaultParams .am29f040b) 0 []) rfl
      (by decide) (by decide) (by decide) (by decide) (.inr rfl))

theorem Mapper.initial_sound : Mapper.initial.Sound defaultParams where
  chips := List.forall_mem_singleton.2 (Chip.initial_sound Memory.wf_nil nofun)
  ramCanonical := Memory.wf_nil
  ramInside _ := nofun
  table := nofun
  installed := congrArg some Mapper.initial_layout.symm

/-- Settles O7: one chip, no pending entry, the devices at their creation values. -/
theorem resetIsSound : Obligations.ResetIsSound where
  chips _ hc := absurd hc List.not_mem_nil
  mapper := Mapper.initial_sound
  owners := List.nodup_singleton 0
  profiles := List.forall_mem_singleton.2 rfl
  ids := List.nodup_nil
  quiet := rfl
  eeprom := Eeprom.initial_sound
  rtc := Rtc.initial_sound

end Sys2Proof.Machine

/-! PROOFS. The decoder answers every record a state fetches (30_encoding.md): each branch of a decoding function is a row
whose address, profile or opcode condition is the branch's own, so the instruction is well formed; a chip's key holds a read
mode and a phase that exist, so no cycle is refused. -/

namespace Sys2Proof

open Machine

variable {x : DecodeCtx} {chip : ChipRef} {op : Byte}

/-! ### Every row decoded is well formed -/

/-- A choice between two rows is well formed when the condition tested admits the first and its failure the second. -/
theorem wellFormed_ite {p : Prop} [Decidable p] {i j : Instr} (hi : p → wellFormed x i = true)
    (hj : ¬ p → wellFormed x j = true) : wellFormed x (if p then i else j) = true := by
  split
  · next h => exact hi h
  · next h => exact hj h

theorem decodeFlashRead_wellFormed (x : DecodeCtx) (chip : ChipRef) (mode phase a : Nat) :
    wellFormed x (decodeFlashRead x chip mode phase a) = true :=
  wellFormed_ite (fun h => h.2) fun _ => wellFormed_ite (fun _ => rfl) fun _ => wellFormed_ite (fun _ => rfl) fun _ =>
    wellFormed_ite (fun _ => rfl) fun _ => rfl

theorem decodeFlashCommand_wellFormed (x : DecodeCtx) (chip : ChipRef) (v : Byte) (a : Nat) :
    wellFormed x (decodeFlashCommand x chip v a) = true := by
  refine wellFormed_ite (fun h => h.2) fun _ => wellFormed_ite (fun h => wellFormed_ite ?atmelSetup ?programSetup) fun _ =>
    wellFormed_ite (fun h => h.2) fun _ => wellFormed_ite (fun _ => rfl) fun _ => wellFormed_ite (fun h => h.2) fun _ => rfl
  case atmelSetup => exact fun hs => Bool.and_eq_true_iff.2 ⟨h.2, hs⟩
  case programSetup => exact fun hs => Bool.and_eq_true_iff.2 ⟨h.2, by simpa using hs⟩

/-- In the erase-status mode a write is one more sector while the window is open, and otherwise the way out of the mode; in
the other modes the phase decides (R103, R158). -/
theorem decodeFlashWrite_wellFormed (x : DecodeCtx) (chip : ChipRef) (mode phase : Nat) (v : Byte) (a : Nat) :
    wellFormed x (decodeFlashWrite x chip mode phase v a) = true := by
  refine wellFormed_ite (fun _ => wellFormed_ite (fun h => ?eraseMore) fun h => ?eraseExit) fun _ => ?command
  case eraseMore => exact Bool.and_eq_true_iff.2 ⟨h.2.2, h.2.1⟩
  case eraseExit => simpa [wellFormed, imp_iff_not_or, or_assoc] using h
  case command =>
    match phase with
    | 0 => exact wellFormed_ite (fun _ => rfl) fun _ => wellFormed_ite (fun h => h.2) fun _ => rfl
    | 1 => exact wellFormed_ite (fun h => h.2) fun _ => rfl
    | 2 => exact decodeFlashCommand_wellFormed x chip v a
    | 3 => rfl
    | 4 => exact wellFormed_ite (fun h => h.2) fun _ => rfl
    | 5 => exact wellFormed_ite (fun h => h.2) fun _ => rfl
    | 6 => exact wellFormed_ite (fun h => h.2) fun _ => wellFormed_ite (fun h => h.2) fun _ => rfl
    | 7 => exact wellFormed_ite (fun h => h) fun _ => rfl
    | 8 => exact wellFormed_ite (fun h => h) fun _ => rfl
    | 9 => exact wellFormed_ite (fun h => h) fun _ => rfl
    | 10 => exact wellFormed_ite (fun h => h) fun _ => rfl
    | _ + 11 => rfl

theorem decodeEeOpcode_wellFormed (x : DecodeCtx) (op : Byte) : wellFormed x (decodeEeOpcode op) = true := by
  by_cases h : op ∈ eeOpcodes
  · have hrows : ∀ op ∈ eeOpcodes, wellFormed x (decodeEeOpcode op) = true := by simp [eeOpcodes, decodeEeOpcode, wellFormed]
    exact hrows op h
  · have hc : eeOpcodes.contains op = false := by simpa using h
    rw [decodeEeOpcode_unknown hc, wellFormed, hc, Bool.not_false]

theorem decodeRtcOpcode_wellFormed (x : DecodeCtx) (op : Byte) : wellFormed x (decodeRtcOpcode op) = true := by
  by_cases h : op ∈ rtcOpcodes
  · have hrows : ∀ op ∈ rtcOpcodes, wellFormed x (decodeRtcOpcode op) = true := by
      simp [rtcOpcodes, decodeRtcOpcode, wellFormed]
    exact hrows op h
  · have hc : rtcOpcodes.contains op = false := by simpa using h
    rw [decodeRtcOpcode_unknown hc, wellFormed, hc, Bool.not_false]

theorem decodeInterface_wellFormed (x : DecodeCtx) (hc : List HandlerCall) (h : HostCall) :
    wellFormed x (decodeInterface hc h) = true := by
  cases h <;> rfl

/-! ### What the decoder answers, per kind of record -/

/-- The decoder answers a record with a well-formed instruction. -/
def DecodesWellFormed (x : DecodeCtx) (f : Fetched) : Prop := ∃ i, decode x f = .ok i ∧ wellFormed x i = true

/-- A key formed of a read mode and a phase that exist is a row's, whatever its byte and address. -/
theorem decodesWellFormed_flashKey {mode phase a : Nat} {w : Bool} {v : Byte} (hm : mode < 4) (hp : phase ≤ 10) :
    DecodesWellFormed x (.flashCycle chip (flashKey mode w phase v) a) :=
  ⟨_, decodeFlash_flashKey hm hp,
    wellFormed_ite (fun _ => decodeFlashWrite_wellFormed ..) fun _ => decodeFlashRead_wellFormed ..⟩

theorem decodesWellFormed_serialOpcode {dev : Dev} : DecodesWellFormed x (.serialOpcode dev op) := by
  cases dev with
  | eeprom => exact ⟨_, rfl, decodeEeOpcode_wellFormed x op⟩
  | rtc => exact ⟨_, rfl, decodeRtcOpcode_wellFormed x op⟩

/-- A CPU access in a window. -/
theorem decodesWellFormed_cpuCycle_window {a : CpuAddr} {v : Option Byte} (hw : (windowOf a).isSome = true) :
    DecodesWellFormed x (.cpuCycle a v) := by
  cases v <;> exact ⟨_, if_pos hw, hw⟩

/-- A CPU access in the control page, which no window overlaps. -/
theorem decodesWellFormed_cpuCycle_ctlPage {a : CpuAddr} {v : Option Byte} (hp : inCtlPage x.ctlPage a = true) :
    DecodesWellFormed x (.cpuCycle a v) := by
  have hw : ¬ (windowOf a).isSome = true := by simp [windowOf_of_inCtlPage hp]
  cases v <;> exact ⟨_, (if_neg hw).trans (if_pos hp), hp⟩

/-- The one record the decoder turns away: a CPU access the memory layer answers (R72). -/
theorem decode_cpuCycle_notServed {a : CpuAddr} {v : Option Byte} (hw : windowOf a = none)
    (hp : inCtlPage x.ctlPage a = false) : decode x (.cpuCycle a v) = .error (.notServed a) := by
  cases v <;> simp [decode, decodeCpu, hw, hp]

end Sys2Proof

namespace Sys2Proof.Machine

variable {s : State} {x : DecodeCtx}

theorem Phase.code_le (ph : Phase) : ph.code ≤ 10 := by cases ph <;> decide

theorem ReadMode.code_lt (m : ReadMode) : m.code < 4 := by cases m <;> decide

/-- A chip cycle's key holds the mode and the phase of the chip, or 0 and 0 where there is none (assumption 16). -/
theorem fetchChip_decodes {r : ChipRef} {a : Nat} {v : Option Byte} : DecodesWellFormed x (fetchChip s r a v) := by
  unfold fetchChip
  split
  · exact decodesWellFormed_flashKey (ReadMode.code_lt _) (Phase.code_le _)
  · exact decodesWellFormed_flashKey (by decide) (by decide)

/-- A WriteState call completes an opcode byte or does not; it is an instruction either way (R110, R240). -/
theorem fetchWire_decodes {dev : Dev} {ce clk data : Bool} : DecodesWellFormed x (fetchWire s dev ce clk data) := by
  unfold fetchWire
  split
  · exact decodesWellFormed_serialOpcode
  · exact ⟨_, rfl, rfl⟩

/-- Settles O3, by the kind of call: only a CPU access can lie outside what the block serves. -/
theorem everyFetchDecodes : Obligations.EveryFetchDecodes := by
  intro s hc c
  cases c with
  | chip r a v => exact .inl fetchChip_decodes
  | wire dev ce clk data => exact .inl fetchWire_decodes
  | host h => exact .inl ⟨_, rfl, decodeInterface_wellFormed ..⟩
  | cpu x v =>
    cases hw : windowOf x with
    | some w => exact .inl (decodesWellFormed_cpuCycle_window (by rw [hw, Option.isSome_some]))
    | none =>
      cases hp : inCtlPage s.cfg.ctlPage x with
      | true => exact .inl (decodesWellFormed_cpuCycle_ctlPage hp)
      | false => exact .inr ⟨x, v, rfl, hw, hp, decode_cpuCycle_notServed hw hp⟩

end Sys2Proof.Machine

/-! PROOFS. Accesses through the CPU windows (45_bank_mapper.md R331, R334): what `windowRead` and `windowWrite` answer for
each source and destination of a descriptor, and that an access in an installed window goes by the layout's descriptor. -/

namespace Sys2Proof.Machine

variable {s : State} {c : Chip} {l : Layout} {d : Desc} {w : Win} {x : CpuAddr} {v : Byte} {k : Nat}

/-- An access committed and answered leaves the state `State.chipDone`. -/
theorem State.putAccess_answer {r : ChipRef} {y : ChipAccess} {res : Result} :
    (s.putAccess r y).answer res = s.chipDone r y.chip y.draws res := by
  cases r <;> rfl

/-- The one byte of the mapper RAM that a store changes. -/
theorem Mapper.read_setRam {m : Mapper} {a b : Nat} (h : Memory.wf 0x00#8 m.ram) :
    Memory.read 0x00#8 (m.setRam a v).ram b = if b = a % m.ramSize then v else Memory.read 0x00#8 m.ram b :=
  Memory.read_write h

theorem Mapper.wf_setRam {m : Mapper} {a : Nat} (h : Memory.wf 0x00#8 m.ram) : Memory.wf 0x00#8 (m.setRam a v).ram :=
  Memory.wf_write h

/-! ### Reads -/

theorem windowRead_disabled (hd : d.readSrc = .none) : windowRead d w x s = s.answer .notServed := by
  rw [windowRead, hd]

theorem windowRead_flash (hd : d.readSrc = .flash k) (hc : s.mapper.chips[k]? = some c) :
    windowRead d w x s =
      let y := c.read s.cfg (linear d.base w x) s.now s.draws
      s.chipDone (.mapper k) y.chip y.draws (.cpuByte y.value) := by
  simp only [windowRead, hd, State.chipAt, hc, State.putAccess_answer]

theorem windowRead_ram (hd : d.readSrc = .ram) :
    windowRead d w x s = s.answer (.cpuByte (s.mapper.ramAt (linear d.base w x))) := by
  rw [windowRead, hd]

/-! ### Writes -/

theorem windowWrite_disabled (hd : d.readSrc = .none) : windowWrite d w x v s = s.answer .notServed := by
  rw [windowWrite, if_pos hd]

theorem windowWrite_flash (hr : d.readSrc ≠ .none) (hd : d.writeDst = .flash k) (hc : s.mapper.chips[k]? = some c) :
    windowWrite d w x v s =
      let y := c.write (linear d.writeBase w x) v s.now s.draws
      s.chipDone (.mapper k) y.chip y.draws .none := by
  simp only [windowWrite, if_neg hr, hd, State.chipAt, hc, State.putAccess_answer]

theorem windowWrite_ram (hr : d.readSrc ≠ .none) (hd : d.writeDst = .ram) :
    windowWrite d w x v s = State.answer { s with mapper := s.mapper.setRam (linear d.writeBase w x) v } .none := by
  rw [windowWrite, if_neg hr, hd]

theorem windowWrite_ignored (hr : d.readSrc ≠ .none) (hd : d.writeDst = .none) :
    windowWrite d w x v s = s.answer .none := by
  rw [windowWrite, if_neg hr, hd]

/-! ### The rows -/

theorem Mapper.descOf_installed {m : Mapper} (hl : m.installed = some l) : m.descOf w = l.desc w := by
  rw [Mapper.descOf, hl]

theorem exec_mapWinRead (hl : s.mapper.installed = some l) (hw : windowOf x = some w) :
    exec (.mapWinRead x) s = .next (windowRead (l.desc w) w x s) := by
  rw [exec, execMapWinRead, hw, ← Mapper.descOf_installed hl]

theorem exec_mapWinWrite (hl : s.mapper.installed = some l) (hw : windowOf x = some w) :
    exec (.mapWinWrite x v) s = .next (windowWrite (l.desc w) w x v s) := by
  rw [exec, execMapWinWrite, hw, ← Mapper.descOf_installed hl]

/-- Settles O51, by the read source of the window's descriptor. -/
theorem windowReadRow : Obligations.WindowReadRow := by
  intro s l x w hl hw
  rw [exec_mapWinRead hl hw]
  refine ⟨fun k c hd hc => ?chip, fun hd => ?ram, fun hd => ?disabled⟩
  case chip => exact congrArg _ (windowRead_flash hd hc)
  case ram => exact congrArg _ (windowRead_ram hd)
  case disabled => exact congrArg _ (windowRead_disabled hd)

/-- Settles O52, by the write destination of the window's descriptor. A store is one byte of a RAM that stays canonical. -/
theorem windowWriteRow : Obligations.WindowWriteRow := by
  intro s l x w v hl hw hram
  rw [exec_mapWinWrite hl hw]
  refine ⟨fun hr => ⟨fun k c hd hc => ?chip, fun hd => ?ram, fun hd => ?ignored⟩, fun hr => ?disabled⟩
  case chip => exact congrArg _ (windowWrite_flash hr hd hc)
  case ram =>
    exact ⟨_, Mapper.wf_setRam hram, fun b => Mapper.read_setRam hram, congrArg _ (windowWrite_ram hr hd)⟩
  case ignored => exact congrArg _ (windowWrite_ignored hr hd)
  case disabled => exact congrArg _ (windowWrite_disabled hr)

end Sys2Proof.Machine

/-! PROOFS. The encoder is a right inverse of the decoder (30_encoding.md R103, R111, R112, R115, R117). A flash row's record
is a key whose read mode, phase and byte the decoder reads back, and the row's own address and profile condition picks it
among the rows of that phase. Every other record names its row by an opcode, a CPU address or the call itself. -/

namespace Sys2Proof

open Machine

variable {x : DecodeCtx} {chip : ChipRef} {phase a : Nat} {v : Byte}

/-- The record of a write cycle outside SectorEraseStatus decodes by the write rows of its phase. -/
theorem decode_encodeWrite (hp : phase ≤ 10) :
    decode x (encodeWrite chip phase v a) = .ok (decodeFlashWrite x chip 0 phase v a) :=
  decodeFlash_flashKey (by decide) hp

theorem decode_readKey {mode : Nat} (hm : mode < 4) (hp : phase ≤ 10) :
    decode x (.flashCycle chip (flashKey mode false phase v) a) = .ok (decodeFlashRead x chip mode phase a) :=
  decodeFlash_flashKey hm hp

/-- In SectorEraseStatus the phase of a write cycle does not count (R157). -/
theorem decode_eraseStatusKey :
    decode x (.flashCycle chip (flashKey 3 true 0 v) a) =
      .ok (if v = 0x30#8 ∧ x.multiEraseOpen ∧ x.sectorErase then .flashSectorEraseMore chip a
        else .flashEraseStatusExit chip a v) :=
  decodeFlash_flashKey (by decide) (by decide)

/-- An abort is encoded at phase 1 where phase 0 accepts its cycle: phase 1 accepts `$55` only, phase 0 never does (R106). -/
theorem decode_encode_flashAbort :
    decode x (encode x (.flashAbort chip a v)) = .ok (.flashAbort chip a v) := by
  rw [encode]
  split
  · next haccepted =>
    have hv : v ≠ 0x55#8 := by
      rintro rfl
      simp at haccepted
    rw [decode_encodeWrite (by decide)]
    simp [decodeFlashWrite, hv]
  · next hrejected =>
    obtain ⟨hreset, hunlock⟩ := not_or.1 hrejected
    rw [decode_encodeWrite (by decide)]
    simp only [decodeFlashWrite, if_neg hreset, if_neg hunlock]
    rfl

/-- Settles O1, by the rows of the opcode table, grouped by the kind of record that encodes them. -/
theorem decodeEncodeAgree : Obligations.DecodeEncodeAgree := by
  intro x i h
  cases i with
  | flashReadNormal chip a | flashReadAutoselect chip a | flashReadWriteStatus chip a | flashReadEraseStatus chip a
  | flashAtmelClose chip a =>
    rw [encode, decode_readKey (by decide) (by decide)]
    simp_all [decodeFlashRead, wellFormed]
  | flashReset1 chip a | flashUnlock1 chip a | flashUnlock2 chip a | flashEraseUnlock1 chip a | flashEraseUnlock2 chip a
  | flashChipErase chip a | flashSectorErase chip a | flashProgramData chip a v | flashWbCount chip a v
  | flashWbData chip a v | flashWbConfirm chip a v | flashAtmelData chip a v =>
    rw [encode, decode_encodeWrite (by decide)]
    simp_all [decodeFlashWrite, wellFormed]
  | flashAutoselect chip a | flashProgramSetup chip a | flashAtmelSetup chip a | flashEraseSetup chip a | flashReset3 chip a
  | flashWbLoad chip a =>
    rw [encode, decode_encodeWrite (by decide)]
    simp_all [decodeFlashWrite, decodeFlashCommand, wellFormed]
  | flashAbort chip a v => exact decode_encode_flashAbort
  | flashSectorEraseMore chip a =>
    obtain ⟨herase, hopen⟩ : x.sectorErase = true ∧ x.multiEraseOpen = true := Bool.and_eq_true_iff.1 h
    rw [encode, decode_eraseStatusKey, if_pos ⟨rfl, hopen, herase⟩]
  | flashEraseStatusExit chip a v =>
    have hclosed : ¬ (v = 0x30#8 ∧ x.multiEraseOpen = true ∧ x.sectorErase = true) := by
      simpa [wellFormed, imp_iff_not_or, or_assoc] using h
    rw [encode, decode_eraseStatusKey, if_neg hclosed]
  | eeUnknown op => exact congrArg _ (decodeEeOpcode_unknown (by simpa [wellFormed] using h))
  | rtcUnknown op => exact congrArg _ (decodeRtcOpcode_unknown (by simpa [wellFormed] using h))
  | mapWinRead y | mapWinWrite y v => exact if_pos h
  | mapCtlRead y | mapCtlWrite y v => exact (if_neg (Bool.eq_false_iff.1 (windowOf_of_inCtlPage h))).trans (if_pos h)
  | _ => rfl

/-- Settles O2: a word that is its row's encoding decodes by the round trip; the abort at phase 1 and the refused key are read
by their fields. -/
theorem knownWordsDecode : Obligations.KnownWordsDecode :=
  ⟨decodeEncodeAgree _ (.flashUnlock1 _ 0x40555) (by decide),
    decodeEncodeAgree _ (.flashUnlock2 _ 0x2AA) (by decide),
    rfl,
    decodeEncodeAgree _ (.flashProgramSetup _ 0x555) (by decide),
    decodeEncodeAgree _ (.flashProgramData _ 0x100 0x3C#8) (by decide),
    decodeEncodeAgree _ (.flashSectorEraseMore _ 0x20000) (by decide),
    decodeEncodeAgree _ (.flashReadAutoselect _ 0x1) (by decide),
    decodeEncodeAgree _ .eeRdsr (by decide),
    decodeEncodeAgree _ .rtcRead (by decide),
    decodeEncodeAgree _ (.mapWinRead 0xA000#16) (by decide),
    decodeEncodeAgree _ (.mapCtlWrite 0xD500#16 3#8) (by decide),
    rfl⟩

end Sys2Proof

/-! PROOFS. The flash write rows whose one effect is the next phase (40_flash_jedec.md R141, R142, R148, R150, R151): the
chip is otherwise the one after expiry, so the cycle is handled exactly when the expiry changed the read mode (R138). -/

namespace Sys2Proof.Machine

variable {s : State} {c : Chip} {r : ChipRef} {a : Nat} {v : Byte} {ph : Phase}

/-- A write that changes no image byte is handled exactly when it changes the read mode (R138). -/
theorem WriteFx.quiet_handled {before : ReadMode} {draws : Nat} :
    ((WriteFx.quiet c draws).finish before).handled = decide (c.readMode ≠ before) := Bool.or_false _

/-- A write row that moves the phase, where its condition holds. -/
theorem chipWriteRow_goto {applies : Chip → Nat → Bool} (h : s.chipAt r = some c)
    (ha : applies (c.expire s.now) (a % c.profile.cap) = true) :
    chipWriteRow r a v applies (fun c _ => c.goto ph s.draws) s =
      .next (s.chipDone r { c.expire s.now with phase := ph } s.draws
        (.flashWrite (decide ((c.expire s.now).readMode ≠ c.readMode)))) := by
  rw [chipWriteRow_applies h ha, Chip.goto, WriteFx.quiet_handled]
  rfl

theorem Chip.inPhase_iff : c.inPhase ph = true ↔ c.readMode ≠ .sectorEraseStatus ∧ c.phase = ph := by
  simp [Chip.inPhase]

@[simp] theorem Chip.expire_u1 {t : Cycles} : (c.expire t).u1 a = isU1 c.profile.unlockWindow a := by
  rw [Chip.u1, Chip.expire_profile]

@[simp] theorem Chip.expire_u2 {t : Cycles} : (c.expire t).u2 a = isU2 c.profile.unlockWindow a := by
  rw [Chip.u2, Chip.expire_profile]

/-! ### What each phase accepts (R103) -/

theorem Chip.accepts_idle (h : c.phase = .idle) :
    c.accepts a v = true ↔ v = 0xF0#8 ∨ v = 0xAA#8 ∧ c.u1 a = true := by
  simp [Chip.accepts, h]

theorem Chip.accepts_unlock1 (h : c.phase = .unlock1) : c.accepts a v = true ↔ v = 0x55#8 ∧ c.u2 a = true := by
  simp [Chip.accepts, h]

theorem Chip.accepts_unlock2 (h : c.phase = .unlock2) :
    c.accepts a v = true ↔ v = 0xF0#8 ∨ (v = 0x90#8 ∨ v = 0xA0#8 ∨ v = 0x80#8) ∧ c.u1 a = true ∨
      v = 0x25#8 ∧ c.profile.writeBuffer = true := by
  simp [Chip.accepts, h, or_assoc, and_comm]

theorem Chip.accepts_eraseSetup (h : c.phase = .eraseSetup) : c.accepts a v = true ↔ v = 0xAA#8 ∧ c.u1 a = true := by
  simp [Chip.accepts, h]

theorem Chip.accepts_eraseUnlock1 (h : c.phase = .eraseUnlock1) : c.accepts a v = true ↔ v = 0x55#8 ∧ c.u2 a = true := by
  simp [Chip.accepts, h]

theorem Chip.accepts_eraseUnlock2 (h : c.phase = .eraseUnlock2) :
    c.accepts a v = true ↔ v = 0x10#8 ∧ c.u1 a = true ∨ v = 0x30#8 ∧ c.profile.sectorErase = true := by
  simp [Chip.accepts, h]

/-! ### The rows -/

/-- FLASH_ABORT on a cycle its chip does not accept. An abort is the move to phase 0 (R148). -/
theorem exec_flashAbort (h : s.chipAt r = some c) (hm : (c.expire s.now).readMode ≠ .sectorEraseStatus)
    (ha : ¬ (c.expire s.now).accepts (a % c.profile.cap) v = true) :
    exec (.flashAbort r a v) s =
      .next (s.chipDone r { c.expire s.now with phase := .idle } s.draws
        (.flashWrite (decide ((c.expire s.now).readMode ≠ c.readMode)))) := by
  rw [exec, execFlashAbort]
  exact chipWriteRow_goto h (by simp [hm, ha])

/-- Settles O21, by the six phases: in each, a cycle none of the phase's rows takes is one the chip does not accept. -/
theorem abortRow : Obligations.AbortRow := by
  rintro s r c c1 a v hc rfl hm u1 u2 hrow
  refine exec_flashAbort hc hm ?_
  rcases hrow with ⟨hp, hreset, hunlock⟩ | ⟨hp, hunlock⟩ | ⟨hp, hreset, hcommand, hbuffer⟩ | ⟨hp, hunlock⟩ | ⟨hp, hunlock⟩ |
    ⟨hp, hchip, hsector⟩
  · rw [Chip.accepts_idle hp, Chip.expire_u1]
    exact not_or.2 ⟨hreset, hunlock⟩
  · rw [Chip.accepts_unlock1 hp, Chip.expire_u2]
    exact hunlock
  · rw [Chip.accepts_unlock2 hp, Chip.expire_u1, Chip.expire_profile]
    exact not_or.2 ⟨hreset, not_or.2 ⟨hcommand, hbuffer⟩⟩
  · rw [Chip.accepts_eraseSetup hp, Chip.expire_u1]
    exact hunlock
  · rw [Chip.accepts_eraseUnlock1 hp, Chip.expire_u2]
    exact hunlock
  · rw [Chip.accepts_eraseUnlock2 hp, Chip.expire_u1, Chip.expire_profile]
    exact not_or.2 ⟨hchip, hsector⟩

/-- Settles O15: each unlock row applies in its phase at its unlock address, and its effect is the next phase. -/
theorem unlockRows : Obligations.UnlockRows := by
  rintro s r c c1 a hc rfl hm
  dsimp only
  have applies {ph : Phase} {u : Bool} (hp : (c.expire s.now).phase = ph) (hu : u = true) :
      ((c.expire s.now).inPhase ph && u) = true := Bool.and_eq_true_iff.2 ⟨Chip.inPhase_iff.2 ⟨hm, hp⟩, hu⟩
  refine ⟨fun hu1 => ⟨fun hp => ?unlock1, fun hp => ?eraseUnlock1⟩, fun hu2 => ⟨fun hp => ?unlock2, fun hp => ?eraseUnlock2⟩⟩
  case unlock1 =>
    rw [exec, execFlashUnlock1]
    exact chipWriteRow_goto hc (applies hp (Chip.expire_u1.trans hu1))
  case eraseUnlock1 =>
    rw [exec, execFlashEraseUnlock1]
    exact chipWriteRow_goto hc (applies hp (Chip.expire_u1.trans hu1))
  case unlock2 =>
    rw [exec, execFlashUnlock2]
    exact chipWriteRow_goto hc (applies hp (Chip.expire_u2.trans hu2))
  case eraseUnlock2 =>
    rw [exec, execFlashEraseUnlock2]
    exact chipWriteRow_goto hc (applies hp (Chip.expire_u2.trans hu2))

end Sys2Proof.Machine

/-! PROOFS. The step is the host call it fetched (30_encoding.md R117, assumptions 12 and 13). A decoding function is a choice
among rows, and each row of a cycle has the meaning of the cycle's general access, so the choice has it too: no chip, mode or
phase needs to be known. -/

namespace Sys2Proof.Machine

variable {s : State} {x : DecodeCtx} {r : ChipRef} {mode phase a : Nat} {v op : Byte} {hc : List HandlerCall}

/-- A choice between two instructions with one meaning has that meaning. -/
theorem exec_ite {p : Prop} [Decidable p] {i j : Instr} {o : Host.Outcome State Fault Refusal} (hi : p → exec i s = o)
    (hj : ¬ p → exec j s = o) : exec (if p then i else j) s = o := by
  split
  · next h => exact hi h
  · next h => exact hj h

/-! ### The flash rows -/

theorem exec_decodeFlashRead : exec (decodeFlashRead x r mode phase a) s = chipRead r a s :=
  exec_ite (fun _ => execFlashAtmelClose_eq) fun _ => exec_ite (fun _ => execFlashReadNormal_eq) fun _ =>
    exec_ite (fun _ => execFlashReadAutoselect_eq) fun _ => exec_ite (fun _ => execFlashReadWriteStatus_eq) fun _ =>
      execFlashReadEraseStatus_eq

theorem exec_decodeFlashCommand : exec (decodeFlashCommand x r v a) s = chipWrite r a v s := by
  refine exec_ite ?autoselect fun _ => exec_ite ?setup fun _ => exec_ite ?eraseSetup fun _ => exec_ite ?reset fun _ =>
    exec_ite ?wbLoad fun _ => execFlashAbort_eq
  case autoselect => rintro ⟨rfl, -⟩; exact execFlashAutoselect_eq
  case setup =>
    rintro ⟨rfl, -⟩
    exact exec_ite (fun _ => execFlashAtmelSetup_eq) fun _ => execFlashProgramSetup_eq
  case eraseSetup => rintro ⟨rfl, -⟩; exact execFlashEraseSetup_eq
  case reset => rintro rfl; exact execFlashReset3_eq
  case wbLoad => rintro ⟨rfl, -⟩; exact execFlashWbLoad_eq

theorem exec_decodeFlashWrite : exec (decodeFlashWrite x r mode phase v a) s = chipWrite r a v s := by
  refine exec_ite (fun _ => exec_ite ?eraseMore fun _ => execFlashEraseStatusExit_eq) fun _ => ?command
  case eraseMore => rintro ⟨rfl, -⟩; exact execFlashSectorEraseMore_eq
  case command =>
    match phase with
    | 0 =>
      refine exec_ite ?_ fun _ => exec_ite ?_ fun _ => execFlashAbort_eq
      · rintro rfl; exact execFlashReset1_eq
      · rintro ⟨rfl, -⟩; exact execFlashUnlock1_eq
    | 1 =>
      refine exec_ite ?_ fun _ => execFlashAbort_eq
      rintro ⟨rfl, -⟩; exact execFlashUnlock2_eq
    | 2 => exact exec_decodeFlashCommand
    | 3 => exact execFlashProgramData_eq
    | 4 =>
      refine exec_ite ?_ fun _ => execFlashAbort_eq
      rintro ⟨rfl, -⟩; exact execFlashEraseUnlock1_eq
    | 5 =>
      refine exec_ite ?_ fun _ => execFlashAbort_eq
      rintro ⟨rfl, -⟩; exact execFlashEraseUnlock2_eq
    | 6 =>
      refine exec_ite ?_ fun _ => exec_ite ?_ fun _ => execFlashAbort_eq
      · rintro ⟨rfl, -⟩; exact execFlashChipErase_eq
      · rintro ⟨rfl, -⟩; exact execFlashSectorErase_eq
    | 7 => exact exec_ite (fun _ => execFlashWbCount_eq) fun _ => execFlashAbort_eq
    | 8 => exact exec_ite (fun _ => execFlashWbData_eq) fun _ => execFlashAbort_eq
    | 9 => exact exec_ite (fun _ => execFlashWbConfirm_eq) fun _ => execFlashAbort_eq
    | 10 => exact exec_ite (fun _ => execFlashAtmelData_eq) fun _ => execFlashAbort_eq
    | _ + 11 => exact execFlashAbort_eq

/-! ### The serial rows -/

theorem exec_decodeEeOpcode {d : Bool} :
    exec (decodeEeOpcode op) s = execSerialWriteState .eeprom true false d s :=
  exec_ite (fun _ => execEeWren_eq) fun _ => exec_ite (fun _ => execEeWrdi_eq) fun _ =>
    exec_ite (fun _ => execEeRdsr_eq) fun _ => exec_ite (fun _ => execEeWrsr_eq) fun _ =>
      exec_ite (fun _ => execEeRead_eq) fun _ => exec_ite (fun _ => execEeWrite_eq) fun _ => execEeUnknown_eq

theorem exec_decodeRtcOpcode {d : Bool} :
    exec (decodeRtcOpcode op) s = execSerialWriteState .rtc true false d s :=
  exec_ite (fun _ => execRtcEeRead_eq) fun _ => exec_ite (fun _ => execRtcEeWrite_eq) fun _ =>
    exec_ite (fun _ => execRtcEeWrdi_eq) fun _ => exec_ite (fun _ => execRtcEeWren_eq) fun _ =>
      exec_ite (fun _ => execRtcSrRead_eq) fun _ => exec_ite (fun _ => execRtcSrWrite_eq) fun _ =>
        exec_ite (fun _ => execRtcRead_eq) fun _ => exec_ite (fun _ => execRtcWrite_eq) fun _ =>
          exec_ite (fun _ => execRtcUnlock_eq) fun _ => exec_ite (fun _ => execRtcIdWrite_eq) fun _ =>
            exec_ite (fun _ => execRtcIdRead_eq) fun _ => exec_ite (fun _ => execRtcClrRam_eq) fun _ => execRtcUnknown_eq

/-! ### Each kind of call -/

/-- A flash key runs as the read or the write of its cycle. -/
theorem afterDecode_flashKey {w : Option Byte} (hm : mode < 4) (hp : phase ≤ 10) :
    afterDecode exec s (decode x (.flashCycle r (flashKey mode w.isSome phase (w.getD 0x00#8)) a)) =
      runCall hc (.chip r a w) s := by
  rw [decode, decodeFlash_flashKey hm hp]
  cases w with
  | none => exact exec_decodeFlashRead
  | some v => exact exec_decodeFlashWrite

/-- The address bits above the chip's capacity do not count (R71). -/
theorem runCall_chip_mod {c : Chip} {w : Option Byte} (h : s.chipAt r = some c) :
    runCall hc (.chip r (a % c.profile.cap) w) s = runCall hc (.chip r a w) s := by
  cases w with
  | none => exact chipRead_mod h
  | some v => exact chipWrite_mod h

theorem afterDecode_fetchChip {w : Option Byte} :
    afterDecode exec s (decode x (fetchChip s r a w)) = runCall hc (.chip r a w) s := by
  unfold fetchChip
  split
  · next c h => exact (afterDecode_flashKey (ReadMode.code_lt _) (Phase.code_le _)).trans (runCall_chip_mod h)
  · exact afterDecode_flashKey (by decide) (by decide)

/-- A call that completes an opcode byte has the chip enabled and the clock falling. -/
theorem afterDecode_fetchWire {dev : Dev} {ce clk data : Bool} :
    afterDecode exec s (decode x (fetchWire s dev ce clk data)) = runCall hc (.wire dev ce clk data) s := by
  unfold fetchWire
  split
  · next h =>
    simp only [Bool.and_eq_true, Bool.not_eq_true'] at h
    obtain ⟨⟨⟨rfl, rfl⟩, -⟩, -⟩ := h
    cases dev with
    | eeprom => exact exec_decodeEeOpcode
    | rtc => exact exec_decodeRtcOpcode
  · rfl

theorem afterDecode_cpuCycle {y : CpuAddr} {w : Option Byte} (hx : x.ctlPage = s.cfg.ctlPage) :
    afterDecode exec s (decode x (.cpuCycle y w)) = runCpu y w s := by
  unfold runCpu
  by_cases hw : (windowOf y).isSome = true
  · cases w <;> simp only [decode, decodeCpu, if_pos hw] <;> rfl
  · by_cases hp : inCtlPage s.cfg.ctlPage y = true
    · cases w <;> simp only [decode, decodeCpu, hx, if_neg hw, if_pos hp] <;> rfl
    · cases w <;> simp only [decode, decodeCpu, hx, if_neg hw, if_neg hp] <;> rfl

theorem afterDecode_interface {h : HostCall} :
    afterDecode exec s (decode x (.interface h hc)) = runCall hc (.host h) s := by
  cases h <;> rfl

/-- Settles O5, by the kind of call. -/
theorem stepIsTheHostCall : Obligations.StepIsTheHostCall := by
  intro s q rest hs
  rw [step_of_call hs]
  cases q.call with
  | chip r a w => exact afterDecode_fetchChip
  | wire dev ce clk data => exact afterDecode_fetchWire
  | cpu y w => exact afterDecode_cpuCycle rfl
  | host h => exact afterDecode_interface

end Sys2Proof.Machine

/-! PROOFS. The flash read rows (40_flash_jedec.md R130 to R137, R188): the erase window's expiry, what a read gives in each
mode, and the close of an Atmel page. -/

namespace Sys2Proof.Machine

variable {s : State} {c : Chip} {r : ChipRef} {p : Params} {a base n draws : Nat} {v : Byte} {now : Cycles}

/-! ### The shape of the shared updates -/

/-- A change of image bytes changes the image only. -/
theorem Chip.mapRange_eq_withImg {f : Nat → Byte → Byte} :
    c.mapRange base f n = { c with img := (c.mapRange base f n).img } := by
  induction n with
  | zero => rfl
  | succ n ih => rw [mapRange, setByte, ih]

@[simp] theorem Chip.expire_byteAt : (c.expire now).byteAt a = c.byteAt a := by
  rw [byteAt, expire_img, expire_profile, byteAt]

theorem Chip.byteAt_mod : c.byteAt (a % c.profile.cap) = Memory.read 0xFF#8 c.img (a % c.profile.cap) := by
  rw [byteAt, Nat.mod_mod]; rfl

/-! ### The close of an Atmel page (R188) -/

theorem Chip.atmelClose_of_closed (h : c.atmelOpen = false) : c.atmelClose draws = (c, false, draws) := by
  simp [atmelClose, h]

/-- The bytes of the page not loaded become draws. -/
def Chip.atmelFill (c : Chip) (draws : Nat) : Chip :=
  c.mapRange c.atmelBase
    (fun i old => if c.atmelLoaded.getD i false then old else Config.atmelUnloaded draws (c.atmelBase + i) old) atmelPageSize

theorem Chip.atmelClose_of_open (h : c.atmelOpen = true) :
    c.atmelClose draws =
      ({ c with img := (c.atmelFill draws).img, dirty := true, writeActivity := true, atmelOpen := false }, true,
        draws + 1) := by
  have hfill : c.atmelFill draws = { c with img := (c.atmelFill draws).img } := mapRange_eq_withImg
  rw [atmelClose, if_pos h]
  change (let filled := c.atmelFill draws; ({ filled.commit with atmelOpen := false }, true, draws + 1)) = _
  generalize c.atmelFill draws = filled at hfill ⊢
  rw [hfill]
  rfl

theorem Chip.wf_atmelFill (h : Memory.wf 0xFF#8 c.img) : Memory.wf 0xFF#8 (c.atmelFill draws).img := wf_mapRange h

theorem Chip.read_atmelFill {b : Nat} (h : Memory.wf 0xFF#8 c.img) (hn : c.atmelBase + 256 ≤ c.profile.cap) :
    Memory.read 0xFF#8 (c.atmelFill draws).img b =
      if c.atmelBase ≤ b ∧ b < c.atmelBase + 256 ∧ c.atmelLoaded.getD (b - c.atmelBase) false = false then
        Config.atmelUnloaded draws b (Memory.read 0xFF#8 c.img b)
      else Memory.read 0xFF#8 c.img b := by
  rw [atmelFill, show atmelPageSize = 256 from rfl, read_mapRange h hn]
  by_cases hb : c.atmelBase ≤ b ∧ b < c.atmelBase + 256
  · rw [if_pos hb, Nat.add_sub_cancel' hb.1]
    cases hl : c.atmelLoaded.getD (b - c.atmelBase) false <;> simp [hb]
  · rw [if_neg hb, if_neg fun h => hb ⟨h.1, h.2.1⟩]

/-! ### The expiry of the erase window (R137) -/

theorem Chip.expire_withPhase {ph : Phase} :
    Chip.expire { c with phase := ph } now = { c.expire now with phase := ph } := by
  unfold expire
  split <;> rfl

theorem Chip.expire_setByte : (c.expire now).setByte a v = (c.setByte a v).expire now := by
  unfold expire
  split
  · next h => exact (if_pos h).symm
  · next h => exact (if_neg h).symm

theorem Chip.expire_mapRange {f : Nat → Byte → Byte} :
    (c.expire now).mapRange base f n = (c.mapRange base f n).expire now := by
  induction n with
  | zero => rfl
  | succ n ih => rw [mapRange, ih, expire_byteAt, expire_setByte]; rfl

theorem Chip.expire_closePage {m : Memory} :
    { c.expire now with img := m, dirty := true, writeActivity := true, atmelOpen := false } =
      Chip.expire { c with img := m, dirty := true, writeActivity := true, atmelOpen := false } now := by
  unfold expire
  split <;> rfl

/-- The close of a page and the expiry of the erase window do not see each other. -/
theorem Chip.atmelClose_expire :
    (c.expire now).atmelClose draws =
      ((c.atmelClose draws).1.expire now, (c.atmelClose draws).2.1, (c.atmelClose draws).2.2) := by
  cases h : c.atmelOpen with
  | false => rw [atmelClose_of_closed h, atmelClose_of_closed (expire_atmelOpen.trans h)]
  | true =>
    have hfill : ((c.expire now).atmelFill draws).img = (c.atmelFill draws).img := by
      simp only [atmelFill, expire_atmelBase, expire_atmelLoaded, expire_mapRange, expire_img]
    rw [atmelClose_of_open h, atmelClose_of_open (expire_atmelOpen.trans h), hfill, expire_closePage]

/-- What precedes a read gives the same chip when the window has been let expire before. -/
theorem Chip.beforeRead_expire : (c.expire now).beforeRead now draws = c.beforeRead now draws := by
  by_cases hp : c.phase = .atmelPageLoad
  · simp only [beforeRead, expire_phase, if_pos hp, atmelClose_expire, expire_withPhase, expire_expire]
  · simp only [beforeRead, expire_phase, if_neg hp, expire_expire]

/-- Settles O9: the two cases of the expiry, and that an access to the expired chip is the access. -/
theorem eraseWindowExpiry : Obligations.EraseWindowExpiry := by
  refine fun p c now => ⟨Chip.expire_of, Chip.expire_of_not, fun a draws => ?read, fun a v draws => ?write⟩
  case read => simp only [Chip.read, Chip.beforeRead_expire, Chip.expire_profile, ReadFx.finish, and_self]
  case write => simp only [Chip.write, Chip.expire_expire, Chip.expire_profile, WriteFx.finish]

/-! ### The rows outside phase 10 -/

/-- A read that finds the chip in Normal mode is handled when the expiry ended another mode (R138). -/
theorem exec_flashReadNormal (h : s.chipAt r = some c) (hp : c.phase ≠ .atmelPageLoad)
    (hm : (c.expire s.now).readMode = .normal) :
    exec (.flashReadNormal r a) s =
      .next (s.chipDone r (c.expire s.now) s.draws
        (.flashRead (Memory.read 0xFF#8 c.img (a % c.profile.cap)) (decide (ReadMode.normal ≠ c.readMode)))) := by
  rw [exec, execFlashReadNormal, chipReadRow_applies h hp hm]
  simp [Chip.readNormal, ReadFx.finish, readHandled, Chip.byteAt_mod, hm]

/-- Settles O10: the chip of a Normal read is the one after expiry. -/
theorem readNormalRow : Obligations.ReadNormalRow := by
  refine fun s r c a hc hp => ⟨fun hm => ?normal, fun hm hr => ?expired⟩
  case normal =>
    have he : c.expire s.now = c := Chip.expire_of_not (.inl (by simp [hm]))
    rw [exec_flashReadNormal hc hp (he.symm ▸ hm), he, State.chipDone_self hc, hm]
    rfl
  case expired =>
    have he := Chip.expire_of hm hr
    rw [exec_flashReadNormal hc hp (by rw [he]), he, hm]
    rfl

theorem Chip.readAutoselect_some (hv : idByte c.profile.ids a = some v) :
    c.readAutoselect a draws = { value := v, chip := c, draws := draws } := by
  simp only [readAutoselect, hv]

theorem Chip.readAutoselect_none (hv : idByte c.profile.ids a = none) :
    c.readAutoselect a draws = { value := Config.autoselectUndef draws a, chip := c, draws := draws + 1 } := by
  simp only [readAutoselect, hv]

/-- An Autoselect read is the read of its mode, on a chip that does not expire. -/
theorem exec_flashReadAutoselect {x : ReadFx} (h : s.chipAt r = some c) (hp : c.phase ≠ .atmelPageLoad)
    (hm : c.readMode = .autoselect) (hx : c.readAutoselect (a % c.profile.cap) s.draws = x) :
    exec (.flashReadAutoselect r a) s = .next (s.chipDone r x.chip x.draws (.flashRead x.value true)) := by
  have he : c.expire s.now = c := Chip.expire_of_not (.inl (by simp [hm]))
  rw [exec, execFlashReadAutoselect, chipReadRow_applies h hp (he.symm ▸ hm), he, hx]
  rfl

/-- Where the table defines a byte, the read returns it and changes nothing (R132). -/
theorem exec_flashReadAutoselect_some (h : s.chipAt r = some c) (hp : c.phase ≠ .atmelPageLoad)
    (hm : c.readMode = .autoselect) (hv : idByte c.profile.ids (a % c.profile.cap) = some v) :
    exec (.flashReadAutoselect r a) s = .next (s.answer (.flashRead v true)) := by
  rw [exec_flashReadAutoselect h hp hm (Chip.readAutoselect_some hv), State.chipDone_self h]

/-- Where the table defines no byte, the read makes a draw. -/
theorem exec_flashReadAutoselect_none (h : s.chipAt r = some c) (hp : c.phase ≠ .atmelPageLoad)
    (hm : c.readMode = .autoselect) (hv : idByte c.profile.ids (a % c.profile.cap) = none) :
    exec (.flashReadAutoselect r a) s =
      .next { s.answer (.flashRead (Config.autoselectUndef s.draws (a % c.profile.cap)) true) with
        draws := s.draws + 1 } := by
  rw [exec_flashReadAutoselect h hp hm (Chip.readAutoselect_none hv), State.chipDone, State.setChip_self h]
  rfl

/-- The interleaved table repeats every 32 bytes (R194). -/
theorem idByte_spansion_of_mod {id2 id3 : Byte} {k : Nat} (h : a % 32 = k) :
    idByte (.spansion id2 id3) a = idByte (.spansion id2 id3) k := by
  have hword : a / 2 % 16 = k / 2 % 16 := by omega
  have hhalf : a % 2 = k % 2 := by omega
  simp only [idByte, hword, hhalf]

/-- The words 3 to 13 of the interleaved table are not defined (R194). -/
theorem idByte_spansion_none {id2 id3 : Byte} (hl : 0x06 ≤ a % 32) (hu : a % 32 < 0x1C) :
    idByte (.spansion id2 id3) a = none := by
  have hw : spansionWord id2 id3 (a / 2 % 16) = none := by
    unfold spansionWord
    rw [if_neg (by omega), if_neg (by omega), if_neg (by omega), if_neg (by omega), if_neg (by omega)]
  simp only [idByte, hw, Option.map_none]

/-- An ID word is its two bytes, the low one at the even address (R194, R107). -/
theorem idByte_spansion_idWords {id2 id3 : Byte} :
    idByte (.spansion id2 id3) 0x1C = some id2 ∧ idByte (.spansion id2 id3) 0x1D = some 0x22#8 ∧
      idByte (.spansion id2 id3) 0x1E = some id3 ∧ idByte (.spansion id2 id3) 0x1F = some 0x22#8 :=
  ⟨congrArg some BitVec.extractLsb'_append_eq_right, congrArg some BitVec.extractLsb'_append_eq_left,
    congrArg some BitVec.extractLsb'_append_eq_right, congrArg some BitVec.extractLsb'_append_eq_left⟩

/-- Settles O11: an Autoselect read gives what the table gives, and the tables are read address by address. -/
theorem readAutoselectRow : Obligations.ReadAutoselectRow := by
  intro s r c a hc hp hm a' gives draw
  have hgives {v : Byte} (hv : idByte c.profile.ids a' = some v) : gives v := exec_flashReadAutoselect_some hc hp hm hv
  have hdraw (hv : idByte c.profile.ids a' = none) : draw := exec_flashReadAutoselect_none hc hp hm hv
  refine ⟨fun mfrId devId hids => ?standard, fun id2 id3 hids => ?interleaved⟩
  case standard =>
    rw [hids] at hgives hdraw
    refine ⟨fun h => hgives ?_, fun h => hgives ?_, fun h => hgives ?_, fun h => hdraw ?_⟩ <;> simp [idByte, h]
  case interleaved =>
    rw [hids] at hgives hdraw
    have hword {k : Nat} {v : Byte} (hv : idByte (.spansion id2 id3) k = some v) (h : a' % 32 = k) : gives v :=
      hgives ((idByte_spansion_of_mod h).trans hv)
    obtain ⟨h1C, h1D, h1E, h1F⟩ := idByte_spansion_idWords (id2 := id2) (id3 := id3)
    exact ⟨hword rfl, hword rfl, hword rfl, hword rfl, hword rfl, hword rfl, hword h1C, hword h1D, hword h1E, hword h1F,
      fun hl hu => hdraw (idByte_spansion_none hl hu)⟩

/-- Settles O12. -/
theorem statusReadRows : Obligations.StatusReadRows := by
  refine fun s r c a hc hp => ⟨fun hm => ?program, fun hm hr => ?erase, rfl, ?base⟩
  case program =>
    have he : c.expire s.now = c := Chip.expire_of_not (.inl (by simp [hm]))
    rw [exec, execFlashReadWriteStatus, chipReadRow_applies hc hp (he.symm ▸ hm), he, Chip.readWriteStatus, Chip.byteAt_mod, hm]
    rfl
  case erase =>
    have he : c.expire s.now = c := Chip.expire_of_not (.inr hr)
    rw [exec, execFlashReadEraseStatus, chipReadRow_applies hc hp (he.symm ▸ hm), he]
    rfl
  case base =>
    rw [BitVec.and_or_distrib_right, eraseStatusBase_and, BitVec.or_zero]

/-! ### The read in phase 10 (R188, R130) -/

theorem Chip.readByMode_normal (h : c.readMode = .normal) : c.readByMode p a draws = c.readNormal a draws := by
  simp only [readByMode, h]

theorem Chip.readByMode_autoselect (h : c.readMode = .autoselect) :
    c.readByMode p a draws = c.readAutoselect a draws := by
  simp only [readByMode, h]

theorem Chip.readByMode_writeStatus (h : c.readMode = .writeStatusPending) :
    c.readByMode p a draws = c.readWriteStatus p a draws := by
  simp only [readByMode, h]

theorem Chip.readByMode_eraseStatus (h : c.readMode = .sectorEraseStatus) :
    c.readByMode p a draws = c.readEraseStatus p draws := by
  simp only [readByMode, h]

/-- The read closes the page, expires the erase window, and is then the read of the mode it finds. -/
theorem exec_flashAtmelClose {closed c1 : Chip} {changed : Bool} {x : ReadFx} (h : s.chipAt r = some c)
    (hp : c.phase = .atmelPageLoad) (hclose : c.atmelClose s.draws = (closed, changed, draws))
    (hexp : Chip.expire { closed with phase := .idle } s.now = c1)
    (hread : c1.readByMode s.cfg (a % c.profile.cap) draws = x) :
    exec (.flashAtmelClose r a) s =
      .next (s.chipDone r x.chip x.draws
        (.flashRead x.value (readHandled c.readMode c1.readMode x.chip.readMode changed))) := by
  rw [exec, execFlashAtmelClose, onChip_of h]
  simp only [if_pos hp, hclose, hexp, hread, ReadFx.finish]

/-- With no page open the read only leaves the phase. -/
theorem exec_flashAtmelClose_noPage {c1 : Chip} {x : ReadFx} (h : s.chipAt r = some c) (hp : c.phase = .atmelPageLoad)
    (ho : c.atmelOpen = false) (hexp : c.expire s.now = c1)
    (hread : Chip.readByMode s.cfg { c1 with phase := .idle } (a % c.profile.cap) s.draws = x) :
    exec (.flashAtmelClose r a) s =
      .next (s.chipDone r x.chip x.draws
        (.flashRead x.value (readHandled c.readMode c1.readMode x.chip.readMode false))) := by
  subst hexp
  exact exec_flashAtmelClose (c1 := { c.expire s.now with phase := .idle }) h hp (Chip.atmelClose_of_closed ho)
    Chip.expire_withPhase hread

/-- Settles O13: the close of the page, then one clause per mode of the read. -/
theorem atmelCloseRow : Obligations.AtmelCloseRow := by
  refine fun s r c a hc hp => ⟨fun ho hm hn hw => ?page, fun ho hm => ?normal,
    fun ho hm => ⟨fun v hv => ?id, fun hv => ?noId⟩, fun ho hm => ?program, fun ho hm => ⟨fun hr => ?erase, fun hr => ?expired⟩⟩
  case page =>
    refine ⟨_, Chip.wf_atmelFill hw, fun b => Chip.read_atmelFill hw hn, ?_⟩
    refine (exec_flashAtmelClose hc hp (Chip.atmelClose_of_open ho) (Chip.expire_of_not (.inl (by simp [hm])))
      (Chip.readByMode_writeStatus hm)).trans ?_
    simp only [Chip.readWriteStatus, Chip.byteAt, Nat.mod_mod, hm]
    rfl
  case normal =>
    rw [exec_flashAtmelClose_noPage hc hp ho (Chip.expire_of_not (.inl (by simp [hm])))
      (Chip.readByMode_normal hm)]
    simp only [Chip.readNormal, Chip.byteAt, Nat.mod_mod, hm]
    rfl
  case id =>
    rw [exec_flashAtmelClose_noPage hc hp ho (Chip.expire_of_not (.inl (by simp [hm])))
      (Chip.readByMode_autoselect hm)]
    simp only [Chip.readAutoselect, hv, hm]
    rfl
  case noId =>
    rw [exec_flashAtmelClose_noPage hc hp ho (Chip.expire_of_not (.inl (by simp [hm])))
      (Chip.readByMode_autoselect hm)]
    simp only [Chip.readAutoselect, hv, hm]
    rfl
  case program =>
    rw [exec_flashAtmelClose_noPage hc hp ho (Chip.expire_of_not (.inl (by simp [hm])))
      (Chip.readByMode_writeStatus hm)]
    simp only [Chip.readWriteStatus, Chip.byteAt, Nat.mod_mod, hm]
    rfl
  case erase =>
    rw [exec_flashAtmelClose_noPage hc hp ho (Chip.expire_of_not (.inr hr)) (Chip.readByMode_eraseStatus hm)]
    simp only [Chip.readEraseStatus, hm]
    rfl
  case expired =>
    rw [exec_flashAtmelClose_noPage hc hp ho (Chip.expire_of hm hr) (Chip.readByMode_normal rfl)]
    simp only [Chip.readNormal, Chip.byteAt, Nat.mod_mod, hm]
    rfl

end Sys2Proof.Machine

/-! PROOFS. The flash write rows that set a mode, set up a command, program a byte or erase (40_flash_jedec.md R140 to R157,
R185, R195): a row whose condition holds takes its effect on the chip after expiry. -/

namespace Sys2Proof.Machine

variable {s : State} {c : Chip} {r : ChipRef} {p : Profile} {a b draws : Nat} {v : Byte} {ph : Phase} {now : Cycles}

/-! ### Rows by the kind of their effect -/

/-- A write row that changes no image byte is handled exactly when the read mode changes (R138). -/
theorem chipWriteRow_quiet {applies : Chip → Nat → Bool} {f : Chip → Chip} (h : s.chipAt r = some c)
    (ha : applies (c.expire s.now) (a % c.profile.cap) = true) :
    chipWriteRow r a v applies (fun c _ => .quiet (f c) s.draws) s =
      .next (s.chipDone r (f (c.expire s.now)) s.draws
        (.flashWrite (decide ((f (c.expire s.now)).readMode ≠ c.readMode)))) := by
  rw [chipWriteRow_applies h ha, WriteFx.quiet_handled]
  rfl

/-- A write row that changes the image is handled (R138). -/
theorem chipWriteRow_changed {applies : Chip → Nat → Bool} {effect : Chip → Nat → WriteFx} (h : s.chipAt r = some c)
    (ha : applies (c.expire s.now) (a % c.profile.cap) = true)
    (hx : (effect (c.expire s.now) (a % c.profile.cap)).changed = true) :
    chipWriteRow r a v applies effect s =
      .next (s.chipDone r (effect (c.expire s.now) (a % c.profile.cap)).chip
        (effect (c.expire s.now) (a % c.profile.cap)).draws (.flashWrite true)) := by
  rw [chipWriteRow_applies h ha, WriteFx.finish, writeHandled, hx, Bool.or_true]

/-- A row's condition: the phase, and the row's own test of the address or the profile. -/
theorem Chip.inPhase_and {u : Bool} (hm : c.readMode ≠ .sectorEraseStatus) (hp : c.phase = ph) (hu : u = true) :
    (c.inPhase ph && u) = true := Bool.and_eq_true_iff.2 ⟨Chip.inPhase_iff.2 ⟨hm, hp⟩, hu⟩

/-! ### Modes and setups -/

/-- Settles O14: each row applies in its phase, and its effect is the read mode it names. -/
theorem modeRows : Obligations.ModeRows := by
  rintro s r c c1 a hc rfl hm
  refine ⟨fun hp => ?reset1, fun hp hu => ?autoselect, fun hp => ?reset3⟩
  case reset1 =>
    rw [exec, execFlashReset1]
    exact chipWriteRow_quiet (f := fun c => { c with readMode := .normal }) hc (Chip.inPhase_iff.2 ⟨hm, hp⟩)
  case autoselect =>
    rw [exec, execFlashAutoselect]
    exact chipWriteRow_quiet (f := fun c => { c with readMode := .autoselect, phase := .idle }) hc
      (Chip.inPhase_and hm hp (Chip.expire_u1.trans hu))
  case reset3 =>
    rw [exec, execFlashReset3]
    exact chipWriteRow_quiet (f := fun c => { c with readMode := .normal, phase := .idle }) hc
      (Chip.inPhase_iff.2 ⟨hm, hp⟩)

/-- Settles O16: each setup row applies at phase 2 on its profile. -/
theorem setupRows : Obligations.SetupRows := by
  rintro s r c c1 a hc rfl hm hp
  dsimp only
  have hprofile : (c.expire s.now).profile = c.profile := Chip.expire_profile
  refine ⟨fun hu => ⟨?erase, fun ha => ?program, fun ha => ?atmel⟩, fun hb => ?buffer⟩
  case erase =>
    rw [exec, execFlashEraseSetup]
    exact chipWriteRow_goto hc (Chip.inPhase_and hm hp (Chip.expire_u1.trans hu))
  case program =>
    rw [exec, execFlashProgramSetup]
    exact chipWriteRow_goto hc (Bool.and_eq_true_iff.2
      ⟨Chip.inPhase_and hm hp (Chip.expire_u1.trans hu), by rw [hprofile, ha, Bool.not_false]⟩)
  case atmel =>
    rw [exec, execFlashAtmelSetup]
    exact chipWriteRow_quiet (f := fun c => { c with atmelOpen := false, phase := .atmelPageLoad }) hc
      (Bool.and_eq_true_iff.2 ⟨Chip.inPhase_and hm hp (Chip.expire_u1.trans hu), by rw [hprofile, ha]⟩)
  case buffer =>
    rw [exec, execFlashWbLoad]
    exact chipWriteRow_goto hc (Chip.inPhase_and hm hp (by rw [hprofile, hb]))

/-! ### Program data -/

/-- The image after a byte of data is ANDed into it (R145). -/
theorem Chip.read_programByte (h : Memory.wf 0xFF#8 c.img) :
    Memory.read 0xFF#8 (c.programByte a v draws).chip.img b =
      if b = a % c.profile.cap then Memory.read 0xFF#8 c.img b &&& v else Memory.read 0xFF#8 c.img b := by
  refine (Chip.read_setByte h).trans ?_
  split
  · next hb => rw [hb]; rfl
  · rfl

/-- Settles O17. -/
theorem programDataRow : Obligations.ProgramDataRow := by
  rintro s r c c1 a v hc rfl hm hp hw
  have hw1 : Memory.wf 0xFF#8 (c.expire s.now).img := by rwa [Chip.expire_img]
  refine ⟨((c.expire s.now).programByte (a % c.profile.cap) v s.draws).chip.img, Chip.wf_setByte hw1, fun b => ?_, ?_⟩
  · rw [Chip.read_programByte hw1, Chip.expire_profile, Chip.expire_img, Nat.mod_mod]
  · rw [exec, execFlashProgramData]
    exact chipWriteRow_changed hc (Chip.inPhase_iff.2 ⟨hm, hp⟩) rfl

/-! ### Erases -/

theorem Chip.expire_newDeadline {t : Cycles} :
    (c.expire now).newDeadline t = t + c.profile.sectorEraseTimeoutCycles := by
  rw [newDeadline, expire_profile]

/-- Settles O18. -/
theorem chipEraseRow : Obligations.ChipEraseRow := by
  rintro s r c c1 a hc rfl hm hp hu
  refine ⟨((c.expire s.now).eraseRange 0 (c.expire s.now).profile.cap).img, fun b hb => ?_, ?_⟩
  · rw [Chip.read_eraseRange, Chip.expire_profile, if_pos (by omega)]
  · rw [exec, execFlashChipErase, chipWriteRow_changed hc (Chip.inPhase_and hm hp (Chip.expire_u1.trans hu)) rfl,
      Chip.chipErase, Chip.expire_newDeadline]
    rfl

/-- The image after the sector of an address is erased. -/
theorem Chip.read_eraseSectorOf :
    Memory.read 0xFF#8 (c.eraseSectorOf a).img b =
      if (sectorOf c.profile a).1 ≤ b ∧ b < (sectorOf c.profile a).1 + (sectorOf c.profile a).2 then 0xFF#8
      else Memory.read 0xFF#8 c.img b := Chip.read_eraseRange

/-- A uniform sector is the aligned block of its size (R195). -/
theorem sectorOf_uniform {bits : Nat} (h : p.sectors = .uniform bits) (hb : bits ≤ p.capBits) :
    sectorOf p a = (a - a % 2 ^ bits, 2 ^ bits) := by
  have hbase : pageBase (2 ^ bits) a = a - a % 2 ^ bits := by
    have := Nat.div_add_mod' a (2 ^ bits)
    unfold pageBase
    omega
  simp only [sectorOf, h, Nat.min_eq_left hb, hbase]

/-- The sectors of a table are those of the partition whose sizes it lists, when each is aligned to its size (R195). -/
theorem sectorOf_table {sizes before after : List Nat} {size : Nat} (h : p.sectors = .table sizes)
    (hsum : sizes.sum = p.cap)
    (hal : ∀ before size after, sizes = before ++ size :: after → 0 < size ∧ before.sum % size = 0)
    (hs : sizes = before ++ size :: after) (hl : before.sum ≤ a) (hu : a < before.sum + size) :
    sectorOf p a = (before.sum, size) := by
  have hfits : ∀ pre n post, before ++ size :: after = pre ++ n :: post →
      0 < n ∧ (0 + pre.sum) % n = 0 ∧ 0 + pre.sum + n ≤ p.cap := by
    intro pre n post he
    obtain ⟨hn, hmod⟩ := hal pre n post (hs.trans he)
    rw [hs, he, List.sum_append, List.sum_cons] at hsum
    rw [Nat.zero_add]
    exact ⟨hn, hmod, by omega⟩
  have ht := sectorAt_table hfits (a := a) (by rwa [Nat.zero_add]) (by rwa [Nat.zero_add])
  simp only [sectorOf, h]
  rwa [hs, ← Nat.zero_add before.sum]

/-- Settles O19: the properties of the sector are those of every profile, and its form is that of the sector map. -/
theorem sectorEraseRow : Obligations.SectorEraseRow := by
  rintro s r c c1 a hc rfl hm hp hse sector
  have hval := profile_valid c.profile
  have hlt : a % c.profile.cap < c.profile.cap := Nat.mod_lt _ (Profile.cap_pos _)
  refine ⟨⟨(hval.contains _ hlt).1, (hval.contains _ hlt).2, hval.inside _ hlt, hval.aligned _ hlt, hval.partition _ hlt⟩,
    fun bits hmap hbits => sectorOf_uniform hmap hbits,
    fun sizes hmap hsum hal before size after hs hl hu => sectorOf_table hmap hsum hal hs hl hu,
    ((c.expire s.now).eraseSectorOf (a % c.profile.cap)).img, fun b => ?bytes, ?row⟩
  case bytes => rw [Chip.read_eraseSectorOf, Chip.expire_profile, Chip.expire_img]
  case row =>
    rw [exec, execFlashSectorErase,
      chipWriteRow_changed hc (Chip.inPhase_and hm hp (by rw [Chip.expire_profile, hse])) rfl, Chip.sectorErase,
      Chip.expire_newDeadline]
    rfl

/-! ### The erase status (R157) -/

/-- Settles O20: before the deadline the chip after expiry is the chip. -/
theorem eraseStatusWriteRows : Obligations.EraseStatusWriteRows := by
  intro s r c a v hc hm hr
  have he : c.expire s.now = c := Chip.expire_of_not (.inr hr)
  refine ⟨fun ho hse => ?more, fun hx => ?exit⟩
  case more =>
    refine ⟨(c.eraseSectorOf (a % c.profile.cap)).img, fun b => Chip.read_eraseSectorOf, ?_⟩
    rw [exec, execFlashSectorEraseMore, chipWriteRow_changed hc (by simp [he, hm, ho, hse]) rfl, he]
    rfl
  case exit =>
    rw [exec, execFlashEraseStatusExit]
    refine (chipWriteRow_quiet (f := fun c => { c with readMode := .normal, multiEraseOpen := false, phase := .idle }) hc
      ?_).trans ?_
    · rcases hx with hv | ho | hse
      · simp [he, hm, hv]
      · simp [he, hm, ho]
      · simp [he, hm, hse]
    · rw [he, hm]
      rfl

end Sys2Proof.Machine

/-! PROOFS. Command sequences in Normal mode (40_flash_jedec.md R139, R141 to R148, R165): the first two cycles of a command
move the phase and nothing else, and of the third cycles only the autoselect one leaves Normal mode. -/

namespace Sys2Proof.Machine

variable {c : Chip} {p : Params} {a draws : Nat} {v : Byte} {now : Cycles}

/-- Outside the erase status a write is the dispatch by phase on the chip as it is. -/
theorem Chip.write_chip_of_normal (hm : c.readMode = .normal) :
    (c.write a v now draws).chip = (c.dispatch (a % c.profile.cap) v now draws).chip := by
  rw [write, expire_of_not (.inl (by simp [hm]))]
  rfl

/-- The first cycle of a command (R141). -/
theorem Chip.write_idle_unlock (hm : c.readMode = .normal) (hp : c.phase = .idle)
    (hv : v = 0xAA#8 ∧ c.u1 (a % c.profile.cap) = true) :
    (c.write a v now draws).chip = { c with phase := .unlock1 } := by
  rw [write_chip_of_normal hm, dispatch, if_neg (by simp [hm]), hp]
  dsimp only
  rw [if_neg (by simp [hv.1]), if_pos hv]
  rfl

/-- Any other cycle at phase 0 does nothing: in Normal mode a reset does not either (R140, R149). -/
theorem Chip.write_idle_other (hm : c.readMode = .normal) (hp : c.phase = .idle)
    (hv : ¬ (v = 0xAA#8 ∧ c.u1 (a % c.profile.cap) = true)) : (c.write a v now draws).chip = c := by
  rw [write_chip_of_normal hm, dispatch, if_neg (by simp [hm]), hp]
  dsimp only
  rw [if_neg hv, reset1, ← hm]
  split <;> rfl

/-- The second cycle of a command (R142). -/
theorem Chip.write_unlock1_unlock (hm : c.readMode = .normal) (hp : c.phase = .unlock1)
    (hv : v = 0x55#8 ∧ c.u2 (a % c.profile.cap) = true) :
    (c.write a v now draws).chip = { c with phase := .unlock2 } := by
  rw [write_chip_of_normal hm, dispatch, if_neg (by simp [hm]), hp]
  dsimp only
  rw [if_pos hv]
  rfl

theorem Chip.write_unlock1_other (hm : c.readMode = .normal) (hp : c.phase = .unlock1)
    (hv : ¬ (v = 0x55#8 ∧ c.u2 (a % c.profile.cap) = true)) :
    (c.write a v now draws).chip = { c with phase := .idle } := by
  rw [write_chip_of_normal hm, dispatch, if_neg (by simp [hm]), hp]
  dsimp only
  rw [if_neg hv]
  rfl

/-- The third cycle that enters Autoselect (R143). -/
theorem Chip.write_unlock2_autoselect (hm : c.readMode = .normal) (hp : c.phase = .unlock2) (hv : v = 0x90#8)
    (hu : c.u1 (a % c.profile.cap) = true) :
    (c.write a v now draws).chip = { c with readMode := .autoselect, phase := .idle } := by
  rw [write_chip_of_normal hm, dispatch, if_neg (by simp [hm]), hp]
  dsimp only
  rw [command, if_pos ⟨hv, hu⟩]
  rfl

/-- Every other third cycle leaves Normal mode and the image alone. -/
theorem Chip.write_unlock2_other (hm : c.readMode = .normal) (hp : c.phase = .unlock2)
    (hv : ¬ (v = 0x90#8 ∧ c.u1 (a % c.profile.cap) = true)) :
    (c.write a v now draws).chip.readMode = .normal ∧ (c.write a v now draws).chip.img = c.img := by
  rw [write_chip_of_normal hm, dispatch, if_neg (by simp [hm]), hp]
  dsimp only
  rw [command, if_neg hv]
  split_ifs with hprogram hatmel herase hreset hbuffer
  · exact ⟨hm, rfl⟩
  · exact ⟨hm, rfl⟩
  · exact ⟨hm, rfl⟩
  · exact ⟨rfl, rfl⟩
  · exact ⟨hm, rfl⟩
  · exact ⟨hm, rfl⟩

theorem Chip.read_value_autoselect (hm : c.readMode = .autoselect) (hp : c.phase ≠ .atmelPageLoad)
    (hv : idByte c.profile.ids (a % c.profile.cap) = some v) : (c.read p a now draws).value = v := by
  have he : c.expire now = c := expire_of_not (.inl (by simp [hm]))
  simp only [read, beforeRead, if_neg hp, he, readByMode_autoselect hm, readAutoselect_some hv, ReadFx.finish]

/-- One cycle from phase 0 or phase 1 does not leave Normal mode. -/
theorem Chip.write_idle_keeps (hm : c.readMode = .normal) (hp : c.phase = .idle) :
    (c.write a v now draws).chip.readMode = .normal ∧ (c.write a v now draws).chip.img = c.img := by
  by_cases hv : v = 0xAA#8 ∧ c.u1 (a % c.profile.cap) = true
  · rw [write_idle_unlock hm hp hv]
    exact ⟨hm, rfl⟩
  · rw [write_idle_other hm hp hv]
    exact ⟨hm, rfl⟩

theorem Chip.write_unlock1_keeps (hm : c.readMode = .normal) (hp : c.phase = .unlock1) :
    (c.write a v now draws).chip.readMode = .normal ∧ (c.write a v now draws).chip.img = c.img := by
  by_cases hv : v = 0x55#8 ∧ c.u2 (a % c.profile.cap) = true
  · rw [write_unlock1_unlock hm hp hv]
    exact ⟨hm, rfl⟩
  · rw [write_unlock1_other hm hp hv]
    exact ⟨hm, rfl⟩

/-- Settles O26, by the first cycle that is not the documented one. -/
theorem autoselectSequence : Obligations.AutoselectSequence := by
  intro p c a1 a2 a3 a4 v1 v2 v3 t1 t2 t3 t4 d1 d2 d3 d4 hm hp u1 u2 c3 exact
  suffices hseq : (exact → c3 = { c with readMode := .autoselect }) ∧
      (¬ exact → c3.readMode = .normal ∧ c3.img = c.img) by
    refine ⟨fun he => ⟨hseq.1 he, fun v hv => ?_⟩, fun he => (hseq.2 he).1, ?_⟩
    · rw [hseq.1 he]
      exact Chip.read_value_autoselect rfl (by simp [hp]) hv
    · by_cases he : exact
      · rw [hseq.1 he]
      · exact (hseq.2 he).2
  by_cases h1 : v1 = 0xAA#8 ∧ u1 a1 = true
  · have hc1 := Chip.write_idle_unlock (a := a1) (now := t1) (draws := d1) hm hp h1
    by_cases h2 : v2 = 0x55#8 ∧ u2 a2 = true
    · have hc2 := Chip.write_unlock1_unlock (c := { c with phase := .unlock1 }) (a := a2) (now := t2) (draws := d2) hm rfl h2
      simp only [c3, hc1, hc2]
      refine ⟨fun ⟨_, _, _, _, hv3, hu3⟩ => ?_, fun hne => ?_⟩
      · exact (Chip.write_unlock2_autoselect (c := { c with phase := .unlock2 }) hm rfl hv3 hu3).trans (by rw [← hp])
      · exact Chip.write_unlock2_other hm rfl fun h3 => hne ⟨h1.1, h1.2, h2.1, h2.2, h3.1, h3.2⟩
    · have hc2 := Chip.write_unlock1_other (c := { c with phase := .unlock1 }) (a := a2) (now := t2) (draws := d2) hm rfl h2
      simp only [c3, hc1, hc2]
      exact ⟨fun ⟨_, _, hv2, hu2, _⟩ => absurd ⟨hv2, hu2⟩ h2, fun _ => Chip.write_idle_keeps hm rfl⟩
  · have hc1 := Chip.write_idle_other (a := a1) (now := t1) (draws := d1) hm hp h1
    refine ⟨fun ⟨hv1, hu1, _⟩ => absurd ⟨hv1, hu1⟩ h1, fun _ => ?_⟩
    simp only [c3, hc1]
    by_cases h2 : v2 = 0xAA#8 ∧ u1 a2 = true
    · rw [Chip.write_idle_unlock hm hp h2]
      exact Chip.write_unlock1_keeps hm rfl
    · rw [Chip.write_idle_other hm hp h2]
      exact Chip.write_idle_keeps hm hp

/-! ### The bits a write sets (R145, R152, R155, R157, R183) -/

/-- Every byte of the image of `c'` has a subset of the 1 bits it has in the image of `c`. -/
def Chip.ClearedFrom (c' c : Chip) : Prop :=
  ∀ b, Memory.read 0xFF#8 c'.img b &&& Memory.read 0xFF#8 c.img b = Memory.read 0xFF#8 c'.img b

theorem Chip.ClearedFrom.of_img {c' : Chip} (h : c'.img = c.img) : c'.ClearedFrom c := fun b => by
  rw [h, BitVec.and_self]

theorem Chip.ClearedFrom.trans {c'' c' : Chip} (h' : c''.ClearedFrom c') (h : c'.ClearedFrom c) : c''.ClearedFrom c :=
  fun b => by rw [← h' b, BitVec.and_assoc, h b]

theorem Chip.setByte_clearedFrom (hw : Memory.wf 0xFF#8 c.img) (hv : v &&& c.byteAt a = v) :
    (c.setByte a v).ClearedFrom c := by
  intro b
  rw [read_setByte hw]
  split
  · next hb => rw [hb]; exact hv
  · exact BitVec.and_self

theorem Chip.mapRange_clearedFrom {base n : Nat} {f : Nat → Byte → Byte} (hw : Memory.wf 0xFF#8 c.img)
    (hf : ∀ i old, f i old &&& old = f i old) : (c.mapRange base f n).ClearedFrom c := by
  induction n with
  | zero => exact .of_img rfl
  | succ n ih => exact (setByte_clearedFrom (wf_mapRange hw) (hf ..)).trans ih

theorem byte_and_and_left (x y : Byte) : (x &&& y) &&& x = x &&& y := by
  rw [BitVec.and_comm (x &&& y), ← BitVec.and_assoc, BitVec.and_self]

theorem Chip.programByte_clearedFrom (hw : Memory.wf 0xFF#8 c.img) : (c.programByte a v draws).chip.ClearedFrom c :=
  setByte_clearedFrom hw (byte_and_and_left ..)

theorem Chip.programBuffer_img :
    (c.programBuffer draws).chip.img =
      (c.mapRange c.wbBase (fun i old => old &&& c.wbuf.getD i 0xFF#8) wbPageSize).img := by
  simp only [programBuffer, commit_img]

theorem Chip.confirm_clearedFrom (hw : Memory.wf 0xFF#8 c.img) : (c.confirm v draws).chip.ClearedFrom c := by
  unfold confirm
  split
  · exact (ClearedFrom.of_img programBuffer_img).trans (mapRange_clearedFrom hw fun _ _ => byte_and_and_left ..)
  · exact .of_img rfl

/-- No third cycle of a command writes the image. -/
theorem Chip.command_img : (c.command a v draws).chip.img = c.img := by
  unfold command
  split_ifs <;> rfl

/-- A byte for the write buffer is kept beside the image (R182). -/
theorem Chip.loadData_img : (c.loadData a v draws).chip.img = c.img := by
  unfold loadData
  dsimp only
  split_ifs <;> rfl

/-- The cycle is an erase: at phase 6 a chip erase or an accepted sector erase, in the erase status an accepted sector. -/
def Chip.Erases (c : Chip) (a : Nat) (v : Byte) : Prop :=
  (c.readMode ≠ .sectorEraseStatus ∧ c.phase = .eraseUnlock2 ∧
    ((v = 0x10#8 ∧ c.u1 a = true) ∨ (v = 0x30#8 ∧ c.profile.sectorErase = true))) ∨
  (c.readMode = .sectorEraseStatus ∧ v = 0x30#8 ∧ c.multiEraseOpen = true ∧ c.profile.sectorErase = true)

/-- A write cycle that is no erase and no byte of an Atmel page only clears bits. -/
theorem Chip.dispatch_clearedFrom (hw : Memory.wf 0xFF#8 c.img) (ha : c.phase ≠ .atmelPageLoad) (he : ¬ c.Erases a v) :
    (c.dispatch a v now draws).chip.ClearedFrom c := by
  obtain ⟨hcommand, hmore⟩ := not_or.1 he
  unfold dispatch
  split
  · next hm =>
    rw [if_neg fun h => hmore ⟨hm, h⟩]
    exact .of_img rfl
  · next hm =>
    have hstep : ∀ {ph : Phase} {cond : Prop} [Decidable cond],
        (if cond then c.goto ph draws else c.abort draws).chip.ClearedFrom c := by
      intro ph cond _
      split <;> exact .of_img rfl
    cases hp : c.phase with
    | idle =>
      dsimp only
      split_ifs <;> exact .of_img rfl
    | unlock1 => exact hstep
    | unlock2 => exact .of_img command_img
    | programData => exact programByte_clearedFrom hw
    | eraseSetup => exact hstep
    | eraseUnlock1 => exact hstep
    | eraseUnlock2 =>
      dsimp only
      rw [if_neg fun h => hcommand ⟨hm, hp, .inl h⟩, if_neg fun h => hcommand ⟨hm, hp, .inr h⟩]
      exact .of_img rfl
    | wbCount =>
      dsimp only [loadCount]
      split <;> exact .of_img rfl
    | wbData => exact .of_img loadData_img
    | wbConfirm => exact confirm_clearedFrom hw
    | atmelPageLoad => exact absurd hp ha

theorem Chip.read_eraseRange_cases {base n b : Nat} :
    Memory.read 0xFF#8 (c.eraseRange base n).img b = Memory.read 0xFF#8 c.img b ∨
      Memory.read 0xFF#8 (c.eraseRange base n).img b = 0xFF#8 := by
  rw [read_eraseRange]
  split
  · exact .inr rfl
  · exact .inl rfl

/-- After an erase every byte is as before or 0xFF. -/
theorem Chip.read_dispatch_of_erases {b : Nat} (he : c.Erases a v) :
    Memory.read 0xFF#8 (c.dispatch a v now draws).chip.img b = Memory.read 0xFF#8 c.img b ∨
      Memory.read 0xFF#8 (c.dispatch a v now draws).chip.img b = 0xFF#8 := by
  unfold dispatch
  rcases he with ⟨hm, hp, hv⟩ | ⟨hm, hv⟩
  · rw [if_neg hm, hp]
    dsimp only
    split_ifs with h1 h2
    · exact read_eraseRange_cases
    · exact read_eraseRange_cases
    · exact absurd hv (not_or.2 ⟨h1, h2⟩)
  · rw [if_pos hm, if_pos hv]
    exact read_eraseRange_cases

/-- Settles O27: the write is the dispatch on the chip after expiry, which has the same image and, without Atmel protection,
no page load. -/
theorem writesOnlyClearOrErase : Obligations.WritesOnlyClearOrErase := by
  intro c a v now draws b hs hatmel c1 old new erases
  have hw : Memory.wf 0xFF#8 c1.img := (Chip.expire_img (t := now)).symm ▸ hs.imgCanonical
  have hpage : c1.phase ≠ .atmelPageLoad := fun hp => by
    simp [hs.atmelPhase (Chip.expire_phase.symm.trans hp)] at hatmel
  have hold : old = Memory.read 0xFF#8 c1.img b := congrArg (Memory.read 0xFF#8 · b) Chip.expire_img.symm
  have herases : erases ↔ c1.Erases (a % c.profile.cap) v := by
    simp only [erases, Chip.Erases, c1, Chip.expire_u1, Chip.expire_profile]
  rw [herases, hold]
  exact ⟨fun he => Chip.dispatch_clearedFrom hw hpage he b, fun he => Chip.read_dispatch_of_erases he⟩

end Sys2Proof.Machine

/-! PROOFS. FlashChip `Init` and `ColdReset` (40_flash_jedec.md R162, R163, R31). -/

namespace Sys2Proof.Machine

variable {s : State} {c : Chip} {r : ChipRef} {ok : Bool} {buffer : Buffer} {type : ChipType}

theorem isBound_eq_false_iff {chips : List Chip} {buf : Nat} : isBound chips buf = false ↔ ∀ c ∈ chips, c.buf ≠ buf := by
  simp [isBound]

theorem exec_flashInit_next (hsize : buffer.size = (profileOf s.cfg type).cap)
    (hb : isBound (s.mapper.chips ++ s.chips) buffer.id = false) :
    exec (.flashInit true buffer type) s =
      .next (({ s with chips := s.chips ++ [chipOf s.cfg buffer type] }).answer (.chip s.chips.length)) := by
  rw [exec, execFlashInit, if_neg (not_not.2 hsize), if_neg (by simp), if_neg (by simp [hb])]

theorem exec_flashInit_wrongSize (hsize : buffer.size ≠ (profileOf s.cfg type).cap) :
    exec (.flashInit ok buffer type) s = .fault .initSizeMismatch := by
  rw [exec, execFlashInit, if_pos hsize]

theorem exec_flashInit_noAlloc (hsize : buffer.size = (profileOf s.cfg type).cap) :
    exec (.flashInit false buffer type) s = .fault .initAllocFailure := by
  rw [exec, execFlashInit, if_neg (not_not.2 hsize), if_pos Bool.not_false]

theorem exec_flashInit_bound (hsize : buffer.size = (profileOf s.cfg type).cap)
    (hb : isBound (s.mapper.chips ++ s.chips) buffer.id = true) :
    exec (.flashInit true buffer type) s = .fault .sharedImage := by
  rw [exec, execFlashInit, if_neg (not_not.2 hsize), if_neg (by simp), if_pos hb]

/-- Settles O29: the image is the memory of the buffer, and each check is the one that fails. -/
theorem flashInitRow : Obligations.FlashInitRow := by
  intro s ok buffer type profile fits fresh
  have hbound : isBound (s.mapper.chips ++ s.chips) buffer.id = false ↔ fresh := isBound_eq_false_iff
  refine ⟨?next, fun hsize _ _ => exec_flashInit_wrongSize hsize, ?noAlloc, ?bound⟩
  case next =>
    rintro hsize rfl hf
    refine ⟨(chipOf s.cfg buffer type).img, Memory.wf_ofCells, fun hd x hx hlt => Memory.read_ofCells_listed hd hx hlt,
      fun b hb => Memory.read_ofCells_unlisted hb, ?_⟩
    rw [exec_flashInit_next hsize (hbound.2 hf)]
    rfl
  case noAlloc =>
    rintro hsize rfl -
    exact exec_flashInit_noAlloc hsize
  case bound =>
    rintro hsize rfl hf
    exact exec_flashInit_bound hsize (Bool.of_not_eq_false (mt hbound.1 hf))

/-! ### ColdReset -/

theorem exec_flashColdReset (h : s.chipAt r = some c) :
    exec (.flashColdReset r) s = .next (s.chipDone r c.coldReset s.draws .none) := by
  rw [exec, execFlashColdReset, h]
  cases r <;> rfl

theorem State.chipDone_chipAt {c' : Chip} {draws : Nat} {res : Result} (h : s.chipAt r = some c) :
    (s.chipDone r c' draws res).chipAt r = some c' := by
  have hset := State.setChip_chipAt_same (s := s) (r := r) (c := c') (by rw [h, Option.isSome_some])
  cases r <;> exact hset

/-- Settles O30: the second reset puts back the chip and the answer that are there. -/
theorem flashColdResetRow : Obligations.FlashColdResetRow := by
  intro s r c hc
  have hc' := State.chipDone_chipAt (c' := c.coldReset) (draws := s.draws) (res := .none) hc
  have htwice : c.coldReset.coldReset = c.coldReset := rfl
  refine ⟨_, exec_flashColdReset hc, rfl, ?_⟩
  rw [exec_flashColdReset hc', htwice, State.chipDone_self hc']
  rfl

end Sys2Proof.Machine

/-! PROOFS. The flash variants (41_flash_variants.md R181 to R189): the write-buffer rows, the Atmel page load, and that an
Atmel chip outside a page load changes its image by a chip erase only. -/

namespace Sys2Proof.Machine

variable {s : State} {c : Chip} {r : ChipRef} {p : Params} {a b draws : Nat} {v : Byte} {now : Cycles}

/-! ### Rows whose effect is computed from the chip -/

/-- A write row whose effect on the chip at hand changes no image byte. -/
theorem chipWriteRow_of_quiet {applies : Chip → Nat → Bool} {effect : Chip → Nat → WriteFx} {d : Chip}
    (h : s.chipAt r = some c) (ha : applies (c.expire s.now) (a % c.profile.cap) = true)
    (hx : effect (c.expire s.now) (a % c.profile.cap) = .quiet d s.draws) :
    chipWriteRow r a v applies effect s =
      .next (s.chipDone r d s.draws (.flashWrite (decide (d.readMode ≠ c.readMode)))) := by
  rw [chipWriteRow_applies h ha, hx, WriteFx.quiet_handled]
  rfl

/-- A write row whose effect on the chip at hand changes the image. -/
theorem chipWriteRow_of_changed {applies : Chip → Nat → Bool} {effect : Chip → Nat → WriteFx} {d : Chip} {n : Nat}
    (h : s.chipAt r = some c) (ha : applies (c.expire s.now) (a % c.profile.cap) = true)
    (hx : effect (c.expire s.now) (a % c.profile.cap) = { chip := d, changed := true, draws := n }) :
    chipWriteRow r a v applies effect s = .next (s.chipDone r d n (.flashWrite true)) := by
  rw [chipWriteRow_changed h ha (by rw [hx]), hx]

theorem pageBase_eq_sub_mod {size : Nat} : pageBase size a = a - a % size := Nat.div_mul_self_eq_mod_sub_self

/-! ### The write buffer (R181 to R183) -/

theorem Chip.loadCount_of_lt (hv : v.toNat < 32) :
    c.loadCount v draws =
      .quiet { c with wbRemaining := v.toNat + 1, wbBaseValid := false, wbuf := Vector.replicate 32 0xFF#8
                      phase := .wbData } draws := by
  have hfits : ¬ wbPageSize < v.toNat + 1 := not_lt.2 hv
  rw [loadCount, if_neg hfits]

theorem Chip.loadCount_of_ge (hv : 32 ≤ v.toNat) : c.loadCount v draws = c.abort draws := by
  have hover : wbPageSize < v.toNat + 1 := Nat.lt_succ_of_le hv
  rw [loadCount, if_pos hover]

/-- Settles O22: a count byte below 32 begins the load, any other aborts. -/
theorem wbCountRow : Obligations.WbCountRow := by
  rintro s r c c1 a v hc rfl hm hp
  rw [exec, execFlashWbCount]
  exact ⟨fun hv => chipWriteRow_of_quiet hc (Chip.inPhase_iff.2 ⟨hm, hp⟩) (Chip.loadCount_of_lt hv),
    fun hv => chipWriteRow_of_quiet hc (Chip.inPhase_iff.2 ⟨hm, hp⟩) (Chip.loadCount_of_ge hv)⟩

/-- A datum is ANDed into its position of the buffer and no other. -/
theorem Chip.bufferByte_wbuf (i : Fin 32) :
    (c.bufferByte a v).wbuf[i] = if i.val = a % 32 then c.wbuf[i] &&& v else c.wbuf[i] := by
  have hset : (c.bufferByte a v).wbuf[i] =
      if a % 32 = i.val then c.wbuf.getD (a % 32) 0xFF#8 &&& v else c.wbuf[i] := Vector.getElem_setIfInBounds i.isLt
  have hold (hi : i.val = a % 32) : c.wbuf.getD (a % 32) 0xFF#8 = c.wbuf[i] := by simp [← hi, Vector.getD]
  rw [hset]
  split
  · next hi => rw [if_pos hi.symm, hold hi.symm]
  · next hi => rw [if_neg (Ne.symm hi)]

/-- The first datum opens its page; a datum of the open page finds it open already. The load goes on until the last datum
expected, which leads to the confirm phase (R182). -/
theorem Chip.loadData_inPage (hp : c.phase = .wbData) (hn : 1 ≤ c.wbRemaining)
    (h : c.wbBaseValid = false ∨ c.wbBase = pageBase wbPageSize a) :
    c.loadData a v draws =
      .quiet { c with wbuf := (c.bufferByte a v).wbuf, wbBase := pageBase wbPageSize a, wbBaseValid := true
                      wbRemaining := c.wbRemaining - 1
                      phase := if c.wbRemaining = 1 then .wbConfirm else .wbData } draws := by
  have hlast : c.wbRemaining - 1 = 0 ↔ c.wbRemaining = 1 := by omega
  cases hvalid : c.wbBaseValid with
  | false => simp [loadData, hvalid, bufferByte, hlast, hp]
  | true =>
    have hbase : pageBase wbPageSize a = c.wbBase := (h.resolve_left (by simp [hvalid])).symm
    simp [loadData, hvalid, hbase, bufferByte, hlast, hp]

theorem Chip.loadData_otherPage (hvalid : c.wbBaseValid = true) (hbase : c.wbBase ≠ pageBase wbPageSize a) :
    c.loadData a v draws = c.abort draws := by
  simp [loadData, hvalid, hbase.symm]

/-- Settles O23: in the page the buffer takes the datum, in another page the load aborts. -/
theorem wbDataRow : Obligations.WbDataRow := by
  rintro s r c c1 a v hc rfl hm hp hn page
  have hpage : page = pageBase wbPageSize (a % c.profile.cap) := pageBase_eq_sub_mod.symm
  have ha : (c.expire s.now).inPhase .wbData = true := Chip.inPhase_iff.2 ⟨hm, hp⟩
  rw [exec, execFlashWbData, hpage]
  refine ⟨fun hin => ?inPage, fun hvalid hother => ?otherPage⟩
  case inPage =>
    exact ⟨_, Chip.bufferByte_wbuf, chipWriteRow_of_quiet hc ha (Chip.loadData_inPage hp hn hin)⟩
  case otherPage => exact chipWriteRow_of_quiet hc ha (Chip.loadData_otherPage hvalid hother)

/-- The image after the buffer is ANDed into its page. -/
theorem Chip.read_programBuffer (h : Memory.wf 0xFF#8 c.img) (hn : c.wbBase + 32 ≤ c.profile.cap) :
    Memory.read 0xFF#8 (c.programBuffer draws).chip.img b =
      if c.wbBase ≤ b ∧ b < c.wbBase + 32 then Memory.read 0xFF#8 c.img b &&& c.wbuf.getD (b - c.wbBase) 0xFF#8
      else Memory.read 0xFF#8 c.img b := by
  rw [programBuffer_img]
  exact read_mapRange h hn

theorem Chip.wf_programBuffer (h : Memory.wf 0xFF#8 c.img) : Memory.wf 0xFF#8 (c.programBuffer draws).chip.img := by
  rw [programBuffer_img]
  exact wf_mapRange h

theorem Chip.mapRange_commit {f : Nat → Byte → Byte} {base n : Nat} :
    (c.mapRange base f n).commit = { c with img := (c.mapRange base f n).img, dirty := true, writeActivity := true } := by
  rw [mapRange_eq_withImg]
  rfl

/-- The commit of the buffer changes the image, sets the commit flags and enters the program status. -/
theorem Chip.programBuffer_eq :
    c.programBuffer draws =
      { chip := { c with img := (c.programBuffer draws).chip.img, dirty := true, writeActivity := true
                         readMode := .writeStatusPending, statusReads := 0, phase := .idle }
        changed := true, draws := draws } := by
  rw [programBuffer_img, programBuffer, mapRange_commit]

/-- Settles O24: `$29` commits the buffer, and any other byte aborts. -/
theorem wbConfirmRow : Obligations.WbConfirmRow := by
  rintro s r c c1 a v hc rfl hm hp
  have ha : (c.expire s.now).inPhase .wbConfirm = true := Chip.inPhase_iff.2 ⟨hm, hp⟩
  rw [exec, execFlashWbConfirm]
  refine ⟨fun hv hn hw => ?confirm, fun hv => ?abort⟩
  case confirm =>
    have hw1 : Memory.wf 0xFF#8 (c.expire s.now).img := by rwa [Chip.expire_img]
    have hn1 : (c.expire s.now).wbBase + 32 ≤ (c.expire s.now).profile.cap := by rwa [Chip.expire_profile]
    refine ⟨_, Chip.wf_programBuffer hw1, fun b => ?_,
      chipWriteRow_of_changed hc ha ((if_pos hv).trans Chip.programBuffer_eq)⟩
    rw [Chip.read_programBuffer hw1 hn1, Chip.expire_img]
  case abort => exact chipWriteRow_of_quiet hc ha (if_neg hv)

/-! ### The Atmel page load (R186 to R188) -/

/-- The loaded marks a page byte is added to: those of the open page, or none where the byte opens its page (R186). -/
def Chip.pageMarks (c : Chip) : Vector Bool 256 := if c.atmelOpen then c.atmelLoaded else Vector.replicate 256 false

theorem Chip.pageMarks_getElem (i : Fin 256) : c.pageMarks[i] = (c.atmelOpen && c.atmelLoaded[i]) := by
  unfold pageMarks
  cases c.atmelOpen <;> simp

/-- A byte marks its own position of the page and no other. -/
theorem Chip.pageMarks_set_getElem (i : Fin 256) :
    (c.pageMarks.setIfInBounds (a % atmelPageSize) true)[i] =
      if i.val = a % 256 then true else c.atmelOpen && c.atmelLoaded[i] :=
  (Vector.getElem_setIfInBounds i.isLt).trans (if_congr eq_comm rfl (pageMarks_getElem i))

/-- The first byte opens its page; a byte of the open page finds it open already. Either way it replaces the image byte. -/
theorem Chip.atmelData_inPage (h : c.atmelOpen = false ∨ c.atmelBase = pageBase atmelPageSize a) :
    c.atmelData a v draws =
      { chip := { c with img := (c.setByte a v).img, dirty := true, writeActivity := true, atmelOpen := true
                         atmelBase := pageBase atmelPageSize a
                         atmelLoaded := c.pageMarks.setIfInBounds (a % atmelPageSize) true
                         readMode := .writeStatusPending, statusReads := 0 }
        changed := true, draws := draws } := by
  cases hopen : c.atmelOpen with
  | false => simp [atmelData, hopen, pageMarks, atmelByte, setByte, commit]
  | true =>
    have hbase : pageBase atmelPageSize a = c.atmelBase := (h.resolve_left (by simp [hopen])).symm
    simp [atmelData, hopen, hbase, pageMarks, atmelByte, setByte, commit]

/-- A byte of another page closes the page and is not programmed (R187, R188). -/
theorem Chip.atmelData_otherPage (hopen : c.atmelOpen = true) (hbase : c.atmelBase ≠ pageBase atmelPageSize a) :
    c.atmelData a v draws =
      { chip := { c with img := (c.atmelFill draws).img, dirty := true, writeActivity := true, atmelOpen := false
                         phase := .idle }
        changed := true, draws := draws + 1 } := by
  have hleave : c.atmelData a v draws = c.atmelLeave draws := by simp [atmelData, hopen, hbase.symm]
  rw [hleave, atmelLeave, atmelClose_of_open hopen]

/-- Settles O25: in the page the byte is programmed and marked, in another page it closes the page. -/
theorem atmelDataRow : Obligations.AtmelDataRow := by
  rintro s r c c1 a v hc rfl hm hp hw a'
  have hpage : a' - a' % 256 = pageBase atmelPageSize a' := pageBase_eq_sub_mod.symm
  have ha : (c.expire s.now).inPhase .atmelPageLoad = true := Chip.inPhase_iff.2 ⟨hm, hp⟩
  have hw1 : Memory.wf 0xFF#8 (c.expire s.now).img := by rwa [Chip.expire_img]
  rw [exec, execFlashAtmelData, hpage]
  refine ⟨fun hin => ?inPage, fun hopen hother hn => ?otherPage⟩
  case inPage =>
    refine ⟨_, _, Chip.wf_setByte hw1, fun b => ?_, Chip.pageMarks_set_getElem,
      chipWriteRow_of_changed hc ha (Chip.atmelData_inPage hin)⟩
    rw [Chip.read_setByte hw1, Chip.expire_img, Chip.expire_profile, Nat.mod_mod]
  case otherPage =>
    have hn1 : (c.expire s.now).atmelBase + 256 ≤ (c.expire s.now).profile.cap := by rwa [Chip.expire_profile]
    refine ⟨_, Chip.wf_atmelFill hw1, fun b => ?_,
      chipWriteRow_of_changed hc ha (Chip.atmelData_otherPage hopen hother)⟩
    rw [Chip.read_atmelFill hw1 hn1, Chip.expire_img]

/-! ### Atmel data protection (R189) -/

/-- No read by mode writes the image. -/
theorem Chip.readByMode_img : (c.readByMode p a draws).chip.img = c.img := by
  unfold readByMode
  split
  case h_1 => rfl
  case h_2 => unfold readAutoselect; split <;> rfl
  case h_3 => rfl
  case h_4 => rfl

/-- Only the close of an Atmel page makes a read write the image (R188). -/
theorem Chip.read_img (hp : c.phase ≠ .atmelPageLoad) : (c.read p a now draws).chip.img = c.img := by
  have hbefore : c.beforeRead now draws = (c.expire now, false, draws) := by simp only [beforeRead, if_neg hp]
  simp only [read, hbefore, ReadFx.finish, readByMode_img, expire_img]

/-- On a sound Atmel chip each row that writes the image, but the page load and the chip erase, is one its profile does not
have. -/
theorem Chip.dispatch_img_of_atmel (hs : c.Sound) (hatmel : c.profile.atmelSDP = true) (hp : c.phase ≠ .atmelPageLoad)
    (he : ¬ (c.phase = .eraseUnlock2 ∧ v = 0x10#8 ∧ c.u1 a = true)) :
    (c.dispatch a v now draws).chip.img = c.img := by
  obtain ⟨hbuffer, hsector⟩ := (profile_valid c.profile).atmel hatmel
  unfold dispatch
  split
  · rw [if_neg fun h => by simp [hsector] at h]
    rfl
  · have hstep : ∀ {ph : Phase} {cond : Prop} [Decidable cond],
        (if cond then c.goto ph draws else c.abort draws).chip.img = c.img := by
      intro ph cond _
      split <;> rfl
    cases hph : c.phase with
    | idle =>
      dsimp only
      split_ifs <;> rfl
    | unlock1 => exact hstep
    | unlock2 => exact command_img
    | programData => simp [hs.programPhase hph] at hatmel
    | eraseSetup => exact hstep
    | eraseUnlock1 => exact hstep
    | eraseUnlock2 =>
      dsimp only
      rw [if_neg fun h => he ⟨hph, h⟩, if_neg fun h => by simp [hsector] at h]
      rfl
    | wbCount => simp [hs.bufferPhase (.inl hph)] at hbuffer
    | wbData => simp [hs.bufferPhase (.inr (.inl hph))] at hbuffer
    | wbConfirm => simp [hs.bufferPhase (.inr (.inr hph))] at hbuffer
    | atmelPageLoad => exact absurd hph hp

/-- Settles O28: the write is the dispatch on the chip after expiry, which is sound and has the same image and phase. -/
theorem atmelProtection : Obligations.AtmelProtection := by
  intro p c a v now draws hs hatmel hp
  refine ⟨Chip.read_img hp, Classical.or_iff_not_imp_right.2 fun he => ?_⟩
  have hdispatch := Chip.dispatch_img_of_atmel (c := c.expire now) (a := a % c.profile.cap) (v := v) (now := now)
    (draws := draws) (Chip.expire_follows.sound hs) (by rwa [Chip.expire_profile]) (by rwa [Chip.expire_phase])
    (by rwa [Chip.expire_phase, Chip.expire_u1])
  exact hdispatch.trans Chip.expire_img

end Sys2Proof.Machine

/-! PROOFS. The scheduler's calls (R211 to R214). One equation per case of `Add`, `Delete` and `CheckAndHandle`; the
statements are put together from them. -/

namespace Sys2Proof.Machine

variable {e : Entry} {rest : List Entry} {id : Int} {delta : Cycles} {handler : Nat} {s t : State}
  {c : HandlerCall} {hc pre post : List HandlerCall} {f : Fault}

/-! ### Add and Delete -/

theorem removeId_eq_filter (q : List Entry) (id : Int) : removeId q id = q.filter (fun e => decide (e.id ≠ id)) :=
  List.filter_congr fun e _ => by rw [bne_eq, decide_not, beq_eq_decide]

/-- The range check comes before the reentrancy check (R375). -/
theorem execSchedAdd_of_deltaRange (hd : 2 ^ 63 ≤ delta.toNat) :
    execSchedAdd id delta handler s = .fault .schedulerDeltaRange := if_pos hd

theorem execSchedAdd_of_ownId (hd : delta.toNat < 2 ^ 63) (hown : s.sched.inHandler = some id) :
    execSchedAdd id delta handler s = .fault .schedulerReentrantSameId := by
  rw [execSchedAdd, if_neg hd.not_ge, if_pos hown]

theorem execSchedAdd_of_allowed (hd : delta.toNat < 2 ^ 63) (hother : s.sched.inHandler ≠ some id) :
    execSchedAdd id delta handler s =
      .next (({ s with sched := { s.sched with
        queue := insertEntry (newEntry s.now id delta handler) (removeId s.sched.queue id) } }).answer
          (.entry (newEntry s.now id delta handler))) := by
  rw [execSchedAdd, if_neg hd.not_ge, if_neg hother]

theorem execSchedDelete_of_ownId (hown : s.sched.inHandler = some id) :
    execSchedDelete id s = .fault .schedulerReentrantSameId := if_pos hown

theorem execSchedDelete_of_otherId (hother : s.sched.inHandler ≠ some id) :
    execSchedDelete id s =
      .next (({ s with sched := { s.sched with queue := removeId s.sched.queue id } }).answer .none) := if_neg hother

/-- Settles O31: one clause per case of the two calls; where the new entry stands is `insertEntry_split`. -/
theorem schedAddDeleteRows : Obligations.SchedAddDeleteRows := by
  intro s id delta handler kept e
  have hkept : removeId s.sched.queue id = kept := removeId_eq_filter _ _
  refine ⟨execSchedAdd_of_deltaRange, execSchedAdd_of_ownId, fun hd hother => ?added, execSchedDelete_of_ownId,
    fun hother => ?deleted⟩
  case added =>
    obtain ⟨front, back, hsplit, hinsert, hfront, hback⟩ := insertEntry_split e kept
    refine ⟨front, back, hsplit.symm, hfront, hback, ?_⟩
    rw [exec, execSchedAdd_of_allowed hd hother, hkept, ← hinsert]
    rfl
  case deleted =>
    rw [exec, execSchedDelete_of_otherId hother, hkept]
    rfl

/-! ### CheckAndHandle -/

theorem execSchedCheck_of_inHandler (h : s.sched.inHandler ≠ none) :
    execSchedCheck hc s = .fault .schedulerReentrantSameId := if_pos (Option.isSome_iff_ne_none.2 h)

theorem execSchedCheck_of_empty (h : s.sched.inHandler = none) (hq : s.sched.queue = []) :
    execSchedCheck hc s = .next (s.answer (.ran none)) := by
  simp [execSchedCheck, h, hq]

theorem execSchedCheck_of_notDue (h : s.sched.inHandler = none) (hq : s.sched.queue = e :: rest)
    (hdue : reached s.now e.deadline = false) : execSchedCheck hc s = .next (s.answer (.ran none)) := by
  simp [execSchedCheck, h, hq, hdue]

theorem execSchedCheck_of_due (h : s.sched.inHandler = none) (hq : s.sched.queue = e :: rest)
    (hdue : reached s.now e.deadline = true) : execSchedCheck hc s = runHandler hc e rest s := by
  simp [execSchedCheck, h, hq, hdue]

theorem runHandler_of_next (h : runScript hc (s.enterHandler e rest) = .next t) :
    runHandler hc e rest s = .next (t.leaveHandler e) := by
  rw [runHandler, h]

theorem runHandler_of_fault (h : runScript hc (s.enterHandler e rest) = .fault f) :
    runHandler hc e rest s = .fault f := by
  rw [runHandler, h]

/-- Settles O32: a due head runs its handler between `enterHandler` and `leaveHandler`; a handler without calls is the case
of the empty script. -/
theorem schedCheckRow : Obligations.SchedCheckRow := by
  intro s hc
  refine ⟨execSchedCheck_of_inHandler, fun hidle => ⟨execSchedCheck_of_empty hidle,
    fun e rest => execSchedCheck_of_notDue hidle, fun e rest t hq hdue hrun => ?calls, ?noCalls⟩⟩
  case calls => exact (execSchedCheck_of_due hidle hq hdue).trans (runHandler_of_next hrun)
  case noCalls =>
    rintro e rest hq hdue rfl
    exact (execSchedCheck_of_due hidle hq hdue).trans (runHandler_of_next (t := s.enterHandler e rest) rfl)

/-! ### What a handler may not call -/

/-- The first call to fault ends the script with its fault, whatever would have followed (R214). -/
theorem runScript_fault_of_call (hpre : runScript pre s = .next t)
    (hcall : runNested c.call { t with clock := c.clock } = .fault f) : runScript (pre ++ c :: post) s = .fault f := by
  rw [runScript_append, hpre]
  simp only [runScript, hcall]

/-- The calls the handler of `id` may not make (R211 to R214). An `Add` out of range is left out: it faults with the range
(R375). -/
def ForbiddenInHandler (id : Int) (g : HostCall) : Prop :=
  g = .schedCheck ∨ g = .schedDelete id ∨ ∃ delta handler, delta.toNat < 2 ^ 63 ∧ g = .schedAdd id delta handler

theorem runNested_of_forbidden {g : HostCall} (hrun : s.sched.inHandler = some id) (hg : ForbiddenInHandler id g) :
    runNested (.host g) s = .fault .schedulerReentrantSameId := by
  rcases hg with rfl | rfl | ⟨delta, handler, hd, rfl⟩
  · rfl
  · exact execSchedDelete_of_ownId hrun
  · exact execSchedAdd_of_ownId hd hrun

/-- Settles O33: the calls before leave the handler running, so the forbidden call is made under its own id. -/
theorem handlerForbiddenCalls : Obligations.HandlerForbiddenCalls := by
  intro s t pre post clk bad e rest hidle hq hdue hpre hbad
  have hrun : t.sched.inHandler = some e.id := runScript_inHandler hpre
  have hscript := runScript_fault_of_call (c := ⟨clk, .host bad⟩) (post := post) hpre
    (runNested_of_forbidden (s := { t with clock := clk }) hrun hbad)
  exact (execSchedCheck_of_due hidle hq hdue).trans (runHandler_of_fault hscript)

end Sys2Proof.Machine

/-! PROOFS. The bit layer (43_serial_eeprom.md R240 to R243). Both devices hold a link and answer a completed byte, and neither
looks at its link when it does: `LinkDevice` is that much of a device, and a byte's transfer is shown for every one. -/

namespace Sys2Proof.Machine

variable {l : Link} {ce clk b : Bool} {v resp : Byte} {n : Nat} {s : State}

/-! ### Bits into a byte -/

/-- A byte with a bit shifted in at its low end (R240). -/
def pushBit (a : Byte) (b : Bool) : Byte := (a <<< 1) ||| (BitVec.ofBool b).setWidth 8

/-- The low `n` bits of `v` shifted into `a`, the most significant of them first. -/
def pushBits (v a : Byte) (n : Nat) : Byte := (List.range n).reverse.foldl (fun a i => pushBit a (v.getLsbD i)) a

theorem foldl_reverse_range_succ {α : Type} (f : α → Nat → α) (x : α) :
    (List.range (n + 1)).reverse.foldl f x = (List.range n).reverse.foldl f (f x n) := by
  simp [List.range_succ]

theorem pushBits_succ {a : Byte} : pushBits v a (n + 1) = pushBits v (pushBit a (v.getLsbD n)) n :=
  foldl_reverse_range_succ _ _

/-- Each bit shifted in is found at its own place; above them stand the low bits of the byte as it was. -/
theorem pushBits_getLsbD {a : Byte} {i : Nat} (hi : i < 8) :
    (pushBits v a n).getLsbD i = if i < n then v.getLsbD i else a.getLsbD (i - n) := by
  induction n generalizing a with
  | zero => rfl
  | succ n ih =>
    rw [pushBits_succ, ih]
    rcases Nat.lt_trichotomy i n with h | rfl | h
    · rw [if_pos h, if_pos (by omega)]
    · simp [pushBit]
    · have hk : i - n = (i - (n + 1)) + 1 := by omega
      rw [if_neg (by omega), if_neg (by omega), hk]
      simp [pushBit, BitVec.getLsbD_setWidth, BitVec.getLsbD_shiftLeft]
      omega

/-- Eight bits replace the byte. -/
theorem pushBits_eight {a : Byte} : pushBits v a 8 = v :=
  BitVec.eq_of_getLsbD_eq fun i hi => by rw [pushBits_getLsbD hi, if_pos hi]

/-! ### A response on its way out -/

/-- The link puts out bit `n` of `resp`, and holds the bits below it, the next at the top of the output register. -/
structure Link.Sends (l : Link) (resp : Byte) (n : Nat) : Prop where
  low : l.clk = false
  counted : l.bitCount.val + n = 7
  out : l.outBit = resp.getLsbD n
  held : ∀ i < n, l.outShift.getLsbD (i + 8 - n) = resp.getLsbD i

/-- A response just loaded is about to be sent from its top bit down (R240). -/
theorem Link.after_sends : (l.after resp).Sends resp 7 where
  low := rfl
  counted := rfl
  out := rfl
  held i hi := by simp [after]; omega

theorem Link.Sends.count_ne (h : l.Sends resp (n + 1)) : l.bitCount ≠ 7 := by
  intro h7
  have := h.counted
  simp [h7] at this

/-- A bit-time goes on to the bit below. -/
theorem Link.Sends.next (h : l.Sends resp (n + 1)) : ((l.shiftIn b).shiftOut.record true false).Sends resp n where
  low := rfl
  counted := by
    have := h.counted
    simp [record, shiftOut, shiftIn, Fin.val_add]
    omega
  out := by
    have htop := h.held n (by omega)
    rwa [show n + 8 - (n + 1) = 7 by omega] at htop
  held i hi := by
    have hn := h.counted
    rw [← h.held i (by omega), show i + 8 - n = i + 8 - (n + 1) + 1 by omega]
    simp [record, shiftOut, shiftIn]
    omega

/-! ### A device on the link -/

/-- A device on the bit-serial link: its link, its answer to a completed byte, and its `WriteState`, which follows the events
of the link (R240) but for the deselection, which also clears each device's own fields. -/
structure LinkDevice (δ : Type) where
  link : δ → Link
  setLink : δ → Link → δ
  onNextByte : δ → Byte → Byte × δ
  write : δ → Bool → Bool → Bool → δ
  link_setLink : ∀ x l, link (setLink x l) = l
  setLink_setLink : ∀ x l l', setLink (setLink x l) l' = setLink x l'
  onNextByte_setLink : ∀ x l v, onNextByte (setLink x l) v = (onNextByte x v).map (fun w => w) fun y => setLink y l
  write_shift : ∀ {x ce clk b l}, (link x).event ce clk b = .shift l → write x ce clk b = setLink x (l.record ce clk)
  write_byte : ∀ {x ce clk b v}, (link x).event ce clk b = .byte v →
    write x ce clk b = setLink (onNextByte x v).2 ((link x).after (onNextByte x v).1)

namespace LinkDevice

variable {δ : Type} {d : LinkDevice δ} {x : δ}

/-! The calls by their levels (R240, R375). -/

theorem write_noEdge (h : ce = false ∧ (d.link x).ce = false ∨ ce = true ∧ clk = (d.link x).clk) :
    d.write x ce clk b = d.setLink x ((d.link x).record ce clk) := by
  rcases h with ⟨rfl, h⟩ | ⟨rfl, h⟩
  · exact d.write_shift (Link.event_unselected h)
  · exact d.write_shift (Link.event_level h.symm)

theorem write_rise (h : (d.link x).clk = false) :
    d.write x true true b = d.setLink x (((d.link x).shiftIn b).record true true) :=
  d.write_shift (Link.event_rise h)

theorem write_fall (h : (d.link x).clk = true) (hb : (d.link x).bitCount ≠ 7) :
    d.write x true false b = d.setLink x ((d.link x).shiftOut.record true false) :=
  d.write_shift (Link.event_fall h hb)

theorem write_lastFall (h : (d.link x).clk = true) (hb : (d.link x).bitCount = 7) :
    d.write x true false b = d.setLink (d.onNextByte x (d.link x).inShift).2
      ((d.link x).after (d.onNextByte x (d.link x).inShift).1) :=
  d.write_byte (Link.event_byte h hb)

/-! ### A bit-time -/

/-- The three calls that clock one bit (R118 `SPI`). -/
def clockBit (d : LinkDevice δ) (x : δ) (b : Bool) : δ :=
  d.write (d.write (d.write x true false b) true true b) true false b

/-- The first two calls shift the bit in. -/
theorem write_write_of_low (h : (d.link x).clk = false) :
    d.write (d.write x true false b) true true b = d.setLink x (((d.link x).shiftIn b).record true true) := by
  rw [write_noEdge (.inr ⟨rfl, h.symm⟩), write_rise (by rw [d.link_setLink]; rfl), d.setLink_setLink, d.link_setLink]
  rfl

/-- A bit-time that does not complete a byte. -/
theorem clockBit_of_ne (h : (d.link x).clk = false) (hb : (d.link x).bitCount ≠ 7) :
    d.clockBit x b = d.setLink x (((d.link x).shiftIn b).shiftOut.record true false) := by
  rw [clockBit, write_write_of_low h, write_fall (by rw [d.link_setLink]; rfl) (by rwa [d.link_setLink]),
    d.setLink_setLink, d.link_setLink]
  rfl

/-- What a completed byte leaves: the interpreter has taken it, and its response is loaded (R240). -/
def completed (d : LinkDevice δ) (x : δ) (v : Byte) : δ :=
  d.setLink (d.onNextByte x v).2 ({ d.link x with inShift := v }.after (d.onNextByte x v).1)

/-- Of the link, only the input shift register counts, and that is the byte itself. -/
theorem completed_setLink : d.completed (d.setLink x l) v = d.completed x v := by
  simp only [completed, d.onNextByte_setLink, Prod.map_fst, Prod.map_snd, d.link_setLink, d.setLink_setLink]
  rfl

/-- The eighth bit-time. -/
theorem clockBit_last (h : (d.link x).clk = false) (hb : (d.link x).bitCount = 7) :
    d.clockBit x b = d.completed x (pushBit (d.link x).inShift b) := by
  rw [clockBit, write_write_of_low h, write_lastFall (by rw [d.link_setLink]; rfl) (by rwa [d.link_setLink]),
    ← completed_setLink (l := ((d.link x).shiftIn b).record true true)]
  simp only [completed, d.link_setLink]
  rfl

/-! ### `SPI` (R243) -/

/-- The low `n` bits of `v` clocked in, the most significant of them first. -/
def clockBits (d : LinkDevice δ) (v : Byte) (x : δ) (n : Nat) : δ :=
  (List.range n).reverse.foldl (fun x i => d.clockBit x (v.getLsbD i)) x

theorem clockBits_succ : d.clockBits v x (n + 1) = d.clockBits v (d.clockBit x (v.getLsbD n)) n :=
  foldl_reverse_range_succ _ _

/-- Seven falling edges are counted before the last of the bits: the byte completes with it and not before. -/
theorem clockBits_eq_completed (h : (d.link x).clk = false) (hb : (d.link x).bitCount.val + n = 7) :
    d.clockBits v x (n + 1) = d.completed x (pushBits v (d.link x).inShift (n + 1)) := by
  induction n generalizing x with
  | zero => exact clockBit_last h (Fin.ext hb)
  | succ n ih =>
    rw [clockBits_succ, clockBit_of_ne h (fun h7 => by simp [h7] at hb), pushBits_succ, ih, completed_setLink,
      d.link_setLink]
    · rfl
    · rw [d.link_setLink]; rfl
    · rw [d.link_setLink]
      simp [Link.record, Link.shiftOut, Link.shiftIn, Fin.val_add]
      omega

/-! ### `SPIR` (R243) -/

/-- One bit-time of `SPIR`: `ReadState` before the rising edge, with data 1 (R118). -/
def readBit (d : LinkDevice δ) (y : Byte × δ) : Byte × δ :=
  let x := d.write y.2 true false true
  (pushBit y.1 (d.link x).outBit, d.write (d.write x true true true) true false true)

theorem readBit_of_low {a : Byte} (h : (d.link x).clk = false) :
    d.readBit (a, x) = (pushBit a (d.link x).outBit, d.clockBit x true) := by
  simp only [readBit, write_noEdge (.inr ⟨rfl, h.symm⟩), d.link_setLink, clockBit]
  rfl

/-- `n` bit-times of `SPIR`. -/
def readBits (d : LinkDevice δ) (y : Byte × δ) (n : Nat) : Byte × δ :=
  (List.range n).reverse.foldl (fun y _ => d.readBit y) y

theorem readBits_succ {y : Byte × δ} : d.readBits y (n + 1) = d.readBits (d.readBit y) n :=
  foldl_reverse_range_succ _ _

/-- Reading the bits below and at `n` while the link sends them gives them; the input is that of clocking in ones. -/
theorem readBits_of_sends {a : Byte} (h : (d.link x).Sends resp n) :
    d.readBits (a, x) (n + 1) = (pushBits resp a (n + 1), d.clockBits 0xFF#8 x (n + 1)) := by
  induction n generalizing a x with
  | zero =>
    rw [readBits_succ, readBit_of_low h.low, h.out]
    rfl
  | succ n ih =>
    have hone : (0xFF#8).getLsbD (n + 1) = true := by
      have := h.counted
      rw [show 0xFF#8 = BitVec.allOnes 8 by decide, BitVec.getLsbD_allOnes]
      exact decide_eq_true (by omega)
    have hnext : (d.link (d.clockBit x true)).Sends resp n := by
      rw [clockBit_of_ne h.low h.count_ne, d.link_setLink]
      exact h.next
    rw [readBits_succ, readBit_of_low h.low, h.out, ih hnext, ← pushBits_succ, clockBits_succ (n := n + 1), hone]

end LinkDevice

/-! ### The two devices -/

/-- The EEPROM with its link replaced. -/
def Eeprom.withLink (e : Eeprom) (l : Link) : Eeprom := { e with link := l }

/-- The RTC with its link replaced. -/
def Rtc.withLink (r : Rtc) (l : Link) : Rtc := { r with link := l }

theorem Eeprom.opcode_withLink {e : Eeprom} : (e.withLink l).opcode v = (e.opcode v).map (fun w => w) (·.withLink l) := by
  simp only [opcode, apply_ite (Prod.map _ _)]
  rfl

theorem Eeprom.writeByte_withLink {e : Eeprom} : (e.withLink l).writeByte v = (e.writeByte v).withLink l := by
  cases hw : e.wel && !isProtected e.bp e.addr <;> simp [writeByte, withLink, hw]

/-- No EEPROM command looks at the link. -/
theorem Eeprom.onNextByte_withLink {e : Eeprom} :
    (e.withLink l).onNextByte v = (e.onNextByte v).map (fun w => w) (·.withLink l) := by
  cases e with | mk _ mem bp wel cmd addr issued =>
  cases cmd with
  | idle => exact opcode_withLink
  | writeStatus => cases wel <;> rfl
  | writeData => exact congrArg (Prod.mk noData) writeByte_withLink
  | readStatus | readAddr | readData | writeAddr | done => rfl

theorem Rtc.opcode_withLink {r : Rtc} : (r.withLink l).opcode v = (r.opcode v).map (fun w => w) (·.withLink l) := by
  simp only [opcode, apply_ite (Prod.map _ _)]
  rfl

theorem Rtc.eeWriteByte_withLink {r : Rtc} : (r.withLink l).eeWriteByte v = (r.eeWriteByte v).withLink l := by
  cases hw : r.wel && !isProtected r.bp r.addr <;> simp [eeWriteByte, withLink, hw]

theorem Rtc.ramWriteByte_withLink {r : Rtc} : (r.withLink l).ramWriteByte v = (r.ramWriteByte v).withLink l := by
  by_cases hw : r.addr.toNat < rtcRamSize <;> simp [ramWriteByte, setRam, withLink, hw]

theorem Rtc.unlockStep_withLink {r : Rtc} : (r.withLink l).unlockStep v = (r.unlockStep v).withLink l := by
  simp only [unlockStep, apply_ite (Rtc.withLink · l)]
  rfl

/-- No RTC command looks at the link. -/
theorem Rtc.onNextByte_withLink {r : Rtc} {t : HostTime} :
    (r.withLink l).onNextByte t v = (r.onNextByte t v).map (fun w => w) (·.withLink l) := by
  cases r with | mk _ ram ee id bp wel cmd addr unlock issued =>
  cases cmd with
  | idle => exact opcode_withLink
  | writeStatus => cases wel <;> rfl
  | eeWriteData => exact congrArg (Prod.mk noData) eeWriteByte_withLink
  | ramWriteData => exact congrArg (Prod.mk noData) ramWriteByte_withLink
  | unlockKey => exact congrArg (fun r : Rtc => (noData, { r with cmd := .done })) unlockStep_withLink
  | _ => rfl

/-- No RTC command touches the link. -/
theorem Rtc.onNextByte_link {r : Rtc} {t : HostTime} : (r.onNextByte t v).2.link = r.link :=
  congrArg (fun y => y.2.link) (onNextByte_withLink (l := r.link))

/-- The EEPROM as a device on the link. -/
def eepromDevice : LinkDevice Eeprom where
  link := Eeprom.link
  setLink := Eeprom.withLink
  onNextByte := Eeprom.onNextByte
  write := Eeprom.writeState
  link_setLink _ _ := rfl
  setLink_setLink _ _ _ := rfl
  onNextByte_setLink _ _ _ := Eeprom.onNextByte_withLink
  write_shift h := by rw [Eeprom.writeState, h]; rfl
  write_byte h := by
    rw [Eeprom.writeState, h]
    simp only [Eeprom.respond, Link.load_record, Eeprom.onNextByte_link]
    rfl

/-- The RTC as a device on the link, at the wall clock `t`. -/
def rtcDevice (t : HostTime) : LinkDevice Rtc where
  link := Rtc.link
  setLink := Rtc.withLink
  onNextByte r := r.onNextByte t
  write r := r.writeState t
  link_setLink _ _ := rfl
  setLink_setLink _ _ _ := rfl
  onNextByte_setLink _ _ _ := Rtc.onNextByte_withLink
  write_shift h := by rw [Rtc.writeState, h]; rfl
  write_byte h := by
    rw [Rtc.writeState, h]
    simp only [Rtc.respond, Link.load_record, Rtc.onNextByte_link]
    rfl

/-! ### `WriteState` and `ReadState` -/

theorem exec_writeState_eeprom {e : Eeprom} (h : eepromDevice.write s.eeprom ce clk b = e) :
    exec (.serialWriteState .eeprom ce clk b) s = .next ({ s with eeprom := e }.answer .none) := by
  subst h; rfl

theorem exec_writeState_rtc {r : Rtc} (h : (rtcDevice s.clock).write s.rtc ce clk b = r) :
    exec (.serialWriteState .rtc ce clk b) s = .next ({ s with rtc := r }.answer .none) := by
  subst h; rfl

theorem Link.shiftIn_eq :
    l.shiftIn b = { l with inShift := (l.inShift <<< 1) ||| (if b then 1#8 else 0#8) } := by cases b <;> rfl

/-- A deselection ends the transaction, and with it an issued write's enable; the link keeps the clock level (R241, R253). -/
theorem Eeprom.writeState_deselect {e : Eeprom} (h : e.link.ce = true) :
    e.writeState false clk b = { e with
      link := { Link.initial with clk := clk }, cmd := .idle, writeIssued := false, wel := e.wel && !e.writeIssued } := by
  rw [writeState, Link.event_deselect h]
  cases hw : e.writeIssued <;> simp [deselect, endOfTransaction, hw, Link.clear, Link.record, Link.initial]

theorem Rtc.writeState_deselect {r : Rtc} {t : HostTime} (h : r.link.ce = true) :
    r.writeState t false clk b = { r with
      link := { Link.initial with clk := clk }, cmd := .idle, writeIssued := false, wel := r.wel && !r.writeIssued } := by
  rw [writeState, Link.event_deselect h]
  cases hw : r.writeIssued <;> simp [deselect, endOfTransaction, hw, Link.clear, Link.record, Link.initial]

/-- Settles O35: the deselections device by device, the other patterns of levels as on any `LinkDevice`. -/
theorem serialBitLayer : Obligations.SerialBitLayer := by
  intro s ce clk d
  refine ⟨?eeDeselect, ?rtcDeselect, ?eeRise, ?rtcRise, ?eeFall, ?rtcFall, ?eeByte, ?rtcByte,
    fun h => exec_writeState_eeprom (LinkDevice.write_noEdge h), fun h => exec_writeState_rtc (LinkDevice.write_noEdge h),
    rfl, rfl⟩
  case eeDeselect => rintro rfl h; exact exec_writeState_eeprom (Eeprom.writeState_deselect h)
  case rtcDeselect => rintro rfl h; exact exec_writeState_rtc (Rtc.writeState_deselect h)
  case eeRise => rintro rfl rfl h; rw [exec_writeState_eeprom (LinkDevice.write_rise h), Link.shiftIn_eq]; rfl
  case rtcRise => rintro rfl rfl h; rw [exec_writeState_rtc (LinkDevice.write_rise h), Link.shiftIn_eq]; rfl
  case eeFall => rintro rfl rfl h hb; exact exec_writeState_eeprom (LinkDevice.write_fall h hb)
  case rtcFall => rintro rfl rfl h hb; exact exec_writeState_rtc (LinkDevice.write_fall h hb)
  case eeByte => rintro rfl rfl h hb; exact exec_writeState_eeprom (LinkDevice.write_lastFall h hb)
  case rtcByte => rintro rfl rfl h hb; exact exec_writeState_rtc (LinkDevice.write_lastFall h hb)

/-! ### A byte each way -/

namespace LinkDevice

variable {δ : Type} {d : LinkDevice δ} {x : δ}

/-- `SPI v` from between two bytes hands over `v`, whatever the input shift register held. -/
theorem spi_eq_completed (h : (d.link x).betweenBytes) : d.clockBits v x 8 = d.completed x v := by
  obtain ⟨-, hclk, hcount⟩ := h
  rw [clockBits_eq_completed hclk (by rw [hcount]; rfl), pushBits_eight]

/-- `SPIR` after a response reads it, and clocks in 0xFF. -/
theorem spir_eq (h : d.link x = l.after resp) : d.readBits (0x00#8, x) 8 = (resp, d.clockBits 0xFF#8 x 8) := by
  rw [readBits_of_sends (h ▸ Link.after_sends), pushBits_eight]

end LinkDevice

/-- The EEPROM's `SPI` hands over one byte. -/
theorem Eeprom.spi_eq {e : Eeprom} (h : e.link.betweenBytes) :
    e.spi v = { (e.onNextByte v).2 with link := { e.link with inShift := v }.after (e.onNextByte v).1 } :=
  LinkDevice.spi_eq_completed (d := eepromDevice) h

theorem Eeprom.spir_eq {e : Eeprom} (h : e.link = l.after resp) : e.spir = (resp, e.spi 0xFF#8) :=
  LinkDevice.spir_eq (d := eepromDevice) h

/-- Settles O36: both are the transfer on a `LinkDevice`. -/
theorem byteTransfer : Obligations.ByteTransfer :=
  ⟨fun _ _ => Eeprom.spi_eq, fun _ t _ => LinkDevice.spi_eq_completed (d := rtcDevice t), fun _ _ _ => Eeprom.spir_eq,
    fun _ t _ _ => LinkDevice.spir_eq (d := rtcDevice t)⟩

end Sys2Proof.Machine

/-! PROOFS. The EEPROM's commands (43_serial_eeprom.md R250 to R262, R268): what a byte does in each state of the interpreter,
and from it the rows and the status scenario. -/

namespace Sys2Proof.Machine

variable {s : State} {e e' : Eeprom} {l : Link} {b op v resp : Byte}

/-! ### The interpreter, by its state (R251) -/

theorem Eeprom.onNextByte_idle (h : e.cmd = .idle) : e.onNextByte b = e.opcode b := by rw [onNextByte, h]

theorem Eeprom.onNextByte_readStatus (h : e.cmd = .readStatus) : e.onNextByte b = (e.status, e) := by
  rw [onNextByte, h]

theorem Eeprom.onNextByte_writeStatus (h : e.cmd = .writeStatus) :
    e.onNextByte b = (noData, { e.writeStatus b with cmd := .done }) := by rw [onNextByte, h]

theorem Eeprom.onNextByte_readAddr (h : e.cmd = .readAddr) :
    e.onNextByte b = (e.byteAt b, { e with addr := b + 1, cmd := .readData }) := by rw [onNextByte, h]; rfl

theorem Eeprom.onNextByte_readData (h : e.cmd = .readData) :
    e.onNextByte b = (e.byteAt e.addr, { e with addr := e.addr + 1 }) := by
  simp only [onNextByte, h, readNext]

theorem Eeprom.onNextByte_writeAddr (h : e.cmd = .writeAddr) :
    e.onNextByte b = (noData, { e with addr := b, cmd := .writeData }) := by rw [onNextByte, h]

theorem Eeprom.onNextByte_writeData (h : e.cmd = .writeData) : e.onNextByte b = (noData, e.writeByte b) := by
  rw [onNextByte, h]

theorem Eeprom.onNextByte_done (h : e.cmd = .done) : e.onNextByte b = (noData, e) := by rw [onNextByte, h]

/-- An opcode outside the map (R262). -/
theorem Eeprom.opcode_of_unlisted (h : op = 0x00#8 ∨ 0x07#8 ≤ op) : e.opcode op = e.unknownOp := by
  have hne : ∀ w : Byte, 0x00#8 < w → w < 0x07#8 → op ≠ w := by
    rintro w h0 h7 rfl
    rcases h with rfl | h
    · exact absurd h0 (by decide)
    · exact absurd h (BitVec.not_le.2 h7)
  simp [opcode, hne]

/-! ### Fields of a byte -/

theorem statusByte_eq {bp : BitVec 2} {wel : Bool} :
    statusByte bp wel = (bp.setWidth 8 <<< 2) ||| (if wel then 0x02#8 else 0x00#8) := by cases wel <;> rfl

theorem statusBp_eq : statusBp v = ((v >>> 2) &&& 3#8).setWidth 2 := by
  unfold statusBp
  ext i hi
  interval_cases i <;> simp

/-- The protect field of a status byte written and read back (R268). -/
theorem statusByte_statusBp : statusByte (statusBp v) false = v &&& 0x0C#8 := by
  unfold statusBp statusByte
  ext i hi
  interval_cases i <;> simp

theorem isProtected_iff {bp : BitVec 2} {a : Byte} :
    isProtected bp a = true ↔ (bp = 1#2 ∧ 0xC0 ≤ a.toNat) ∨ (bp = 2#2 ∧ 0x80 ≤ a.toNat) ∨ bp = 3#2 := by
  obtain rfl | rfl | rfl | rfl : bp = 0#2 ∨ bp = 1#2 ∨ bp = 2#2 ∨ bp = 3#2 := by revert bp; decide
  all_goals simp [isProtected]

/-- A 16-byte page is the high nibble of its addresses (R252). -/
theorem pageAdvance_eepromPage {a : Byte} : pageAdvance eepromPage a = (a &&& 0xF0#8) ||| ((a + 1) &&& 0x0F#8) := by
  revert a
  decide

theorem ofNat_succ_mod {a : Byte} : BitVec.ofNat 8 ((a.toNat + 1) % 256) = a + 1 :=
  BitVec.eq_of_toNat_eq (by simp)

/-! ### Data bytes -/

/-- A data byte that is stored (R261). -/
theorem Eeprom.writeByte_of_open (hw : e.wel = true) (hp : isProtected e.bp e.addr = false) :
    e.writeByte b = { e with mem := Memory.write Space.eepromMem.fill e.mem e.addr.toNat b, writeIssued := true
                             addr := pageAdvance eepromPage e.addr } := by
  simp [writeByte, hw, hp]

/-- A data byte that is skipped (R261). -/
theorem Eeprom.writeByte_of_guarded (h : e.wel = false ∨ isProtected e.bp e.addr = true) :
    e.writeByte b = { e with addr := pageAdvance eepromPage e.addr } := by
  rw [writeByte, if_neg]
  rcases h with h | h <;> simp [h]

theorem Eeprom.writeStatus_of_wel (h : e.wel = true) : e.writeStatus v = { e with bp := statusBp v, writeIssued := true } :=
  if_pos h

theorem Eeprom.writeStatus_of_not_wel (h : e.wel = false) : e.writeStatus v = e := if_neg (by simp [h])

/-! ### The rows -/

/-- The last falling edge of a byte hands it to the interpreter and loads the answer (R240). -/
theorem execSerialWriteState_lastEdge (h : s.eeprom.link.lastEdge b) (hn : s.eeprom.onNextByte b = (resp, e')) :
    execSerialWriteState .eeprom true false false s =
      .next ({ s with eeprom := { e' with link := s.eeprom.link.after resp } }.answer .none) := by
  obtain ⟨hclk, hcount, rfl⟩ := h
  have hbyte : s.eeprom.writeState true false false = (s.eeprom.onNextByte s.eeprom.link.inShift).2.withLink
      (s.eeprom.link.after (s.eeprom.onNextByte s.eeprom.link.inShift).1) :=
    LinkDevice.write_lastFall (d := eepromDevice) hclk hcount
  rw [hn] at hbyte
  exact exec_writeState_eeprom hbyte

/-- The first byte of a transaction is an opcode. -/
theorem execSerialWriteState_opcode (h : s.eeprom.link.lastEdge op) (hi : s.eeprom.cmd = .idle)
    (ho : s.eeprom.opcode op = (resp, e')) :
    execSerialWriteState .eeprom true false false s =
      .next ({ s with eeprom := { e' with link := s.eeprom.link.after resp } }.answer .none) :=
  execSerialWriteState_lastEdge h ((Eeprom.onNextByte_idle hi).trans ho)

/-- Settles O37: each row is its opcode byte's WriteState call, and a byte after it finds the interpreter done. -/
theorem eeLatchRows : Obligations.EeLatchRows := by
  intro s op h
  refine ⟨?wren, ?wrdi, ?unknown, ?done⟩
  case wren => rintro hi rfl; exact execEeWren_eq.trans (execSerialWriteState_opcode h hi rfl)
  case wrdi => rintro hi rfl; exact execEeWrdi_eq.trans (execSerialWriteState_opcode h hi rfl)
  case unknown =>
    intro hi hop
    exact execEeUnknown_eq.trans (execSerialWriteState_opcode h hi (Eeprom.opcode_of_unlisted hop))
  case done => intro hc; exact execSerialWriteState_lastEdge h (Eeprom.onNextByte_done hc)

/-- Settles O38: the two opcode bytes, and the byte after each with the latch set and clear. -/
theorem eeStatusRows : Obligations.EeStatusRows := by
  intro s b h
  refine ⟨?rdsr, ?again, ?wrsr, ?write, ?ignored⟩
  case rdsr =>
    rintro hi rfl
    rw [← statusByte_eq]
    exact execEeRdsr_eq.trans (execSerialWriteState_opcode h hi rfl)
  case again =>
    intro hc
    rw [← statusByte_eq]
    exact execSerialWriteState_lastEdge h (Eeprom.onNextByte_readStatus hc)
  case wrsr => rintro hi rfl; exact execEeWrsr_eq.trans (execSerialWriteState_opcode h hi rfl)
  case write =>
    intro hc hw
    rw [← statusBp_eq]
    exact execSerialWriteState_lastEdge h
      ((Eeprom.onNextByte_writeStatus hc).trans (by rw [Eeprom.writeStatus_of_wel hw]))
  case ignored =>
    intro hc hw
    exact execSerialWriteState_lastEdge h
      ((Eeprom.onNextByte_writeStatus hc).trans (by rw [Eeprom.writeStatus_of_not_wel hw]))

/-- Settles O39: the bytes of a READ transaction in turn. -/
theorem eeReadRows : Obligations.EeReadRows := by
  intro s b h
  refine ⟨?read, ?address, ?data⟩
  case read => rintro hi rfl; exact execEeRead_eq.trans (execSerialWriteState_opcode h hi rfl)
  case address =>
    intro hc
    rw [ofNat_succ_mod]
    exact execSerialWriteState_lastEdge h (Eeprom.onNextByte_readAddr hc)
  case data =>
    intro hc
    rw [ofNat_succ_mod]
    exact execSerialWriteState_lastEdge h (Eeprom.onNextByte_readData hc)

/-- Settles O40: the bytes of a WRITE transaction in turn; a data byte by the latch and the protection of its address. -/
theorem eeWriteRows : Obligations.EeWriteRows := by
  intro s b h hmem
  refine ⟨?write, ?address, ?stored, ?skipped⟩
  case write => rintro hi rfl; exact execEeWrite_eq.trans (execSerialWriteState_opcode h hi rfl)
  case address => intro hc; exact execSerialWriteState_lastEdge h (Eeprom.onNextByte_writeAddr hc)
  case stored =>
    intro hc hw hp
    have hopen : isProtected s.eeprom.bp s.eeprom.addr = false := Bool.eq_false_iff.2 (mt isProtected_iff.1 hp)
    refine ⟨_, Memory.wf_write hmem, fun _ => Memory.read_write hmem, ?_⟩
    rw [← pageAdvance_eepromPage]
    exact execSerialWriteState_lastEdge h
      ((Eeprom.onNextByte_writeData hc).trans (by rw [Eeprom.writeByte_of_open hw hopen]))
  case skipped =>
    intro hc hg
    rw [← pageAdvance_eepromPage]
    exact execSerialWriteState_lastEdge h
      ((Eeprom.onNextByte_writeData hc).trans (by rw [Eeprom.writeByte_of_guarded (hg.imp_right isProtected_iff.2)]))

/-! ### Transactions (R268) -/

/-- An EEPROM between transactions, its link as after creation. -/
structure Eeprom.Ready (e : Eeprom) : Prop where
  link : e.link = Link.initial
  idle : e.cmd = .idle
  clean : e.writeIssued = false

/-- A sound EEPROM that is deselected with the clock low is ready. -/
theorem Eeprom.Sound.ready (h : e.Sound) (hce : e.link.ce = false) (hclk : e.link.clk = false) : e.Ready := by
  have hidle := h.deselected hce
  obtain ⟨hcount, hin, hout, hbit⟩ := h.link hce
  refine ⟨?_, hidle, h.idleClean hidle⟩
  cases hl : e.link
  simp_all [Link.initial]

theorem Link.after_betweenBytes : (l.after resp).betweenBytes := ⟨rfl, rfl, rfl⟩

/-- A byte of a transaction. -/
theorem Eeprom.spi_withLink (h : l.betweenBytes) :
    (e.withLink l).spi v = (e.onNextByte v).2.withLink ({ l with inShift := v }.after (e.onNextByte v).1) := by
  rw [spi_eq h, onNextByte_withLink]
  rfl

/-- The first byte of a transaction. -/
theorem Eeprom.Ready.spi_select (h : e.Ready) :
    ∃ l : Link, e.select.spi op = (e.opcode op).2.withLink (l.after (e.opcode op).1) := by
  have hlow : e.link.clk = false := by rw [h.link]; rfl
  have hsel : e.select = e.withLink (e.link.record true false) :=
    LinkDevice.write_noEdge (d := eepromDevice) (.inr ⟨rfl, hlow.symm⟩)
  rw [hsel, h.link, spi_withLink ⟨rfl, rfl, rfl⟩, onNextByte_idle h.idle]
  exact ⟨_, rfl⟩

/-- The end of a transaction. -/
theorem Eeprom.unselect_withLink :
    (e.withLink (l.after resp)).unselect =
      { e with link := Link.initial, cmd := .idle, writeIssued := false, wel := e.wel && !e.writeIssued } :=
  writeState_deselect rfl

/-- A WREN transaction (R256). -/
theorem Eeprom.Ready.wren_transaction (h : e.Ready) : (e.select.spi 0x06#8).unselect = { e with wel := true } := by
  obtain ⟨l, hop⟩ := h.spi_select (op := 0x06#8)
  rw [hop, unselect_withLink, show e.opcode 0x06#8 = e.wren from rfl]
  simp [Eeprom.wren, h.link, h.idle, h.clean]

/-- A WRSR transaction: the latch is needed, and clear afterwards (R253, R259). -/
theorem Eeprom.Ready.wrsr_transaction (h : e.Ready) :
    ((e.select.spi 0x01#8).spi v).unselect = { e with bp := if e.wel then statusBp v else e.bp, wel := false } := by
  obtain ⟨l, hop⟩ := h.spi_select (op := 0x01#8)
  rw [hop, spi_withLink Link.after_betweenBytes, unselect_withLink, show e.opcode 0x01#8 = e.wrsr from rfl,
    onNextByte_writeStatus rfl]
  cases hw : e.wel <;> simp [wrsr, writeStatus, hw, h.link, h.idle, h.clean]

/-- An RDSR transaction reads the status register (R258). -/
theorem Eeprom.Ready.rdsr_transaction (h : e.Ready) : ((e.select.spi 0x05#8).spir).1 = e.status := by
  obtain ⟨l, hop⟩ := h.spi_select (op := 0x05#8)
  rw [hop, spir_eq (l := l) rfl]
  rfl

/-- Settles O41: the transactions of the scenario one after the other, each from a ready EEPROM. -/
theorem eeStatusScenario : Obligations.EeStatusScenario := by
  intro e v hs hce hclk
  have h := hs.ready hce hclk
  refine ⟨?enabled, fun hw => ?disabled⟩
  case enabled =>
    have hwren : Eeprom.Ready { e with wel := true } := { h with }
    have hwrsr : Eeprom.Ready { e with bp := statusBp v, wel := false } := { h with }
    dsimp only
    rw [h.wren_transaction, hwren.wrsr_transaction]
    exact hwrsr.rdsr_transaction.trans statusByte_statusBp
  case disabled =>
    have hwrsr : Eeprom.Ready { e with wel := false } := { h with }
    dsimp only
    rw [h.wrsr_transaction, hw]
    exact hwrsr.rdsr_transaction.trans (statusByte_eq.trans (BitVec.or_zero ..))

end Sys2Proof.Machine

/-! PROOFS. `Load`, `Save` and `ColdReset` of the serial devices (43_serial_eeprom.md R265 to R267, 44_serial_rtc.md R315 to
R317): saving gives back the bytes loaded, and loading the bytes saved of a sound device is the device itself. -/

namespace Sys2Proof.Machine

variable {s : State} {e : Eeprom} {r : Rtc} {fill dflt : Byte} {m : Memory} {l mem ram ee id : List Byte} {bp : BitVec 2}
  {i n : Nat}

/-! ### Saved bytes -/

theorem Memory.length_toBytes : (Memory.toBytes fill m n).length = n := by simp [Memory.toBytes]

theorem Memory.getD_toBytes (h : i < n) : (Memory.toBytes fill m n).getD i dflt = Memory.read fill m i := by
  simp [Memory.toBytes, List.getD_eq_getElem?_getD, h]

theorem Memory.toBytes_ofBytes_of_length (h : l.length = n) : Memory.toBytes fill (Memory.ofBytes fill l) n = l :=
  h ▸ Memory.toBytes_ofBytes

/-! ### The calls -/

theorem execEeLoad_of_length (h : mem.length = eepromSize) :
    execEeLoad mem bp s = .next ({ s with eeprom := s.eeprom.load mem bp }.answer .none) := if_neg (not_not.2 h)

theorem execRtcLoad_of_length (hram : ram.length = rtcRamSize) (hee : ee.length = rtcEeSize) (hid : id.length = rtcIdSize) :
    execRtcLoad ram ee id bp s = .next ({ s with rtc := s.rtc.load ram ee id bp }.answer .none) :=
  if_neg (by simp [hram, hee, hid])

theorem Eeprom.bytes_load (h : mem.length = eepromSize) : (e.load mem bp).bytes = mem :=
  Memory.toBytes_ofBytes_of_length h

theorem Eeprom.Sound.load_bytes (h : e.Sound) : e.load e.bytes e.bp = e := by
  rw [Eeprom.load, Eeprom.bytes, Memory.ofBytes_toBytes h.memory]

theorem Rtc.image_load (hram : ram.length = rtcRamSize) (hee : ee.length = rtcEeSize) (hid : id.length = rtcIdSize) :
    (r.load ram ee id bp).image = .rtcImage ram ee id bp := by
  simp only [Rtc.image, Rtc.load, Memory.toBytes_ofBytes_of_length hram, Memory.toBytes_ofBytes_of_length hee,
    Memory.toBytes_ofBytes_of_length hid]

theorem Rtc.Sound.load_image (h : r.Sound) (hi : r.image = .rtcImage ram ee id bp) : r.load ram ee id bp = r := by
  cases hi
  rw [Rtc.load, Memory.ofBytes_toBytes h.ram, Memory.ofBytes_toBytes h.ee, Memory.ofBytes_toBytes h.id]

theorem Eeprom.length_bytes : e.bytes.length = eepromSize := Memory.length_toBytes

/-- Loading what was saved changes nothing (R265, R266). -/
theorem execEeLoad_bytes (h : s.eeprom.Sound) : execEeLoad s.eeprom.bytes s.eeprom.bp s = .next (s.answer .none) := by
  rw [execEeLoad_of_length Eeprom.length_bytes, h.load_bytes]

/-- The same on the RTC (R315, R316). -/
theorem execRtcLoad_image (h : s.rtc.Sound) (hi : s.rtc.image = .rtcImage ram ee id bp) :
    execRtcLoad ram ee id bp s = .next (s.answer .none) := by
  have hload := h.load_image hi
  cases hi
  rw [execRtcLoad_of_length Memory.length_toBytes Memory.length_toBytes Memory.length_toBytes, hload]

/-- Settles O49: each array is saved as its first bytes, and the memory of an array is canonical, so `Save` undoes `Load` and,
on a sound device, `Load` undoes `Save`. -/
theorem serialLoadSave : Obligations.SerialLoadSave := by
  refine ⟨fun s mem bp => ⟨?eeLoad, fun h => if_pos h⟩, fun s ram ee id bp => ⟨?rtcLoad, fun h => if_pos h⟩,
    fun s => ?eeSave, fun s => ?rtcSave⟩
  case eeLoad =>
    intro h
    refine ⟨_, execEeLoad_of_length h, ?_⟩
    exact congrArg (fun x => Host.Outcome.next (State.answer _ (.eeImage x bp))) (Eeprom.bytes_load (bp := bp) h)
  case rtcLoad =>
    intro hram hee hid
    refine ⟨_, _, _, execRtcLoad_of_length hram hee hid, ?_⟩
    exact congrArg (fun x => Host.Outcome.next (State.answer _ x)) (Rtc.image_load hram hee hid)
  case eeSave =>
    exact ⟨s.eeprom.bytes, Eeprom.length_bytes, fun i hi => Memory.getD_toBytes hi, rfl, execEeLoad_bytes⟩
  case rtcSave =>
    exact ⟨_, _, _, Memory.length_toBytes, Memory.length_toBytes, Memory.length_toBytes,
      fun i hi => Memory.getD_toBytes hi, fun i hi => Memory.getD_toBytes hi, fun i hi => Memory.getD_toBytes hi, rfl,
      fun h => execRtcLoad_image h rfl⟩

/-! ### Cold reset -/

/-- Settles O50: a cold reset sets its fields to values that do not depend on the state. -/
theorem serialColdReset : Obligations.SerialColdReset := fun _ => ⟨rfl, rfl, rfl, rfl⟩

end Sys2Proof.Machine

/-! PROOFS. The RTC's commands (44_serial_rtc.md R290 to R314): what a byte does in each state of the interpreter, and from
it the rows. -/

namespace Sys2Proof.Machine

variable {s : State} {r r' : Rtc} {t : HostTime} {a b op k v resp : Byte} {x y : Nat}
  {l : List (Nat × (Byte → Byte))}

/-! ### The interpreter, by its state (R293) -/

theorem Rtc.onNextByte_idle (h : r.cmd = .idle) : r.onNextByte t b = r.opcode b := by rw [onNextByte, h]

theorem Rtc.onNextByte_readStatus (h : r.cmd = .readStatus) : r.onNextByte t b = (r.status, r) := by
  rw [onNextByte, h]

theorem Rtc.onNextByte_writeStatus (h : r.cmd = .writeStatus) :
    r.onNextByte t b = (noData, { r.writeStatus b with cmd := .done }) := by rw [onNextByte, h]

theorem Rtc.onNextByte_eeReadAddr (h : r.cmd = .eeReadAddr) :
    r.onNextByte t b =
      (Memory.read Space.rtcEe.fill r.ee b.toNat, { r with addr := b + 1, cmd := .eeReadData }) := by
  rw [onNextByte, h]; rfl

theorem Rtc.onNextByte_eeReadData (h : r.cmd = .eeReadData) :
    r.onNextByte t b =
      (Memory.read Space.rtcEe.fill r.ee r.addr.toNat, { r with addr := r.addr + 1, cmd := .eeReadData }) := by
  simp only [onNextByte, h, eeNext]

theorem Rtc.onNextByte_eeWriteAddr (h : r.cmd = .eeWriteAddr) :
    r.onNextByte t b = (noData, { r with addr := b, cmd := .eeWriteData }) := by rw [onNextByte, h]

theorem Rtc.onNextByte_eeWriteData (h : r.cmd = .eeWriteData) : r.onNextByte t b = (noData, r.eeWriteByte b) := by
  rw [onNextByte, h]

/-- The RAM is refreshed before the first data byte is chosen (R300). -/
theorem Rtc.onNextByte_ramReadAddr (h : r.cmd = .ramReadAddr) :
    r.onNextByte t b =
      (if b.toNat < rtcRamSize then (r.timeRefresh t).ramAt b.toNat else noData,
        { r with ram := (r.timeRefresh t).ram, addr := ramAdvance b, cmd := .ramReadData }) := by
  rw [onNextByte, h]; rfl

theorem Rtc.onNextByte_ramReadData (h : r.cmd = .ramReadData) : r.onNextByte t b = r.ramNext := by rw [onNextByte, h]

theorem Rtc.onNextByte_ramWriteAddr (h : r.cmd = .ramWriteAddr) :
    r.onNextByte t b = (noData, { r with addr := b, cmd := .ramWriteData }) := by rw [onNextByte, h]

theorem Rtc.onNextByte_ramWriteData (h : r.cmd = .ramWriteData) : r.onNextByte t b = (noData, r.ramWriteByte b) := by
  rw [onNextByte, h]

theorem Rtc.onNextByte_idReadAddr (h : r.cmd = .idReadAddr) :
    r.onNextByte t b = (Memory.read Space.rtcId.fill r.id (b &&& 0x0F#8).toNat,
      { r with addr := ((b &&& 0x0F#8) + 1) &&& 0x0F#8, cmd := .idReadData }) := by
  rw [onNextByte, h]; rfl

theorem Rtc.onNextByte_idReadData (h : r.cmd = .idReadData) :
    r.onNextByte t b = (Memory.read Space.rtcId.fill r.id r.addr.toNat,
      { r with addr := (r.addr + 1) &&& 0x0F#8, cmd := .idReadData }) := by
  simp only [onNextByte, h, idNext]

theorem Rtc.onNextByte_idWriteAddr (h : r.cmd = .idWriteAddr) :
    r.onNextByte t b = (noData, { r with addr := b &&& 0x0F#8, cmd := .idWriteData }) := by rw [onNextByte, h]

theorem Rtc.onNextByte_idWriteData (h : r.cmd = .idWriteData) : r.onNextByte t b = (noData, r.idWriteByte b) := by
  rw [onNextByte, h]

theorem Rtc.onNextByte_unlockKey (h : r.cmd = .unlockKey) :
    r.onNextByte t b = (noData, { r.unlockStep b with cmd := .done }) := by rw [onNextByte, h]

theorem Rtc.onNextByte_done (h : r.cmd = .done) : r.onNextByte t b = (noData, r) := by rw [onNextByte, h]

/-- An opcode outside the map (R314). -/
theorem Rtc.opcode_of_unlisted
    (h : op ∉ [0x03#8, 0x02#8, 0x04#8, 0x06#8, 0x05#8, 0x01#8, 0x13#8, 0x12#8, 0x14#8, 0x32#8, 0x33#8, 0x54#8]) :
    r.opcode op = r.enter .done := by
  simp only [List.mem_cons, List.not_mem_nil, or_false, not_or] at h
  simp [opcode, h]

/-! ### The calls -/

/-- The last falling edge of a byte hands it to the interpreter and loads the answer (R240, R290). -/
theorem execSerialWriteState_rtc_lastEdge (h : s.rtc.link.lastEdge b) (hn : s.rtc.onNextByte s.clock b = (resp, r')) :
    execSerialWriteState .rtc true false false s =
      .next ({ s with rtc := { r' with link := s.rtc.link.after resp } }.answer .none) := by
  obtain ⟨hclk, hcount, rfl⟩ := h
  have hbyte : s.rtc.writeState s.clock true false false =
      (s.rtc.onNextByte s.clock s.rtc.link.inShift).2.withLink
        (s.rtc.link.after (s.rtc.onNextByte s.clock s.rtc.link.inShift).1) :=
    LinkDevice.write_lastFall (d := rtcDevice s.clock) hclk hcount
  rw [hn] at hbyte
  exact exec_writeState_rtc hbyte

/-- The first byte of a transaction is an opcode. -/
theorem execSerialWriteState_rtc_opcode (h : s.rtc.link.lastEdge op) (hi : s.rtc.cmd = .idle)
    (ho : s.rtc.opcode op = (resp, r')) :
    execSerialWriteState .rtc true false false s =
      .next ({ s with rtc := { r' with link := s.rtc.link.after resp } }.answer .none) :=
  execSerialWriteState_rtc_lastEdge h ((Rtc.onNextByte_idle hi).trans ho)

/-! ### CLRRAM -/

/-- Settles O46: the clear of the 64 bytes from 0x20. -/
theorem rtcClrRamRow : Obligations.RtcClrRamRow := by
  intro s h hi
  refine ⟨Memory.clear s.rtc.ram 0x20 0x40, fun a => ?_, execRtcClrRam_eq.trans (execSerialWriteState_rtc_opcode h hi rfl)⟩
  have hrange : (0x20 ≤ a ∧ a < 0x20 + 0x40) ↔ 0x20 ≤ a ∧ a ≤ 0x5F := by omega
  rw [Memory.read_clear]
  simp only [hrange]

/-! ### The time refresh (R300) -/

/-- RAM register `x` changed by `f`. -/
def Rtc.modifyRam (r : Rtc) (x : Nat) (f : Byte → Byte) : Rtc := r.setRam x (f (r.ramAt x))

theorem Rtc.ramAt_modifyRam {f : Byte → Byte} (h : Memory.wf Space.rtcRam.fill r.ram) :
    (r.modifyRam x f).ramAt y = if y = x then f (r.ramAt x) else r.ramAt y := Memory.read_write h

theorem Rtc.wf_modifyRam {f : Byte → Byte} (h : Memory.wf Space.rtcRam.fill r.ram) :
    Memory.wf Space.rtcRam.fill (r.modifyRam x f).ram := Memory.wf_write h

/-- RAM registers changed one after the other. -/
def Rtc.modifyRams (r : Rtc) (l : List (Nat × (Byte → Byte))) : Rtc := l.foldl (fun r c => r.modifyRam c.1 c.2) r

theorem Rtc.modifyRams_cons {c : Nat × (Byte → Byte)} : r.modifyRams (c :: l) = (r.modifyRam c.1 c.2).modifyRams l := rfl

theorem Rtc.wf_modifyRams (h : Memory.wf Space.rtcRam.fill r.ram) :
    Memory.wf Space.rtcRam.fill (r.modifyRams l).ram := by
  induction l generalizing r with
  | nil => exact h
  | cons c l ih => exact ih (wf_modifyRam h)

theorem Rtc.ramAt_modifyRams_of_unlisted (h : Memory.wf Space.rtcRam.fill r.ram) (hx : x ∉ l.map Prod.fst) :
    (r.modifyRams l).ramAt x = r.ramAt x := by
  induction l generalizing r with
  | nil => rfl
  | cons c l ih =>
    obtain ⟨hne, hx⟩ := not_or.1 (mt List.mem_cons.2 hx)
    rw [modifyRams_cons, ih (wf_modifyRam h) hx, ramAt_modifyRam h, if_neg hne]

/-- Where no register is listed twice, each is changed by its own value before all the changes. -/
theorem Rtc.ramAt_modifyRams_of_listed (h : Memory.wf Space.rtcRam.fill r.ram) (hl : (l.map Prod.fst).Nodup) :
    ∀ c ∈ l, (r.modifyRams l).ramAt c.1 = c.2 (r.ramAt c.1) := by
  induction l generalizing r with
  | nil => exact nofun
  | cons d l ih =>
    obtain ⟨hd, hl⟩ := List.nodup_cons.1 hl
    refine List.forall_mem_cons.2 ⟨?first, fun c hc => ?later⟩
    case first => rw [modifyRams_cons, ramAt_modifyRams_of_unlisted (wf_modifyRam h) hd, ramAt_modifyRam h, if_pos rfl]
    case later =>
      have hne : c.1 ≠ d.1 := fun he => hd (he ▸ List.mem_map_of_mem hc)
      rw [modifyRams_cons, ih (wf_modifyRam h) hl c hc, ramAt_modifyRam h, if_neg hne]

/-- The seven time registers, and how the refresh changes each: the clock's field, with the control bits kept (R47, R300). -/
def timeFields (t : HostTime) : List (Nat × (Byte → Byte)) :=
  [(1, fun v => (v &&& 0x80#8) ||| bcd t.sec),
   (2, fun v => (v &&& 0x80#8) ||| bcd t.min),
   (3, fun v => (v &&& 0x80#8) ||| bcd t.hour),
   (4, fun v => (v &&& 0xF8#8) ||| BitVec.ofNat 8 (t.wday + 1)),
   (5, fun v => (v &&& 0xC0#8) ||| bcd t.day),
   (6, fun v => (v &&& 0xC0#8) ||| (leapFlag t.year <<< 5) ||| bcd t.month),
   (7, fun _ => bcd (t.year % 100))]

theorem map_fst_timeFields : (timeFields t).map Prod.fst = [1, 2, 3, 4, 5, 6, 7] := rfl

/-- Each write of the refresh takes the control bits from the register it writes (R300). -/
theorem Rtc.timeRefresh_eq : r.timeRefresh t = r.modifyRams (timeFields t) := rfl

theorem Rtc.wf_timeRefresh (h : Memory.wf Space.rtcRam.fill r.ram) :
    Memory.wf Space.rtcRam.fill (r.timeRefresh t).ram := timeRefresh_eq ▸ wf_modifyRams h

/-- The registers of the refresh are different ones, so each keeps the control bits it had before it. -/
theorem Rtc.ramAt_timeRefresh_of_listed (h : Memory.wf Space.rtcRam.fill r.ram) :
    ∀ c ∈ timeFields t, (r.timeRefresh t).ramAt c.1 = c.2 (r.ramAt c.1) :=
  timeRefresh_eq ▸ ramAt_modifyRams_of_listed h (by rw [map_fst_timeFields]; decide)

theorem Rtc.ramAt_timeRefresh_of_other (h : Memory.wf Space.rtcRam.fill r.ram) (hx : x = 0 ∨ 7 < x) :
    (r.timeRefresh t).ramAt x = r.ramAt x := by
  rw [timeRefresh_eq]
  refine ramAt_modifyRams_of_unlisted h ?_
  simp only [map_fst_timeFields, List.mem_cons, List.not_mem_nil, or_false]
  omega

theorem bcd_eq {n : Nat} : bcd n = BitVec.ofNat 8 (16 * (n / 10) + n % 10) := by rw [bcd, Nat.mul_comm]

theorem leapFlag_shiftLeft {year : Nat} :
    leapFlag year <<< 5 = if year % 100 % 4 = 0 then 0x20#8 else 0x00#8 := by
  unfold leapFlag
  split <;> rfl

/-- Settles O47: each time register by itself, the others together, and the byte's WriteState call. -/
theorem rtcTimeRefresh : Obligations.RtcTimeRefresh := by
  intro s b h hc hram _ _ _ _ _ _
  have hfields := Rtc.ramAt_timeRefresh_of_listed (t := s.clock) hram
  simp only [timeFields, List.forall_mem_cons] at hfields
  obtain ⟨hsec, hmin, hhour, hwday, hday, hmonth, hyear, -⟩ := hfields
  simp only [← bcd_eq, ← leapFlag_shiftLeft]
  exact ⟨(s.rtc.timeRefresh s.clock).ram, Rtc.wf_timeRefresh hram, hsec, hmin, hhour, hwday, hday, hmonth, hyear,
    fun x => Rtc.ramAt_timeRefresh_of_other hram, execSerialWriteState_rtc_lastEdge h (Rtc.onNextByte_ramReadAddr hc)⟩

/-! ### Data bytes (R294, R295) -/

theorem Rtc.ramWriteByte_of_lt (h : r.addr.toNat < rtcRamSize) :
    r.ramWriteByte b = { r with ram := Memory.write Space.rtcRam.fill r.ram r.addr.toNat b, addr := ramAdvance r.addr } := by
  rw [ramWriteByte, if_pos h]; rfl

theorem Rtc.ramWriteByte_of_le (h : rtcRamSize ≤ r.addr.toNat) :
    r.ramWriteByte b = { r with addr := ramAdvance r.addr } := by
  rw [ramWriteByte, if_neg (Nat.not_lt.2 h)]

/-- An EEPROM data byte that is stored (R295). -/
theorem Rtc.eeWriteByte_of_open (hw : r.wel = true) (hp : isProtected r.bp r.addr = false) :
    r.eeWriteByte b = { r with ee := Memory.write Space.rtcEe.fill r.ee r.addr.toNat b, writeIssued := true
                               addr := pageAdvance rtcEePage r.addr } := by
  simp [eeWriteByte, hw, hp]

/-- An EEPROM data byte that is skipped (R295). -/
theorem Rtc.eeWriteByte_of_guarded (h : r.wel = false ∨ isProtected r.bp r.addr = true) :
    r.eeWriteByte b = { r with addr := pageAdvance rtcEePage r.addr } := by
  rw [eeWriteByte, if_neg]
  rcases h with h | h <;> simp [h]

/-- An 8-byte page is the high five bits of its addresses (R295). -/
theorem pageAdvance_rtcEePage : pageAdvance rtcEePage a = (a &&& 0xF8#8) ||| ((a + 1) &&& 0x07#8) := by
  revert a
  decide

/-- Settles O48: a data byte of each kind, by what decides whether it is stored. -/
theorem rtcDataBytes : Obligations.RtcDataBytes := by
  intro s b h hram hee hid
  refine ⟨?ramRead, ?ramStored, ?ramIgnored, ?eeStored, ?eeSkipped, ?idStored⟩
  case ramRead => intro hc; exact execSerialWriteState_rtc_lastEdge h (Rtc.onNextByte_ramReadData hc)
  case ramStored =>
    intro hc ha
    have hnext := Rtc.onNextByte_ramWriteData (t := s.clock) (b := b) hc
    rw [Rtc.ramWriteByte_of_lt ha] at hnext
    exact ⟨_, fun _ => Memory.read_write hram, execSerialWriteState_rtc_lastEdge h hnext⟩
  case ramIgnored =>
    intro hc ha
    have hnext := Rtc.onNextByte_ramWriteData (t := s.clock) (b := b) hc
    rw [Rtc.ramWriteByte_of_le ha] at hnext
    exact execSerialWriteState_rtc_lastEdge h hnext
  case eeStored =>
    intro hc hw hp
    have hopen : isProtected s.rtc.bp s.rtc.addr = false := Bool.eq_false_iff.2 (mt isProtected_iff.1 hp)
    have hnext := Rtc.onNextByte_eeWriteData (t := s.clock) (b := b) hc
    rw [Rtc.eeWriteByte_of_open hw hopen, pageAdvance_rtcEePage] at hnext
    exact ⟨_, fun _ => Memory.read_write hee, execSerialWriteState_rtc_lastEdge h hnext⟩
  case eeSkipped =>
    intro hc hg
    have hnext := Rtc.onNextByte_eeWriteData (t := s.clock) (b := b) hc
    rw [Rtc.eeWriteByte_of_guarded (hg.imp_right isProtected_iff.2), pageAdvance_rtcEePage] at hnext
    exact execSerialWriteState_rtc_lastEdge h hnext
  case idStored =>
    intro hc
    exact ⟨_, fun _ => Memory.read_write hid, execSerialWriteState_rtc_lastEdge h (Rtc.onNextByte_idWriteData hc)⟩

/-! ### The latch rows -/

/-- Settles O42: each row is its opcode byte's WriteState call, and a byte after it finds the interpreter done. -/
theorem rtcLatchRows : Obligations.RtcLatchRows := by
  intro s op h
  refine ⟨?eeWrdi, ?eeWren, ?unknown, ?done⟩
  case eeWrdi => rintro hi rfl; exact execRtcEeWrdi_eq.trans (execSerialWriteState_rtc_opcode h hi rfl)
  case eeWren => rintro hi rfl; exact execRtcEeWren_eq.trans (execSerialWriteState_rtc_opcode h hi rfl)
  case unknown =>
    intro hi hop
    exact execRtcUnknown_eq.trans (execSerialWriteState_rtc_opcode h hi (Rtc.opcode_of_unlisted hop))
  case done => intro hc; exact execSerialWriteState_rtc_lastEdge h (Rtc.onNextByte_done hc)

/-! ### The addressed rows -/

/-- The ID address is the address byte modulo 16 (R311). -/
theorem toNat_and_idMask : (a &&& 0x0F#8).toNat = a.toNat % 16 := Nat.and_two_pow_sub_one_eq_mod a.toNat 4

theorem and_idMask : a &&& 0x0F#8 = BitVec.ofNat 8 (a.toNat % 16) := by
  rw [← toNat_and_idMask, BitVec.ofNat_toNat, BitVec.setWidth_eq]

/-- The ID address advances modulo 16 (R294). -/
theorem succ_and_idMask : (a + 1) &&& 0x0F#8 = BitVec.ofNat 8 ((a.toNat + 1) % 16) := by
  rw [and_idMask, BitVec.toNat_add]
  exact congrArg _ (Nat.mod_mod_of_dvd _ (by decide))

/-- Settles O43: the five opcode bytes, and the bytes after each in turn. -/
theorem rtcAddressRows : Obligations.RtcAddressRows := by
  intro s b h
  refine ⟨fun hi => ⟨?eeRead, ?eeWrite, ?ramRead, ?ramWrite, ?idRead⟩, ?eeReadAddr, ?eeReadData, ?idReadAddr, ?idReadData,
    fun hc => execSerialWriteState_rtc_lastEdge h (Rtc.onNextByte_eeWriteAddr hc),
    fun hc => execSerialWriteState_rtc_lastEdge h (Rtc.onNextByte_ramWriteAddr hc), ?idWriteAddr⟩
  case eeRead => rintro rfl; exact execRtcEeRead_eq.trans (execSerialWriteState_rtc_opcode h hi rfl)
  case eeWrite => rintro rfl; exact execRtcEeWrite_eq.trans (execSerialWriteState_rtc_opcode h hi rfl)
  case ramRead => rintro rfl; exact execRtcRead_eq.trans (execSerialWriteState_rtc_opcode h hi rfl)
  case ramWrite => rintro rfl; exact execRtcWrite_eq.trans (execSerialWriteState_rtc_opcode h hi rfl)
  case idRead => rintro rfl; exact execRtcIdRead_eq.trans (execSerialWriteState_rtc_opcode h hi rfl)
  case eeReadAddr =>
    intro hc
    rw [ofNat_succ_mod]
    exact execSerialWriteState_rtc_lastEdge h (Rtc.onNextByte_eeReadAddr hc)
  case eeReadData =>
    intro hc
    rw [ofNat_succ_mod]
    exact execSerialWriteState_rtc_lastEdge h (Rtc.onNextByte_eeReadData hc)
  case idReadAddr =>
    intro hc
    rw [← toNat_and_idMask, ← succ_and_idMask, toNat_and_idMask, ← and_idMask]
    exact execSerialWriteState_rtc_lastEdge h (Rtc.onNextByte_idReadAddr hc)
  case idReadData =>
    intro hc
    rw [← succ_and_idMask]
    exact execSerialWriteState_rtc_lastEdge h (Rtc.onNextByte_idReadData hc)
  case idWriteAddr =>
    intro hc
    rw [← and_idMask]
    exact execSerialWriteState_rtc_lastEdge h (Rtc.onNextByte_idWriteAddr hc)

/-! ### The status rows -/

theorem Rtc.writeStatus_of_wel (h : r.wel = true) : r.writeStatus v = { r with bp := statusBp v, writeIssued := true } :=
  if_pos h

theorem Rtc.writeStatus_of_not_wel (h : r.wel = false) : r.writeStatus v = r := if_neg (by simp [h])

/-- Settles O44: the two opcode bytes, and the byte after each with the latch set and clear. -/
theorem rtcStatusRows : Obligations.RtcStatusRows := by
  intro s b h
  refine ⟨?srRead, ?again, ?srWrite, ?write, ?ignored⟩
  case srRead =>
    rintro hi rfl
    rw [← statusByte_eq]
    exact execRtcSrRead_eq.trans (execSerialWriteState_rtc_opcode h hi rfl)
  case again =>
    intro hc
    rw [← statusByte_eq]
    exact execSerialWriteState_rtc_lastEdge h (Rtc.onNextByte_readStatus hc)
  case srWrite => rintro hi rfl; exact execRtcSrWrite_eq.trans (execSerialWriteState_rtc_opcode h hi rfl)
  case write =>
    intro hc hw
    rw [← statusBp_eq]
    exact execSerialWriteState_rtc_lastEdge h ((Rtc.onNextByte_writeStatus hc).trans (by rw [Rtc.writeStatus_of_wel hw]))
  case ignored =>
    intro hc hw
    exact execSerialWriteState_rtc_lastEdge h
      ((Rtc.onNextByte_writeStatus hc).trans (by rw [Rtc.writeStatus_of_not_wel hw]))

/-! ### The unlock rows -/

/-- A key byte changes the progress and nothing else (R309). -/
theorem Rtc.unlockStep_eq :
    r.unlockStep k = { r with
      unlock := if r.unlock = 0 ∧ k = 0x55#8 then 1 else if r.unlock = 1 ∧ k = 0xAA#8 then 2 else 0 } := by
  unfold unlockStep
  split_ifs <;> rfl

/-- IDWRITE after both keys with the latch set (R310). -/
theorem Rtc.idWriteOp_of_armed (hu : r.unlock = 2) (hw : r.wel = true) : r.idWriteOp = r.enter .idWriteAddr := by
  rw [idWriteOp, if_pos ⟨hu, hw⟩, enter]

/-- IDWRITE otherwise (R310). -/
theorem Rtc.idWriteOp_of_unarmed (h : r.unlock ≠ 2 ∨ r.wel = false) : r.idWriteOp = r.enter .done := by
  rw [idWriteOp, if_neg, enter]
  rintro ⟨hu, hw⟩
  rcases h with h | h
  · exact h hu
  · exact absurd (h.symm.trans hw) nofun

/-- Settles O45: the opcode byte of UNLOCK and its key, and IDWRITE armed and unarmed. -/
theorem rtcUnlockRows : Obligations.RtcUnlockRows := by
  intro s b h
  refine ⟨?unlock, ?key, ?armed, ?unarmed⟩
  case unlock => rintro hi rfl; exact execRtcUnlock_eq.trans (execSerialWriteState_rtc_opcode h hi rfl)
  case key =>
    intro hc
    exact execSerialWriteState_rtc_lastEdge h ((Rtc.onNextByte_unlockKey hc).trans (by rw [Rtc.unlockStep_eq]))
  case armed =>
    rintro hi rfl hu hw
    exact execRtcIdWrite_eq.trans (execSerialWriteState_rtc_opcode h hi (Rtc.idWriteOp_of_armed hu hw))
  case unarmed =>
    rintro hi rfl hx
    exact execRtcIdWrite_eq.trans (execSerialWriteState_rtc_opcode h hi (Rtc.idWriteOp_of_unarmed hx))

end Sys2Proof.Machine

/-! PROOFS. The layouts of the cartridges (45_bank_mapper.md R332, R336, R337, R340, R350, R360, R361): a window is disabled
or passed the check of R332, and over sources of a power of two of banks every bank passes it. -/

namespace Sys2Proof.Machine

variable {m : Mapper} {c : Chip} {d : Desc} {p : Params} {k : Nat}

/-! ### The check of R332 -/

theorem Mapper.checked_of_fits (hr : d.readSrc ≠ .none) (hb : m.fits d.readSrc d.base = true)
    (hw : m.fits d.writeDst d.writeBase = true) : m.checked d = d := if_pos ⟨hr, hb, hw⟩

theorem Mapper.fits_none {base : Nat} : m.fits .none base = true := fits_iff.2 (.inl rfl)

/-- R332 of a base: aligned, with the whole window inside the source. -/
def Mapper.Holds (m : Mapper) (src : Source) (base : Nat) : Prop :=
  base % 0x2000 = 0 ∧ (∀ k, src = .flash k → ∃ c, m.chips[k]? = some c ∧ base + 0x1FFF < c.profile.cap) ∧
    (src = .ram → base + 0x1FFF < m.ramSize)

/-- R332 and R337 of a window: disabled, or in both its sources. -/
def Mapper.Admits (m : Mapper) (d : Desc) : Prop :=
  (d.readSrc = .none → d.writeDst = .none ∧ d.base = 0) ∧ (d.readSrc ≠ .none → m.Holds d.readSrc d.base) ∧
    (d.writeDst ≠ .none → m.Holds d.writeDst d.writeBase)

theorem Mapper.holds_of_fits {src : Source} {base : Nat} (h : m.fits src base = true) (hs : src ≠ .none) :
    m.Holds src base := by
  obtain ⟨hin, hal⟩ := (fits_iff.1 h).resolve_left hs
  refine ⟨hal, ?chip, ?ram⟩
  case chip =>
    rintro k rfl
    obtain ⟨c, hc, hsize⟩ := sourceSize_pos (Nat.zero_lt_of_lt hin)
    exact ⟨c, hc, hsize ▸ hin⟩
  case ram =>
    rintro rfl
    exact hin

theorem Mapper.admits_disabled : m.Admits Desc.disabled :=
  ⟨fun _ => ⟨rfl, rfl⟩, fun h => absurd rfl h, fun h => absurd rfl h⟩

theorem Mapper.admits_checked : m.Admits (m.checked d) := by
  rcases m.checked_cases d with he | ⟨he, hr, hb, hw⟩
  · exact he ▸ admits_disabled
  · rw [he]
    exact ⟨fun h => absurd h hr, holds_of_fits hb, holds_of_fits hw⟩

theorem Mapper.admits_ite {P : Prop} [Decidable P] {d' : Desc} (h : m.Admits d) (h' : m.Admits d') :
    m.Admits (if P then d else d') := by
  split
  · exact h
  · exact h'

/-- Every window a mapper derives is a checked one, where its registers enable it. -/
theorem Mapper.admits_layout (w : Win) : m.Admits ((m.layout p).desc w) := by
  have hsic {q : SicMap} {f : FlagBit} {off : Nat} : m.Admits (m.sicWindow q f off) :=
    admits_ite admits_checked admits_disabled
  have hcart {q : TcParams} {bank : BitVec 16} {en : Bool} : m.Admits (m.theCartWindow q bank en) :=
    admits_ite admits_checked admits_disabled
  have hmega : ∀ w, m.Admits (m.megaLayout.desc w)
    | .w809f => admits_disabled
    | .wa0bf => admits_checked
  have hmax : ∀ w, m.Admits (m.maxLayout.desc w)
    | .w809f => admits_disabled
    | .wa0bf => admits_ite admits_checked admits_disabled
  unfold layout
  cases m.type with
  | megaCart512 => exact hmega w
  | megaCart4M => exact hmega w
  | theCart => cases w <;> exact hcart
  | sic => cases w <;> exact hsic
  | maxFlash1 => exact hmax w
  | maxFlash8 => exact hmax w

/-- Settles O55. -/
theorem layoutInvariant : Obligations.LayoutInvariant := by
  intro p m w
  cases w with
  | w809f => exact Mapper.admits_layout .w809f
  | wa0bf => exact Mapper.admits_layout .wa0bf

/-! ### The windows over a power of two of banks (R336) -/

theorem Mapper.megaLayout_eq (hc : m.chips[0]? = some c) (hcap : c.profile.cap = 2 ^ k * 0x4000) :
    m.megaLayout =
      { w809f := Desc.disabled
        wa0bf := { readSrc := .flash 0, writeDst := .flash 0, base := m.regs.bank.toNat % 2 ^ k * 0x4000
                   writeBase := m.regs.bank.toNat % 2 ^ k * 0x4000 } } := by
  rw [megaLayout, flashWindow_eq hc hcap (by decide) (by decide) (by decide) (.inr rfl), Nat.add_zero]

theorem Mapper.maxLayout_eq (hc : m.chips[0]? = some c) (hcap : c.profile.cap = 2 ^ k * 0x2000) :
    m.maxLayout =
      { w809f := Desc.disabled
        wa0bf := if m.regs.enabled then
            { readSrc := .flash 0, writeDst := .flash 0, base := m.regs.bank.toNat % 2 ^ k * 0x2000
              writeBase := m.regs.bank.toNat % 2 ^ k * 0x2000 }
          else Desc.disabled } := by
  rw [maxLayout, flashWindow_eq hc hcap (by decide) (by decide) (by decide) (.inr rfl), Nat.add_zero]

/-- A window of SIC! under its default map, at offset `off` of the bank in bits 4:0 (R360). -/
theorem Mapper.sicWindow_default {f : FlagBit} {off : Nat} (hc : m.chips[0]? = some c) (hcap : c.profile.cap = 0x80000)
    (ho : off % 0x2000 = 0) (hoff : off + 0x2000 ≤ 0x4000) :
    m.sicWindow sicDefault f off =
      if flagHolds f m.regs.sic then
        { readSrc := .flash 0, writeDst := if m.regs.sic.getLsbD 7 then .flash 0 else .none
          base := m.regs.sic.toNat % 32 * 0x4000 + off, writeBase := m.regs.sic.toNat % 32 * 0x4000 + off }
      else Desc.disabled := by
  have hflash : flagHolds sicDefault.flashWrite m.regs.sic = m.regs.sic.getLsbD 7 := beq_true _
  have hmod : m.regs.sic.toNat % 32 % 2 ^ 5 = m.regs.sic.toNat % 32 := Nat.mod_mod _ 32
  have hdst : (if m.regs.sic.getLsbD 7 = true then Source.flash 0 else .none) = .none ∨
      (if m.regs.sic.getLsbD 7 = true then Source.flash 0 else .none) = .flash 0 := by
    split
    · exact .inr rfl
    · exact .inl rfl
  rw [sicWindow, hflash, sicBank_default, flashWindow_eq (k := 5) hc hcap (by decide) ho hoff hdst, hmod]

theorem Mapper.sicLayout_default (hc : m.chips[0]? = some c) (hcap : c.profile.cap = 0x80000) :
    m.sicLayout sicDefault =
      let f := if m.regs.sic.getLsbD 7 then Source.flash 0 else .none
      let window := fun base : Nat => ({ readSrc := .flash 0, writeDst := f, base := base, writeBase := base } : Desc)
      { w809f := if m.regs.sic.getLsbD 5 then window (m.regs.sic.toNat % 32 * 0x4000) else Desc.disabled
        wa0bf := if m.regs.sic.getLsbD 6 then Desc.disabled else window (m.regs.sic.toNat % 32 * 0x4000 + 0x2000) } := by
  have h5 : flagHolds sicDefault.enable809f m.regs.sic = m.regs.sic.getLsbD 5 := beq_true _
  have h6 : flagHolds sicDefault.enableA0bf m.regs.sic = !m.regs.sic.getLsbD 6 := beq_false _
  rw [sicLayout, sicWindow_default (off := 0) hc hcap (by decide) (by decide),
    sicWindow_default (off := 0x2000) hc hcap (by decide) (by decide), h5, h6, Nat.add_zero]
  cases m.regs.sic.getLsbD 6 with
  | false => rfl
  | true => rfl

/-! ### TheCart (R350) -/

/-- TheCart's read source (R350). -/
def tcReadSrc (g : TcRegs) : Source := if g.ramRead then .ram else .flash 0

/-- TheCart's write destination (R350). -/
def tcWriteDst (g : TcRegs) : Source := if g.ramWrite then .ram else if g.flashWrite then .flash 0 else .none

/-- A source of `n src` banks of `size` bytes, `n src` a power of two (R336). -/
def Mapper.BanksOf (m : Mapper) (size : Nat) (n : Source → Nat) (src : Source) : Prop :=
  ∃ k, n src = 2 ^ k ∧ m.sourceSize src = 2 ^ k * size

/-- A bank of TheCart's size in such a source lies in it (R336). -/
theorem Mapper.BanksOf.fits {n : Source → Nat} {src : Source} {bits bank : Nat} (h : m.BanksOf (2 ^ bits) n src)
    (hb : 13 ≤ bits) :
    m.bankBase src bank (2 ^ bits) 0 = bank % n src * 2 ^ bits ∧ m.fits src (bank % n src * 2 ^ bits) = true := by
  obtain ⟨k, hn, hs⟩ := h
  have h8 : 2 ^ 13 ∣ 2 ^ bits := Nat.pow_dvd_pow 2 hb
  obtain ⟨hbase, hfits⟩ := fits_bankBase (bank := bank) (off := 0) hs (Nat.two_pow_pos k) (Nat.mod_eq_zero_of_dvd h8)
    (by decide) (Nat.le_of_dvd (Nat.two_pow_pos bits) h8)
  rw [maskBank_pow, ← hn] at hbase
  rw [hbase] at hfits
  exact ⟨hbase, hfits⟩

theorem Mapper.theCartWindow_eq {q : TcParams} {bank : BitVec 16} {en : Bool} :
    m.theCartWindow q bank en =
      let src := tcReadSrc m.regs.cart
      let dst := tcWriteDst m.regs.cart
      if en ∧ (schemeOf q m.regs.cart.mode).isSome then
        m.checked { readSrc := src, writeDst := dst
                    base := m.bankBase src bank.toNat q.bankSize 0
                    writeBase := if dst = .none then m.bankBase src bank.toNat q.bankSize 0
                      else m.bankBase dst bank.toNat q.bankSize 0 }
      else Desc.disabled := rfl

/-- A window of TheCart in a known mode: both its bases are banks there are (R350). -/
theorem Mapper.theCartWindow_known {q : TcParams} {n : Source → Nat} {bank : BitVec 16} {en : Bool} (hb : 13 ≤ q.bankBits)
    (hflash : m.BanksOf q.bankSize n (.flash 0)) (hram : m.BanksOf q.bankSize n .ram)
    (hmode : (schemeOf q m.regs.cart.mode).isSome = true) :
    m.theCartWindow q bank en =
      let src := tcReadSrc m.regs.cart
      let dst := tcWriteDst m.regs.cart
      if en then
        { readSrc := src, writeDst := dst, base := bank.toNat % n src * q.bankSize
          writeBase := bank.toNat % n (if dst = .none then src else dst) * q.bankSize }
      else Desc.disabled := by
  rw [theCartWindow_eq]
  have hsrc : tcReadSrc m.regs.cart ≠ .none ∧ m.BanksOf q.bankSize n (tcReadSrc m.regs.cart) := by
    unfold tcReadSrc
    split
    · exact ⟨nofun, hram⟩
    · exact ⟨nofun, hflash⟩
  have hdst : tcWriteDst m.regs.cart ≠ .none → m.BanksOf q.bankSize n (tcWriteDst m.regs.cart) := by
    unfold tcWriteDst
    split_ifs
    · exact fun _ => hram
    · exact fun _ => hflash
    · exact fun h => absurd rfl h
  generalize tcReadSrc m.regs.cart = src at hsrc ⊢
  generalize tcWriteDst m.regs.cart = dst at hdst ⊢
  dsimp only
  obtain ⟨hbase, hfits⟩ := hsrc.2.fits (bank := bank.toNat) hb
  cases en with
  | false => exact if_neg fun h => Bool.false_ne_true h.1
  | true =>
    rw [if_pos ⟨rfl, hmode⟩, if_pos rfl, TcParams.bankSize, hbase]
    by_cases hd : dst = .none
    · subst hd
      exact checked_of_fits hsrc.1 hfits fits_none
    · obtain ⟨hwbase, hwfits⟩ := (hdst hd).fits (bank := bank.toNat) hb
      rw [if_neg hd, if_neg hd, hwbase]
      exact checked_of_fits hsrc.1 hfits hwfits

/-- An unknown mode disables both windows (R353, R337). -/
theorem Mapper.theCartLayout_unknown {q : TcParams} (hmode : schemeOf q m.regs.cart.mode = none) :
    m.theCartLayout q = { w809f := Desc.disabled, wa0bf := Desc.disabled } := by
  have hw : ∀ bank en, m.theCartWindow q bank en = Desc.disabled := fun bank en =>
    if_neg fun h => by simp [hmode] at h
  rw [theCartLayout, hw, hw]

/-! ### The layout of each type -/

theorem Mapper.layout_mega (ht : m.type = .megaCart512 ∨ m.type = .megaCart4M) : m.layout p = m.megaLayout := by
  rcases ht with ht | ht <;> rw [layout, ht]

theorem Mapper.layout_max (ht : m.type = .maxFlash1 ∨ m.type = .maxFlash8) : m.layout p = m.maxLayout := by
  rcases ht with ht | ht <;> rw [layout, ht]

theorem Mapper.layout_sic (ht : m.type = .sic) : m.layout p = m.sicLayout p.sic := by rw [layout, ht]

theorem Mapper.layout_theCart (ht : m.type = .theCart) : m.layout p = m.theCartLayout p.theCart := by rw [layout, ht]

/-- Settles O60, by the type. -/
theorem cartLayouts : Obligations.CartLayouts := by
  refine fun p m c hc => ⟨fun k ht hcap => ?mega, fun ht hmap hcap => ?sic, fun k ht hcap => ?max,
    fun k j ht hb hcap hram => ⟨fun hmode => ?known, fun hmode => ?unknown⟩⟩
  case mega => exact (Mapper.layout_mega ht).trans (Mapper.megaLayout_eq hc hcap)
  case sic => exact (Mapper.layout_sic ht).trans (hmap ▸ Mapper.sicLayout_default hc hcap)
  case max => exact (Mapper.layout_max ht).trans (Mapper.maxLayout_eq hc hcap)
  case known =>
    have hbanks {bank : BitVec 16} {en : Bool} := Mapper.theCartWindow_known
      (n := fun src => match src with | .ram => 2 ^ j | _ => 2 ^ k) (bank := bank) (en := en) hb
      ⟨k, rfl, (Mapper.sourceSize_flash hc).trans hcap⟩ ⟨j, rfl, hram⟩ hmode
    rw [Mapper.layout_theCart ht, Mapper.theCartLayout, hbanks, hbanks]
    rfl
  case unknown => exact (Mapper.layout_theCart ht).trans (Mapper.theCartLayout_unknown hmode)

end Sys2Proof.Machine

/-! PROOFS. Control accesses (45_bank_mapper.md R335, R339, R341, R346): a control write is `ctlWrite`, then `Apply`, and a
control read that leaves the registers gives its byte. -/

namespace Sys2Proof.Machine

variable {s u : State} {m : Mapper} {c : Chip} {p : Params} {x : CpuAddr} {v : Byte}

/-! ### The write -/

@[simp] theorem ctlWrite_cfg : (ctlWrite x v s).cfg = s.cfg := by
  obtain ⟨regs, table, eeprom, h⟩ := ctlWrite_frame x v s
  rw [h]

@[simp] theorem ctlWrite_installed : (ctlWrite x v s).mapper.installed = s.mapper.installed := by
  obtain ⟨regs, table, eeprom, h⟩ := ctlWrite_frame x v s
  rw [h]

@[simp] theorem ctlWrite_out : (ctlWrite x v s).out = s.out := by
  obtain ⟨regs, table, eeprom, h⟩ := ctlWrite_frame x v s
  rw [h]

@[simp] theorem State.applyLayout_cfg : s.applyLayout.cfg = s.cfg := rfl

@[simp] theorem State.applyLayout_eeprom : s.applyLayout.eeprom = s.eeprom := rfl

@[simp] theorem State.applyLayout_regs : s.applyLayout.mapper.regs = s.mapper.regs := rfl

@[simp] theorem State.applyLayout_table : s.applyLayout.mapper.table = s.mapper.table := rfl

@[simp] theorem State.applyLayout_installed : s.applyLayout.mapper.installed = some (s.mapper.layout s.cfg) := rfl

@[simp] theorem State.applyLayout_layout : s.applyLayout.mapper.layout p = s.mapper.layout p := Mapper.layout_installed _

@[simp] theorem State.applyLayout_calls :
    s.applyLayout.out.calls = s.out.calls ++ applyCalls s.mapper.installed (s.mapper.layout s.cfg) := rfl

theorem exec_mapCtlWrite (h : inCtlPage s.cfg.ctlPage x = true) :
    exec (.mapCtlWrite x v) s = .next ((ctlWrite x v s).applyLayout.answer .none) := by
  rw [exec, execMapCtlWrite, if_pos h]

/-- A control write, by the registers it leaves and the layout they derive. -/
theorem exec_mapCtlWrite_of {l : Layout} (hx : inCtlPage s.cfg.ctlPage x = true) (hu : ctlWrite x v s = u)
    (hl : u.mapper.layout u.cfg = l) :
    exec (.mapCtlWrite x v) s =
      .next { u with
        mapper := { u.mapper with installed := some l }
        out := { result := .none, calls := u.out.calls ++ applyCalls u.mapper.installed l } } := by
  subst hu hl
  exact exec_mapCtlWrite hx

/-- `Apply` of a layout whose two descriptors of R53 are the installed ones makes no call (R346). -/
theorem applyCalls_same {old new : Layout} (h : ∀ w, (old.desc w).triple = (new.desc w).triple) :
    applyCalls (some old) new = [] := by
  rw [← windowCalls_eq, windowCalls_same (h _), windowCalls_same (h _), List.append_nil]

/-- A bank shows the window of every bank equal to it modulo the bank count (R336). -/
theorem Mapper.megaLayout_congr {b : Byte} {k : Nat} (hc : m.chips[0]? = some c) (hcap : c.profile.cap = 2 ^ k * 0x4000)
    (hb : b.toNat % 2 ^ k = m.regs.bank.toNat % 2 ^ k) :
    Mapper.megaLayout { m with regs := { m.regs with bank := b } } = m.megaLayout := by
  rw [megaLayout_eq hc hcap, megaLayout_eq (m := { m with regs := { m.regs with bank := b } }) hc hcap, hb]

/-- Settles O54. -/
theorem remapIsIdempotent : Obligations.RemapIsIdempotent := by
  refine ⟨fun s x v hx => ⟨_, exec_mapCtlWrite hx, ?installed, ?calls, fun hold => ?same, fun old hold hw => ?triples⟩,
    fun m c b k hc hcap hb => Mapper.megaLayout_congr hc hcap hb⟩
  case installed => simp
  case calls => simp
  case same =>
    simp only [State.answer_mapper, State.applyLayout_layout] at hold
    simp [hold, applyCalls_same]
  case triples =>
    simp only [State.answer_mapper, State.applyLayout_layout] at hw
    have htriple : ∀ w, (old.desc w).triple = (((ctlWrite x v s).mapper.layout s.cfg).desc w).triple := by
      intro w
      obtain ⟨hread, hwrite, hbase⟩ := hw w
      rw [Desc.triple, hread, hwrite, hbase, Desc.triple]
    simp [hold, applyCalls_same htriple]

/-! ### The read -/

/-- A control read, by the registers it leaves: the layout is applied when they changed (R339). -/
theorem exec_mapCtlRead_of {b : Byte} {regs : MapRegs} {n : Nat} (hx : inCtlPage s.cfg.ctlPage x = true)
    (hr : ctlRead x s = (b, { s with mapper := { s.mapper with regs := regs }, draws := n })) :
    let l := Mapper.layout { s.mapper with regs := regs } s.cfg
    exec (.mapCtlRead x) s =
      .next { s with
        mapper := { s.mapper with
          regs := regs, installed := if regs = s.mapper.regs then s.mapper.installed else some l }
        draws := n
        out := { result := .cpuByte b
                 calls := s.out.calls ++ (if regs = s.mapper.regs then [] else applyCalls s.mapper.installed l) } } := by
  have hchanged := readChanged_ctlRead x s
  rw [hr] at hchanged
  rw [exec, execMapCtlRead, if_pos hx, hr]
  dsimp only at hchanged ⊢
  by_cases hregs : regs = s.mapper.regs
  · rw [if_neg (mt hchanged.1 (not_not.2 hregs)), if_pos hregs, if_pos hregs, List.append_nil]
    rfl
  · rw [if_pos (hchanged.2 hregs), if_neg hregs, if_neg hregs]
    rfl

/-- A control read that changes nothing is its byte. -/
theorem exec_mapCtlRead_of_same {b : Byte} (hx : inCtlPage s.cfg.ctlPage x = true) (hr : ctlRead x s = (b, s)) :
    exec (.mapCtlRead x) s = .next (s.answer (.cpuByte b)) := by
  rw [exec_mapCtlRead_of (regs := s.mapper.regs) (n := s.draws) hx hr, if_pos rfl, if_pos rfl, List.append_nil]
  rfl

/-! ### The MegaCarts (R340 to R342) -/

theorem ctlWrite_mega (ht : s.mapper.type = .megaCart512 ∨ s.mapper.type = .megaCart4M)
    (hmap : s.cfg.megaCart = megaCartDefault) :
    ctlWrite x v s = { s with mapper := { s.mapper with regs := { s.mapper.regs with bank := v } } } := by
  rcases ht with ht | ht <;> simp only [ctlWrite, ht, hmap, megaBank_default]

theorem ctlRead_mega (ht : s.mapper.type = .megaCart512 ∨ s.mapper.type = .megaCart4M)
    (hmap : s.cfg.megaCart = megaCartDefault) : ctlRead x s = (0xFF#8, s) := by
  rcases ht with ht | ht <;> simp only [ctlRead, ht, hmap, megaByte_default]

/-- Only the window at `$A000` can change on a MegaCart. -/
theorem applyCalls_wa0bf {l809f old new : Desc} (h : new.readSrc ≠ .none) :
    applyCalls (some { w809f := l809f, wa0bf := old }) { w809f := l809f, wa0bf := new } =
      if old.readSrc = new.readSrc ∧ old.writeDst = new.writeDst ∧ old.base = new.base then []
      else [.setFlashRoutines .wa0bf, .setFlash 0xA000 0xBFFF, .cartEnable .wa0bf] := by
  simp [applyCalls, h]

/-- A MegaCart control write over `2 ^ k` banks. -/
theorem exec_mapCtlWrite_mega {old : Desc} {k : Nat} (ht : s.mapper.type = .megaCart512 ∨ s.mapper.type = .megaCart4M)
    (hc : s.mapper.chips[0]? = some c) (hcap : c.profile.cap = 2 ^ k * 0x4000) (hx : inCtlPage s.cfg.ctlPage x = true)
    (hmap : s.cfg.megaCart = megaCartDefault)
    (hold : s.mapper.installed = some { w809f := Desc.disabled, wa0bf := old }) :
    let new : Desc := { readSrc := .flash 0, writeDst := .flash 0, base := v.toNat % 2 ^ k * 0x4000
                        writeBase := v.toNat % 2 ^ k * 0x4000 }
    exec (.mapCtlWrite x v) s =
      .next { s with
        mapper := { s.mapper with regs := { s.mapper.regs with bank := v }
                                  installed := some { w809f := Desc.disabled, wa0bf := new } }
        out := { result := .none
                 calls := s.out.calls ++
                   (if old.readSrc = new.readSrc ∧ old.writeDst = new.writeDst ∧ old.base = new.base then []
                   else [.setFlashRoutines .wa0bf, .setFlash 0xA000 0xBFFF, .cartEnable .wa0bf]) } } := by
  intro new
  have hlayout : Mapper.layout { s.mapper with regs := { s.mapper.regs with bank := v } } s.cfg =
      { w809f := Desc.disabled, wa0bf := new } := by
    rw [Mapper.layout_mega (m := { s.mapper with regs := { s.mapper.regs with bank := v } }) ht,
      Mapper.megaLayout_eq (m := { s.mapper with regs := { s.mapper.regs with bank := v } }) hc hcap]
  have hcalls := applyCalls_wa0bf (l809f := Desc.disabled) (old := old) (new := new) nofun
  rw [exec_mapCtlWrite_of hx (ctlWrite_mega ht hmap) hlayout, ← hcalls, ← hold]

/-- Settles O53: 32 and 256 banks are powers of two. -/
theorem megaCartControl : Obligations.MegaCartControl := by
  intro s c x v old bankCount htype hc hx hmap hold
  have hmega : s.mapper.type = .megaCart512 ∨ s.mapper.type = .megaCart4M := htype.imp And.left And.left
  obtain ⟨k, hcap, rfl⟩ : ∃ k, c.profile.cap = 2 ^ k * 0x4000 ∧ bankCount = 2 ^ k := by
    rcases htype with ⟨-, hcap, rfl⟩ | ⟨-, hcap, rfl⟩
    · exact ⟨5, hcap, rfl⟩
    · exact ⟨8, hcap, rfl⟩
  exact ⟨exec_mapCtlWrite_mega hmega hc hcap hx hmap hold, exec_mapCtlRead_of_same hx (ctlRead_mega hmega hmap)⟩

end Sys2Proof.Machine

/-! PROOFS. The control registers of TheCart, SIC! and MaxFlash (45_bank_mapper.md R351 to R353, R360, R361): what `ctlWrite`
and `ctlRead` are for each register an offset can name. -/

namespace Sys2Proof.Machine

variable {s : State} {m : Mapper} {g : TcRegs} {p : TcParams} {q : MaxMap} {x : CpuAddr} {v : Byte} {sr : TcSerial}
  {rg : TcRegister}

@[simp] theorem ctlOffset_toNat : (ctlOffset x).toNat = x.toNat % 256 := by
  simp [ctlOffset]

theorem ctlOffset_eq_ofNat : ctlOffset x = BitVec.ofNat 8 (x.toNat % 256) := by
  apply BitVec.eq_of_toNat_eq
  simp

/-! ### TheCart's lock (R353) -/

theorem tcIgnores_of_locked {lockable : Bool} (hk : lockable = true) (hl : g.lock ≠ 0#8) : tcIgnores g lockable = true := by
  simp [tcIgnores, hk, hl]

theorem tcIgnores_of_open {lockable : Bool} (h : lockable = false ∨ g.lock = 0#8) : tcIgnores g lockable = false := by
  rcases h with h | h <;> simp [tcIgnores, h]

/-! ### TheCart's serial register (R352) -/

theorem ctlWrite_serial_locked (ht : s.mapper.type = .theCart) (hs : serialAt s.cfg.theCart (ctlOffset x) = some sr)
    (hi : tcIgnores s.mapper.regs.cart sr.lockable = true) : ctlWrite x v s = s := by
  simp only [ctlWrite, ht, theCartWrite, hs, hi, if_true]

theorem ctlWrite_serial_open (ht : s.mapper.type = .theCart) (hs : serialAt s.cfg.theCart (ctlOffset x) = some sr)
    (hi : tcIgnores s.mapper.regs.cart sr.lockable = false) :
    ctlWrite x v s =
      { s with eeprom := s.eeprom.writeState (v.getLsbD sr.ceBit) (v.getLsbD sr.clkBit) (v.getLsbD sr.dataBit) } := by
  simp only [ctlWrite, ht, theCartWrite, hs, hi, Bool.false_eq_true, if_false, writeState]

/-- The serial register is no part of the mapper. -/
theorem ctlWrite_serial_mapper (ht : s.mapper.type = .theCart) (hs : serialAt s.cfg.theCart (ctlOffset x) = some sr) :
    (ctlWrite x v s).mapper = s.mapper := by
  cases hi : tcIgnores s.mapper.regs.cart sr.lockable with
  | true => rw [ctlWrite_serial_locked ht hs hi]
  | false => rw [ctlWrite_serial_open ht hs hi]

theorem ctlRead_theCart (ht : s.mapper.type = .theCart) : ctlRead x s = (theCartByte x s, s) := by
  simp only [ctlRead, ht]

/-- A read of the serial register is `ReadState` in one bit. -/
theorem getLsbD_theCartByte_serial {i : Nat} (hs : serialAt s.cfg.theCart (ctlOffset x) = some sr) (hi : i < 8) :
    (theCartByte x s).getLsbD i = if i = sr.outBit then s.eeprom.link.outBit else sr.pad.getLsbD i := by
  have hbit : sr.outBit ≤ i ∧ i < sr.outBit + 1 ↔ i = sr.outBit := by omega
  simp only [theCartByte, hs, BitVec.getLsbD_setWidth, hi, decide_true, Bool.true_and,
    getLsbD_setBitField _ _ _ _ _ (show i < 16 by omega), hbit]
  split
  · next h => simp [h, outBit]
  · simp [show i < 16 by omega]

/-! ### TheCart's native registers (R353) -/

theorem ctlWrite_native (ht : s.mapper.type = .theCart) (hs : serialAt s.cfg.theCart (ctlOffset x) = none)
    (hr : registerAt s.cfg.theCart (ctlOffset x) = some rg) :
    ctlWrite x v s = { s with mapper := s.mapper.nativeWrite s.cfg.theCart rg v } := by
  simp only [ctlWrite, ht, theCartWrite, hs, hr]

theorem theCartByte_native (hs : serialAt s.cfg.theCart (ctlOffset x) = none)
    (hr : registerAt s.cfg.theCart (ctlOffset x) = some rg) : theCartByte x s = tcRead s.mapper.regs.cart rg := by
  simp only [theCartByte, hs, hr]

theorem Mapper.nativeWrite_locked (hi : tcIgnores m.regs.cart rg.lockable = true) : m.nativeWrite p rg v = m := if_pos hi

theorem Mapper.nativeWrite_open (hi : tcIgnores m.regs.cart rg.lockable = false) :
    m.nativeWrite p rg v =
      { m with
        regs := { m.regs with cart := tcWrite m.regs.cart rg v }
        table := if ∃ sl ∈ rg.slices, sl.field = .mode then schemeTable p (tcWrite m.regs.cart rg v).mode else m.table } := by
  have hmode : rg.slices.any (fun sl => sl.field == TcField.mode) = true ↔ ∃ sl ∈ rg.slices, sl.field = .mode := by
    simp [List.any_eq_true]
  rw [nativeWrite, if_neg (by simp [hi])]
  simp only [hmode]

/-- A native write changes TheCart's registers only. -/
theorem Mapper.nativeWrite_regs :
    (m.nativeWrite p rg v).regs = { m.regs with cart := (m.nativeWrite p rg v).regs.cart } := by
  cases hi : tcIgnores m.regs.cart rg.lockable with
  | true => rw [nativeWrite_locked hi]
  | false => rw [nativeWrite_open hi]

/-- A slice that covers a byte register whole. -/
theorem setBitField_byte {w : BitVec 16} :
    (setBitField w (bitField (v.setWidth 16) 0 8) 0 8).setWidth 8 = v := by
  ext i hi
  simp only [BitVec.getElem_setWidth, getLsbD_setBitField _ _ _ _ _ (show i < 16 by omega), getLsbD_bitField]
  rw [if_pos (by omega)]
  simp [show i < 16 by omega, hi]

/-- The register that is the mode. -/
theorem tcWrite_mode (h : rg.slices = [{ field := .mode, bit := 0, width := 8, pos := 0 }]) :
    tcWrite g rg v = { g with mode := v } := by
  rw [tcWrite, h, List.foldl_cons, List.foldl_nil, tcPut, setBitField_byte]

/-- A bit of a read that no slice drives is the pad's. -/
theorem tcRead_pad {i : Nat} (hi : i < 8) (h : ∀ sl ∈ rg.slices, i < sl.bit ∨ sl.bit + sl.width ≤ i) :
    (tcRead g rg).getLsbD i = rg.pad.getLsbD i := by
  rw [tcRead, BitVec.getLsbD_setWidth, tcRead_uncovered (by omega) h, BitVec.getLsbD_setWidth]
  simp [hi, show i < 16 by omega]

/-! ### TheCart's legacy writes (R351) -/

theorem ctlWrite_legacy (ht : s.mapper.type = .theCart) (hs : serialAt s.cfg.theCart (ctlOffset x) = none)
    (hr : registerAt s.cfg.theCart (ctlOffset x) = none) :
    ctlWrite x v s = { s with mapper := s.mapper.legacyWrite s.cfg.theCart x v } := by
  simp only [ctlWrite, ht, theCartWrite, hs, hr]

theorem theCartByte_noRegister (hs : serialAt s.cfg.theCart (ctlOffset x) = none)
    (hr : registerAt s.cfg.theCart (ctlOffset x) = none) : theCartByte x s = 0xFF#8 := by
  simp only [theCartByte, hs, hr, noData]

theorem Mapper.legacyWrite_unknown (h : schemeOf p m.regs.cart.mode = none) : m.legacyWrite p x v = m := by
  simp only [legacyWrite, h]

theorem Mapper.legacyWrite_known {sch : TcScheme} (h : schemeOf p m.regs.cart.mode = some sch) :
    m.legacyWrite p x v =
      { m with regs := { m.regs with
          cart := tcApplyEntry m.regs.cart
            (m.table.getD (if sch.byAddress then x.toNat % 256 else v.toNat) .noChange) } } := by
  simp only [legacyWrite, h, legacyIndex, ctlOffset_toNat]

/-- A legacy write leaves the table. -/
theorem Mapper.legacyWrite_table : (m.legacyWrite p x v).table = m.table := by
  cases h : schemeOf p m.regs.cart.mode with
  | none => rw [legacyWrite_unknown h]
  | some sch => rw [legacyWrite_known h]

/-! ### What a write leaves alone -/

/-- Only TheCart has a table to rebuild, and only its serial register reaches the EEPROM. -/
theorem ctlWrite_table_eeprom (ht : s.mapper.type ≠ .theCart) :
    (ctlWrite x v s).mapper.table = s.mapper.table ∧ (ctlWrite x v s).eeprom = s.eeprom := by
  have hmax (q : MaxMap) : (s.mapper.maxAccess q x).table = s.mapper.table := by
    obtain ⟨bank, enabled, h⟩ := Mapper.maxAccess_frame q x s.mapper
    rw [h]
  unfold ctlWrite
  split
  case h_3 h => exact absurd h ht
  case h_4 =>
    split
    · exact ⟨rfl, rfl⟩
    · exact ⟨rfl, rfl⟩
  case h_5 => exact ⟨hmax _, rfl⟩
  case h_6 => exact ⟨hmax _, rfl⟩
  all_goals exact ⟨rfl, rfl⟩

theorem ctlWrite_eeprom (h : s.mapper.type ≠ .theCart ∨ serialAt s.cfg.theCart (ctlOffset x) = none) :
    (ctlWrite x v s).eeprom = s.eeprom := by
  by_cases ht : s.mapper.type = .theCart
  · have hs := h.resolve_left (not_not.2 ht)
    cases hr : registerAt s.cfg.theCart (ctlOffset x) with
    | some rg => rw [ctlWrite_native ht hs hr]
    | none => rw [ctlWrite_legacy ht hs hr]
  · exact (ctlWrite_table_eeprom ht).2

/-! ### SIC! (R360) -/

theorem ctlWrite_sic (ht : s.mapper.type = .sic) (hr : rangeHas s.cfg.sic.range (ctlOffset x) = true) :
    ctlWrite x v s = { s with mapper := { s.mapper with regs := { s.mapper.regs with sic := v } } } := by
  simp only [ctlWrite, ht, hr, if_true]

theorem ctlWrite_sic_other (ht : s.mapper.type = .sic) (hr : rangeHas s.cfg.sic.range (ctlOffset x) = false) :
    ctlWrite x v s = s := by
  simp only [ctlWrite, ht, hr, Bool.false_eq_true, if_false]

theorem ctlRead_sic (ht : s.mapper.type = .sic) :
    ctlRead x s =
      (if s.cfg.sic.readable && rangeHas s.cfg.sic.range (ctlOffset x) then s.mapper.regs.sic else 0xFF#8, s) := by
  simp only [ctlRead, ht, noData]

/-- The default place of the SIC! register. -/
theorem rangeHas_sicDefault : rangeHas sicDefault.range (ctlOffset x) = decide (x.toNat % 256 < 0x20) := by
  simp [sicDefault, rangeHas, Nat.lt_succ_iff]

/-! ### MaxFlash (R361) -/

theorem rangeHas_maxFlash1_select :
    rangeHas maxFlash1Default.select (ctlOffset x) = decide (x.toNat % 256 < 0x10) := by
  simp [maxFlash1Default, rangeHas, Nat.lt_succ_iff]

theorem rangeHas_maxFlash1_disable :
    rangeHas maxFlash1Default.disable (ctlOffset x) = decide (0x10 ≤ x.toNat % 256 ∧ x.toNat % 256 < 0x20) := by
  simp [maxFlash1Default, rangeHas, Nat.lt_succ_iff]

theorem maxHits_maxFlash1 : maxHits maxFlash1Default (ctlOffset x) = decide (x.toNat % 256 < 0x20) := by
  rw [maxHits, rangeHas_maxFlash1_select, rangeHas_maxFlash1_disable, ← Bool.decide_or]
  exact decide_eq_decide.2 (by omega)

theorem rangeHas_maxFlash8_select :
    rangeHas maxFlash8Default.select (ctlOffset x) = decide (x.toNat % 256 < 0x80) := by
  simp [maxFlash8Default, rangeHas, Nat.lt_succ_iff]

theorem rangeHas_maxFlash8_disable :
    rangeHas maxFlash8Default.disable (ctlOffset x) = decide (0x80 ≤ x.toNat % 256) := by
  have hbyte : x.toNat % 256 ≤ 255 := Nat.le_of_lt_succ (Nat.mod_lt _ (by decide))
  simp [maxFlash8Default, rangeHas, hbyte]

/-- The 8 Mbit variant has a register at every offset. -/
theorem maxHits_maxFlash8 : maxHits maxFlash8Default (ctlOffset x) = true := by
  rw [maxHits, rangeHas_maxFlash8_select, rangeHas_maxFlash8_disable, ← Bool.decide_or, decide_eq_true_eq]
  exact Nat.lt_or_ge _ _

/-- A select offset is its bank, where the banks begin at offset 0. -/
theorem Mapper.maxAccess_select (hf : q.select.first = 0#8) (h : rangeHas q.select (ctlOffset x) = true) :
    m.maxAccess q x =
      { m with regs := { m.regs with bank := BitVec.ofNat 8 (x.toNat % 256), enabled := true } } := by
  rw [maxAccess, if_pos h, hf, BitVec.sub_zero, ctlOffset_eq_ofNat]

theorem Mapper.maxAccess_disable (hs : rangeHas q.select (ctlOffset x) = false)
    (hd : rangeHas q.disable (ctlOffset x) = true) :
    m.maxAccess q x = { m with regs := { m.regs with enabled := false } } := by
  rw [maxAccess, if_neg (by simp [hs]), if_pos hd]

theorem Mapper.maxAccess_other (h : maxHits q (ctlOffset x) = false) : m.maxAccess q x = m := by
  obtain ⟨hs, hd⟩ := Bool.or_eq_false_iff.1 h
  rw [maxAccess, if_neg (by simp [hs]), if_neg (by simp [hd])]

theorem Mapper.maxAccess_maxFlash1_select (h : x.toNat % 256 < 0x10) :
    m.maxAccess maxFlash1Default x =
      { m with regs := { m.regs with bank := BitVec.ofNat 8 (x.toNat % 256), enabled := true } } :=
  maxAccess_select rfl (rangeHas_maxFlash1_select.trans (decide_eq_true h))

theorem Mapper.maxAccess_maxFlash1_disable (hl : 0x10 ≤ x.toNat % 256) (hu : x.toNat % 256 < 0x20) :
    m.maxAccess maxFlash1Default x = { m with regs := { m.regs with enabled := false } } :=
  maxAccess_disable (rangeHas_maxFlash1_select.trans (decide_eq_false (Nat.not_lt.2 hl)))
    (rangeHas_maxFlash1_disable.trans (decide_eq_true ⟨hl, hu⟩))

theorem Mapper.maxAccess_maxFlash8_select (h : x.toNat % 256 < 0x80) :
    m.maxAccess maxFlash8Default x =
      { m with regs := { m.regs with bank := BitVec.ofNat 8 (x.toNat % 256), enabled := true } } :=
  maxAccess_select rfl (rangeHas_maxFlash8_select.trans (decide_eq_true h))

theorem Mapper.maxAccess_maxFlash8_disable (h : 0x80 ≤ x.toNat % 256) :
    m.maxAccess maxFlash8Default x = { m with regs := { m.regs with enabled := false } } :=
  maxAccess_disable (rangeHas_maxFlash8_select.trans (decide_eq_false (Nat.not_lt.2 h)))
    (rangeHas_maxFlash8_disable.trans (decide_eq_true h))

theorem ctlWrite_max (ht : s.mapper.type = .maxFlash1 ∨ s.mapper.type = .maxFlash8)
    (hq : maxMapOf s.cfg s.mapper.type = q) :
    ctlWrite x v s = { s with mapper := { s.mapper with regs := (s.mapper.maxAccess q x).regs } } := by
  obtain ⟨bank, enabled, h⟩ := Mapper.maxAccess_frame q x s.mapper
  rcases ht with ht | ht <;> rw [ht] at hq <;> simp only [ctlWrite, ht, hq, h]

theorem ctlRead_max (ht : s.mapper.type = .maxFlash1 ∨ s.mapper.type = .maxFlash8)
    (hq : maxMapOf s.cfg s.mapper.type = q) (ha : q.readsAct = true) (hh : maxHits q (ctlOffset x) = true) :
    ctlRead x s =
      (Config.maxFlashReadByte s.draws x,
        { s with mapper := { s.mapper with regs := (s.mapper.maxAccess q x).regs }, draws := s.draws + 1 }) := by
  obtain ⟨bank, enabled, h⟩ := Mapper.maxAccess_frame q x s.mapper
  rcases ht with ht | ht <;> rw [ht] at hq <;>
    simp only [ctlRead, ht, hq, ha, hh, Bool.and_self, if_true, h]

theorem ctlRead_max_other (ht : s.mapper.type = .maxFlash1 ∨ s.mapper.type = .maxFlash8)
    (hq : maxMapOf s.cfg s.mapper.type = q) (hh : maxHits q (ctlOffset x) = false) : ctlRead x s = (0xFF#8, s) := by
  rcases ht with ht | ht <;> rw [ht] at hq <;>
    simp only [ctlRead, ht, hq, hh, Bool.and_false, Bool.false_eq_true, if_false, noData]

/-- A read of a MaxFlash register leaves the mapper a write leaves, but makes calls only when the registers changed. -/
theorem exec_mapCtlRead_max {t : State} (hx : inCtlPage s.cfg.ctlPage x = true)
    (ht : s.mapper.type = .maxFlash1 ∨ s.mapper.type = .maxFlash8) (hq : maxMapOf s.cfg s.mapper.type = q)
    (ha : q.readsAct = true) (hh : maxHits q (ctlOffset x) = true) (hw : exec (.mapCtlWrite x v) s = .next t) :
    ∃ b, exec (.mapCtlRead x) s =
      .next { s with
        mapper := { s.mapper with
          regs := t.mapper.regs
          installed := if t.mapper.regs = s.mapper.regs then s.mapper.installed else some (t.mapper.layout s.cfg) }
        draws := s.draws + 1
        out := { result := .cpuByte b
                 calls := s.out.calls ++ (if t.mapper.regs = s.mapper.regs then []
                   else applyCalls s.mapper.installed (t.mapper.layout s.cfg)) } } := by
  rw [exec_mapCtlWrite hx, ctlWrite_max ht hq] at hw
  injection hw with hw
  subst hw
  refine ⟨Config.maxFlashReadByte s.draws x, ?_⟩
  rw [exec_mapCtlRead_of hx (ctlRead_max ht hq ha hh)]
  simp only [State.answer_mapper, State.applyLayout_layout, State.applyLayout_regs]

/-- A MaxFlash write, by where its offset lies. -/
theorem ctlWrite_max_regs (ht : s.mapper.type = .maxFlash1 ∨ s.mapper.type = .maxFlash8)
    (hq : maxMapOf s.cfg s.mapper.type = q) : (ctlWrite x v s).mapper.regs = (s.mapper.maxAccess q x).regs := by
  rw [ctlWrite_max ht hq]

/-- Settles O59: what `Apply` leaves, then one case per kind of register. -/
theorem otherCartControl : Obligations.OtherCartControl := by
  intro s x v hx g off reads selects
  have hread {b : Byte} (hb : theCartByte x s = b) (ht : s.mapper.type = .theCart) : reads b :=
    exec_mapCtlRead_of_same hx ((ctlRead_theCart ht).trans (by rw [hb]))
  have hwrite := exec_mapCtlWrite (v := v) hx
  refine ⟨_, hwrite, ?frame, ?installed, rfl, ?calls, fun ht => (ctlWrite_table_eeprom ht).1, fun h => ctlWrite_eeprom h,
    fun ht => ⟨fun sr hs => ?serial, fun rg hs hr => ?native, fun hs hr => ?legacy⟩, fun ht hmap => ?sic,
    fun ht hmap => ?max1, fun ht hmap => ?max8⟩
  case frame =>
    obtain ⟨regs, table, eeprom, h⟩ := ctlWrite_frame x v s
    rw [h]
    rfl
  case installed => simp
  case calls => simp
  case serial =>
    have hmapper := ctlWrite_serial_mapper (v := v) ht hs
    refine ⟨(congrArg Mapper.regs hmapper :), (congrArg Mapper.table hmapper :), fun ho => ?_, fun hk hl => ?_,
      theCartByte x s, hread rfl ht, fun i hi => getLsbD_theCartByte_serial hs hi⟩
    · rw [ctlWrite_serial_open ht hs (tcIgnores_of_open ho)]
      rfl
    · rw [ctlWrite_serial_locked ht hs (tcIgnores_of_locked hk hl)]
      rfl
  case native =>
    rw [ctlWrite_native ht hs hr]
    refine ⟨Mapper.nativeWrite_regs, fun hk hl => ?locked, fun ho hn => ?noMode, fun ho hm => ?mode,
      fun ho => ⟨fun before_ sl after i hsl hi hd => ?covered, fun f i hf => ?uncovered, fun hm => ?rebuilt⟩,
      tcRead g rg, hread (theCartByte_native hs hr) ht, fun before_ sl after i hsl hi hd => tcRead_covered hsl hi hd,
      fun i hi hu => tcRead_pad hi hu⟩
    case locked =>
      have hn := Mapper.nativeWrite_locked (p := s.cfg.theCart) (v := v) (tcIgnores_of_locked hk hl)
      exact ⟨(congrArg Mapper.regs hn :), (congrArg Mapper.table hn :)⟩
    all_goals
      simp only [State.answer_mapper, State.applyLayout_regs, State.applyLayout_table,
        Mapper.nativeWrite_open (tcIgnores_of_open ho)]
    case noMode => exact if_neg fun ⟨sl, hsl, hf⟩ => hn sl hsl hf
    case mode => exact ⟨tcWrite_mode hm, (if_pos (by simp [hm])).trans (by rw [tcWrite_mode hm])⟩
    case covered => exact tcWrite_covered hsl hi hd
    case uncovered => exact tcWrite_uncovered hf
    case rebuilt => exact if_pos hm
  case legacy =>
    rw [ctlWrite_legacy ht hs hr]
    refine ⟨Mapper.legacyWrite_table, hread (theCartByte_noRegister hs hr) ht, fun hu => ?unknown, fun sch hsch => ?known⟩
    case unknown => exact (congrArg Mapper.regs (Mapper.legacyWrite_unknown (x := x) (v := v) hu) :)
    case known =>
      intro entry
      have hregs : (s.mapper.legacyWrite s.cfg.theCart x v).regs = { s.mapper.regs with cart := tcApplyEntry g entry } :=
        congrArg Mapper.regs (Mapper.legacyWrite_known hsch)
      refine ⟨fun he => ?_, fun b0 e0 b1 e1 he => ?_, fun b0 e0 he => ?_, fun b1 e1 he => ?_, fun he => ?_⟩ <;>
        exact hregs.trans (by rw [he]; rfl)
  case sic =>
    have hrange : rangeHas s.cfg.sic.range (ctlOffset x) = decide (x.toNat % 256 < 0x20) := hmap ▸ rangeHas_sicDefault
    have hread := exec_mapCtlRead_of_same hx (ctlRead_sic ht)
    refine ⟨fun h => ?hit, fun h => ?miss⟩
    case hit =>
      rw [decide_eq_true h] at hrange
      rw [ctlWrite_sic ht hrange]
      exact ⟨rfl, hread.trans (by rw [hrange, hmap]; rfl)⟩
    case miss =>
      rw [decide_eq_false (Nat.not_lt.2 h)] at hrange
      rw [ctlWrite_sic_other ht hrange]
      exact ⟨rfl, hread.trans (by rw [hrange, hmap]; rfl)⟩
  case max1 =>
    have hq : maxMapOf s.cfg s.mapper.type = maxFlash1Default := by rw [ht]; exact hmap
    have hregs : (ctlWrite x v s).mapper.regs = _ := ctlWrite_max_regs (.inl ht) hq
    refine ⟨fun h => ?select, fun hl hu => ?disable, fun h => ?other, fun h => ?read⟩
    case select => exact hregs.trans (by rw [Mapper.maxAccess_maxFlash1_select h])
    case disable => exact hregs.trans (by rw [Mapper.maxAccess_maxFlash1_disable hl hu])
    case other =>
      have hmiss := maxHits_maxFlash1.trans (decide_eq_false (Nat.not_lt.2 h))
      exact ⟨hregs.trans (by rw [Mapper.maxAccess_other hmiss]),
        exec_mapCtlRead_of_same hx (ctlRead_max_other (.inl ht) hq hmiss)⟩
    case read => exact exec_mapCtlRead_max hx (.inl ht) hq rfl (maxHits_maxFlash1.trans (decide_eq_true h)) hwrite
  case max8 =>
    have hq : maxMapOf s.cfg s.mapper.type = maxFlash8Default := by rw [ht]; exact hmap
    have hregs : (ctlWrite x v s).mapper.regs = _ := ctlWrite_max_regs (.inr ht) hq
    refine ⟨fun h => ?select, fun h => ?disable, ?read⟩
    case select => exact hregs.trans (by rw [Mapper.maxAccess_maxFlash8_select h])
    case disable => exact hregs.trans (by rw [Mapper.maxAccess_maxFlash8_disable h])
    case read => exact exec_mapCtlRead_max hx (.inr ht) hq rfl maxHits_maxFlash8 hwrite

end Sys2Proof.Machine

/-! PROOFS. ColdReset and Init of the mapper (45_bank_mapper.md R338, R345): both put the power-on mapper in place, of the
mapper that is there or of the new one, and then install both its windows. -/

namespace Sys2Proof.Machine

variable {s : State} {m : Mapper} {c : Chip} {p : Params} {type : MapperType} {image : Buffer} {ok : Bool} {sizeKB : Nat}

/-! ### ColdReset -/

/-- With nothing installed `Apply` installs both windows (R338). -/
theorem applyCalls_none {l : Layout} :
    applyCalls none l = installCalls .w809f l.w809f ++ installCalls .wa0bf l.wa0bf := rfl

theorem mapperReset_eq :
    mapperReset s =
      let m := s.mapper.powerOn s.cfg
      { s with
        mapper := { m with installed := some (m.layout s.cfg) }
        out := { s.out with calls := s.out.calls ++ applyCalls none (m.layout s.cfg) } } := rfl

theorem exec_mapColdReset : exec .mapColdReset s = .next ((mapperReset s).answer .none) := by
  rw [exec, execMapColdReset]

/-- What is installed when the power goes on does not matter, nor does a power-on before. -/
theorem Mapper.powerOn_powerOn {l : Option Layout} : Mapper.powerOn { m.powerOn p with installed := l } p = m.powerOn p := by
  have hchips : (m.chips.map Chip.coldReset).map Chip.coldReset = m.chips.map Chip.coldReset := by
    rw [List.map_map]
    rfl
  by_cases ht : m.type = .theCart
  · simp only [powerOn, hchips, if_pos ht]
  · simp only [powerOn, hchips, if_neg ht]

/-- The calls of a reset, by the layout it installs. -/
theorem mapperReset_calls :
    ∃ l, (mapperReset s).mapper.installed = some l ∧
      (mapperReset s).out.calls = s.out.calls ++ installCalls .w809f l.w809f ++ installCalls .wa0bf l.wa0bf := by
  refine ⟨(s.mapper.powerOn s.cfg).layout s.cfg, rfl, ?_⟩
  rw [List.append_assoc, ← applyCalls_none, mapperReset_eq]

theorem mapperReset_installed : (mapperReset s).mapper.installed = some ((mapperReset s).mapper.layout s.cfg) :=
  congrArg some (Mapper.layout_installed _).symm

theorem mapperReset_mapperReset : (mapperReset ((mapperReset s).answer .none)).mapper = (mapperReset s).mapper := by
  simp only [mapperReset_eq, State.answer_mapper, State.answer_cfg, Mapper.powerOn_powerOn]

/-- Settles O56. -/
theorem mapperColdReset : Obligations.MapperColdReset := by
  intro s
  refine ⟨_, exec_mapColdReset, rfl, rfl, rfl, rfl, rfl, rfl, rfl, fun ht => ?mega512, fun ht => ?mega4M, fun _ => rfl,
    fun ht => ⟨?max, rfl⟩, fun ht => ?noTable, fun ht => ⟨rfl, ?table⟩, mapperReset_installed, mapperReset_calls, _,
    exec_mapColdReset, mapperReset_mapperReset⟩
  case mega512 => exact if_neg (by simp [ht])
  case mega4M => exact if_pos ht
  case max => exact if_neg (by rcases ht with ht | ht <;> simp [ht])
  case noTable => exact if_neg ht
  case table => exact if_pos ht

/-! ### Init -/

/-- The image has the size of the subtype and of its chip (R345). -/
def initFits (p : Params) (type : MapperType) (image : Buffer) (sizeKB : Nat) : Prop :=
  image.size = sizeKB * 1024 ∧ sizeKB = supportedKB p type ∧ image.size = (profileOf p (mapperChip p type)).cap

theorem initFits_iff :
    initFits p type image sizeKB ↔
      ¬ (image.size ≠ sizeKB * 1024 ∨ sizeKB ≠ supportedKB p type ∨
        image.size ≠ (profileOf p (mapperChip p type)).cap) := by
  simp only [initFits, not_or, not_not]

theorem exec_mapInit_next (hf : initFits s.cfg type image sizeKB) (hb : isBound s.chips image.id = false) :
    exec (.mapInit true type image sizeKB) s =
      .next ((mapperReset { s with mapper := mapperOf s.cfg type image sizeKB }).answer .none) := by
  rw [exec, execMapInit, if_neg (initFits_iff.1 hf), if_neg (by simp), if_neg (by simp [hb])]

theorem exec_mapInit_wrongSize (hf : ¬ initFits s.cfg type image sizeKB) :
    exec (.mapInit ok type image sizeKB) s = .fault .initSizeMismatch := by
  rw [exec, execMapInit, if_pos (not_not.1 (mt initFits_iff.2 hf))]

theorem exec_mapInit_noAlloc (hf : initFits s.cfg type image sizeKB) :
    exec (.mapInit false type image sizeKB) s = .fault .initAllocFailure := by
  rw [exec, execMapInit, if_neg (initFits_iff.1 hf), if_pos Bool.not_false]

theorem exec_mapInit_bound (hf : initFits s.cfg type image sizeKB) (hb : isBound s.chips image.id = true) :
    exec (.mapInit true type image sizeKB) s = .fault .sharedImage := by
  rw [exec, execMapInit, if_neg (initFits_iff.1 hf), if_neg (by simp), if_pos hb]

/-- The mapper `Init` makes, before its windows are installed. -/
def initMapper (p : Params) (type : MapperType) (image : Buffer) (sizeKB : Nat) : Mapper :=
  (mapperOf p type image sizeKB).powerOn p

theorem initMapper_chip :
    (initMapper p type image sizeKB).chips[0]? = some (chipOf p image (mapperChip p type)).coldReset := rfl

/-- The chip of a fitting image has the size of the subtype. -/
theorem initChip_cap (hf : initFits p type image sizeKB) :
    (chipOf p image (mapperChip p type)).coldReset.profile.cap = supportedKB p type * 1024 := by
  obtain ⟨hlength, rfl, hcap⟩ := hf
  exact hcap.symm.trans hlength

/-- A layout that shows one place of chip 0 at `$A000`. -/
def Layout.showing (dst : Source) (base : Nat) : Layout where
  w809f := Desc.disabled
  wa0bf := { readSrc := .flash 0, writeDst := dst, base := base, writeBase := base }

/-- Bank 0, of 32 (R340). -/
theorem initMapper_layout_megaCart512 (hf : initFits p .megaCart512 image sizeKB) :
    (initMapper p .megaCart512 image sizeKB).layout p = Layout.showing (.flash 0) 0 := by
  have hbank : (initMapper p .megaCart512 image sizeKB).regs.bank = 0#8 := rfl
  have hcap := initChip_cap hf
  rw [supportedKB] at hcap
  rw [Mapper.layout_mega (.inl rfl), Mapper.megaLayout_eq (k := 5) initMapper_chip hcap, hbank]
  rfl

/-- Bank 254, of 256 (R340). -/
theorem initMapper_layout_megaCart4M (hf : initFits p .megaCart4M image sizeKB) :
    (initMapper p .megaCart4M image sizeKB).layout p = Layout.showing (.flash 0) 0x3F8000 := by
  have hbank : (initMapper p .megaCart4M image sizeKB).regs.bank = 254#8 := rfl
  have hcap := initChip_cap hf
  rw [supportedKB] at hcap
  rw [Mapper.layout_mega (.inr rfl), Mapper.megaLayout_eq (k := 8) initMapper_chip hcap, hbank]
  rfl

/-- The upper half of bank 0, not writable (R360). -/
theorem initMapper_layout_sic (hf : initFits p .sic image sizeKB) (hmap : p.sic = sicDefault) :
    (initMapper p .sic image sizeKB).layout p = Layout.showing .none 0x2000 := by
  have hreg : (initMapper p .sic image sizeKB).regs.sic = 0#8 := rfl
  have hcap := initChip_cap hf
  rw [supportedKB] at hcap
  rw [Mapper.layout_sic rfl, hmap, Mapper.sicLayout_default initMapper_chip hcap, hreg]
  rfl

/-- Bank 0, of any number (R361). -/
theorem maxLayout_bank0 {k : Nat} (hc : m.chips[0]? = some c) (hcap : c.profile.cap = 2 ^ k * 0x2000)
    (hbank : m.regs.bank = 0#8) (hen : m.regs.enabled = true) : m.maxLayout = Layout.showing (.flash 0) 0 := by
  have hzero : (0#8).toNat % 2 ^ k * 0x2000 = 0 := by simp
  rw [Mapper.maxLayout_eq hc hcap, hbank, hen, if_pos rfl, hzero]
  rfl

theorem initMapper_layout_maxFlash (ht : type = .maxFlash1 ∨ type = .maxFlash8) (hf : initFits p type image sizeKB) :
    (initMapper p type image sizeKB).layout p = Layout.showing (.flash 0) 0 := by
  have hcap := initChip_cap hf
  rcases ht with rfl | rfl
  · rw [supportedKB] at hcap
    exact (Mapper.layout_max (.inl rfl)).trans (maxLayout_bank0 (k := 4) initMapper_chip hcap rfl rfl)
  · rw [supportedKB] at hcap
    exact (Mapper.layout_max (.inr rfl)).trans (maxLayout_bank0 (k := 7) initMapper_chip hcap rfl rfl)

/-- Settles O57: the state after `Init` is the reset of the mapper it makes, and each check is the one that fails. -/
theorem mapperInitRow : Obligations.MapperInitRow := by
  intro s allocOk type image sizeKB chipType profile supported fits fresh shows
  have hbound : isBound s.chips image.id = false ↔ fresh := isBound_eq_false_iff
  have hfits : fits ↔ initFits s.cfg type image sizeKB := by
    cases type <;> exact Iff.rfl
  rw [hfits]
  refine ⟨?next, fun hf _ _ => exec_mapInit_wrongSize hf, ?noAlloc, ?bound⟩
  case next =>
    rintro hf rfl hfresh
    refine ⟨_, (chipOf s.cfg image (mapperChip s.cfg type)).coldReset, exec_mapInit_next hf (hbound.2 hfresh),
      rfl, rfl, hf.1.symm, rfl, rfl, rfl, rfl, rfl, rfl, rfl, rfl, rfl,
      fun hd b hb hlt => Memory.read_ofCells_listed hd hb hlt, fun b hb => Memory.read_ofCells_unlisted hb, rfl, rfl,
      ?mega512, ?mega4M, ?cart, ?sicCart, fun ht => ⟨?maxBank, rfl, ?maxShows⟩, mapperReset_installed, rfl,
      mapperReset_calls⟩
    case mega512 => rintro rfl; exact ⟨rfl, congrArg some (initMapper_layout_megaCart512 hf)⟩
    case mega4M => rintro rfl; exact ⟨rfl, congrArg some (initMapper_layout_megaCart4M hf)⟩
    case cart => rintro rfl; exact ⟨rfl, rfl⟩
    case sicCart => rintro rfl; exact ⟨rfl, fun hmap => congrArg some (initMapper_layout_sic hf hmap)⟩
    case maxBank => rcases ht with rfl | rfl <;> rfl
    case maxShows => exact congrArg some (initMapper_layout_maxFlash ht hf)
  case noAlloc =>
    rintro hf rfl -
    exact exec_mapInit_noAlloc hf
  case bound =>
    rintro hf rfl hfresh
    exact exec_mapInit_bound hf (Bool.of_not_eq_false (mt hbound.1 hfresh))

end Sys2Proof.Machine

/-! PROOFS. The MegaCart scenario (45_bank_mapper.md R343): a step that is a CPU access through the window at `$A000` is one
access to the chip, and a step that is a control write moves the window. The eight steps are chained by what they keep. -/

namespace Sys2Proof.Machine

variable {s : State} {c c' : Chip} {p : Params} {q : Request} {rest : List Request} {base a draws : Nat} {x : CpuAddr}
  {v : Byte} {w : Option Byte} {now : Cycles} {clk : HostTime}

/-- The chip in another phase. -/
def Chip.withPhase (c : Chip) (ph : Phase) : Chip := { c with phase := ph }

/-! ### The erase command, from its third cycle on (R146, R150, R151, R155) -/

theorem Chip.write_unlock2_eraseSetup (hm : c.readMode = .normal) (hp : c.phase = .unlock2)
    (hu : c.u1 (a % c.profile.cap) = true) : (c.write a 0x80#8 now draws).chip = { c with phase := .eraseSetup } := by
  rw [write_chip_of_normal hm, dispatch, if_neg (by simp [hm]), hp]
  dsimp only
  rw [command, if_neg (by simp), if_neg (by simp), if_pos ⟨rfl, hu⟩]
  rfl

theorem Chip.write_eraseSetup_unlock (hm : c.readMode = .normal) (hp : c.phase = .eraseSetup)
    (hu : c.u1 (a % c.profile.cap) = true) : (c.write a 0xAA#8 now draws).chip = { c with phase := .eraseUnlock1 } := by
  rw [write_chip_of_normal hm, dispatch, if_neg (by simp [hm]), hp]
  dsimp only
  rw [if_pos ⟨rfl, hu⟩]
  rfl

theorem Chip.write_eraseUnlock1_unlock (hm : c.readMode = .normal) (hp : c.phase = .eraseUnlock1)
    (hu : c.u2 (a % c.profile.cap) = true) : (c.write a 0x55#8 now draws).chip = { c with phase := .eraseUnlock2 } := by
  rw [write_chip_of_normal hm, dispatch, if_neg (by simp [hm]), hp]
  dsimp only
  rw [if_pos ⟨rfl, hu⟩]
  rfl

/-- A chip whose sector at `a` was erased at `now`. -/
def Chip.sectorErased (c : Chip) (a : Nat) (now : Cycles) : Chip :=
  { c.eraseSectorOf a with
    readMode := .sectorEraseStatus, multiEraseOpen := true, eraseDeadline := c.newDeadline now, phase := .idle }

theorem Chip.write_eraseUnlock2_sector (hm : c.readMode = .normal) (hp : c.phase = .eraseUnlock2)
    (he : c.profile.sectorErase = true) :
    (c.write a 0x30#8 now draws).chip = c.sectorErased (a % c.profile.cap) now := by
  rw [write_chip_of_normal hm, dispatch, if_neg (by simp [hm]), hp]
  dsimp only
  rw [if_neg (by simp), if_pos ⟨rfl, he⟩]
  rfl

/-- In the erase status a read gives a status byte, and from the deadline on the byte of the image (R134, R137, R131). -/
theorem Chip.read_value_eraseStatus (hm : c.readMode = .sectorEraseStatus) (hp : c.phase ≠ .atmelPageLoad) :
    (c.read p a now draws).value =
      if reached now c.eraseDeadline then Memory.read 0xFF#8 c.img (a % c.profile.cap)
      else c.toggleBits ||| p.eraseStatusBase := by
  have hbefore : c.beforeRead now draws = (c.expire now, false, draws) := by simp only [beforeRead, if_neg hp]
  simp only [read, hbefore, ReadFx.finish]
  cases hr : reached now c.eraseDeadline with
  | true =>
    rw [expire_of hm hr, readByMode_normal rfl, ← byteAt_mod]
    rfl
  | false =>
    rw [expire_of_not (.inr hr), readByMode_eraseStatus hm]
    rfl

/-! ### CPU accesses as steps -/

/-- A CPU access at `now`, with nothing for the owner to clear. -/
def cpuRequest (now : Cycles) (clk : HostTime) (x : CpuAddr) (w : Option Byte) : Request where
  now := now
  clock := clk
  ownerClears := []
  call := .cpu x w
  handlerCalls := []

theorem step_cpuRequest (hs : s.input = cpuRequest now clk x w :: rest) :
    step s = runCpu x w (s.takeInputs (cpuRequest now clk x w) rest) := by
  rw [stepIsTheHostCall s _ _ hs, State.accept_of_noClears rfl]
  rfl

/-- A 512K MegaCart under the default map with chip `c`, which shows at `$A000` the place `base` of the chip. -/
structure MegaShows (p : Params) (s : State) (c : Chip) (base : Nat) (input : List Request) : Prop where
  cfg : s.cfg = p
  type : s.mapper.type = .megaCart512
  chip : s.mapper.chips[0]? = some c
  installed : s.mapper.installed = some (Layout.showing (.flash 0) base)
  input : s.input = input

theorem runCpu_write {l : Layout} {win : Win} (hl : s.mapper.installed = some l) (hx : windowOf x = some win) :
    runCpu x (some v) s = .next (windowWrite (l.desc win) win x v s) := by
  rw [runCpu, if_pos (by rw [hx]; rfl)]
  exact exec_mapWinWrite hl hx

theorem runCpu_read {l : Layout} {win : Win} (hl : s.mapper.installed = some l) (hx : windowOf x = some win) :
    runCpu x none s = .next (windowRead (l.desc win) win x s) := by
  rw [runCpu, if_pos (by rw [hx]; rfl)]
  exact exec_mapWinRead hl hx

theorem runCpu_ctlWrite (hw : windowOf x = none) (hx : inCtlPage s.cfg.ctlPage x = true) :
    runCpu x (some v) s = exec (.mapCtlWrite x v) s := by
  rw [runCpu, if_neg (by rw [hw]; nofun), if_pos hx]
  rfl

theorem MegaShows.takeInputs {input : List Request} (h : MegaShows p s c base input) :
    MegaShows p (s.takeInputs q rest) c base rest := ⟨h.cfg, h.type, h.chip, h.installed, rfl⟩

/-- A write through the window is a write cycle of the chip. -/
theorem MegaShows.write (h : MegaShows p s c base (cpuRequest now clk x (some v) :: rest)) (hx : windowOf x = some .wa0bf)
    (hw : ∀ draws, (c.write (linear base .wa0bf x) v now draws).chip = c') :
    ∃ t, step s = .next t ∧ MegaShows p t c' base rest := by
  have hu := h.takeInputs (q := cpuRequest now clk x (some v)) (rest := rest)
  have hstep := (step_cpuRequest h.input).trans (runCpu_write hu.installed hx)
  have hr : ((Layout.showing (.flash 0) base).desc .wa0bf).readSrc ≠ .none := Source.noConfusion
  rw [windowWrite_flash (k := 0) hr rfl hu.chip] at hstep
  exact ⟨_, hstep, hu.cfg, hu.type,
    (State.chipDone_chipAt (r := .mapper 0) hu.chip).trans (congrArg some (hw s.draws)), hu.installed, rfl⟩

/-- A read through the window is a read cycle of the chip. -/
theorem MegaShows.read (h : MegaShows p s c base (cpuRequest now clk x none :: rest)) (hx : windowOf x = some .wa0bf)
    (hv : ∀ draws, (c.read p (linear base .wa0bf x) now draws).value = v) :
    ∃ t, step s = .next t ∧ t.out.result = .cpuByte v := by
  have hu := h.takeInputs (q := cpuRequest now clk x none) (rest := rest)
  have hstep := (step_cpuRequest h.input).trans (runCpu_read hu.installed hx)
  rw [windowRead_flash (k := 0) rfl hu.chip] at hstep
  refine ⟨_, hstep, ?_⟩
  rw [← hv s.draws, ← h.cfg]
  rfl

/-- A control write moves the window to its bank and does not reach the chip. -/
theorem MegaShows.ctlWrite (h : MegaShows p s c base (cpuRequest now clk x (some v) :: rest)) (hw : windowOf x = none)
    (hx : inCtlPage p.ctlPage x = true) (hmap : p.megaCart = megaCartDefault) (hcap : c.profile.cap = 2 ^ 5 * 0x4000) :
    ∃ t, step s = .next t ∧ MegaShows p t c (v.toNat % 2 ^ 5 * 0x4000) rest ∧ t.mapper.regs.bank = v := by
  have hu := h.takeInputs (q := cpuRequest now clk x (some v)) (rest := rest)
  rw [← hu.cfg] at hx hmap
  have hstep := (step_cpuRequest h.input).trans (runCpu_ctlWrite hw hx)
  rw [exec_mapCtlWrite_mega (.inl hu.type) hu.chip hcap hx hmap hu.installed] at hstep
  exact ⟨_, hstep, ⟨hu.cfg, hu.type, hu.chip, rfl, rfl⟩, rfl⟩

/-! ### The scenario -/

/-- The sector the six cycles erase: the first 64 KB. -/
theorem Chip.read_sectorErased_zero {b : Nat} (hs : c.profile.sectors = .uniform 16) (hcap : c.profile.cap = 0x80000) :
    Memory.read 0xFF#8 ((c.withPhase .eraseUnlock2).sectorErased 0 now).img b =
      if b < 0x10000 then 0xFF#8 else Memory.read 0xFF#8 c.img b := by
  have hbits : c.profile.capBits = 19 := Nat.pow_right_injective (Nat.le_refl 2) hcap
  refine (read_eraseSectorOf (c := c.withPhase .eraseUnlock2)).trans ?_
  rw [withPhase, sectorOf_uniform hs (by omega)]
  simp

/-- The first byte of bank 3, read after the erase. -/
theorem Chip.read_value_sectorErased_zero {t : Cycles} (hs : c.profile.sectors = .uniform 16)
    (hcap : c.profile.cap = 0x80000) :
    (((c.withPhase .eraseUnlock2).sectorErased 0 now).read p (linear 0xC000 .wa0bf 0xA000#16) t draws).value =
      if reached t (c.newDeadline now) then 0xFF#8 else c.toggleBits ||| p.eraseStatusBase := by
  have ha : linear 0xC000 .wa0bf 0xA000#16 % c.profile.cap = 0xC000 := by rw [hcap]; decide
  have hbyte := (read_sectorErased_zero (now := now) (b := 0xC000) hs hcap).trans (if_pos (by decide))
  exact (read_value_eraseStatus rfl Phase.noConfusion).trans
    (congrArg (fun b => if reached t (c.newDeadline now) then b else _) ((congrArg (Memory.read _ _) ha).trans hbyte))

/-- Settles O58: the six cycles walk the command machine to the erase, which the deadline ends. -/
theorem megaCartScenario : Obligations.MegaCartScenario := by
  intro s c t1 t2 t3 t4 t5 t6 t7 t8 clk q htype hc hcap hwin hsect herase hm hp hinst hbank hpage hmap deadline hinput
  have h0 : MegaShows s.cfg s c 0 s.input := by
    refine ⟨rfl, htype, hc, hinst.trans (congrArg some ?_), rfl⟩
    rw [Mapper.layout_mega (.inl htype), Mapper.megaLayout_eq (k := 5) hc hcap, hbank]
    rfl
  rw [hinput] at h0
  have u1 : isU1 c.profile.unlockWindow (linear 0 .wa0bf 0xA555#16 % c.profile.cap) = true := by
    rw [hwin, hcap]; decide
  have u2 : isU2 c.profile.unlockWindow (linear 0 .wa0bf 0xA2AA#16 % c.profile.cap) = true := by
    rw [hwin, hcap]; decide
  obtain ⟨s1, hs1, h1⟩ := h0.write (c' := c.withPhase .unlock1) rfl fun _ => Chip.write_idle_unlock hm hp ⟨rfl, u1⟩
  obtain ⟨s2, hs2, h2⟩ := h1.write (c' := c.withPhase .unlock2) rfl fun _ => Chip.write_unlock1_unlock hm rfl ⟨rfl, u2⟩
  obtain ⟨s3, hs3, h3⟩ := h2.write (c' := c.withPhase .eraseSetup) rfl fun _ => Chip.write_unlock2_eraseSetup hm rfl u1
  obtain ⟨s4, hs4, h4⟩ := h3.write (c' := c.withPhase .eraseUnlock1) rfl fun _ => Chip.write_eraseSetup_unlock hm rfl u1
  obtain ⟨s5, hs5, h5⟩ := h4.write (c' := c.withPhase .eraseUnlock2) rfl fun _ => Chip.write_eraseUnlock1_unlock hm rfl u2
  have ha : linear 0 .wa0bf 0xA000#16 % c.profile.cap = 0 := Nat.zero_mod _
  obtain ⟨s6, hs6, h6⟩ := h5.write (c' := (c.withPhase .eraseUnlock2).sectorErased 0 t6) rfl fun _ =>
    (Chip.write_eraseUnlock2_sector (c := c.withPhase .eraseUnlock2) hm rfl herase).trans
      (congrArg (Chip.sectorErased _ · t6) ha)
  obtain ⟨s7, hs7, h7, hbank7⟩ := h6.ctlWrite rfl (by rw [hpage]; decide) hmap hcap
  obtain ⟨s8, hs8, hvalue⟩ := h7.read rfl fun _ => Chip.read_value_sectorErased_zero hsect hcap
  refine ⟨s1, s2, s3, s4, s5, s6, s7, s8, _, hs1, hs2, hs3, hs4, hs5, hs6, hs7, hs8, h6.chip,
    fun b => Chip.read_sectorErased_zero hsect hcap, hbank7, h7.installed, fun hr => ?erased, fun hr => ?status⟩
  case erased => exact hvalue.trans (congrArg _ (if_pos hr))
  case status => exact hvalue.trans (congrArg _ (if_neg (Bool.eq_false_iff.1 hr)))

end Sys2Proof.Machine

/-! PROOFS. No bus cycle stops the machine (R371, R374): a direct cycle faults only where its chip was not initialised, a
CPU access and a WriteState call never do, and a request's clears initialise or drop no chip. -/

namespace Sys2Proof.Machine

variable {s : State} {q : Request} {rest : List Request} {r : ChipRef} {x : CpuAddr}

/-! ### Which chips there are -/

theorem State.ownerClear_chipAt_isSome {f : FlagClear} : ((s.ownerClear f).chipAt r).isSome = (s.chipAt r).isSome := by
  cases hc : s.chipAt f.chip with
  | none => rw [ownerClear_of_noChip hc]
  | some c => rw [ownerClear_of_chip hc, setChip_chipAt_isSome]

theorem State.foldl_ownerClear_chipAt_isSome {fs : List FlagClear} :
    ((fs.foldl State.ownerClear s).chipAt r).isSome = (s.chipAt r).isSome := by
  induction fs generalizing s with
  | nil => rfl
  | cons f fs ih => exact ih.trans ownerClear_chipAt_isSome

theorem State.accept_chipAt_isSome : ((s.accept q rest).chipAt r).isSome = (s.chipAt r).isSome := by
  rw [accept_eq_foldl, foldl_ownerClear_chipAt_isSome, takeInputs_chipAt]

/-! ### Each kind of bus cycle -/

/-- The one fault of a direct access is `noSuchChip` (assumption 16). -/
theorem exists_next_onChip {access : Chip → ChipAccess} {result : ChipAccess → Result}
    (h : (s.chipAt r).isSome = true) : ∃ t, onChip s r access result = .next t := by
  obtain ⟨c, hc⟩ := Option.isSome_iff_exists.1 h
  exact ⟨_, onChip_of hc⟩

theorem exists_next_chipRead {a : Nat} (h : (s.chipAt r).isSome = true) : ∃ t, chipRead r a s = .next t :=
  exists_next_onChip h

theorem exists_next_chipWrite {a : Nat} {v : Byte} (h : (s.chipAt r).isSome = true) : ∃ t, chipWrite r a v s = .next t :=
  exists_next_onChip h

theorem exists_next_mapWinRead : ∃ t, execMapWinRead x s = .next t := by
  cases hw : windowOf x with
  | none => exact ⟨s.answer .notServed, by rw [execMapWinRead, hw]⟩
  | some w => exact ⟨windowRead (s.mapper.descOf w) w x s, by rw [execMapWinRead, hw]⟩

theorem exists_next_mapWinWrite {v : Byte} : ∃ t, execMapWinWrite x v s = .next t := by
  cases hw : windowOf x with
  | none => exact ⟨s.answer .notServed, by rw [execMapWinWrite, hw]⟩
  | some w => exact ⟨windowWrite (s.mapper.descOf w) w x v s, by rw [execMapWinWrite, hw]⟩

theorem exists_next_mapCtlRead : ∃ t, execMapCtlRead x s = .next t := by
  simp only [execMapCtlRead]
  split_ifs <;> exact ⟨_, rfl⟩

theorem exists_next_mapCtlWrite {v : Byte} : ∃ t, execMapCtlWrite x v s = .next t := by
  unfold execMapCtlWrite
  split_ifs <;> exact ⟨_, rfl⟩

/-- A CPU access reaches a window, the control page, or the memory layer (R72). -/
theorem exists_next_runCpu {w : Option Byte} : ∃ t, runCpu x w s = .next t := by
  unfold runCpu
  split_ifs with hwin hpage
  · cases w with
    | none => exact exists_next_mapWinRead
    | some v => exact exists_next_mapWinWrite
  · cases w with
    | none => exact exists_next_mapCtlRead
    | some v => exact exists_next_mapCtlWrite
  · exact ⟨s.answer .notServed, rfl⟩

/-! ### The step -/

theorem exists_next_runCall {hc : List HandlerCall} {c : Call} (hbus : Call.isBusCycle c = true)
    (hchip : ∀ r a w, c = .chip r a w → (s.chipAt r).isSome = true) : ∃ t, runCall hc c s = .next t := by
  cases c with
  | chip r a w =>
    have hr := hchip r a w rfl
    cases w with
    | none => exact exists_next_chipRead hr
    | some v => exact exists_next_chipWrite hr
  | cpu x w => exact exists_next_runCpu
  | wire dev ce clk data => exact ⟨_, rfl⟩
  | host h => nomatch hbus

/-- Settles O8: the step is the host call it fetched, on the chips the machine already had. -/
theorem busCyclesNeverStop : Obligations.BusCyclesNeverStop := by
  intro s q rest hs hbus hchip
  rw [stepIsTheHostCall s q rest hs]
  exact exists_next_runCall hbus fun r a w hq => State.accept_chipAt_isSome.trans (hchip r a w hq)

end Sys2Proof.Machine
